-- ==== Sys2Proof/Word.lean ====
section
/-! DEFINITION. The byte and the pixel: the only word types that every layer of the model shares. -/

namespace Sys2Proof

/-- One byte of an address space (20_memory.md R50): the smallest unit every engine addresses. -/
abbrev Byte := BitVec 8

/-- A pixel, a 4-tuple of bytes written to memory in the order R, G, B, A (00_scope.md R12). -/
structure Pixel where
  r : Byte
  g : Byte
  b : Byte
  a : Byte
deriving DecidableEq, Repr

end Sys2Proof
end

