-- ==== Sys2Proof/Config.lean ====
section
/-! DEFINITION. What an implementation fixes: the build-time parameters of 00_scope.md R9 that have
alternatives, the shape of the constant memory ROM, the kinds of error record and output value, and the
FREE VALUES, opaque constants that nothing can evaluate. The parameters' and tables' standard VALUES stand in
Machine/Tables.lean. -/

namespace Sys2Proof

/-- The two values of parameter EXPAND565 (40_primitives.md R113, 93 U12). -/
inductive Expand565 where
  | replicate
  | scale
deriving DecidableEq, Repr

/-- The two values of COLOR_ROUND and of ALPHA_ROUND (40_primitives.md R114–R117, 93 U13, U14). -/
inductive Rounding where
  | trunc
  | round
deriving DecidableEq, Repr

/-- The build-time parameters of 00_scope.md R9 whose value an implementation may choose. `maxOutput` is the OPEN
parameter MAX_OUTPUT, `none` when unbounded (60_exceptions.md R320). No command reads or changes them as a register
(10_state.md R26); they are carried in State so that every statement ranges over all of them
(assumption log 2). -/
structure Params where
  expand565          : Expand565
  colorRound         : Rounding
  alphaRound         : Rounding
  maxOutput          : Option Nat
  lzoRequireAllInput : Bool
  lz4EmptyChunkOk    : Bool
deriving DecidableEq, Repr

/-- One row of the BC7 per-mode table (30_encoding.md R78): subsets NS, partition bits PB, rotation bits RB,
index-selection bits ISB, colour bits CB, alpha bits AB, p-bits per endpoint EPB, shared p-bits per subset SPB,
index bits IB and second index bits IB2. -/
structure Bc7Mode where
  ns  : Nat
  pb  : Nat
  rb  : Nat
  isb : Nat
  cb  : Nat
  ab  : Nat
  epb : Nat
  spb : Nat
  ib  : Nat
  ib2 : Nat
deriving DecidableEq, Repr

/-- The read-only constant memory ROM (10_state.md R27, 70 R340; parameter BC7_TABLES, 93 U17). A row of `partition3`
is the 16-digit string of 46_bc7_tables.md R202 read as a decimal number, texel 0 its first digit. -/
structure Rom where
  modes      : List Bc7Mode
  partition2 : List (BitVec 16)
  partition3 : List Nat
  anchor2    : List Nat
  anchor3s1  : List Nat
  anchor3s2  : List Nat
  weights2   : List Nat
  weights3   : List Nat
  weights4   : List Nat
deriving DecidableEq, Repr

/-- The error kinds (60_exceptions.md R310). -/
inductive ErrKind where
  | checksumMismatch
  | overflow
  | sizeMismatch
  | invalidOffset
  | unknownFlags
  | blockLengthMismatch
  | inputTruncated
  | unimplemented
  | badParameter
  | malformedChunk
  | outputOverrun
  | badCommand
deriving DecidableEq, Repr

/-- The output value of a command (10_state.md R24). -/
inductive OutputValue where
  /-- The DecodedPixelBuffer of a BCn command, width*height*4 bytes. -/
  | pixelBuffer (bytes : List Byte)
  /-- `{data, bytesConsumed}` of lzssDecompress. -/
  | lzssData (data : List Byte) (bytesConsumed : Nat)
  /-- The decoded bytes of lzoDecompress and decompressLz4Chain. -/
  | decodedBytes (bytes : List Byte)
deriving DecidableEq, Repr, Inhabited

/-- The content of RESULT (10_state.md R23): an output value, or the error record `(kind, offset)`, the kind as its code
(60_exceptions.md R310, `errCode` of Machine/Ops.lean) and the offset a 32-bit value (R311). -/
inductive Result where
  | ok (value : OutputValue)
  | fail (code : Nat) (offset : BitVec 32)
deriving DecidableEq, Repr, Inhabited

/-- FREE VALUE (assumption log 5): what RESULT holds while the n-th issued command is Busy. 10_state.md R23: "its
content is not defined". Nothing constrains it. -/
opaque Config.freeResult : Nat → Result

/-- FREE VALUE (assumption log 6): what the byte at an address of the BCn output buffer holds before the command writes
it. 10_state.md R28: "contents not defined". Nothing constrains it. -/
opaque Config.freeOutByte : Nat → Byte

end Sys2Proof
end

