-- ==== Sys2Proof/Syntax.lean ====
section
/-! DEFINITION. Instr: one constructor per row of spec/opcode_table.json, in the table's order. -/

namespace Sys2Proof

/-- The states of the LZO1X token machine (10_state.md R34, 48_lzo1x.md R240). They stand here because they select how
a control byte below 16 is read (30_encoding.md R93). -/
inductive LzoSt where
  | start
  | outer
  | afterRun
  | afterShort
  | eof
deriving DecidableEq, Repr

/-- The commands (30_encoding.md R70) and the in-stream encodings (R72–R99). A command's operands are those of the
command record (10_state.md R21), so a command has none here. -/
inductive Instr where
  | decodeBC1
  | decodeBC2
  | decodeBC3
  | decodeBC4
  | decodeBC5
  | decodeBC6
  | decodeBC7
  | lzssDecompress
  | lzoDecompress
  | decompressLz4Chain
  /-- BC1.block4: a BC1 block with `c0 > c1` (R72, R132). -/
  | bc1Block4 (blk : BitVec 64)
  /-- BC1.block3: a BC1 block with `c0 <= c1` (R72, R132). -/
  | bc1Block3 (blk : BitVec 64)
  /-- BC2.block (R73). -/
  | bc2Block (blk : BitVec 128)
  /-- ALPHA.interp8: an alpha block with `a0 > a1` (R74, R152). -/
  | alphaInterp8 (blk : BitVec 64)
  /-- ALPHA.interp6: an alpha block with `a0 <= a1` (R74, R152). -/
  | alphaInterp6 (blk : BitVec 64)
  /-- BC3.block (R75). -/
  | bc3Block (blk : BitVec 128)
  /-- BC4.block (R76). -/
  | bc4Block (blk : BitVec 64)
  /-- BC7.mode0 (R77, R80). -/
  | bc7Mode0 (blk : BitVec 128)
  /-- BC7.mode1 (R77, R81). -/
  | bc7Mode1 (blk : BitVec 128)
  /-- BC7.mode2 (R77, R82). -/
  | bc7Mode2 (blk : BitVec 128)
  /-- BC7.mode3 (R77, R83). -/
  | bc7Mode3 (blk : BitVec 128)
  /-- BC7.mode4 (R77, R84). -/
  | bc7Mode4 (blk : BitVec 128)
  /-- BC7.mode5 (R77, R85). -/
  | bc7Mode5 (blk : BitVec 128)
  /-- BC7.mode6 (R77, R86). -/
  | bc7Mode6 (blk : BitVec 128)
  /-- BC7.mode7 (R77, R87). -/
  | bc7Mode7 (blk : BitVec 128)
  /-- BC7.reserved: byte 0 is 0x00 (R77, R180). -/
  | bc7Reserved (blk : BitVec 128)
  /-- LZSS.FLAGS: the flag byte of a group (R89). -/
  | lzssFlags (kinds : BitVec 8)
  /-- LZSS.LIT (R90). -/
  | lzssLit (v : BitVec 8)
  /-- LZSS.REF: ring offset and length field (R90). -/
  | lzssRef (off : BitVec 12) (l : BitVec 4)
  /-- LZSS.CSUM: the trailer (R90). -/
  | lzssCsum (stored : BitVec 32)
  /-- LZO.FIRSTLIT: the first byte, above 17 (R92). -/
  | lzoFirstLit (b : BitVec 8)
  /-- LZO.LIT_EXT: control byte 0x00 in state Outer (R93). -/
  | lzoLitExt
  /-- LZO.LIT: control byte 0x01–0x0F in state Outer (R93). -/
  | lzoLit (l : BitVec 4)
  /-- LZO.M1_FAR: control byte 0000DDSS in state AfterRun, then H (R93). -/
  | lzoM1Far (d : BitVec 2) (s : BitVec 2) (h : BitVec 8)
  /-- LZO.M1_NEAR: control byte 0000DDSS in state AfterShort, then H (R93). -/
  | lzoM1Near (d : BitVec 2) (s : BitVec 2) (h : BitVec 8)
  /-- LZO.M4: control byte 0001HLLL, then W = D0 | D1 << 8, raw distance not 0 (R93). -/
  | lzoM4 (h : BitVec 1) (l : BitVec 3) (w : BitVec 16)
  /-- LZO.EOF: control byte 00010LLL, then W with W >> 2 = 0; `s` is `D0 & 3` (R96). -/
  | lzoEof (l : BitVec 3) (s : BitVec 2)
  /-- LZO.M3: control byte 001LLLLL, then W (R93). -/
  | lzoM3 (l : BitVec 5) (w : BitVec 16)
  /-- LZO.M2: control byte LLLDDDSS with LLL at least 2, then H (R93). -/
  | lzoM2 (l : BitVec 3) (d : BitVec 3) (s : BitVec 2) (h : BitVec 8)
  /-- LZO.EXT: `zeros` bytes 0x00, then the byte `v`, which is not 0 (R94). -/
  | lzoExt (zeros : Nat) (v : BitVec 8)
  /-- LZ4.TARGET: the block header (R97). -/
  | lz4Target (target : BitVec 32)
  /-- LZ4.CHUNK: a chunk header whose flag bits 6:0 are 0 (R98). -/
  | lz4Chunk (size : BitVec 24) (last : BitVec 1)
  /-- LZ4.SEQ: the token byte of a sequence, `ll = T[7:4]`, `ml = T[3:0]` (R99). -/
  | lz4Seq (ll : BitVec 4) (ml : BitVec 4)
  /-- LZ4.EXT: `ffs` bytes 0xFF, then the byte `v`, which is not 0xFF (R99). -/
  | lz4Ext (ffs : Nat) (v : BitVec 8)
deriving DecidableEq, Repr

end Sys2Proof
end

