-- ==== Sys2Proof/WellFormed.lean ====
section
/-! DEFINITION. Which terms of Instr an encoding stands for: the conditions by which a row of
spec/opcode_table.json selects its words ("select", "match", "mask"). -/

namespace Sys2Proof

/-- The condition under which the fields of an instruction are those of a word of its row: the comparison of a BC1
block's colours (R72) and of an alpha block's endpoints (R74), the mode pattern of BC7 byte 0 (R77), the value ranges
of the LZO1X control bytes (R92, R93, R96) and the last byte of a length extension (R94, R99). -/
def Instr.wf : Instr → Bool
  | .decodeBC1 | .decodeBC2 | .decodeBC3 | .decodeBC4 | .decodeBC5 | .decodeBC6 | .decodeBC7 => true
  | .lzssDecompress | .lzoDecompress | .decompressLz4Chain => true
  | .bc1Block4 blk => decide (blk.extractLsb' 16 16 < blk.extractLsb' 0 16)
  | .bc1Block3 blk => decide (blk.extractLsb' 0 16 ≤ blk.extractLsb' 16 16)
  | .bc2Block _ => true
  | .alphaInterp8 blk => decide (blk.extractLsb' 8 8 < blk.extractLsb' 0 8)
  | .alphaInterp6 blk => decide (blk.extractLsb' 0 8 ≤ blk.extractLsb' 8 8)
  | .bc3Block _ => true
  | .bc4Block _ => true
  | .bc7Mode0 blk => decide (blk.extractLsb' 0 1 = 0x1#1)
  | .bc7Mode1 blk => decide (blk.extractLsb' 0 2 = 0x2#2)
  | .bc7Mode2 blk => decide (blk.extractLsb' 0 3 = 0x4#3)
  | .bc7Mode3 blk => decide (blk.extractLsb' 0 4 = 0x8#4)
  | .bc7Mode4 blk => decide (blk.extractLsb' 0 5 = 0x10#5)
  | .bc7Mode5 blk => decide (blk.extractLsb' 0 6 = 0x20#6)
  | .bc7Mode6 blk => decide (blk.extractLsb' 0 7 = 0x40#7)
  | .bc7Mode7 blk => decide (blk.extractLsb' 0 8 = 0x80#8)
  | .bc7Reserved blk => decide (blk.extractLsb' 0 8 = 0x0#8)
  | .lzssFlags _ => true
  | .lzssLit _ => true
  | .lzssRef _ _ => true
  | .lzssCsum _ => true
  | .lzoFirstLit b => decide (17 < b.toNat)
  | .lzoLitExt => true
  | .lzoLit l => decide (l ≠ 0)
  | .lzoM1Far _ _ _ => true
  | .lzoM1Near _ _ _ => true
  | .lzoM4 h _ w => decide (h ≠ 0 ∨ 4 ≤ w.toNat)
  | .lzoEof _ _ => true
  | .lzoM3 _ _ => true
  | .lzoM2 l _ _ _ => decide (2 ≤ l.toNat)
  | .lzoExt _ v => decide (v ≠ 0)
  | .lz4Target _ => true
  | .lz4Chunk _ _ => true
  | .lz4Seq _ _ => true
  | .lz4Ext _ v => decide (v ≠ 0xFF)

end Sys2Proof
end

