-- ==== Sys2Proof/Decode.lean ====
section
/-! DEFINITION. Decode: from bytes to an instruction or a rejection by name, and the encoder beside it. The same bytes
mean different things in different places of a stream (R100), so the decoder takes the place, a DecodeCtx. -/

namespace Sys2Proof

/-! ### Little-endian values (40_primitives.md R110, 20_memory.md R54) -/

/-- `LE(buf, 0, len(buf))` of R110. -/
def leNat : List Byte → Nat
  | [] => 0
  | b :: bs => b.toNat + 256 * leNat bs

/-- The `n` low bytes of `v`, the least significant first (R54). -/
def leBytes : Nat → Nat → List Byte
  | 0, _ => []
  | n + 1, v => BitVec.ofNat 8 v :: leBytes n (v / 256)

/-- How many bytes equal to `x` the sequence begins with, and what follows them. -/
def countRun (x : Byte) : List Byte → Nat × List Byte
  | [] => (0, [])
  | b :: bs => if b = x then ((countRun x bs).1 + 1, (countRun x bs).2) else (0, b :: bs)

/-! ### The decoder -/

/-- The place in a command at which bytes are decoded. -/
inductive DecodeCtx where
  /-- the field `op` of the command record (R70) -/
  | command
  /-- a BC1 block (R72) -/
  | bc1
  /-- a BC2 block (R73) -/
  | bc2
  /-- the alpha block of a BC3 or BC4 block (R74) -/
  | alpha
  /-- a BC3 block (R75) -/
  | bc3
  /-- a BC4 block (R76) -/
  | bc4
  /-- a BC7 block (R77) -/
  | bc7
  /-- an LZSS flag byte (R89) -/
  | lzssFlags
  /-- an LZSS token whose flag bit is 1 (R89) -/
  | lzssLit
  /-- an LZSS token whose flag bit is 0 (R89) -/
  | lzssRef
  /-- the LZSS trailer (R90) -/
  | lzssCsum
  /-- the first byte of an LZO1X stream (R92) -/
  | lzoFirst
  /-- an LZO1X token whose length field, if it has one, is not 0 (R93) -/
  | lzoToken (st : LzoSt)
  /-- an LZO1X token whose length field is 0: its control byte, then what follows its length extension (R93) -/
  | lzoBody
  /-- an LZO1X length extension (R94) -/
  | lzoExt
  /-- the LZ4 block header (R97) -/
  | lz4Target
  /-- an LZ4 chunk header (R98) -/
  | lz4Chunk
  /-- an LZ4 token byte (R99) -/
  | lz4Seq
  /-- an LZ4 length extension (R99) -/
  | lz4Ext
deriving DecidableEq, Repr

/-- Why bytes are no instruction in their place. -/
inductive Reject where
  /-- the command code selects no command (R71) -/
  | noCommand
  /-- the bytes end before the encoding does (R13, R287) -/
  | truncated
  /-- a chunk flag byte has a bit of 6:0 set (R98) -/
  | unknownFlags
  /-- a first byte of 17 or less is no first literal run (R92) -/
  | notFirstRun
  /-- the control byte's length field is 0, so a length extension must be read first (R93) -/
  | lengthFieldZero
  /-- the control byte's length field is not 0, so no length extension belongs to it (R93) -/
  | lengthFieldSet
deriving DecidableEq, Repr

/-- The command a command code selects (R70, R71). -/
def commandOf (op : Byte) : Option Instr :=
  match op.toNat with
  | 0x01 => some .decodeBC1
  | 0x02 => some .decodeBC2
  | 0x03 => some .decodeBC3
  | 0x04 => some .decodeBC4
  | 0x05 => some .decodeBC5
  | 0x06 => some .decodeBC6
  | 0x07 => some .decodeBC7
  | 0x10 => some .lzssDecompress
  | 0x11 => some .lzoDecompress
  | 0x12 => some .decompressLz4Chain
  | _ => none

/-- The value of the first `n` bytes, if there are so many (R13 MemRead). -/
def takeLe (n : Nat) (bs : List Byte) : Except Reject Nat :=
  if bs.length < n then .error .truncated else .ok (leNat (bs.take n))

/-- `Bc7Mode(b0)` of 45_bc7.md R172: the index of the lowest set bit, or 8. -/
def bc7ModeOf (b0 : Byte) : Nat :=
  if b0.getLsbD 0 then 0
  else if b0.getLsbD 1 then 1
  else if b0.getLsbD 2 then 2
  else if b0.getLsbD 3 then 3
  else if b0.getLsbD 4 then 4
  else if b0.getLsbD 5 then 5
  else if b0.getLsbD 6 then 6
  else if b0.getLsbD 7 then 7
  else 8

/-- The row of a BC1 block: four-colour when `c0_raw > c1_raw` (R72). -/
def bc1Row (blk : BitVec 64) : Instr :=
  if blk.extractLsb' 16 16 < blk.extractLsb' 0 16 then .bc1Block4 blk else .bc1Block3 blk

/-- The row of an alpha block: eight values when `a0 > a1` (R74). -/
def alphaRow (blk : BitVec 64) : Instr :=
  if blk.extractLsb' 8 8 < blk.extractLsb' 0 8 then .alphaInterp8 blk else .alphaInterp6 blk

/-- The row of a BC7 block, by its mode (R77). -/
def bc7Row (blk : BitVec 128) : Instr :=
  match bc7ModeOf (blk.extractLsb' 0 8) with
  | 0 => .bc7Mode0 blk
  | 1 => .bc7Mode1 blk
  | 2 => .bc7Mode2 blk
  | 3 => .bc7Mode3 blk
  | 4 => .bc7Mode4 blk
  | 5 => .bc7Mode5 blk
  | 6 => .bc7Mode6 blk
  | 7 => .bc7Mode7 blk
  | _ => .bc7Reserved blk

/-- The LZSS back-reference of the little-endian word `w` (R90). -/
def lzssRefOf (w : BitVec 16) : Instr :=
  .lzssRef (w.extractLsb' 12 4 ++ w.extractLsb' 0 8) (w.extractLsb' 8 4)

/-- The class 0001HLLL of R93: the end marker when the raw distance `(H << 14) + (W >> 2)` is 0 (R96). -/
def lzoM4Of (h : BitVec 1) (l : BitVec 3) (w : BitVec 16) : Instr :=
  if h = 0 ∧ w.toNat < 4 then .lzoEof l (w.extractLsb' 0 2) else .lzoM4 h l w

/-- Whether a control byte read in state `st` has a length field that is 0, so that a length extension follows it
(R93: 0x20, 0x10, 0x18, and 0x00 in state Outer). -/
def lzoNeedsExt (st : LzoSt) (t : Byte) : Bool :=
  decide (t = 0x20) || decide (t = 0x10) || decide (t = 0x18) || (decide (t = 0x00) && decide (st = .outer))

/-- A control byte below 16, by the state (R93, R241). -/
def lzoShort (st : LzoSt) (t : Byte) (rest : List Byte) : Except Reject Instr :=
  match st with
  | .outer => if t = 0 then .error .lengthFieldZero else .ok (.lzoLit (t.extractLsb' 0 4))
  | .afterRun =>
    match rest with
    | [] => .error .truncated
    | h :: _ => .ok (.lzoM1Far (t.extractLsb' 2 2) (t.extractLsb' 0 2) h)
  | .afterShort | .start | .eof =>
    match rest with
    | [] => .error .truncated
    | h :: _ => .ok (.lzoM1Near (t.extractLsb' 2 2) (t.extractLsb' 0 2) h)

/-- A token whose length field is not 0, by the ranges of its control byte (R93, R241). -/
def decodeLzoToken (st : LzoSt) : List Byte → Except Reject Instr
  | [] => .error .truncated
  | t :: rest =>
    if 64 ≤ t.toNat then
      match rest with
      | [] => .error .truncated
      | h :: _ => .ok (.lzoM2 (t.extractLsb' 5 3) (t.extractLsb' 2 3) (t.extractLsb' 0 2) h)
    else if 32 ≤ t.toNat then
      if t.extractLsb' 0 5 = 0 then .error .lengthFieldZero
      else (takeLe 2 rest).map fun w => .lzoM3 (t.extractLsb' 0 5) (BitVec.ofNat 16 w)
    else if 16 ≤ t.toNat then
      if t.extractLsb' 0 3 = 0 then .error .lengthFieldZero
      else (takeLe 2 rest).map fun w => lzoM4Of (t.extractLsb' 3 1) (t.extractLsb' 0 3) (BitVec.ofNat 16 w)
    else lzoShort st t rest

/-- A token whose length field is 0: the control byte, and after it the bytes that follow the extension (R93). -/
def decodeLzoBody : List Byte → Except Reject Instr
  | [] => .error .truncated
  | t :: rest =>
    if t = 0x00 then .ok .lzoLitExt
    else if t = 0x20 then (takeLe 2 rest).map fun w => .lzoM3 0 (BitVec.ofNat 16 w)
    else if t = 0x10 then (takeLe 2 rest).map fun w => lzoM4Of 0 0 (BitVec.ofNat 16 w)
    else if t = 0x18 then (takeLe 2 rest).map fun w => lzoM4Of 1 0 (BitVec.ofNat 16 w)
    else .error .lengthFieldSet

/-- A length extension: bytes `x`, then one byte that is not `x` (R94 with `x` = 0x00, R99 with `x` = 0xFF). -/
def decodeChain (x : Byte) (mk : Nat → Byte → Instr) (bs : List Byte) : Except Reject Instr :=
  match countRun x bs with
  | (_, []) => .error .truncated
  | (n, v :: _) => .ok (mk n v)

/-- A chunk header (R98): `size` is bits 23:0, the flag byte bits 31:24. -/
def decodeChunk (bs : List Byte) : Except Reject Instr :=
  match takeLe 4 bs with
  | .error e => .error e
  | .ok n =>
    if (BitVec.ofNat 32 n).extractLsb' 24 7 = 0 then
      .ok (.lz4Chunk ((BitVec.ofNat 32 n).extractLsb' 0 24) ((BitVec.ofNat 32 n).extractLsb' 31 1))
    else .error .unknownFlags

/-- The decoder, total on any bytes. -/
def decode (c : DecodeCtx) (bs : List Byte) : Except Reject Instr :=
  match c with
  | .command =>
    match bs with
    | [] => .error .truncated
    | op :: _ =>
      match commandOf op with
      | some i => .ok i
      | none => .error .noCommand
  | .bc1 => (takeLe 8 bs).map fun n => bc1Row (BitVec.ofNat 64 n)
  | .bc2 => (takeLe 16 bs).map fun n => .bc2Block (BitVec.ofNat 128 n)
  | .alpha => (takeLe 8 bs).map fun n => alphaRow (BitVec.ofNat 64 n)
  | .bc3 => (takeLe 16 bs).map fun n => .bc3Block (BitVec.ofNat 128 n)
  | .bc4 => (takeLe 8 bs).map fun n => .bc4Block (BitVec.ofNat 64 n)
  | .bc7 => (takeLe 16 bs).map fun n => bc7Row (BitVec.ofNat 128 n)
  | .lzssFlags => (takeLe 1 bs).map fun n => .lzssFlags (BitVec.ofNat 8 n)
  | .lzssLit => (takeLe 1 bs).map fun n => .lzssLit (BitVec.ofNat 8 n)
  | .lzssRef => (takeLe 2 bs).map fun n => lzssRefOf (BitVec.ofNat 16 n)
  | .lzssCsum => (takeLe 4 bs).map fun n => .lzssCsum (BitVec.ofNat 32 n)
  | .lzoFirst =>
    match bs with
    | [] => .error .truncated
    | b :: _ => if 17 < b.toNat then .ok (.lzoFirstLit b) else .error .notFirstRun
  | .lzoToken st => decodeLzoToken st bs
  | .lzoBody => decodeLzoBody bs
  | .lzoExt => decodeChain 0x00 .lzoExt bs
  | .lz4Target => (takeLe 4 bs).map fun n => .lz4Target (BitVec.ofNat 32 n)
  | .lz4Chunk => decodeChunk bs
  | .lz4Seq => (takeLe 1 bs).map fun n => .lz4Seq (BitVec.ofNat 4 (n / 16)) (BitVec.ofNat 4 n)
  | .lz4Ext => decodeChain 0xFF .lz4Ext bs

/-! ### The encoder -/

/-- The bytes of a well-formed instruction, from the layouts of R70 and R72–R99. A token whose length field is 0 is
written as in context `lzoBody`: its control byte, then what follows the length extension, which is an instruction of its
own. -/
def encode : Instr → List Byte
  | .decodeBC1 => [0x01]
  | .decodeBC2 => [0x02]
  | .decodeBC3 => [0x03]
  | .decodeBC4 => [0x04]
  | .decodeBC5 => [0x05]
  | .decodeBC6 => [0x06]
  | .decodeBC7 => [0x07]
  | .lzssDecompress => [0x10]
  | .lzoDecompress => [0x11]
  | .decompressLz4Chain => [0x12]
  | .bc1Block4 blk => leBytes 8 blk.toNat
  | .bc1Block3 blk => leBytes 8 blk.toNat
  | .bc2Block blk => leBytes 16 blk.toNat
  | .alphaInterp8 blk => leBytes 8 blk.toNat
  | .alphaInterp6 blk => leBytes 8 blk.toNat
  | .bc3Block blk => leBytes 16 blk.toNat
  | .bc4Block blk => leBytes 8 blk.toNat
  | .bc7Mode0 blk => leBytes 16 blk.toNat
  | .bc7Mode1 blk => leBytes 16 blk.toNat
  | .bc7Mode2 blk => leBytes 16 blk.toNat
  | .bc7Mode3 blk => leBytes 16 blk.toNat
  | .bc7Mode4 blk => leBytes 16 blk.toNat
  | .bc7Mode5 blk => leBytes 16 blk.toNat
  | .bc7Mode6 blk => leBytes 16 blk.toNat
  | .bc7Mode7 blk => leBytes 16 blk.toNat
  | .bc7Reserved blk => leBytes 16 blk.toNat
  | .lzssFlags kinds => [kinds]
  | .lzssLit v => [v]
  | .lzssRef off l => [off.extractLsb' 0 8, off.extractLsb' 8 4 ++ l]
  | .lzssCsum stored => leBytes 4 stored.toNat
  | .lzoFirstLit b => [b]
  | .lzoLitExt => [0x00]
  | .lzoLit l => [0#4 ++ l]
  | .lzoM1Far d s h => [0#4 ++ d ++ s, h]
  | .lzoM1Near d s h => [0#4 ++ d ++ s, h]
  | .lzoM4 h l w => (1#4 ++ h ++ l) :: leBytes 2 w.toNat
  | .lzoEof l s => (1#4 ++ 0#1 ++ l) :: leBytes 2 s.toNat
  | .lzoM3 l w => (1#3 ++ l) :: leBytes 2 w.toNat
  | .lzoM2 l d s h => [l ++ d ++ s, h]
  | .lzoExt zeros v => List.replicate zeros 0x00 ++ [v]
  | .lz4Target target => leBytes 4 target.toNat
  | .lz4Chunk size last => leBytes 3 size.toNat ++ [last ++ 0#7]
  | .lz4Seq ll ml => [ll ++ ml]
  | .lz4Ext ffs v => List.replicate ffs 0xFF ++ [v]

/-- The place at which an instruction's bytes are read. A match token of R93 that any of the states Outer, AfterRun,
AfterShort may read is given the state Outer here. -/
def homeCtx : Instr → DecodeCtx
  | .decodeBC1 | .decodeBC2 | .decodeBC3 | .decodeBC4 | .decodeBC5 | .decodeBC6 | .decodeBC7 => .command
  | .lzssDecompress | .lzoDecompress | .decompressLz4Chain => .command
  | .bc1Block4 _ | .bc1Block3 _ => .bc1
  | .bc2Block _ => .bc2
  | .alphaInterp8 _ | .alphaInterp6 _ => .alpha
  | .bc3Block _ => .bc3
  | .bc4Block _ => .bc4
  | .bc7Mode0 _ | .bc7Mode1 _ | .bc7Mode2 _ | .bc7Mode3 _ => .bc7
  | .bc7Mode4 _ | .bc7Mode5 _ | .bc7Mode6 _ | .bc7Mode7 _ => .bc7
  | .bc7Reserved _ => .bc7
  | .lzssFlags _ => .lzssFlags
  | .lzssLit _ => .lzssLit
  | .lzssRef _ _ => .lzssRef
  | .lzssCsum _ => .lzssCsum
  | .lzoFirstLit _ => .lzoFirst
  | .lzoLitExt => .lzoBody
  | .lzoLit _ => .lzoToken .outer
  | .lzoM1Far _ _ _ => .lzoToken .afterRun
  | .lzoM1Near _ _ _ => .lzoToken .afterShort
  | .lzoM4 _ l _ => if l = 0 then .lzoBody else .lzoToken .outer
  | .lzoEof l _ => if l = 0 then .lzoBody else .lzoToken .outer
  | .lzoM3 l _ => if l = 0 then .lzoBody else .lzoToken .outer
  | .lzoM2 _ _ _ _ => .lzoToken .outer
  | .lzoExt _ _ => .lzoExt
  | .lz4Target _ => .lz4Target
  | .lz4Chunk _ _ => .lz4Chunk
  | .lz4Seq _ _ => .lz4Seq
  | .lz4Ext _ _ => .lz4Ext

/-! ### Words of the opcode table

spec/opcode_table.json gives one bit pattern to rows that are read in different places (0x01 is decodeBC1, BC7.mode0, a
literal, a flag byte and an LZO1X control byte). For a word with no place given, the reading below is chosen
(assumption log 13). -/

/-- The place in which a table word of `nbits` bits is read: an 8-bit word is a command code if R70 has it, else a BC7 mode
byte with no bit above its mode pattern, else an LZO1X control byte; a 16-bit word is an LZSS back-reference; a 32-bit
word whose bits 30:24 are 0 is an LZ4 chunk header, another the first half of a BC1 block; 64 bits are a BC1 block, 128
bits a BC7 block. -/
def tableCtx (nbits w : Nat) : DecodeCtx :=
  if nbits ≤ 8 then
    if (commandOf (BitVec.ofNat 8 w)).isSome then .command
    else if w = 0x00 ∨ w = 0x08 ∨ w = 0x20 ∨ w = 0x40 ∨ w = 0x80 then .bc7
    else if lzoNeedsExt .outer (BitVec.ofNat 8 w) then .lzoBody
    else .lzoToken .outer
  else if nbits ≤ 16 then .lzssRef
  else if nbits ≤ 24 then .lzoToken .outer
  else if nbits ≤ 32 then if (BitVec.ofNat 32 w).extractLsb' 24 7 = 0 then .lz4Chunk else .bc1
  else if nbits ≤ 64 then .bc1
  else .bc7

/-- A table word laid out in bytes, little-endian, every bit above `nbits` 0, up to the longest fixed encoding
(16 bytes). -/
def tableBytes (nbits w : Nat) : List Byte := leBytes 16 (w % 2 ^ nbits)

/-- What the decoder reads from the table word `w` of `nbits` bits. -/
def decodeTableWord (nbits w : Nat) : Option Instr :=
  match decode (tableCtx nbits w) (tableBytes nbits w) with
  | .ok i => some i
  | .error _ => none

end Sys2Proof
end

