-- ==== Sys2Proof/Machine/Tables.lean ====
section
/-! DEFINITION. The constant values the spec gives: the sizes of 00_scope.md R9, the standard parameters and the
contents of ROM (46_bc7_tables.md, 30_encoding.md R78). The tables are PRESUMED by the spec itself ("from general knowledge,
not in source"): assumption log 3. -/

namespace Sys2Proof.Machine

/-- RING_FILL (R9, R211). -/
def ringFillByte : Byte := 0x20

/-- LZSS_R0 = RING_N - LZSS_F = 4096 - 18 (R9, R211, decision D13). -/
def lzssR0 : BitVec 12 := 4078

/-- DICT_MAX (R9, R288). -/
def dictMax : Nat := 65536

/-- The parameter values of 00_scope.md R9 (assumption log 2). -/
def standardParams : Params where
  expand565 := .replicate
  colorRound := .trunc
  alphaRound := .trunc
  maxOutput := none
  lzoRequireAllInput := false
  lz4EmptyChunkOk := false

/-- The masks `M2[p]` of 46_bc7_tables.md R200. -/
def romPartition2 : List (BitVec 16) :=
  [0xCCCC, 0x8888, 0xEEEE, 0xECC8, 0xC880, 0xFEEC, 0xFEC8, 0xEC80,
   0xC800, 0xFFEC, 0xFE80, 0xE800, 0xFFE8, 0xFF00, 0xFFF0, 0xF000,
   0xF710, 0x008E, 0x7100, 0x08CE, 0x008C, 0x7310, 0x3100, 0x8CCE,
   0x088C, 0x3110, 0x6666, 0x366C, 0x17E8, 0x0FF0, 0x718E, 0x399C,
   0xAAAA, 0xF0F0, 0x5A5A, 0x33CC, 0x3C3C, 0x55AA, 0x9696, 0xA55A,
   0x73CE, 0x13C8, 0x324C, 0x3BDC, 0x6996, 0xC33C, 0x9966, 0x0660,
   0x0272, 0x04E4, 0x4E40, 0x2720, 0xC936, 0x936C, 0x39C6, 0x639C,
   0x9336, 0x9CC6, 0x817E, 0xE718, 0xCCF0, 0x0FCC, 0x7744, 0xEE22]

/-- Rows 0 to 15 of PARTITION3, the digit strings of 46_bc7_tables.md R202. -/
def romPartition3a : List Nat :=
  [0011001102212222, 0001001122112221, 0000200122112211, 0222002200110111,
   0000000011221122, 0011001100220022, 0022002211111111, 0011001122112211,
   0000000011112222, 0000111111112222, 0000111122222222, 0012001200120012,
   0112011201120112, 0122012201220122, 0011011211221222, 0011200122002220]

/-- Rows 16 to 31 of PARTITION3, the digit strings of 46_bc7_tables.md R202. -/
def romPartition3b : List Nat :=
  [0001001101121122, 0111001120012200, 0000112211221122, 0022002200221111,
   0111011102220222, 0001000122212221, 0000001101220122, 0000110022102210,
   0122012200110000, 0012001211222222, 0110122112210110, 0000011012211221,
   0022110211020022, 0110011020022222, 0011012201220011, 0000200022112221]

/-- Rows 32 to 47 of PARTITION3, the digit strings of 46_bc7_tables.md R202. -/
def romPartition3c : List Nat :=
  [0000000211221222, 0222002200120011, 0011001200220222, 0120012001200120,
   0000111122220000, 0120120120120120, 0120201212010120, 0011220011220011,
   0011112222000011, 0101010122222222, 0000000021212121, 0022112200221122,
   0022001100220011, 0220122102201221, 0101222222220101, 0000212121212121]

/-- Rows 48 to 63 of PARTITION3, the digit strings of 46_bc7_tables.md R202. -/
def romPartition3d : List Nat :=
  [0101010101012222, 0222011102220111, 0002111200021112, 0000211221122112,
   0222011101110222, 0002111211120002, 0110011001102222, 0000000021122112,
   0110011022222222, 0022001100110022, 0022112211220022, 0000000000002112,
   0002000100020001, 0222122202221222, 0101222222222222, 0111201122012220]

/-- PARTITION3 (46_bc7_tables.md R202). -/
def romPartition3 : List Nat :=
  romPartition3a ++ romPartition3b ++ romPartition3c ++ romPartition3d

/-- ANCHOR2 (46_bc7_tables.md R203). -/
def romAnchor2 : List Nat :=
  [15, 15, 15, 15, 15, 15, 15, 15, 15, 15, 15, 15, 15, 15, 15, 15,
   15, 2, 8, 2, 2, 8, 8, 15, 2, 8, 2, 2, 8, 8, 2, 2,
   15, 15, 6, 8, 2, 8, 15, 15, 2, 8, 2, 2, 2, 15, 15, 6,
   6, 2, 6, 8, 15, 15, 2, 2, 15, 15, 15, 15, 15, 2, 2, 15]

/-- ANCHOR3_2, the anchors of subset 1 (46_bc7_tables.md R204). -/
def romAnchor3s1 : List Nat :=
  [3, 3, 15, 15, 8, 3, 15, 15, 8, 8, 6, 6, 6, 5, 3, 3,
   3, 3, 8, 15, 3, 3, 6, 10, 5, 8, 8, 6, 8, 5, 15, 15,
   8, 15, 3, 5, 6, 10, 8, 15, 15, 3, 15, 5, 15, 15, 15, 15,
   3, 15, 5, 5, 5, 8, 5, 10, 5, 10, 8, 13, 15, 12, 3, 3]

/-- ANCHOR3_3, the anchors of subset 2 (46_bc7_tables.md R204). -/
def romAnchor3s2 : List Nat :=
  [15, 8, 8, 3, 15, 15, 3, 8, 15, 15, 15, 15, 15, 15, 15, 8,
   15, 8, 15, 3, 15, 8, 15, 8, 3, 15, 6, 10, 15, 15, 10, 8,
   15, 3, 15, 10, 10, 8, 9, 10, 6, 15, 8, 15, 3, 6, 6, 8,
   15, 3, 15, 15, 15, 15, 15, 15, 15, 15, 15, 15, 3, 15, 15, 8]

/-- MODE_TABLE (30_encoding.md R78), modes 0 to 7: NS, PB, RB, ISB, CB, AB, EPB, SPB, IB, IB2. -/
def romModes : List Bc7Mode :=
  [⟨3, 4, 0, 0, 4, 0, 1, 0, 3, 0⟩,
   ⟨2, 6, 0, 0, 6, 0, 0, 1, 3, 0⟩,
   ⟨3, 6, 0, 0, 5, 0, 0, 0, 2, 0⟩,
   ⟨2, 6, 0, 0, 7, 0, 1, 0, 2, 0⟩,
   ⟨1, 0, 2, 1, 5, 6, 0, 0, 2, 3⟩,
   ⟨1, 0, 2, 0, 7, 8, 0, 0, 2, 2⟩,
   ⟨1, 0, 0, 0, 7, 7, 1, 0, 4, 0⟩,
   ⟨2, 6, 0, 0, 5, 5, 1, 0, 2, 0⟩]

/-- The ROM contents from power-on (70_reset_and_hazards.md R340). The weights are 46_bc7_tables.md R205. -/
def standardRom : Rom where
  modes := romModes
  partition2 := romPartition2
  partition3 := romPartition3
  anchor2 := romAnchor2
  anchor3s1 := romAnchor3s1
  anchor3s2 := romAnchor3s2
  weights2 := [0, 21, 43, 64]
  weights3 := [0, 9, 18, 27, 37, 46, 55, 64]
  weights4 := [0, 4, 9, 13, 17, 21, 26, 30, 34, 38, 43, 47, 51, 55, 60, 64]

end Sys2Proof.Machine
end

