-- ==== Sys2Proof/Machine/State.lean ====
section
/-! DEFINITION. State: everything 10_state.md gives the machine, as plain data, and State.reset. One State is one engine
instance (60_exceptions.md R327, assumption log 11). Fields marked MODEL are the model's own and are named by no rule
(assumption log 1). -/

namespace Sys2Proof.Machine

/-- A byte memory: cells (address, byte), addresses strictly rising, no cell equal to what an unlisted address reads as
(Memory.wf in Ops.lean). -/
abbrev Memory := List Host.Cell

/-- STATUS (10_state.md R22). -/
inductive Status where
  | idle
  | busy
  | done
  | failed
deriving DecidableEq, Repr

/-- The command record (10_state.md R21): written by the host, read-only for the engine. `channel` is given 32 bits by the
model (assumption log 10). -/
structure CmdRecord where
  op                : BitVec 8
  input             : List Byte
  width             : BitVec 32
  height            : BitVec 32
  useAlpha          : Bool
  channel           : BitVec 32
  offset            : BitVec 32
  expectedSize      : BitVec 32
  signedChecksum    : Bool
  declaredBlockSize : BitVec 32
deriving DecidableEq, Repr

/-- The per-block working registers of the BCn engines (10_state.md R30, R31). `cp` is CP[0..3], `ap` AP[0..7], `endpoints`
E[0..5], `i1` and `i2` I1[0..15] and I2[0..15], `subset` S[0..15]. -/
structure BcWork where
  c0Raw           : BitVec 16
  c1Raw           : BitVec 16
  idx2            : BitVec 32
  cp              : Vector Pixel 4
  hasAlphaOrBlack : Bool
  amap            : BitVec 64
  a0              : BitVec 8
  a1              : BitVec 8
  idx3            : BitVec 48
  ap              : Vector Byte 8
  mode            : BitVec 4
  partition       : BitVec 6
  rotation        : BitVec 2
  idxMode         : BitVec 1
  endpoints       : Vector Pixel 6
  i1              : Vector (BitVec 4) 16
  i2              : Vector (BitVec 4) 16
  subset          : Vector (BitVec 2) 16
deriving DecidableEq, Repr

/-- The registers of the BCn engines (10_state.md R28). `blk` is BLK, an 8-byte block in its low half. That `bw` and `bh`
hold a count of 2^30 as 0 is the model's choice (assumption log 18; `blockCount` in Machine/Bc.lean reads them). -/
structure BcRegs where
  bw      : BitVec 30
  bh      : BitVec 30
  k       : BitVec 60
  blk     : BitVec 128
  out     : Memory
  work    : BcWork
  /-- MODEL: the palette AP of block `k` has been built. -/
  palette : Bool
deriving DecidableEq, Repr

/-- The registers of the LZSS engine (10_state.md R32, R33). -/
structure LzssRegs where
  ring  : Memory
  r     : BitVec 12
  flags : BitVec 16
  ip    : Nat
  out   : List Byte
  csum  : BitVec 32
  /-- MODEL: the flag byte has been read and no token of its group yet. -/
  fresh : Bool
deriving DecidableEq, Repr

/-- The registers of the LZO1X engine (10_state.md R34). -/
structure LzoRegs where
  ip  : Nat
  out : List Byte
  t   : BitVec 32
  st  : LzoSt
  /-- MODEL: the value `255*z + v` of the length extension already read for the token at hand (R242). -/
  ext : Option Nat
  /-- MODEL: `tok` of R241 for a token whose length extension has been read. -/
  tok : Nat
deriving DecidableEq, Repr

/-- MODEL: where the LZ4 chain engine stands between two of its rows (the control flow of R280 and R284). -/
inductive Lz4Phase where
  /-- before the block header -/
  | target
  /-- before a chunk header -/
  | chunk
  /-- before a sequence's token byte -/
  | seq
  /-- before the literal-length extension of a sequence -/
  | litLen
  /-- before the match-length extension of a sequence -/
  | matchLen
deriving DecidableEq, Repr

/-- The registers of the LZ4 chain engine (10_state.md R36). -/
structure Lz4Regs where
  ip       : Nat
  target   : BitVec 32
  dict     : List Byte
  total    : List Byte
  ch       : List Byte
  chunkEnd : Nat
  last     : BitVec 1
  /-- MODEL: where the engine stands. -/
  phase    : Lz4Phase
  /-- MODEL: `tok` of R284 while one of the sequence's extensions is read. -/
  tok      : Nat
  /-- MODEL: `T & 15` of R284 while one of the sequence's extensions is read. -/
  ml       : BitVec 4
  /-- MODEL: `O` of R284 while the match-length extension is read. -/
  off      : BitVec 16
deriving DecidableEq, Repr

/-- The machine. -/
structure State where
  params   : Params
  rom      : Rom
  status   : Status
  result   : Result
  cmd      : CmdRecord
  bc       : BcRegs
  lzss     : LzssRegs
  lzo      : LzoRegs
  lz4      : Lz4Regs
  /-- MODEL: a command has been issued and its row has not run yet. -/
  starting : Bool
  /-- MODEL: how many commands have been issued; it draws the free value of RESULT (assumption log 5). -/
  issues   : Nat
deriving DecidableEq, Repr

/-- No step of this machine ends in a fault: every error of 60_exceptions.md R310 ends the command with STATUS = Failed and a
record in RESULT (R311), which is a next state. So Fault has no constructor (safe: no behaviour is cut off). -/
inductive Fault where
deriving DecidableEq, Repr

/-- Why the model has no transition. -/
inductive Refusal where
  /-- Raised by exec for an instruction without a meaning; every instruction has one, so it is never raised. Safe. -/
  | notModelled (mnemonic : String)
  /-- Raised by hostIssue on a Busy engine: a host duty is broken (70_reset_and_hazards.md R346; 93 U5 "refuse"). Safe. -/
  | issueWhileBusy
  /-- Raised by hostCollect while Busy: a host duty is broken (R346; 93 U4 "refuse"). Safe. -/
  | resultReadWhileBusy
  /-- Raised by hostCollect before the first command has ended: RESULT is "not readable until the first command ends"
  (70_reset_and_hazards.md R340). Safe. -/
  | resultNotReadable
  /-- Raised by hostWriteRecord while Busy: a host duty is broken (R346; 93 U3 "refuse"). Safe. -/
  | recordWriteWhileBusy
deriving DecidableEq, Repr

/-- The working registers before anything has been written (assumption log 4). -/
def BcWork.reset : BcWork where
  c0Raw := 0
  c1Raw := 0
  idx2 := 0
  cp := Vector.replicate 4 ⟨0, 0, 0, 0⟩
  hasAlphaOrBlack := false
  amap := 0
  a0 := 0
  a1 := 0
  idx3 := 0
  ap := Vector.replicate 8 0
  mode := 0
  partition := 0
  rotation := 0
  idxMode := 0
  endpoints := Vector.replicate 6 ⟨0, 0, 0, 0⟩
  i1 := Vector.replicate 16 0
  i2 := Vector.replicate 16 0
  subset := Vector.replicate 16 0

/-- The BCn registers at power-on (assumption log 4). -/
def BcRegs.reset : BcRegs where
  bw := 0
  bh := 0
  k := 0
  blk := 0
  out := []
  work := BcWork.reset
  palette := false

/-- The LZSS registers at power-on: those of LzssInit with `offset` 0 (47_lzss.md R211; assumption log 4). -/
def LzssRegs.reset : LzssRegs where
  ring := []
  r := lzssR0
  flags := 0
  ip := 0
  out := []
  csum := 0
  fresh := false

/-- The LZO1X registers at power-on: those of 48_lzo1x.md R243 (assumption log 4). -/
def LzoRegs.reset : LzoRegs where
  ip := 0
  out := []
  t := 0
  st := .start
  ext := none
  tok := 0

/-- The LZ4 chain registers at power-on, from which the command starts too (49_lz4chain.md R280). The spec gives no value to
`target` and `chunkEnd` before their rows write them: 0 is a DESIGN CHOICE (assumption log 4). -/
def Lz4Regs.reset : Lz4Regs where
  ip := 0
  target := 0
  dict := []
  total := []
  ch := []
  chunkEnd := 0
  last := 0
  phase := .target
  tok := 0
  ml := 0
  off := 0

/-- The command record at power-on (assumption log 4). -/
def CmdRecord.reset : CmdRecord where
  op := 0
  input := []
  width := 0
  height := 0
  useAlpha := false
  channel := 0
  offset := 0
  expectedSize := 0
  signedChecksum := false
  declaredBlockSize := 0

/-- Power-on reset (70_reset_and_hazards.md R340): STATUS is Idle, ROM holds its tables; the rest is unspecified by the rule
and takes the values of assumption log 4. -/
def State.reset : State where
  params := standardParams
  rom := standardRom
  status := .idle
  result := .ok (.decodedBytes [])
  cmd := CmdRecord.reset
  bc := BcRegs.reset
  lzss := LzssRegs.reset
  lzo := LzoRegs.reset
  lz4 := Lz4Regs.reset
  starting := false
  issues := 0

end Sys2Proof.Machine
end

