-- ==== Sys2Proof/Machine/Ops.lean ====
section
/-! DEFINITION. The operations every engine shares: byte memories, reads of IN, raising an error (the core's only trap
entry), ending a command, and the copies. -/

namespace Sys2Proof.Machine

/-! ### Byte memories -/

/-- What an unlisted address of RING reads as (47_lzss.md R211: every byte 0x20; assumption log 7). -/
def ringFill : Option Byte := some ringFillByte

/-- What an unlisted address of the BCn OUT reads as: no value, it has not been written (10_state.md R28, R29; assumption
log 6). -/
def outFill : Option Byte := none

/-- The byte at an address. -/
def Memory.read (fill : Option Byte) : Memory → Nat → Option Byte
  | [], _ => fill
  | c :: cs, a => if c.1 = a then some c.2 else Memory.read fill cs a

/-- Writes one byte, keeping the canonical form. -/
def Memory.write (fill : Option Byte) : Memory → Nat → Byte → Memory
  | [], a, v => if some v = fill then [] else [(a, v)]
  | c :: cs, a, v =>
    if c.1 < a then c :: Memory.write fill cs a v
    else if c.1 = a then (if some v = fill then cs else (a, v) :: cs)
    else (if some v = fill then c :: cs else (a, v) :: c :: cs)

/-- The canonical form: addresses strictly rising, no cell equal to what an unlisted address reads as. -/
abbrev Memory.wf (fill : Option Byte) (m : Memory) : Prop :=
  m.Pairwise (fun c d => c.1 < d.1) ∧ ∀ c ∈ m, some c.2 ≠ fill

/-- Writes a list of cells in order. -/
def Memory.writeAll (fill : Option Byte) (m : Memory) (cells : List Host.Cell) : Memory :=
  cells.foldl (fun m c => Memory.write fill m c.1 c.2) m

/-! ### Errors and the end of a command -/

/-- The numeric codes of the error kinds (60_exceptions.md R310). -/
def errCode : ErrKind → Nat
  | .checksumMismatch => 1
  | .overflow => 2
  | .sizeMismatch => 3
  | .invalidOffset => 4
  | .unknownFlags => 5
  | .blockLengthMismatch => 6
  | .inputTruncated => 7
  | .unimplemented => 8
  | .badParameter => 9
  | .malformedChunk => 10
  | .outputOverrun => 11
  | .badCommand => 12

/-- An error before it is recorded: kind and offset (R311, R312). -/
structure Failure where
  kind   : ErrKind
  offset : Nat
deriving DecidableEq, Repr

/-- TAKING AN ERROR, the only trap entry of the core (60_exceptions.md R311, R318): RESULT holds the record, the
kind as its code (R310), STATUS is Failed, the command ends, and all engine state and output is discarded (R314; to the power-on values, assumption log 8).
The offset is stored in 32 bits (R11, R311). There is no return from it (R319). -/
def raiseFail (e : Failure) (s : State) : State :=
  { s with
    status := .failed
    result := .fail (errCode e.kind) (BitVec.ofNat 32 e.offset)
    bc := BcRegs.reset
    lzss := LzssRegs.reset
    lzo := LzoRegs.reset
    lz4 := Lz4Regs.reset
    starting := false }

/-- A command returns `Ok` (10_state.md R22, R23). -/
def complete (v : OutputValue) (s : State) : State :=
  { s with status := .done, result := .ok v, starting := false }

/-- A command begins to run: it is Busy and no longer waits to start (10_state.md R22). -/
def startCommand (s : State) : State :=
  { s with status := .busy, starting := false }

/-- Replaces the BCn registers. -/
def putBc (s : State) (r : BcRegs) : State := { s with bc := r }

/-- Replaces the LZSS registers. -/
def putLzss (s : State) (r : LzssRegs) : State := { s with lzss := r }

/-- Replaces the LZO1X registers. -/
def putLzo (s : State) (r : LzoRegs) : State := { s with lzo := r }

/-- Replaces the LZ4 chain registers. -/
def putLz4 (s : State) (r : Lz4Regs) : State := { s with lz4 := r }

/-- What one row does to its engine's registers: the command goes on, returns `Ok(value)`, or raises `Fail`
(00_scope.md R13). -/
inductive Turn (ρ : Type) where
  | run (r : ρ)
  | done (r : ρ) (v : OutputValue)
  | fail (e : Failure)
deriving DecidableEq, Repr

/-- Goes on with `f` unless the command has ended (R13: nothing after a `raise` executes). -/
def Turn.andThen {ρ : Type} (t : Turn ρ) (f : ρ → Turn ρ) : Turn ρ :=
  match t with
  | .run r => f r
  | .done r v => .done r v
  | .fail e => .fail e

/-- The next state of the machine after a row's turn. -/
def settle {ρ : Type} (put : State → ρ → State) (s : State) (t : Turn ρ) : Host.Outcome State Fault Refusal :=
  match t with
  | .run r => .next (put s r)
  | .done r v => .next (complete v (put s r))
  | .fail e => .next (raiseFail e s)

/-! ### Reads of IN -/

/-- `MemRead(IN, a, n)` (00_scope.md R13, 60_exceptions.md R313): the little-endian value, or InputTruncated at
`len(IN)`. -/
def memRead (inp : List Byte) (a n : Nat) : Except Failure Nat :=
  if inp.length < a + n then .error ⟨.inputTruncated, inp.length⟩ else .ok (leNat ((inp.drop a).take n))

/-- Bytes `IN[a .. a+n)` (00_scope.md R12). -/
def inSlice (inp : List Byte) (a n : Nat) : List Byte := (inp.drop a).take n

/-! ### Copies (70_reset_and_hazards.md R347: byte by byte, each written before the next is read) -/

/-- `repeat n times: Append(OUT, OUT[len(OUT) - d])` (48_lzo1x.md R253). -/
def copyBack (d : Nat) : Nat → List Byte → List Byte
  | 0, out => out
  | n + 1, out => copyBack d n (out ++ [out.getD (out.length - d) 0])

/-- The source byte of an LZ4 match (49_lz4chain.md R286): `CH[p]` for `p = len(CH) - O`, or, when that is negative, the
byte `-p` from the end of DICT. -/
def dictByte (dict ch : List Byte) (o : Nat) : Byte :=
  if ch.length < o then dict.getD (dict.length + ch.length - o) 0 else ch.getD (ch.length - o) 0

/-- `repeat ML times: Append(CH, c)` (49_lz4chain.md R286). -/
def copyDict (dict : List Byte) (o : Nat) : Nat → List Byte → List Byte
  | 0, ch => ch
  | n + 1, ch => copyDict dict o n (ch ++ [dictByte dict ch o])

/-- `last_k(s)` (00_scope.md R12). -/
def lastBytes (k : Nat) (s : List Byte) : List Byte := s.drop (s.length - k)

/-- `CheckOutput()` (48_lzo1x.md R256, 49_lz4chain.md R290, 60_exceptions.md R320): whether an output of `n` bytes passes
MAX_OUTPUT. -/
def overruns (p : Params) (n : Nat) : Bool :=
  match p.maxOutput with
  | none => false
  | some m => decide (m < n)

end Sys2Proof.Machine
end

