-- ==== Sys2Proof/Machine/Operands.lean ====
section
/-! DEFINITION. Operand forms: bit fields, colour and scalar arithmetic (40_primitives.md R111–R119), the effective
addresses of R121 and the index fields of 30_encoding.md. Every value is computed on naturals and narrowed to a byte at
the end (R120). -/

namespace Sys2Proof.Machine

/-! ### Fields of a 128-bit block (R55, R111) -/

/-- `lo` of R55: block bytes 0 to 7. -/
def blkLo (b : BitVec 128) : BitVec 64 := b.extractLsb' 0 64

/-- `hi` of R55: block bytes 8 to 15. -/
def blkHi (b : BitVec 128) : BitVec 64 := b.extractLsb' 64 64

/-- `Bits(lo, hi, start, count)` of R111; 0 when `count` is 0 (45_bc7.md R171). -/
def bits (lo hi : BitVec 64) (start count : Nat) : Nat :=
  ((lo.toNat ||| (hi.toNat <<< 64)) >>> start) % 2 ^ count

/-- `Bits` applied to the two words of a block. -/
def blkBits (b : BitVec 128) (start count : Nat) : Nat := bits (blkLo b) (blkHi b) start count

/-! ### 5:6:5 colours (R112, R113) -/

/-- `Expand(v, n)` of R113, for `n` = 5 or 6. -/
def expand565 (e : Expand565) (v n : Nat) : Byte :=
  match e with
  | .replicate => BitVec.ofNat 8 ((v <<< (8 - n)) ||| (v >>> (2 * n - 8)))
  | .scale => BitVec.ofNat 8 ((v * 255 + (2 ^ n - 1) / 2) / (2 ^ n - 1))

/-- `Unpack565(c)` of R112, as an opaque pixel. -/
def unpack565 (e : Expand565) (c : BitVec 16) : Pixel where
  r := expand565 e (c.extractLsb' 11 5).toNat 5
  g := expand565 e (c.extractLsb' 5 6).toNat 6
  b := expand565 e (c.extractLsb' 0 5).toNat 5
  a := 255

/-! ### Interpolation (R114–R117) -/

/-- One channel of `Half` (R114). -/
def halfCh (m : Rounding) (x y : Byte) : Byte :=
  match m with
  | .trunc => BitVec.ofNat 8 ((x.toNat + y.toNat) / 2)
  | .round => BitVec.ofNat 8 ((x.toNat + y.toNat + 1) / 2)

/-- One channel of `OneThird` (R115). -/
def oneThirdCh (m : Rounding) (x y : Byte) : Byte :=
  match m with
  | .trunc => BitVec.ofNat 8 ((2 * x.toNat + y.toNat) / 3)
  | .round => BitVec.ofNat 8 ((2 * x.toNat + y.toNat + 1) / 3)

/-- One channel of `TwoThirds` (R115). -/
def twoThirdsCh (m : Rounding) (x y : Byte) : Byte :=
  match m with
  | .trunc => BitVec.ofNat 8 ((x.toNat + 2 * y.toNat) / 3)
  | .round => BitVec.ofNat 8 ((x.toNat + 2 * y.toNat + 1) / 3)

/-- A function of two channels applied to R, G and B, alpha 255 (R114, R115, R132). -/
def blendRgb (f : Byte → Byte → Byte) (e0 e1 : Pixel) : Pixel where
  r := f e0.r e1.r
  g := f e0.g e1.g
  b := f e0.b e1.b
  a := 255

/-- `Sevenths(a0, a1, j)` (R116). -/
def sevenths (m : Rounding) (a0 a1 : Byte) (j : Nat) : Byte :=
  match m with
  | .trunc => BitVec.ofNat 8 (((7 - j) * a0.toNat + j * a1.toNat) / 7)
  | .round => BitVec.ofNat 8 (((7 - j) * a0.toNat + j * a1.toNat + 3) / 7)

/-- `Fifths(a0, a1, j)` (R117). -/
def fifths (m : Rounding) (a0 a1 : Byte) (j : Nat) : Byte :=
  match m with
  | .trunc => BitVec.ofNat 8 (((5 - j) * a0.toNat + j * a1.toNat) / 5)
  | .round => BitVec.ofNat 8 (((5 - j) * a0.toNat + j * a1.toNat + 2) / 5)

/-! ### BC7 arithmetic (R118, R119) -/

/-- `Bc7Expand(v, p)` (R118). -/
def bc7Expand (v p : Nat) : Byte := BitVec.ofNat 8 ((v <<< (8 - p)) ||| (v >>> (2 * p - 8)))

/-- `WEIGHTS_W[idx]` (46_bc7_tables.md R205). -/
def weightOf (rom : Rom) (w idx : Nat) : Nat :=
  match w with
  | 2 => rom.weights2.getD idx 0
  | 3 => rom.weights3.getD idx 0
  | _ => rom.weights4.getD idx 0

/-- `((64 - w)*e0 + w*e1 + 32) >> 6` (R119). -/
def blend64 (w : Nat) (e0 e1 : Byte) : Byte :=
  BitVec.ofNat 8 (((64 - w) * e0.toNat + w * e1.toNat + 32) >>> 6)

/-- `Bc7Interp(e0, e1, W, idx)` (R119). -/
def bc7Interp (rom : Rom) (e0 e1 : Byte) (w idx : Nat) : Byte := blend64 (weightOf rom w idx) e0 e1

/-! ### Register arrays (10_state.md R30) -/

/-- The array whose entry `i` is `f i`. -/
def tabulate {α : Type} (n : Nat) (f : Nat → α) : Vector α n := ⟨((List.range n).map f).toArray, by simp⟩

/-- Entry `i` of an array, or `d` past its end. -/
def entry {α : Type} {n : Nat} (v : Vector α n) (i : Nat) (d : α) : α := v.toList.getD i d

/-! ### Index fields (R72–R74) -/

/-- `IDX2[2i+1:2i]` (R72). -/
def idx2At (idx : BitVec 32) (i : Nat) : Nat := (idx.toNat >>> (2 * i)) % 4

/-- `IDX3[3i+2:3i]` (R74). -/
def idx3At (idx : BitVec 48) (i : Nat) : Nat := (idx.toNat >>> (3 * i)) % 8

/-- `(n << 4) | n` for the nibble `n = AMAP[4i+3:4i]` (R73, 42_bc2.md R141). -/
def amapAt (amap : BitVec 64) (i : Nat) : Byte :=
  BitVec.ofNat 8 ((((amap.toNat >>> (4 * i)) % 16) <<< 4) ||| ((amap.toNat >>> (4 * i)) % 16))

/-! ### Effective addresses (R121) -/

/-- The address of a pixel in OUT: `(py*width + px) * 4` (41_bc1.md R130). -/
def pixelAddr (width px py : Nat) : Nat := (py * width + px) * 4

/-- The first byte of block `k` in IN (20_memory.md R57). -/
def blockAddr (blockBytes k : Nat) : Nat := k * blockBytes

/-- The slot a back-reference reads: `(r - off) mod 4096` (47_lzss.md R213). -/
def ringSlot (r off : BitVec 12) : Nat := (r - off).toNat

/-- The four cells of a pixel at an address (00_scope.md R12). -/
def pixelCells (a : Nat) (p : Pixel) : List Host.Cell := [(a, p.r), (a + 1, p.g), (a + 2, p.b), (a + 3, p.a)]

/-- The cell writes of texel `i` of block column `bx`, block row `by'`: none when the texel lies outside the image
(41_bc1.md R130). -/
def texelCells (width height bx by' : Nat) (pix : List Pixel) (i : Nat) : List Host.Cell :=
  if bx * 4 + i % 4 < width ∧ by' * 4 + i / 4 < height then
    pixelCells (pixelAddr width (bx * 4 + i % 4) (by' * 4 + i / 4)) (pix.getD i ⟨0, 0, 0, 0⟩)
  else []

/-- The cell writes of one block, texel 0 first (41_bc1.md R130, 00_scope.md R14). -/
def blockCells (width height bx by' : Nat) (pix : List Pixel) : List Host.Cell :=
  (List.range 16).flatMap (texelCells width height bx by' pix)

end Sys2Proof.Machine
end

