-- ==== Sys2Proof/Machine/Flags.lean ====
section
/-! DEFINITION. The flags of the core: the LZSS flag register with its sentinel (10_state.md R33, 47_lzss.md R212), the
signed or unsigned widening of the checksum (R217) and the last-chunk flag (30_encoding.md R98). The flag hasAlphaOrBlack
(10_state.md R31) is set by each BCn row in Bc.lean. -/

namespace Sys2Proof.Machine

/-- `flags >> 1` (47_lzss.md R212). -/
def flagsShift (f : BitVec 16) : BitVec 16 := f >>> 1

/-- `0xFF00 | next_byte` (R212). -/
def flagsRefill (b : Byte) : BitVec 16 := 0xFF00#16 ||| b.setWidth 16

/-- Whether a shifted flag register must be refilled: `flags[8] = 0` (R212). -/
def flagsUsedUp (f : BitVec 16) : Bool := !f.getLsbD 8

/-- The flag of the next token: bit 0, 1 for a literal (R33). -/
def flagsLiteral (f : BitVec 16) : Bool := f.getLsbD 0

/-- The flag register a token sees: as the refill left it right after a flag byte, else shifted by one (R212). -/
def flagsForToken (e : LzssRegs) : BitVec 16 := if e.fresh then e.flags else flagsShift e.flags

/-- `Widen(c)` modulo 2^32 (47_lzss.md R217). -/
def widen (signed : Bool) (c : Byte) : BitVec 32 := if signed then c.signExtend 32 else c.setWidth 32

/-- `F[7]`: the chunk is the last one (R98, R282). -/
def isLast (last : BitVec 1) : Bool := decide (last = 1)

end Sys2Proof.Machine
end

