-- ==== Sys2Proof/Machine/Bc.lean ====
section
/-! DEFINITION. The BC1, BC2, BC3 and BC4 commands and blocks, and the BC5 and BC6 commands (41_bc1.md to 44_bc4.md). The
block walk of R130 is one block a step; a BC3 or BC4 block takes two, its alpha block's row first (assumption
log 1). -/

namespace Sys2Proof.Machine

/-! ### The BCn frame (R130) -/

/-- Blocks along a side of `n` pixels: `(n + 3) // 4` (R130). For `n` from 0xFFFFFFFD it is 2^30, one more than the 30 bits
of `bw` and `bh` hold (10_state.md R28). DESIGN CHOICE (assumption log 18): the length check and the walk use the exact
count, as 40_primitives.md R120 has nothing wrap there; the register holds its low 30 bits (00_scope.md R11). -/
def blocksAlong (n : BitVec 32) : Nat := (n.toNat + 3) / 4

/-- The block count that the register `bw` or `bh` stands for, on a side of `n` pixels: 0 is 2^30 where the side has a
pixel. DESIGN CHOICE (assumption log 18). -/
def blockCount (reg : BitVec 30) (n : BitVec 32) : Nat := if reg = 0 ∧ n ≠ 0 then 2 ^ 30 else reg.toNat

/-- The bytes of OUT once the walk is over (R130). A byte no block wrote would be a free value; R29 says there is none. -/
def outBytes (m : Memory) (n : Nat) : List Byte :=
  (List.range n).map fun a => (Memory.read outFill m a).getD (Config.freeOutByte a)

/-- `bw * bh`: the blocks of the image, by the registers (R130). -/
def gridBlocks (c : CmdRecord) (r : BcRegs) : Nat := blockCount r.bw c.width * blockCount r.bh c.height

/-- The start of `BcFrame(BLOCK_BYTES, …)` (R130, 10_state.md R28): the length check, then OUT with nothing written and
block 0; an image without blocks ends at once. DESIGN CHOICE (assumption log 4): BLK and the working registers, to which
R28 and R30 give no start value, are 0 until a block writes them. -/
def bcStart (blockBytes : Nat) (c : CmdRecord) : Turn BcRegs :=
  let r : BcRegs :=
    { BcRegs.reset with bw := BitVec.ofNat 30 (blocksAlong c.width), bh := BitVec.ofNat 30 (blocksAlong c.height) }
  if c.input.length < gridBlocks c r * blockBytes then .fail ⟨.inputTruncated, c.input.length⟩
  else if gridBlocks c r = 0 then .done r (.pixelBuffer (outBytes r.out (c.width.toNat * c.height.toNat * 4)))
  else .run r

/-- One block of the walk (R130): its texels that lie in the image are written to OUT, and the walk goes on to the next
block or returns OUT. -/
def bcEmit (c : CmdRecord) (r : BcRegs) (pix : List Pixel) : Turn BcRegs :=
  let r' : BcRegs :=
    { r with
      out := Memory.writeAll outFill r.out
        (blockCells c.width.toNat c.height.toNat (r.k.toNat % blockCount r.bw c.width)
          (r.k.toNat / blockCount r.bw c.width) pix)
      k := r.k + 1
      palette := false }
  if r.k.toNat + 1 < gridBlocks c r then .run r'
  else .done r' (.pixelBuffer (outBytes r'.out (c.width.toNat * c.height.toNat * 4)))

/-- The sixteen pixels of a block, texel 0 first (00_scope.md R14). -/
def texels (f : Nat → Pixel) : List Pixel := (List.range 16).map f

/-! ### Colour block (R131, R132) -/

/-- `Palette(e0, e1, hasAlphaOrBlack, useAlpha)` (R132). -/
def palette (p : Params) (e0 e1 : Pixel) (hasAlphaOrBlack useAlpha : Bool) : Vector Pixel 4 :=
  if hasAlphaOrBlack then
    #v[e0, e1, blendRgb (halfCh p.colorRound) e0 e1, ⟨0, 0, 0, if useAlpha then 0 else 255⟩]
  else
    #v[e0, e1, blendRgb (oneThirdCh p.colorRound) e0 e1, blendRgb (twoThirdsCh p.colorRound) e0 e1]

/-- `ColorBlock` (R131): loads the colour working registers, with the mode given by the row. -/
def loadColor (p : Params) (c : BitVec 64) (hasAlphaOrBlack useAlpha : Bool) (w : BcWork) : BcWork :=
  { w with
    c0Raw := c.extractLsb' 0 16
    c1Raw := c.extractLsb' 16 16
    idx2 := c.extractLsb' 32 32
    hasAlphaOrBlack := hasAlphaOrBlack
    cp := palette p (unpack565 p.expand565 (c.extractLsb' 0 16)) (unpack565 p.expand565 (c.extractLsb' 16 16))
      hasAlphaOrBlack useAlpha }

/-- `CP[idx[i]]` (R133). -/
def colorAt (w : BcWork) (i : Nat) : Pixel := entry w.cp (idx2At w.idx2 i) ⟨0, 0, 0, 0⟩

/-! ### Alpha block (R151, R152) -/

/-- The eight-value palette of R152. -/
def alphaPalette8 (p : Params) (a0 a1 : Byte) : Vector Byte 8 :=
  #v[a0, a1, sevenths p.alphaRound a0 a1 1, sevenths p.alphaRound a0 a1 2, sevenths p.alphaRound a0 a1 3,
    sevenths p.alphaRound a0 a1 4, sevenths p.alphaRound a0 a1 5, sevenths p.alphaRound a0 a1 6]

/-- The palette of six values, 0 and 255 of R152. -/
def alphaPalette6 (p : Params) (a0 a1 : Byte) : Vector Byte 8 :=
  #v[a0, a1, fifths p.alphaRound a0 a1 1, fifths p.alphaRound a0 a1 2, fifths p.alphaRound a0 a1 3,
    fifths p.alphaRound a0 a1 4, 0, 255]

/-- Loads the alpha working registers of R151 with the palette of the row. -/
def loadAlpha (ap : Vector Byte 8) (a : BitVec 64) (w : BcWork) : BcWork :=
  { w with
    a0 := a.extractLsb' 0 8
    a1 := a.extractLsb' 8 8
    idx3 := a.extractLsb' 16 48
    ap := ap }

/-- `v[i] = AP[IDX3[3i+2:3i]]` (R151), with AP the palette register and the index field of the block at hand. -/
def alphaAt (ap : Vector Byte 8) (idx3 : BitVec 48) (i : Nat) : Byte := entry ap (idx3At idx3 i) 0

/-- BLK while the alpha block `a` of block `k` is decoded (10_state.md R28): in BC3 the CompressedBlock holds the colour
part after it (30_encoding.md R75), in BC4 the alpha block is all of it (R76). -/
def alphaBlk (c : CmdRecord) (k : BitVec 60) (a : BitVec 64) : BitVec 128 :=
  if c.op = 0x03 then BitVec.ofNat 64 (leNat (inSlice c.input (blockAddr 16 k.toNat + 8) 8)) ++ a else a.setWidth 128

/-- An alpha block with the palette of its row: BLK holds the block being decoded, and the palette is ready for the
block's own row (assumption log 1). -/
def alphaTurn (ap : Vector Byte 8) (a : BitVec 64) (s : State) : BcRegs :=
  { s.bc with blk := alphaBlk s.cmd s.bc.k a, work := loadAlpha ap a s.bc.work, palette := true }

/-! ### Pixels of one block -/

/-- The pixels of a BC1 block from the loaded registers (R133). -/
def bc1Pixels (w : BcWork) : List Pixel := texels (colorAt w)

/-- The pixels of a BC2 block from the loaded registers (R141). -/
def bc2Pixels (w : BcWork) : List Pixel := texels fun i => { colorAt w i with a := amapAt w.amap i }

/-- The pixels of a BC3 block from the loaded registers (R153). -/
def bc3Pixels (w : BcWork) : List Pixel := texels fun i => { colorAt w i with a := alphaAt w.ap w.idx3 i }

/-- `(0, 0, 0, 255)` with the selected channel set to `v` (R161). -/
def channelPixel (channel : Nat) (v : Byte) : Pixel :=
  match channel with
  | 0 => ⟨v, 0, 0, 255⟩
  | 1 => ⟨0, v, 0, 255⟩
  | 2 => ⟨0, 0, v, 255⟩
  | 3 => ⟨0, 0, 0, v⟩
  | _ => ⟨0, 0, 0, 255⟩

/-- The pixels of a BC4 block from the loaded registers (R161). -/
def bc4Pixels (channel : Nat) (w : BcWork) : List Pixel := texels fun i => channelPixel channel (alphaAt w.ap w.idx3 i)

/-- A BC1 block in the given mode: registers loaded, pixels written (R131–R133). -/
def bc1Turn (hasAlphaOrBlack : Bool) (blk : BitVec 64) (s : State) : Turn BcRegs :=
  let w := loadColor s.params blk hasAlphaOrBlack s.cmd.useAlpha s.bc.work
  bcEmit s.cmd { s.bc with blk := blk.setWidth 128, work := w } (bc1Pixels w)

/-! ### Commands -/

/-- decodeBC1, command 0x01 (R134). -/
def execDecodeBC1 (s : State) : Host.Outcome State Fault Refusal :=
  settle putBc (startCommand s) (bcStart 8 s.cmd)

/-- decodeBC2, command 0x02 (R140). -/
def execDecodeBC2 (s : State) : Host.Outcome State Fault Refusal :=
  settle putBc (startCommand s) (bcStart 16 s.cmd)

/-- decodeBC3, command 0x03 (R150). -/
def execDecodeBC3 (s : State) : Host.Outcome State Fault Refusal :=
  settle putBc (startCommand s) (bcStart 16 s.cmd)

/-- decodeBC4, command 0x04 (R160): the channel is checked before the input length (R315). -/
def execDecodeBC4 (s : State) : Host.Outcome State Fault Refusal :=
  settle putBc (startCommand s) (if 3 < s.cmd.channel.toNat then .fail ⟨.badParameter, 0⟩ else bcStart 8 s.cmd)

/-- decodeBC5, command 0x05: always Unimplemented (R166). -/
def execDecodeBC5 (s : State) : Host.Outcome State Fault Refusal :=
  .next (raiseFail ⟨.unimplemented, 0⟩ s)

/-- decodeBC6, command 0x06: always Unimplemented (R166). -/
def execDecodeBC6 (s : State) : Host.Outcome State Fault Refusal :=
  .next (raiseFail ⟨.unimplemented, 0⟩ s)

/-! ### Blocks -/

/-- BC1.block4: four-colour mode (R131–R133). -/
def execBc1Block4 (blk : BitVec 64) (s : State) : Host.Outcome State Fault Refusal :=
  settle putBc s (bc1Turn false blk s)

/-- BC1.block3: three-colour mode (R131–R133). -/
def execBc1Block3 (blk : BitVec 64) (s : State) : Host.Outcome State Fault Refusal :=
  settle putBc s (bc1Turn true blk s)

/-- BC2.block (R141): the explicit alpha map and a colour part that is always four-colour. -/
def execBc2Block (blk : BitVec 128) (s : State) : Host.Outcome State Fault Refusal :=
  let w := { loadColor s.params (blk.extractLsb' 64 64) false false s.bc.work with amap := blk.extractLsb' 0 64 }
  settle putBc s (bcEmit s.cmd { s.bc with blk := blk, work := w } (bc2Pixels w))

/-- ALPHA.interp8: BLK and the alpha registers with the eight-value palette (R151, R152). -/
def execAlphaInterp8 (blk : BitVec 64) (s : State) : Host.Outcome State Fault Refusal :=
  .next (putBc s (alphaTurn (alphaPalette8 s.params (blk.extractLsb' 0 8) (blk.extractLsb' 8 8)) blk s))

/-- ALPHA.interp6: BLK and the alpha registers with the palette of six values, 0 and 255 (R151, R152). -/
def execAlphaInterp6 (blk : BitVec 64) (s : State) : Host.Outcome State Fault Refusal :=
  .next (putBc s (alphaTurn (alphaPalette6 s.params (blk.extractLsb' 0 8) (blk.extractLsb' 8 8)) blk s))

/-- BC3.block (R153): alpha from the palette register AP, which the block's ALPHA row has built, and a colour part that is
always four-colour. -/
def execBc3Block (blk : BitVec 128) (s : State) : Host.Outcome State Fault Refusal :=
  let w := loadColor s.params (blk.extractLsb' 64 64) false false (loadAlpha s.bc.work.ap (blk.extractLsb' 0 64) s.bc.work)
  settle putBc s (bcEmit s.cmd { s.bc with blk := blk, work := w } (bc3Pixels w))

/-- BC4.block (R161): the selected channel from the palette register AP, which the block's ALPHA row has built. -/
def execBc4Block (blk : BitVec 64) (s : State) : Host.Outcome State Fault Refusal :=
  let w := loadAlpha s.bc.work.ap blk s.bc.work
  settle putBc s (bcEmit s.cmd { s.bc with blk := blk.setWidth 128, work := w } (bc4Pixels s.cmd.channel.toNat w))

end Sys2Proof.Machine
end

