-- ==== Sys2Proof/Machine/Bc7.lean ====
section
/-! DEFINITION. The BC7 command and its nine block rows (45_bc7.md), one shared decode by the steps of R171–R181 over the
mode table and the tables of ROM. -/

namespace Sys2Proof.Machine

/-! ### Tables (46_bc7_tables.md) -/

/-- The row of the mode table (30_encoding.md R78). -/
def modeRow (rom : Rom) (m : Nat) : Bc7Mode := rom.modes.getD m ⟨0, 0, 0, 0, 0, 0, 0, 0, 0, 0⟩

/-- `PARTITION2[p][i]`: bit `i` of the mask `M2[p]` (R200). -/
def partition2At (rom : Rom) (p i : Nat) : Nat := ((rom.partition2.getD p 0).toNat >>> i) % 2

/-- `PARTITION3[p][i]`: digit `i` of row `p` (R202). -/
def partition3At (rom : Rom) (p i : Nat) : Nat := rom.partition3.getD p 0 / 10 ^ (15 - i) % 10

/-- `SubsetMap(NS, partition)` at texel `i` (R176). -/
def subsetAt (rom : Rom) (ns p i : Nat) : Nat :=
  match ns with
  | 2 => partition2At rom p i
  | 3 => partition3At rom p i
  | _ => 0

/-- The anchors of the first index set (R177). -/
def anchorsOf (rom : Rom) (ns p : Nat) : List Nat :=
  match ns with
  | 2 => [0, rom.anchor2.getD p 0]
  | 3 => [0, rom.anchor3s1.getD p 0, rom.anchor3s2.getD p 0]
  | _ => [0]

/-! ### Fields (R171, R173, R174, R177) -/

/-- `n` consecutive fields of `w` bits from bit `pos`. -/
def fieldRun (b : BitVec 128) (pos w n : Nat) : List Nat := (List.range n).map fun e => blkBits b (pos + w * e) w

/-- An index set from texel `i`, `n` texels, from bit `pos`: an anchor has one bit less (R88, R177). -/
def indexRun (b : BitVec 128) (anchors : List Nat) (w : Nat) : Nat → Nat → Nat → List Nat
  | 0, _, _ => []
  | n + 1, i, pos =>
    let k := if anchors.contains i then w - 1 else w
    blkBits b pos k :: indexRun b anchors w n (i + 1) (pos + k)

/-- The bit after an index set (R177: `pos` at the end of its loop). -/
def indexEnd (anchors : List Nat) (w : Nat) : Nat → Nat → Nat → Nat
  | 0, _, pos => pos
  | n + 1, i, pos => indexEnd anchors w n (i + 1) (pos + if anchors.contains i then w - 1 else w)

/-- The raw fields of a block of mode `m` (R171, R173, R177). `pbits` are the p-bits in their stored order. -/
structure Bc7Fields where
  partition : Nat
  rotation  : Nat
  idxMode   : Nat
  r         : List Nat
  g         : List Nat
  b         : List Nat
  a         : List Nat
  pbits     : List Nat
  i1        : List Nat
  i2        : List Nat
deriving DecidableEq, Repr

/-- Bit where the red components start: after the mode, partition, rotation and index-selection fields (R171). -/
def endpointPos (md : Bc7Mode) (m : Nat) : Nat := m + 1 + md.pb + md.rb + md.isb

/-- Bit where the p-bits start: after `2*NS` endpoints of three colour components and, if present, alpha (R79, R173). -/
def pbitPos (md : Bc7Mode) (m : Nat) : Nat := endpointPos md m + 2 * md.ns * (3 * md.cb + md.ab)

/-- How many p-bits a block holds: one per endpoint or one per subset (R174). -/
def pbitCount (md : Bc7Mode) : Nat := 2 * md.ns * md.epb + md.ns * md.spb

/-- The fields of a block of mode `m`, read in the order of R171. -/
def bc7Fields (rom : Rom) (m : Nat) (blk : BitVec 128) : Bc7Fields :=
  let md := modeRow rom m
  let nep := 2 * md.ns
  let p := blkBits blk (m + 1) md.pb
  let e := endpointPos md m
  let idx := pbitPos md m + pbitCount md
  let anchors := anchorsOf rom md.ns p
  { partition := p
    rotation := blkBits blk (m + 1 + md.pb) md.rb
    idxMode := blkBits blk (m + 1 + md.pb + md.rb) md.isb
    r := fieldRun blk e md.cb nep
    g := fieldRun blk (e + nep * md.cb) md.cb nep
    b := fieldRun blk (e + 2 * nep * md.cb) md.cb nep
    a := if md.ab = 0 then [] else fieldRun blk (e + 3 * nep * md.cb) md.ab nep
    pbits := fieldRun blk (pbitPos md m) 1 (pbitCount md)
    i1 := indexRun blk anchors md.ib 16 0 idx
    i2 := if md.ib2 = 0 then [] else indexRun blk [0] md.ib2 16 0 (indexEnd anchors md.ib 16 0 idx) }

/-! ### Endpoints (R174, R175) -/

/-- The p-bit of endpoint `e`, if its mode has one: its own, or its subset's (R174). -/
def pbitOf (md : Bc7Mode) (f : Bc7Fields) (e : Nat) : Option Nat :=
  if md.epb = 1 then some (f.pbits.getD e 0)
  else if md.spb = 1 then some (f.pbits.getD (e / 2) 0)
  else none

/-- A component after p-bit reconstruction and precision expansion (R174, R175). -/
def expandComponent (pb : Option Nat) (v width : Nat) : Byte :=
  match pb with
  | some p => bc7Expand ((v <<< 1) ||| p) (width + 1)
  | none => bc7Expand v width

/-- The p-bit an alpha component takes: only a per-endpoint one (R174). -/
def alphaPbit (md : Bc7Mode) (f : Bc7Fields) (e : Nat) : Option Nat :=
  if md.epb = 1 then some (f.pbits.getD e 0) else none

/-- Endpoint `e` in 8-bit components; alpha is 255 in a mode without alpha (R175). -/
def endpointAt (md : Bc7Mode) (f : Bc7Fields) (e : Nat) : Pixel where
  r := expandComponent (pbitOf md f e) (f.r.getD e 0) md.cb
  g := expandComponent (pbitOf md f e) (f.g.getD e 0) md.cb
  b := expandComponent (pbitOf md f e) (f.b.getD e 0) md.cb
  a := if md.ab = 0 then 255 else expandComponent (alphaPbit md f e) (f.a.getD e 0) md.ab

/-! ### Texels (R178, R179) -/

/-- `Rotate(p, rotation)` (R179). -/
def rotatePixel (p : Pixel) (rotation : Nat) : Pixel :=
  match rotation with
  | 1 => { p with r := p.a, a := p.r }
  | 2 => { p with g := p.a, a := p.g }
  | 3 => { p with b := p.a, a := p.b }
  | _ => p

/-- Index and width a texel's colour takes, from the loaded registers (R178). -/
def colorIndex (md : Bc7Mode) (w : BcWork) (i : Nat) : Nat × Nat :=
  if md.ib2 = 0 then ((entry w.i1 i 0).toNat, md.ib)
  else if w.idxMode = 0 then ((entry w.i1 i 0).toNat, md.ib)
  else ((entry w.i2 i 0).toNat, md.ib2)

/-- Index and width a texel's alpha takes, from the loaded registers (R178). -/
def alphaIndex (md : Bc7Mode) (w : BcWork) (i : Nat) : Nat × Nat :=
  if md.ib2 = 0 then ((entry w.i1 i 0).toNat, md.ib)
  else if w.idxMode = 0 then ((entry w.i2 i 0).toNat, md.ib2)
  else ((entry w.i1 i 0).toNat, md.ib)

/-- `Texel` of R178 before rotation, between the endpoints `a` and `b` of its subset. -/
def blendTexel (rom : Rom) (md : Bc7Mode) (ci ai : Nat × Nat) (a b : Pixel) : Pixel where
  r := bc7Interp rom a.r b.r ci.2 ci.1
  g := bc7Interp rom a.g b.g ci.2 ci.1
  b := bc7Interp rom a.b b.b ci.2 ci.1
  a := if md.ab = 0 then 255 else bc7Interp rom a.a b.a ai.2 ai.1

/-- Texel `i` of a block from the loaded registers (R178, R179). -/
def bc7Texel (rom : Rom) (md : Bc7Mode) (w : BcWork) (i : Nat) : Pixel :=
  let s := (entry w.subset i 0).toNat
  rotatePixel
    (blendTexel rom md (colorIndex md w i) (alphaIndex md w i) (entry w.endpoints (2 * s) ⟨0, 0, 0, 0⟩)
      (entry w.endpoints (2 * s + 1) ⟨0, 0, 0, 0⟩))
    w.rotation.toNat

/-- The pixels of a block of mode `m` below 8 from the loaded registers (R171). -/
def bc7Pixels (rom : Rom) (m : Nat) (w : BcWork) : List Pixel := texels (bc7Texel rom (modeRow rom m) w)

/-- The BC7 working registers of R30 after a block of mode `m`. A mode writes the `2*NS` endpoints it has, and I2 if it has
a second index set; the other entries stay as they are. -/
def loadBc7 (rom : Rom) (m : Nat) (blk : BitVec 128) (w : BcWork) : BcWork :=
  let md := modeRow rom m
  let f := bc7Fields rom m blk
  { w with
    mode := BitVec.ofNat 4 m
    partition := BitVec.ofNat 6 f.partition
    rotation := BitVec.ofNat 2 f.rotation
    idxMode := BitVec.ofNat 1 f.idxMode
    endpoints := tabulate 6 fun e => if e < 2 * md.ns then endpointAt md f e else entry w.endpoints e ⟨0, 0, 0, 0⟩
    i1 := tabulate 16 fun i => BitVec.ofNat 4 (f.i1.getD i 0)
    i2 := if md.ib2 = 0 then w.i2 else tabulate 16 fun i => BitVec.ofNat 4 (f.i2.getD i 0)
    subset := tabulate 16 fun i => BitVec.ofNat 2 (subsetAt rom md.ns f.partition i) }

/-- One block of mode `m`: registers loaded, texels written through the frame (R171, R130). -/
def bc7Turn (m : Nat) (blk : BitVec 128) (s : State) : Turn BcRegs :=
  let w := loadBc7 s.rom m blk s.bc.work
  bcEmit s.cmd { s.bc with blk := blk, work := w } (bc7Pixels s.rom m w)

/-- `ReservedFill()`: sixteen texels (255, 0, 255, 255) (R180). -/
def reservedPixels : List Pixel := texels fun _ => ⟨255, 0, 255, 255⟩

/-! ### Rows -/

/-- decodeBC7, command 0x07 (R170). -/
def execDecodeBC7 (s : State) : Host.Outcome State Fault Refusal :=
  settle putBc (startCommand s) (bcStart 16 s.cmd)

/-- BC7.mode0 (R182). -/
def execBc7Mode0 (blk : BitVec 128) (s : State) : Host.Outcome State Fault Refusal := settle putBc s (bc7Turn 0 blk s)

/-- BC7.mode1 (R183). -/
def execBc7Mode1 (blk : BitVec 128) (s : State) : Host.Outcome State Fault Refusal := settle putBc s (bc7Turn 1 blk s)

/-- BC7.mode2 (R184). -/
def execBc7Mode2 (blk : BitVec 128) (s : State) : Host.Outcome State Fault Refusal := settle putBc s (bc7Turn 2 blk s)

/-- BC7.mode3 (R185). -/
def execBc7Mode3 (blk : BitVec 128) (s : State) : Host.Outcome State Fault Refusal := settle putBc s (bc7Turn 3 blk s)

/-- BC7.mode4 (R186). -/
def execBc7Mode4 (blk : BitVec 128) (s : State) : Host.Outcome State Fault Refusal := settle putBc s (bc7Turn 4 blk s)

/-- BC7.mode5 (R187). -/
def execBc7Mode5 (blk : BitVec 128) (s : State) : Host.Outcome State Fault Refusal := settle putBc s (bc7Turn 5 blk s)

/-- BC7.mode6 (R188). -/
def execBc7Mode6 (blk : BitVec 128) (s : State) : Host.Outcome State Fault Refusal := settle putBc s (bc7Turn 6 blk s)

/-- BC7.mode7 (R189). -/
def execBc7Mode7 (blk : BitVec 128) (s : State) : Host.Outcome State Fault Refusal := settle putBc s (bc7Turn 7 blk s)

/-- BC7.reserved: magenta fill, not an error (R180, 60_exceptions.md R317). -/
def execBc7Reserved (blk : BitVec 128) (s : State) : Host.Outcome State Fault Refusal :=
  settle putBc s (bcEmit s.cmd { s.bc with blk := blk, work := { s.bc.work with mode := 8 } } reservedPixels)

end Sys2Proof.Machine
end

