-- ==== Sys2Proof/Machine/Lz4.lean ====
section
/-! DEFINITION. The LZ4 chain decompressor (49_lz4chain.md). A sequence is its token byte's row LZ4.SEQ; where the token
calls for a length extension the sequence waits for the row LZ4.EXT and goes on from there (assumption log 1). -/

namespace Sys2Proof.Machine

/-! ### The end of a chunk and of the command -/

/-- `Lz4DictUpdate(DICT, CH)` (R288). -/
def dictUpdate (dict ch : List Byte) : List Byte := lastBytes dictMax (dict ++ ch)

/-- `Lz4Finish()` (R289): the position check, then the size check. -/
def lz4Finish (declared : Nat) (e : Lz4Regs) : Turn Lz4Regs :=
  if e.ip ≠ declared then .fail ⟨.blockLengthMismatch, e.ip⟩
  else if e.total.length ≠ e.target.toNat then .fail ⟨.sizeMismatch, e.ip⟩
  else .done e (.decodedBytes e.total)

/-- The end of a chunk in the loop of R280: TOTAL and DICT take the chunk's output, and the last chunk ends the
command. -/
def lz4EndChunk (declared : Nat) (e : Lz4Regs) : Turn Lz4Regs :=
  let e' := { e with total := e.total ++ e.ch, dict := dictUpdate e.dict e.ch, ch := [], phase := .chunk }
  if isLast e.last then lz4Finish declared e' else .run e'

/-- At a sequence boundary: the chunk ends when its payload is used up (R287), else the next sequence follows. -/
def lz4Boundary (declared : Nat) (e : Lz4Regs) : Turn Lz4Regs :=
  if e.ip < e.chunkEnd then .run { e with phase := .seq } else lz4EndChunk declared e

/-! ### The parts of a sequence (R284) -/

/-- `CheckOutput()` (R290). -/
def lz4Check (p : Params) (e : Lz4Regs) : Turn Lz4Regs :=
  if overruns p (e.total.length + e.ch.length) then .fail ⟨.outputOverrun, e.ip⟩ else .run e

/-- `Lz4Match(O, ML, tok)` (R286), then the boundary. -/
def lz4Match (p : Params) (declared o n : Nat) (e : Lz4Regs) : Turn Lz4Regs :=
  if o = 0 ∨ e.dict.length + e.ch.length < o then .fail ⟨.invalidOffset, e.tok⟩
  else (lz4Check p { e with ch := copyDict e.dict o n e.ch }).andThen (lz4Boundary declared)

/-- The offset `O` and the match length (R284): `ML` is known from the token, or waits for its extension. -/
def lz4Offset (p : Params) (inp : List Byte) (declared : Nat) (e : Lz4Regs) : Turn Lz4Regs :=
  if e.chunkEnd < e.ip + 2 then .fail ⟨.malformedChunk, e.chunkEnd⟩
  else
    let o := leNat (inSlice inp e.ip 2)
    let e' := { e with ip := e.ip + 2, off := BitVec.ofNat 16 o }
    if e.ml = 15 then .run { e' with phase := .matchLen } else lz4Match p declared o (e.ml.toNat + 4) e'

/-- The literals and what follows them (R284): the literal bound, the copy, `CheckOutput()`, and the end of the chunk or
the offset. -/
def lz4Literals (p : Params) (inp : List Byte) (declared n : Nat) (e : Lz4Regs) : Turn Lz4Regs :=
  if e.chunkEnd < e.ip + n then .fail ⟨.malformedChunk, e.chunkEnd⟩
  else
    (lz4Check p { e with ch := e.ch ++ inSlice inp e.ip n, ip := e.ip + n }).andThen fun e' =>
      if e'.ip = e'.chunkEnd then lz4EndChunk declared e' else lz4Offset p inp declared e'

/-! ### Rows -/

/-- decompressLz4Chain, command 0x12 (R280). DESIGN CHOICE (assumption log 4): `target` and `chunkEnd` are 0 until
LZ4.TARGET and the first LZ4.CHUNK write them; 10_state.md R36 and 70_reset_and_hazards.md R341 give them no value before. -/
def execDecompressLz4Chain (s : State) : Host.Outcome State Fault Refusal :=
  .next (putLz4 (startCommand s) Lz4Regs.reset)

/-- LZ4.TARGET: the block header (R281). -/
def execLz4Target (target : BitVec 32) (s : State) : Host.Outcome State Fault Refusal :=
  .next (putLz4 s { s.lz4 with target := target, ip := s.lz4.ip + 4, phase := .chunk })

/-- `Lz4ChunkBounds(size)` and the start of a chunk (R283, R280). -/
def lz4Bounds (p : Params) (inp : List Byte) (declared size : Nat) (e : Lz4Regs) : Turn Lz4Regs :=
  if inp.length < e.ip + size then .fail ⟨.inputTruncated, inp.length⟩
  else if size = 0 ∧ ¬ p.lz4EmptyChunkOk then .fail ⟨.malformedChunk, e.ip + size⟩
  else lz4Boundary declared { e with chunkEnd := e.ip + size, ch := [] }

/-- LZ4.CHUNK: a chunk header whose flag byte is in order (R282), then its bounds (R283). -/
def execLz4Chunk (size : BitVec 24) (last : BitVec 1) (s : State) : Host.Outcome State Fault Refusal :=
  settle putLz4 s
    (lz4Bounds s.params s.cmd.input s.cmd.declaredBlockSize.toNat size.toNat
      { s.lz4 with ip := s.lz4.ip + 4, last := last })

/-- LZ4.SEQ: the token byte, and the sequence as far as it needs no extension (R284). -/
def execLz4Seq (ll ml : BitVec 4) (s : State) : Host.Outcome State Fault Refusal :=
  let e : Lz4Regs := { s.lz4 with tok := s.lz4.ip, ml := ml, ip := s.lz4.ip + 1 }
  settle putLz4 s
    (if ll = 15 then .run { e with phase := .litLen }
     else lz4Literals s.params s.cmd.input s.cmd.declaredBlockSize.toNat ll.toNat e)

/-- LZ4.EXT: a length extension worth `255*ffs + v` (R285), and the sequence that waits for it (R284). Where no sequence
waits, only the bytes are read. -/
def execLz4Ext (ffs : Nat) (v : BitVec 8) (s : State) : Host.Outcome State Fault Refusal :=
  let e : Lz4Regs := { s.lz4 with ip := s.lz4.ip + (ffs + 1) }
  settle putLz4 s
    (match s.lz4.phase with
     | .litLen => lz4Literals s.params s.cmd.input s.cmd.declaredBlockSize.toNat (15 + (255 * ffs + v.toNat)) e
     | .matchLen => lz4Match s.params s.cmd.declaredBlockSize.toNat s.lz4.off.toNat (15 + 4 + (255 * ffs + v.toNat)) e
     | .target | .chunk | .seq => .run e)

end Sys2Proof.Machine
end

