-- ==== Sys2Proof/Machine/Lzo.lean ====
section
/-! DEFINITION. The LZO1X token state machine (48_lzo1x.md). A token whose length field is 0 is two rows: LZO.EXT reads the
control byte and the length extension, then the token's own row runs (assumption log 1). -/

namespace Sys2Proof.Machine

/-! ### Shared steps -/

/-- `CheckOutput()` (R256). -/
def lzoCheck (p : Params) (e : LzoRegs) : Turn LzoRegs :=
  if overruns p e.out.length then .fail ⟨.outputOverrun, e.ip⟩ else .run e

/-- `CopyLiterals(n)` (R254). -/
def lzoLiterals (p : Params) (inp : List Byte) (n : Nat) (e : LzoRegs) : Turn LzoRegs :=
  if inp.length < e.ip + n then .fail ⟨.inputTruncated, inp.length⟩
  else lzoCheck p { e with out := e.out ++ inSlice inp e.ip n, ip := e.ip + n }

/-- `CopyMatch(d, n, tok)` (R253). -/
def lzoMatch (p : Params) (d n tok : Nat) (e : LzoRegs) : Turn LzoRegs :=
  if e.out.length < d then .fail ⟨.invalidOffset, tok⟩
  else lzoCheck p { e with out := copyBack d n e.out }

/-- `Trailing(s)` (R252). -/
def lzoTrailing (p : Params) (inp : List Byte) (s : Nat) (e : LzoRegs) : Turn LzoRegs :=
  let e' := { e with t := BitVec.ofNat 32 s }
  if s = 0 then .run { e' with st := .outer }
  else (lzoLiterals p inp s e').andThen fun e'' => .run { e'' with st := .afterShort }

/-- A token that copies: `CopyMatch`, then `Trailing`. -/
def lzoMatchToken (p : Params) (inp : List Byte) (d n tok s : Nat) (e : LzoRegs) : Turn LzoRegs :=
  (lzoMatch p d n tok e).andThen (lzoTrailing p inp s)

/-- The registers once a token's control byte `t` and the `k` bytes after it are read; the control byte has been read
already when the token's length extension has (R241). -/
def lzoTake (extended : Bool) (t k : Nat) (e : LzoRegs) : LzoRegs :=
  { e with t := BitVec.ofNat 32 t, ip := e.ip + (if extended then 0 else 1) + k, ext := none }

/-- `tok` of R241: the offset of the token's control byte. -/
def lzoTok (extended : Bool) (e : LzoRegs) : Nat := if extended then e.tok else e.ip

/-- `Ext(base)` of R242, from the extension that the LZO.EXT row has read. -/
def lzoExtLen (base : Nat) (e : LzoRegs) : Nat := base + e.ext.getD 0

/-- `L if L != 0 else Ext(base)` (R249, R250). -/
def lzoLen (base l : Nat) (e : LzoRegs) : Nat := if l = 0 then lzoExtLen base e else l

/-- `LzoFinish()` (R255). -/
def lzoFinish (p : Params) (inp : List Byte) (expected : Nat) (e : LzoRegs) : Turn LzoRegs :=
  if e.out.length ≠ expected then .fail ⟨.sizeMismatch, e.ip⟩
  else if p.lzoRequireAllInput ∧ e.ip ≠ inp.length then .fail ⟨.blockLengthMismatch, e.ip⟩
  else .done e (.decodedBytes e.out)

/-- `LzoStart()` where nothing is consumed (R244): the state after the command's initialisation. -/
def lzoInit (inp : List Byte) : LzoRegs :=
  match inp with
  | b :: _ => if 17 < b.toNat then LzoRegs.reset else { LzoRegs.reset with st := .outer }
  | [] => { LzoRegs.reset with st := .outer }

/-! ### Rows -/

/-- lzoDecompress, command 0x11 (R243), with the part of LzoStart that consumes nothing (R244). -/
def execLzoDecompress (s : State) : Host.Outcome State Fault Refusal :=
  .next (putLzo (startCommand s) (lzoInit s.cmd.input))

/-- LZO.FIRSTLIT: the first literal run of LzoStart (R244). -/
def execLzoFirstLit (b : BitVec 8) (s : State) : Host.Outcome State Fault Refusal :=
  settle putLzo s
    ((lzoLiterals s.params s.cmd.input (b.toNat - 17) { s.lzo with ip := s.lzo.ip + 1 }).andThen fun e =>
      .run { e with st := if b.toNat - 17 ≤ 3 then .afterShort else .afterRun })

/-- LZO.LIT_EXT: `LzoLiteralRun(0)` (R245), after its length extension. -/
def execLzoLitExt (s : State) : Host.Outcome State Fault Refusal :=
  settle putLzo s
    ((lzoLiterals s.params s.cmd.input (lzoExtLen 15 s.lzo + 3) (lzoTake true 0 0 s.lzo)).andThen fun e =>
      .run { e with st := .afterRun })

/-- LZO.LIT: `LzoLiteralRun(t)` for `t` in 1..15 (R245). -/
def execLzoLit (l : BitVec 4) (s : State) : Host.Outcome State Fault Refusal :=
  settle putLzo s
    ((lzoLiterals s.params s.cmd.input (l.toNat + 3) (lzoTake false l.toNat 0 s.lzo)).andThen fun e =>
      .run { e with st := .afterRun })

/-- LZO.M1_FAR: `LzoM1Far(t, tok)` (R246). -/
def execLzoM1Far (d s2 : BitVec 2) (h : BitVec 8) (s : State) : Host.Outcome State Fault Refusal :=
  settle putLzo s
    (lzoMatchToken s.params s.cmd.input (2049 + d.toNat + h.toNat * 4) 3 (lzoTok false s.lzo) s2.toNat
      (lzoTake false (d.toNat * 4 + s2.toNat) 1 s.lzo))

/-- LZO.M1_NEAR: `LzoM1Near(t, tok)` (R247). -/
def execLzoM1Near (d s2 : BitVec 2) (h : BitVec 8) (s : State) : Host.Outcome State Fault Refusal :=
  settle putLzo s
    (lzoMatchToken s.params s.cmd.input (1 + d.toNat + h.toNat * 4) 2 (lzoTok false s.lzo) s2.toNat
      (lzoTake false (d.toNat * 4 + s2.toNat) 1 s.lzo))

/-- LZO.M2: `LzoM2(t, tok)` (R248). -/
def execLzoM2 (l d : BitVec 3) (s2 : BitVec 2) (h : BitVec 8) (s : State) : Host.Outcome State Fault Refusal :=
  settle putLzo s
    (lzoMatchToken s.params s.cmd.input (1 + d.toNat + h.toNat * 8) (l.toNat + 1) (lzoTok false s.lzo) s2.toNat
      (lzoTake false (l.toNat * 32 + d.toNat * 4 + s2.toNat) 1 s.lzo))

/-- LZO.M3: `LzoM3(t, tok)` (R249). -/
def execLzoM3 (l : BitVec 5) (w : BitVec 16) (s : State) : Host.Outcome State Fault Refusal :=
  settle putLzo s
    (lzoMatchToken s.params s.cmd.input (1 + w.toNat / 4) (lzoLen 31 l.toNat s.lzo + 2)
      (lzoTok (decide (l = 0)) s.lzo) (w.toNat % 4) (lzoTake (decide (l = 0)) (32 + l.toNat) 2 s.lzo))

/-- LZO.M4: `LzoM4(t, tok)` with a raw distance that is not 0 (R250). -/
def execLzoM4 (h : BitVec 1) (l : BitVec 3) (w : BitVec 16) (s : State) : Host.Outcome State Fault Refusal :=
  settle putLzo s
    (lzoMatchToken s.params s.cmd.input (h.toNat * 16384 + w.toNat / 4 + 16384) (lzoLen 7 l.toNat s.lzo + 2)
      (lzoTok (decide (l = 0)) s.lzo) (w.toNat % 4) (lzoTake (decide (l = 0)) (16 + h.toNat * 8 + l.toNat) 2 s.lzo))

/-- LZO.EOF: `LzoEof()`, then `LzoFinish()` (R251, R255). `D0 & 3` is ignored. -/
def execLzoEof (l : BitVec 3) (_ : BitVec 2) (s : State) : Host.Outcome State Fault Refusal :=
  settle putLzo s
    (lzoFinish s.params s.cmd.input s.cmd.expectedSize.toNat
      { lzoTake (decide (l = 0)) (16 + l.toNat) 2 s.lzo with st := .eof })

/-- LZO.EXT: the control byte at `ip` is read (R241) and then the length extension after it (R242): `zeros` bytes 0x00 and
the byte `v`, worth `255*zeros + v`. -/
def execLzoExt (zeros : Nat) (v : BitVec 8) (s : State) : Host.Outcome State Fault Refusal :=
  settle putLzo s
    (match memRead s.cmd.input s.lzo.ip 1 with
     | .error e => .fail e
     | .ok t => .run { s.lzo with
         t := BitVec.ofNat 32 t
         tok := s.lzo.ip
         ip := s.lzo.ip + 1 + (zeros + 1)
         ext := some (255 * zeros + v.toNat) })

end Sys2Proof.Machine
end

