-- ==== Sys2Proof/Machine/Lzss.lean ====
section
/-! DEFINITION. The LZSS ring-buffer decompressor (47_lzss.md). LzssStep of R212 is two rows when it reads a flag byte:
LZSS.FLAGS, then the token (assumption log 1). -/

namespace Sys2Proof.Machine

/-- `LzssInit()` (R211). -/
def lzssInit (c : CmdRecord) : LzssRegs := { LzssRegs.reset with ip := c.offset.toNat }

/-- `LzssEmit(c)` (R215): output, ring, cursor and checksum. -/
def lzssEmit (signed : Bool) (e : LzssRegs) (c : Byte) : LzssRegs :=
  { e with
    out := e.out ++ [c]
    ring := Memory.write ringFill e.ring e.r.toNat c
    r := e.r + 1
    csum := e.csum + widen signed c }

/-- `RING[(r - off) mod 4096]` (R213, R214). -/
def lzssRead (e : LzssRegs) (off : BitVec 12) : Byte :=
  (Memory.read ringFill e.ring (ringSlot e.r off)).getD ringFillByte

/-- `repeat n times: c <- RING[(r - off) mod 4096]; LzssEmit(c)` (R216). -/
def lzssCopy (signed : Bool) (off : BitVec 12) : Nat → LzssRegs → LzssRegs
  | 0, e => e
  | n + 1, e => lzssCopy signed off n (lzssEmit signed e (lzssRead e off))

/-- A token's registers once its `k` bytes are read: the flag register advanced (R212) and `ip` moved. -/
def lzssTake (e : LzssRegs) (k : Nat) : LzssRegs := { e with flags := flagsForToken e, fresh := false, ip := e.ip + k }

/-- Bytes a back-reference copies: `(b1 & 0x0F) + 3` (R216). -/
def lzssRefLen (l : BitVec 4) : Nat := l.toNat + 3

/-- lzssDecompress, command 0x10 (R210, R211). -/
def execLzssDecompress (s : State) : Host.Outcome State Fault Refusal :=
  .next (putLzss (startCommand s) (lzssInit s.cmd))

/-- LZSS.FLAGS: the refill of the flag register (R212). -/
def execLzssFlags (kinds : BitVec 8) (s : State) : Host.Outcome State Fault Refusal :=
  .next (putLzss s { s.lzss with flags := flagsRefill kinds, fresh := true, ip := s.lzss.ip + 1 })

/-- LZSS.LIT: `LzssLiteral()` (R215). -/
def execLzssLit (v : BitVec 8) (s : State) : Host.Outcome State Fault Refusal :=
  .next (putLzss s (lzssEmit s.cmd.signedChecksum (lzssTake s.lzss 1) v))

/-- LZSS.REF: `LzssBackRef()` (R216), with the overflow check of R218 before anything is copied. -/
def execLzssRef (off : BitVec 12) (l : BitVec 4) (s : State) : Host.Outcome State Fault Refusal :=
  settle putLzss s
    (if s.cmd.expectedSize.toNat < s.lzss.out.length + lzssRefLen l then .fail ⟨.overflow, s.lzss.ip⟩
     else .run (lzssCopy s.cmd.signedChecksum off (lzssRefLen l) (lzssTake s.lzss 2)))

/-- LZSS.CSUM: `LzssFinish()` (R219). -/
def execLzssCsum (stored : BitVec 32) (s : State) : Host.Outcome State Fault Refusal :=
  settle putLzss s
    (if stored ≠ s.lzss.csum then .fail ⟨.checksumMismatch, s.lzss.ip⟩
     else .done { s.lzss with ip := s.lzss.ip + 4 }
      (.lzssData s.lzss.out (s.lzss.ip + 4 - s.cmd.offset.toNat)))

end Sys2Proof.Machine
end

