-- ==== Sys2Proof/Machine/Fetch.lean ====
section
/-! DEFINITION. Where the running command takes its next row from, and what it is. There is no program counter: the block
counter and the input cursors play its part (10_state.md R25, 40_primitives.md R123). -/

namespace Sys2Proof.Machine

/-- The place of the next bytes of a BCn command: block `k` (R130), and for BC3 and BC4 its alpha block first. -/
def bcSite (ctx : DecodeCtx) (blockBytes : Nat) (alphaFirst : Bool) (s : State) : DecodeCtx × List Byte :=
  (if alphaFirst && !s.bc.palette then .alpha else ctx, s.cmd.input.drop (blockAddr blockBytes s.bc.k.toNat))

/-- An LZSS token is a literal or a back-reference by bit 0 of the flag register (47_lzss.md R212). -/
def lzssTokenCtx (f : BitVec 16) : DecodeCtx := if flagsLiteral f then .lzssLit else .lzssRef

/-- The next row of an LZSS command (R210, R212): the trailer once `expectedSize` bytes are produced, a flag byte when the
group is used up, else a token. -/
def lzssSite (s : State) : DecodeCtx × List Byte :=
  (if s.cmd.expectedSize.toNat ≤ s.lzss.out.length then .lzssCsum
   else if s.lzss.fresh then lzssTokenCtx s.lzss.flags
   else if flagsUsedUp (flagsShift s.lzss.flags) then .lzssFlags
   else lzssTokenCtx (flagsShift s.lzss.flags),
   s.cmd.input.drop s.lzss.ip)

/-- The state in which a control byte is read: a first byte that is no first literal run is read in state Outer
(30_encoding.md R92). -/
def lzoReadSt (st : LzoSt) : LzoSt := if st = .start then .outer else st

/-- The next row of an LZO1X command (48_lzo1x.md R240–R244): the first literal run, a length extension, or a token. -/
def lzoSite (s : State) : DecodeCtx × List Byte :=
  if s.lzo.ext.isSome && lzoNeedsExt (lzoReadSt s.lzo.st) (s.lzo.t.setWidth 8) then
    (.lzoBody, s.lzo.t.setWidth 8 :: s.cmd.input.drop s.lzo.ip)
  else
    match s.cmd.input.drop s.lzo.ip with
    | [] => (.lzoToken (lzoReadSt s.lzo.st), [])
    | t :: rest =>
      if s.lzo.st = .start ∧ 17 < t.toNat then (.lzoFirst, t :: rest)
      else if lzoNeedsExt (lzoReadSt s.lzo.st) t then (.lzoExt, rest)
      else (.lzoToken (lzoReadSt s.lzo.st), t :: rest)

/-- The next row of an LZ4 chain command (49_lz4chain.md R280, R284); inside a chunk only the chunk's payload is seen
(R287). -/
def lz4Site (s : State) : DecodeCtx × List Byte :=
  match s.lz4.phase with
  | .target => (.lz4Target, s.cmd.input.drop s.lz4.ip)
  | .chunk => (.lz4Chunk, s.cmd.input.drop s.lz4.ip)
  | .seq => (.lz4Seq, inSlice s.cmd.input s.lz4.ip (s.lz4.chunkEnd - s.lz4.ip))
  | .litLen => (.lz4Ext, inSlice s.cmd.input s.lz4.ip (s.lz4.chunkEnd - s.lz4.ip))
  | .matchLen => (.lz4Ext, inSlice s.cmd.input s.lz4.ip (s.lz4.chunkEnd - s.lz4.ip))

/-- The place and the bytes of the next row. An issued command that has not started is its own first row. -/
def fetchSite (s : State) : DecodeCtx × List Byte :=
  if s.starting then (.command, [s.cmd.op])
  else
    match s.cmd.op.toNat with
    | 0x01 => bcSite .bc1 8 false s
    | 0x02 => bcSite .bc2 16 false s
    | 0x03 => bcSite .bc3 16 true s
    | 0x04 => bcSite .bc4 8 true s
    | 0x07 => bcSite .bc7 16 false s
    | 0x10 => lzssSite s
    | 0x11 => lzoSite s
    | 0x12 => lz4Site s
    | _ => (.command, [s.cmd.op])

/-- The error a rejection raises in its place: an undefined command code (30_encoding.md R71), bad chunk flags at the
header's first byte (R282), a payload cut short (R287), and any other read past `len(IN)` (R313). The last three names
never come from a fetch (Laws/Fetch.lean). -/
def rejectFailure (s : State) (c : DecodeCtx) (r : Reject) : Failure :=
  match r with
  | .noCommand => ⟨.badCommand, 0⟩
  | .unknownFlags => ⟨.unknownFlags, s.lz4.ip⟩
  | .truncated =>
    if c = .lz4Seq ∨ c = .lz4Ext then ⟨.malformedChunk, s.lz4.chunkEnd⟩ else ⟨.inputTruncated, s.cmd.input.length⟩
  | .notFirstRun | .lengthFieldZero | .lengthFieldSet => ⟨.inputTruncated, s.cmd.input.length⟩

/-- What the running command meets next: an instruction, or the error its bytes raise. -/
inductive Fetched where
  | instr (i : Instr)
  | fail (e : Failure)
deriving DecidableEq, Repr

/-- The next row of the running command. -/
def fetch (s : State) : Fetched :=
  match decode (fetchSite s).1 (fetchSite s).2 with
  | .ok i => .instr i
  | .error r => .fail (rejectFailure s (fetchSite s).1 r)

/-! ### Placing an instruction

For State.withFetchWord (assumption log 13): the running command, its input and the engine position that make the next
fetch read given bytes in a given place. -/

/-- A running command `op` whose input is `bs`. -/
def placeCmd (op : Byte) (bs : List Byte) (s : State) : State :=
  { s with status := .busy, starting := false, cmd := { s.cmd with op := op, input := bs } }

/-- A one-block 4×4 image whose block is the bytes; `ready` when the block's alpha row has run. -/
def placeBc (op : Byte) (ready : Bool) (bs : List Byte) (s : State) : State :=
  { placeCmd op bs s with
    cmd := { s.cmd with op := op, input := bs, width := 4, height := 4 }
    bc := { BcRegs.reset with bw := 1, bh := 1, palette := ready } }

/-- An LZSS stream at its first byte, with the flag register given. -/
def placeLzss (expected : BitVec 32) (fresh : Bool) (flags : BitVec 16) (bs : List Byte) (s : State) : State :=
  { placeCmd 0x10 bs s with
    cmd := { s.cmd with op := 0x10, input := bs, offset := 0, expectedSize := expected }
    lzss := { LzssRegs.reset with fresh := fresh, flags := flags } }

/-- An LZO1X stream at its first byte, in state `st`. -/
def placeLzo (st : LzoSt) (bs : List Byte) (s : State) : State :=
  { placeCmd 0x11 bs s with lzo := { LzoRegs.reset with st := st } }

/-- An LZ4 chain block at its first byte, in the given phase of a chunk that holds all the bytes. -/
def placeLz4 (ph : Lz4Phase) (bs : List Byte) (s : State) : State :=
  { placeCmd 0x12 bs s with lz4 := { Lz4Regs.reset with phase := ph, chunkEnd := bs.length } }

/-- The state whose next fetch reads `bs` in place `c`. -/
def placeAt (c : DecodeCtx) (bs : List Byte) (s : State) : State :=
  match c with
  | .command => { s with status := .busy, starting := true, cmd := { s.cmd with op := bs.headD 0 } }
  | .bc1 => placeBc 0x01 false bs s
  | .bc2 => placeBc 0x02 false bs s
  | .alpha => placeBc 0x04 false bs s
  | .bc3 => placeBc 0x03 true bs s
  | .bc4 => placeBc 0x04 true bs s
  | .bc7 => placeBc 0x07 false bs s
  | .lzssFlags => placeLzss 4096 false 0 bs s
  | .lzssLit => placeLzss 4096 true 0xFF01 bs s
  | .lzssRef => placeLzss 4096 true 0xFF00 bs s
  | .lzssCsum => placeLzss 0 false 0 bs s
  | .lzoFirst => placeLzo .start bs s
  | .lzoToken st => placeLzo st bs s
  | .lzoBody =>
    { placeLzo .outer bs.tail s with
      lzo := { LzoRegs.reset with st := .outer, t := (bs.headD 0).setWidth 32, ext := some 1 } }
  | .lzoExt => placeLzo .outer (0x20 :: bs) s
  | .lz4Target => placeLz4 .target bs s
  | .lz4Chunk => placeLz4 .chunk bs s
  | .lz4Seq => placeLz4 .seq bs s
  | .lz4Ext => placeLz4 .litLen bs s

end Sys2Proof.Machine
end

