-- ==== Sys2Proof/Machine/Dispatch.lean ====
section
/-! DEFINITION. exec: one arm per constructor of Instr, each one call of the row's own meaning. -/

namespace Sys2Proof.Machine

/-- The meaning of an instruction. -/
def exec (i : Instr) (s : State) : Host.Outcome State Fault Refusal :=
  match i with
  | .decodeBC1 => Sys2Proof.Machine.execDecodeBC1 s
  | .decodeBC2 => Sys2Proof.Machine.execDecodeBC2 s
  | .decodeBC3 => Sys2Proof.Machine.execDecodeBC3 s
  | .decodeBC4 => Sys2Proof.Machine.execDecodeBC4 s
  | .decodeBC5 => Sys2Proof.Machine.execDecodeBC5 s
  | .decodeBC6 => Sys2Proof.Machine.execDecodeBC6 s
  | .decodeBC7 => Sys2Proof.Machine.execDecodeBC7 s
  | .lzssDecompress => Sys2Proof.Machine.execLzssDecompress s
  | .lzoDecompress => Sys2Proof.Machine.execLzoDecompress s
  | .decompressLz4Chain => Sys2Proof.Machine.execDecompressLz4Chain s
  | .bc1Block4 blk => Sys2Proof.Machine.execBc1Block4 blk s
  | .bc1Block3 blk => Sys2Proof.Machine.execBc1Block3 blk s
  | .bc2Block blk => Sys2Proof.Machine.execBc2Block blk s
  | .alphaInterp8 blk => Sys2Proof.Machine.execAlphaInterp8 blk s
  | .alphaInterp6 blk => Sys2Proof.Machine.execAlphaInterp6 blk s
  | .bc3Block blk => Sys2Proof.Machine.execBc3Block blk s
  | .bc4Block blk => Sys2Proof.Machine.execBc4Block blk s
  | .bc7Mode0 blk => Sys2Proof.Machine.execBc7Mode0 blk s
  | .bc7Mode1 blk => Sys2Proof.Machine.execBc7Mode1 blk s
  | .bc7Mode2 blk => Sys2Proof.Machine.execBc7Mode2 blk s
  | .bc7Mode3 blk => Sys2Proof.Machine.execBc7Mode3 blk s
  | .bc7Mode4 blk => Sys2Proof.Machine.execBc7Mode4 blk s
  | .bc7Mode5 blk => Sys2Proof.Machine.execBc7Mode5 blk s
  | .bc7Mode6 blk => Sys2Proof.Machine.execBc7Mode6 blk s
  | .bc7Mode7 blk => Sys2Proof.Machine.execBc7Mode7 blk s
  | .bc7Reserved blk => Sys2Proof.Machine.execBc7Reserved blk s
  | .lzssFlags kinds => Sys2Proof.Machine.execLzssFlags kinds s
  | .lzssLit v => Sys2Proof.Machine.execLzssLit v s
  | .lzssRef off l => Sys2Proof.Machine.execLzssRef off l s
  | .lzssCsum stored => Sys2Proof.Machine.execLzssCsum stored s
  | .lzoFirstLit b => Sys2Proof.Machine.execLzoFirstLit b s
  | .lzoLitExt => Sys2Proof.Machine.execLzoLitExt s
  | .lzoLit l => Sys2Proof.Machine.execLzoLit l s
  | .lzoM1Far d q h => Sys2Proof.Machine.execLzoM1Far d q h s
  | .lzoM1Near d q h => Sys2Proof.Machine.execLzoM1Near d q h s
  | .lzoM4 h l w => Sys2Proof.Machine.execLzoM4 h l w s
  | .lzoEof l q => Sys2Proof.Machine.execLzoEof l q s
  | .lzoM3 l w => Sys2Proof.Machine.execLzoM3 l w s
  | .lzoM2 l d q h => Sys2Proof.Machine.execLzoM2 l d q h s
  | .lzoExt zeros v => Sys2Proof.Machine.execLzoExt zeros v s
  | .lz4Target target => Sys2Proof.Machine.execLz4Target target s
  | .lz4Chunk size last => Sys2Proof.Machine.execLz4Chunk size last s
  | .lz4Seq ll ml => Sys2Proof.Machine.execLz4Seq ll ml s
  | .lz4Ext ffs v => Sys2Proof.Machine.execLz4Ext ffs v s

end Sys2Proof.Machine
end

