-- ==== Sys2Proof/Machine/Step.lean ====
section
/-! DEFINITION. One step of the machine, and withFetchWord. -/

namespace Sys2Proof.Machine

/-- One step: a Busy engine runs its next row, or fails as the row's bytes require; an engine that is not Busy does nothing
until the host issues a command (70_reset_and_hazards.md R340, R343). -/
def step (s : State) : Host.Outcome State Fault Refusal :=
  match s.status with
  | .busy =>
    match fetch s with
    | .instr i => exec i s
    | .fail e => .next (raiseFail e s)
  | .idle => .next s
  | .done => .next s
  | .failed => .next s

/-- `s` with a table word placed where the next step fetches: an issued command, or a running command whose next bytes are
the word (assumption log 13). -/
def State.withFetchWord (s : State) (nbits w : Nat) : State := placeAt (tableCtx nbits w) (tableBytes nbits w) s

end Sys2Proof.Machine
end

