-- ==== Sys2Proof/Machine/Blocks.lean ====
section
/-! DEFINITION. DecodeBlock of 41_bc1.md R130 as pure functions of one block, and the picture a BCn command returns. They are
written from the block rules and the bit layouts alone, in exact arithmetic, and share no function with the rows of Bc.lean
and Bc7.lean: the machine does not run them, the claims compare its steps with them. -/

namespace Sys2Proof.Machine

/-- The field `v[lo+w-1 : lo]` of a block (00_scope.md R10), 0 when `w` is 0. -/
def fieldOf {n : Nat} (b : BitVec n) (lo w : Nat) : Nat := b.toNat / 2 ^ lo % 2 ^ w

/-- What a division adds to its dividend under each rounding: `n` under `round` (40_primitives.md R114–R117). -/
def roundTerm (m : Rounding) (n : Nat) : Nat :=
  match m with
  | .trunc => 0
  | .round => n

/-- Sixteen pixels, texel 0 first (00_scope.md R14). -/
def sixteen (f : Nat → Pixel) : List Pixel := (List.range 16).map f

/-! ### Colour part (R112–R115, R131, R132) -/

/-- `Expand(v, n)` (R113). -/
def expanded (e : Expand565) (n v : Nat) : Nat :=
  match e with
  | .replicate => v * 2 ^ (8 - n) + v / 2 ^ (2 * n - 8)
  | .scale => (v * 255 + (2 ^ n - 1) / 2) / (2 ^ n - 1)

/-- `(Unpack565(c), 255)` (R112): red in bits 15:11, green in 10:5, blue in 4:0. -/
def colorOf (e : Expand565) (c : Nat) : Pixel :=
  ⟨BitVec.ofNat 8 (expanded e 5 (c / 2048 % 32)), BitVec.ofNat 8 (expanded e 6 (c / 32 % 64)),
    BitVec.ofNat 8 (expanded e 5 (c % 32)), 255⟩

/-- An opaque pixel whose channels R, G and B are a function of those of `x` and `y`. -/
def mixOf (f : Nat → Nat → Nat) (x y : Pixel) : Pixel :=
  ⟨BitVec.ofNat 8 (f x.r.toNat y.r.toNat), BitVec.ofNat 8 (f x.g.toNat y.g.toNat), BitVec.ofNat 8 (f x.b.toNat y.b.toNat),
    255⟩

/-- Entry `j` of `Palette` (R132) for the raw colours `c0` and `c1`, in three-colour mode when `three`. -/
def paletteEntry (p : Params) (c0 c1 : Nat) (three useAlpha : Bool) (j : Nat) : Pixel :=
  let x := colorOf p.expand565 c0
  let y := colorOf p.expand565 c1
  match three, j with
  | _, 0 => x
  | _, 1 => y
  | false, 2 => mixOf (fun a b => (2 * a + b + roundTerm p.colorRound 1) / 3) x y
  | false, _ => mixOf (fun a b => (a + 2 * b + roundTerm p.colorRound 1) / 3) x y
  | true, 2 => mixOf (fun a b => (a + b + roundTerm p.colorRound 1) / 2) x y
  | true, _ => ⟨0, 0, 0, if useAlpha then 0 else 255⟩

/-- Texel `i` of the colour part that starts at bit `lo` (R131, R72). -/
def colorTexel {n : Nat} (p : Params) (b : BitVec n) (lo : Nat) (three useAlpha : Bool) (i : Nat) : Pixel :=
  paletteEntry p (fieldOf b lo 16) (fieldOf b (lo + 16) 16) three useAlpha (fieldOf b (lo + 32 + 2 * i) 2)

/-- `DecodeBC1Block(blk, useAlpha)` (R131–R133): three-colour mode exactly when `c0_raw <= c1_raw`. -/
def decodeBC1Block (p : Params) (useAlpha : Bool) (blk : BitVec 64) : List Pixel :=
  sixteen (colorTexel p blk 0 (decide (fieldOf blk 0 16 ≤ fieldOf blk 16 16)) useAlpha)

/-- `DecodeBC2Block(blk)` (R141, R73): nibble `n` of AMAP gives alpha `(n << 4) | n`, which is `17*n`. -/
def decodeBC2Block (p : Params) (blk : BitVec 128) : List Pixel :=
  sixteen fun i => { colorTexel p blk 64 false false i with a := BitVec.ofNat 8 (17 * fieldOf blk (4 * i) 4) }

/-! ### Alpha part (R116, R117, R151, R152) -/

/-- Entry `j` of `AlphaPalette(a0, a1)` (R152): entry `j` from 2 is `Sevenths` or `Fifths` at `j - 1`. -/
def alphaEntry (p : Params) (a0 a1 j : Nat) : Nat :=
  if j = 0 then a0
  else if j = 1 then a1
  else if a1 < a0 then ((8 - j) * a0 + (j - 1) * a1 + roundTerm p.alphaRound 3) / 7
  else if j = 6 then 0
  else if j = 7 then 255
  else ((6 - j) * a0 + (j - 1) * a1 + roundTerm p.alphaRound 2) / 5

/-- `AlphaBlock(A)` at texel `i` of a block that begins with the alpha block `A` (R151, R74). -/
def alphaTexel {n : Nat} (p : Params) (b : BitVec n) (i : Nat) : Byte :=
  BitVec.ofNat 8 (alphaEntry p (fieldOf b 0 8) (fieldOf b 8 8) (fieldOf b (16 + 3 * i) 3))

/-- `(0, 0, 0, 255)` with channel `c` in the order R, G, B, A set to `v` (R161). -/
def inChannel (c : Nat) (v : Byte) : Pixel :=
  ⟨if c = 0 then v else 0, if c = 1 then v else 0, if c = 2 then v else 0, if c = 3 then v else 255⟩

/-- `DecodeBC3Block(blk)` (R153, R75). -/
def decodeBC3Block (p : Params) (blk : BitVec 128) : List Pixel :=
  sixteen fun i => { colorTexel p blk 64 false false i with a := alphaTexel p blk i }

/-- `DecodeBC4Block(blk, channel)` (R161, R76). -/
def decodeBC4Block (p : Params) (channel : Nat) (blk : BitVec 64) : List Pixel :=
  sixteen fun i => inChannel channel (alphaTexel p blk i)

/-! ### BC7 layouts (30_encoding.md R80–R88) -/

/-- Where the fields of a mode's block stand: lowest bits of the first red, green, blue and alpha component, of the first
p-bit and of the two index sets (`index2` is 128 in a mode with one set), and the widths and counts. The partition and
rotation fields start right after the mode field, idxMode is bit 7. -/
structure Bc7Layout where
  mode          : Nat
  partitionBits : Nat
  rotationBits  : Nat
  idxModeBits   : Nat
  endpoints     : Nat
  colorBits     : Nat
  red           : Nat
  green         : Nat
  blue          : Nat
  alphaBits     : Nat
  alpha         : Nat
  pbits         : Nat
  pbit          : Nat
  indexBits1    : Nat
  index1        : Nat
  indexBits2    : Nat
  index2        : Nat
deriving DecidableEq, Repr

/-- The tables of R80 to R87, one row a mode. -/
def bc7Layouts : List Bc7Layout :=
  [⟨0, 4, 0, 0, 6, 4, 5, 29, 53, 0, 77, 6, 77, 3, 83, 0, 128⟩,
   ⟨1, 6, 0, 0, 4, 6, 8, 32, 56, 0, 80, 2, 80, 3, 82, 0, 128⟩,
   ⟨2, 6, 0, 0, 6, 5, 9, 39, 69, 0, 99, 0, 99, 2, 99, 0, 128⟩,
   ⟨3, 6, 0, 0, 4, 7, 10, 38, 66, 0, 94, 4, 94, 2, 98, 0, 128⟩,
   ⟨4, 0, 2, 1, 2, 5, 8, 18, 28, 6, 38, 0, 50, 2, 50, 3, 81⟩,
   ⟨5, 0, 2, 0, 2, 7, 8, 22, 36, 8, 50, 0, 66, 2, 66, 2, 97⟩,
   ⟨6, 0, 0, 0, 2, 7, 7, 21, 35, 7, 49, 2, 63, 4, 65, 0, 128⟩,
   ⟨7, 6, 0, 0, 4, 5, 14, 34, 54, 5, 74, 4, 94, 2, 98, 0, 128⟩]

/-- The partition of a block. -/
def partitionIn (y : Bc7Layout) (b : BitVec 128) : Nat := fieldOf b (y.mode + 1) y.partitionBits

/-- The rotation of a block. -/
def rotationIn (y : Bc7Layout) (b : BitVec 128) : Nat := fieldOf b (y.mode + 1) y.rotationBits

/-- The index selection of a block. -/
def idxModeIn (y : Bc7Layout) (b : BitVec 128) : Nat := fieldOf b 7 y.idxModeBits

/-! ### BC7 endpoints (R173–R175) -/

/-- The bit of endpoint `e`'s p-bit, if the mode has p-bits: one for each endpoint, or one for both endpoints of a
subset (R174). -/
def pbitBit (y : Bc7Layout) (e : Nat) : Option Nat :=
  if y.pbits = 0 then none else if y.pbits = y.endpoints then some (y.pbit + e) else some (y.pbit + e / 2)

/-- A component of `w` raw bits at bit `lo`, joined with the p-bit at bit `pb` as its lowest bit, and expanded to 8 bits by
repeating its highest bits (R174, R175, 40_primitives.md R118). -/
def componentIn (b : BitVec 128) (lo w : Nat) (pb : Option Nat) : Byte :=
  match pb with
  | some q =>
    let v := 2 * fieldOf b lo w + fieldOf b q 1
    BitVec.ofNat 8 (v * 2 ^ (7 - w) + v / 2 ^ (2 * (w + 1) - 8))
  | none => BitVec.ofNat 8 (fieldOf b lo w * 2 ^ (8 - w) + fieldOf b lo w / 2 ^ (2 * w - 8))

/-- Endpoint `e` in 8-bit components (R173–R175); alpha is 255 in a mode without alpha. -/
def endpointIn (y : Bc7Layout) (b : BitVec 128) (e : Nat) : Pixel :=
  ⟨componentIn b (y.red + y.colorBits * e) y.colorBits (pbitBit y e),
    componentIn b (y.green + y.colorBits * e) y.colorBits (pbitBit y e),
    componentIn b (y.blue + y.colorBits * e) y.colorBits (pbitBit y e),
    if y.alphaBits = 0 then 255 else componentIn b (y.alpha + y.alphaBits * e) y.alphaBits (pbitBit y e)⟩

/-! ### BC7 subsets and indices (R176, R177, R88) -/

/-- The subset of texel `i`: bit `i` of the mask of PARTITION2, digit `i` of the row of PARTITION3, the first digit of the
row being texel 0 (R176, 46_bc7_tables.md R200–R202). -/
def subsetIn (rom : Rom) (y : Bc7Layout) (b : BitVec 128) (i : Nat) : Nat :=
  if y.endpoints = 2 then 0
  else if y.endpoints = 4 then (rom.partition2.getD (partitionIn y b) 0).toNat / 2 ^ i % 2
  else rom.partition3.getD (partitionIn y b) 0 / 10 ^ (15 - i) % 10

/-- The anchors of the first index set (R177). -/
def anchorsIn (rom : Rom) (y : Bc7Layout) (b : BitVec 128) : List Nat :=
  if y.endpoints = 2 then [0]
  else if y.endpoints = 4 then [0, rom.anchor2.getD (partitionIn y b) 0]
  else [0, rom.anchor3s1.getD (partitionIn y b) 0, rom.anchor3s2.getD (partitionIn y b) 0]

/-- Texel `i`'s index in a set of `w`-bit indices from bit `lo`: an anchor is one bit narrower, and a field stands after the
fields of the texels before it (R88). -/
def indexIn (b : BitVec 128) (anchors : List Nat) (lo w i : Nat) : Nat :=
  let width := fun j => if j ∈ anchors then w - 1 else w
  fieldOf b (lo + ((List.range i).map width).sum) (width i)

/-- Texel `i`'s index in the first set. -/
def firstIndexIn (rom : Rom) (y : Bc7Layout) (b : BitVec 128) (i : Nat) : Nat :=
  indexIn b (anchorsIn rom y b) y.index1 y.indexBits1 i

/-- Texel `i`'s index in the second set, whose only anchor is texel 0. -/
def secondIndexIn (y : Bc7Layout) (b : BitVec 128) (i : Nat) : Nat := indexIn b [0] y.index2 y.indexBits2 i

/-! ### BC7 texels (R178, R179) -/

/-- The weight of index `i` of width `w` (46_bc7_tables.md R205). -/
def weightIn (rom : Rom) (w i : Nat) : Nat :=
  (if w = 2 then rom.weights2 else if w = 3 then rom.weights3 else rom.weights4).getD i 0

/-- `((64 - w)*e0 + w*e1 + 32) >> 6` (40_primitives.md R119). -/
def weighted (w : Nat) (e0 e1 : Byte) : Byte :=
  BitVec.ofNat 8 (((64 - w) * e0.toNat + w * e1.toNat + 32) / 64)

/-- Texel `i` of a block with the layout `y`: the blend of endpoints `2s` and `2s+1` of its subset `s`, colour by the first
index set and alpha by the second where there are two, the other way round when idxMode is 1, and then the exchange of
alpha with R, G or B that the rotation names. -/
def bc7TexelIn (rom : Rom) (y : Bc7Layout) (b : BitVec 128) (i : Nat) : Pixel :=
  let e0 := endpointIn y b (2 * subsetIn rom y b i)
  let e1 := endpointIn y b (2 * subsetIn rom y b i + 1)
  let w1 := weightIn rom y.indexBits1 (firstIndexIn rom y b i)
  let w2 := weightIn rom y.indexBits2 (secondIndexIn y b i)
  let wc := if idxModeIn y b = 1 then w2 else w1
  let wa := if y.indexBits2 = 0 ∨ idxModeIn y b = 1 then w1 else w2
  let a := if y.alphaBits = 0 then 255 else weighted wa e0.a e1.a
  let x : Pixel := ⟨weighted wc e0.r e1.r, weighted wc e0.g e1.g, weighted wc e0.b e1.b, a⟩
  match rotationIn y b with
  | 0 => x
  | 1 => ⟨x.a, x.g, x.b, x.r⟩
  | 2 => ⟨x.r, x.a, x.b, x.g⟩
  | _ => ⟨x.r, x.g, x.a, x.b⟩

/-- `DecodeBC7Block(blk)` (R171, R172, R180): the layout is that of the mode whose pattern byte 0 has; a block with none is
magenta. -/
def decodeBC7Block (rom : Rom) (blk : BitVec 128) : List Pixel :=
  match bc7Layouts.find? fun y => decide (fieldOf blk 0 (y.mode + 1) = 2 ^ y.mode) with
  | some y => sixteen (bc7TexelIn rom y blk)
  | none => sixteen fun _ => ⟨255, 0, 255, 255⟩

/-! ### The picture of a command (R130) -/

/-- The pixels of block `k` of a BCn command: its DecodeBlock applied to `IN[k*BLOCK_BYTES .. (k+1)*BLOCK_BYTES)`
(R130, R134, R140, R150, R160, R170). -/
def commandBlock (p : Params) (rom : Rom) (c : CmdRecord) (k : Nat) : List Pixel :=
  match c.op.toNat with
  | 0x01 => decodeBC1Block p c.useAlpha (BitVec.ofNat 64 (leNat (inSlice c.input (8 * k) 8)))
  | 0x02 => decodeBC2Block p (BitVec.ofNat 128 (leNat (inSlice c.input (16 * k) 16)))
  | 0x03 => decodeBC3Block p (BitVec.ofNat 128 (leNat (inSlice c.input (16 * k) 16)))
  | 0x04 => decodeBC4Block p c.channel.toNat (BitVec.ofNat 64 (leNat (inSlice c.input (8 * k) 8)))
  | _ => decodeBC7Block rom (BitVec.ofNat 128 (leNat (inSlice c.input (16 * k) 16)))

/-- Channel `c` of a pixel in the order R, G, B, A (00_scope.md R12). -/
def pixelChannel (p : Pixel) (c : Nat) : Byte :=
  match c with
  | 0 => p.r
  | 1 => p.g
  | 2 => p.b
  | _ => p.a

/-- The byte at address `a` of the picture a BCn command returns (R130): pixel `a / 4` in row-major order lies in one block
and is one texel of it (00_scope.md R14). -/
def pictureByte (p : Params) (rom : Rom) (c : CmdRecord) (a : Nat) : Byte :=
  let px := a / 4 % c.width.toNat
  let py := a / 4 / c.width.toNat
  let pix := commandBlock p rom c (py / 4 * ((c.width.toNat + 3) / 4) + px / 4)
  pixelChannel (pix.getD (4 * (py % 4) + px % 4) ⟨0, 0, 0, 0⟩) (a % 4)

/-- The DecodedPixelBuffer a BCn command returns: `width*height*4` bytes (R16, R24, R130). -/
def picture (p : Params) (rom : Rom) (c : CmdRecord) : List Byte :=
  (List.range (c.width.toNat * c.height.toNat * 4)).map (pictureByte p rom c)

end Sys2Proof.Machine
end

