-- ==== Sys2Proof/Machine/HostPort.lean ====
section
/-! DEFINITION. The host's moves on one engine instance (70_reset_and_hazards.md R343–R346). A move that breaks a host duty
has no transition: it is refused by name (93 U3, U4, U5). -/

namespace Sys2Proof.Machine

/-- The host issues a command: the whole record is written and STATUS becomes Busy (R343, R345). From now until the
command ends RESULT is not defined (10_state.md R23): a free value (assumption log 5). -/
def hostIssue (c : CmdRecord) (s : State) : Host.Outcome State Fault Refusal :=
  if s.status = .busy then .refused .issueWhileBusy
  else .next { s with
    status := .busy
    cmd := c
    starting := true
    result := Config.freeResult s.issues
    issues := s.issues + 1 }

/-- The host writes IN or an operand of the record without issuing (R346): refused while the command is Busy. -/
def hostWriteRecord (c : CmdRecord) (s : State) : Host.Outcome State Fault Refusal :=
  if s.status = .busy then .refused .recordWriteWhileBusy else .next { s with cmd := c }

/-- The host polls STATUS, at any time (R345). -/
def hostPoll (s : State) : Status := s.status

/-- The host collects RESULT (R345): after Done or Failed only (R340, R346). -/
def hostCollect (s : State) : Host.Outcome Result Fault Refusal :=
  match s.status with
  | .done => .next s.result
  | .failed => .next s.result
  | .busy => .refused .resultReadWhileBusy
  | .idle => .refused .resultNotReadable

end Sys2Proof.Machine
end

