-- ==== Sys2Proof/Machine/System.lean ====
section
/-! DEFINITION. Several engine instances (60_exceptions.md R327): ENGINE_INSTANCES independent machines, an OPEN parameter
that the reset system takes as an argument. They share only the read-only ROM, so a system is a list of States. -/

namespace Sys2Proof.Machine

/-- The system after power-on with `n` engine instances. -/
def systemReset (n : Nat) : List State := List.replicate n State.reset

/-- Replaces instance `j` by the outcome of one of its moves; a number that is no instance changes nothing. -/
def systemMove (move : State → Host.Outcome State Fault Refusal) (j : Nat) (sys : List State) :
    Host.Outcome (List State) Fault Refusal :=
  match sys[j]? with
  | none => .next sys
  | some s =>
    match move s with
    | .next t => .next (sys.set j t)
    | .fault r => .fault r
    | .refused r => .refused r

/-- Instance `j` takes one step. -/
def systemStep (j : Nat) (sys : List State) : Host.Outcome (List State) Fault Refusal := systemMove step j sys

/-- The host issues a command on instance `j` (R327: an engine starts only then). -/
def systemIssue (j : Nat) (c : CmdRecord) (sys : List State) : Host.Outcome (List State) Fault Refusal :=
  systemMove (hostIssue c) j sys

end Sys2Proof.Machine
end

