-- ==== Sys2Proof/Safety.lean ====
section
/-! DEFINITION. The terms of the claims: the invariant of the machine, the bound on its steps, what it means that a block has
been written, that the LZSS ring follows the output, and that two machines run the same command. -/

namespace Sys2Proof.Machine

/-! ### The invariant -/

/-- BLOCK_BYTES of a BCn command (00_scope.md R9). -/
def blockBytes (op : Byte) : Nat := if op = 0x01 ∨ op = 0x04 then 8 else 16

/-- A started BCn command has its block counts in `bw` and `bh`, stands at one of its blocks, and IN holds all of them
(41_bc1.md R130). -/
def bcRunning (s : State) : Prop :=
  s.bc.bw = BitVec.ofNat 30 (blocksAlong s.cmd.width) ∧ s.bc.bh = BitVec.ofNat 30 (blocksAlong s.cmd.height) ∧
    s.bc.k.toNat < blocksAlong s.cmd.width * blocksAlong s.cmd.height ∧
    blocksAlong s.cmd.width * blocksAlong s.cmd.height * blockBytes s.cmd.op ≤ s.cmd.input.length

/-- A started LZSS command has not produced more than was asked for (47_lzss.md R218). -/
def lzssRunning (s : State) : Prop := s.lzss.out.length ≤ s.cmd.expectedSize.toNat

/-- A started LZO1X command has not met its end marker (48_lzo1x.md R240), its cursor lies in IN, and a length extension
that has been read belongs to a control byte with length field 0. -/
def lzoRunning (s : State) : Prop :=
  s.lzo.st ≠ .eof ∧ s.lzo.ip ≤ s.cmd.input.length ∧
    (s.lzo.ext.isSome → lzoNeedsExt (lzoReadSt s.lzo.st) (s.lzo.t.setWidth 8) = true)

/-- A started LZ4 chain command reads inside IN, and inside a chunk inside the chunk (49_lz4chain.md R283, R287). -/
def lz4Running (s : State) : Prop :=
  s.lz4.ip ≤ s.cmd.input.length ∧
    match s.lz4.phase with
    | .target | .chunk => True
    | .seq => s.lz4.ip < s.lz4.chunkEnd ∧ s.lz4.chunkEnd ≤ s.cmd.input.length
    | .litLen | .matchLen => s.lz4.ip ≤ s.lz4.chunkEnd ∧ s.lz4.chunkEnd ≤ s.cmd.input.length

/-- What holds of the engine that runs a started command. Only a command that runs more than one step is ever found
started: an undefined code, BC5 and BC6 end in the step that starts them (30_encoding.md R71, 44_bc4.md R166). -/
def running (s : State) : Prop :=
  match s.cmd.op.toNat with
  | 0x01 | 0x02 | 0x03 | 0x04 | 0x07 => bcRunning s
  | 0x10 => lzssRunning s
  | 0x11 => lzoRunning s
  | 0x12 => lz4Running s
  | _ => False

/-- ROM fits the layouts (10_state.md R27): its mode table is that of 30_encoding.md R78, and every digit of PARTITION3 is a
subset 0, 1 or 2 (46_bc7_tables.md R202). The partition masks, anchors and weights may be any (parameter BC7_TABLES, 93
U17). -/
def romOk (rom : Rom) : Prop :=
  rom.modes = romModes ∧ ∀ row ∈ rom.partition3, ∀ i, i < 16 → row / 10 ^ i % 10 ≤ 2

/-- The invariant of the machine: ROM fits the layouts, the memories keep their canonical form, RING has 4096 slots (10_state.md R32), DICT at
most 65536 bytes (R36), only a Busy engine has a command to start (70 R343), and a started command stands inside its
input and its output. -/
def Inv (s : State) : Prop :=
  romOk s.rom ∧ Memory.wf outFill s.bc.out ∧ Memory.wf ringFill s.lzss.ring ∧ (∀ c ∈ s.lzss.ring, c.1 < 4096) ∧
    s.lz4.dict.length ≤ dictMax ∧ (s.starting = true → s.status = .busy) ∧
    (s.status = .busy → s.starting = false → running s)

/-! ### Termination (40_primitives.md R124) -/

/-- A bound on the steps a started command still takes: two rows a block, two rows an output byte and a trailer, one row a
byte of input. -/
def rowsLeft (s : State) : Nat :=
  match s.cmd.op.toNat with
  | 0x01 | 0x02 | 0x03 | 0x04 | 0x07 => 2 * (gridBlocks s.cmd s.bc - s.bc.k.toNat) + if s.bc.palette then 0 else 1
  | 0x10 => 2 * (s.cmd.expectedSize.toNat - s.lzss.out.length) + (if s.lzss.fresh then 0 else 1) + 1
  | 0x11 => s.cmd.input.length - s.lzo.ip + 1
  | _ => s.cmd.input.length - s.lz4.ip + 1

/-- A bound on the steps to the end of the command, in terms of its input and operands. -/
def stepsLeft (s : State) : Nat :=
  match s.status with
  | .busy =>
    if s.starting then
      2 * (blocksAlong s.cmd.width * blocksAlong s.cmd.height) + 2 * s.cmd.expectedSize.toNat + s.cmd.input.length + 3
    else rowsLeft s
  | .idle => 0
  | .done => 0
  | .failed => 0

/-! ### Frames -/

/-- What no row of an engine writes: the command record (10_state.md R21), ROM (R27), the build-time parameters (R26) and
the count of issued commands. -/
def sameSurroundings (s t : State) : Prop :=
  t.cmd = s.cmd ∧ t.rom = s.rom ∧ t.params = s.params ∧ t.issues = s.issues

/-- The registers of the three stream engines are as before. -/
def sameStreams (s t : State) : Prop := t.lzss = s.lzss ∧ t.lzo = s.lzo ∧ t.lz4 = s.lz4

/-- The command goes on: STATUS, RESULT and the start mark are as before. -/
def stillRunning (s t : State) : Prop := t.status = s.status ∧ t.result = s.result ∧ t.starting = s.starting

/-- The command has returned `Ok(v)` (10_state.md R22, R23). -/
def returned (t : State) (v : OutputValue) : Prop := t.status = .done ∧ t.result = .ok v ∧ t.starting = false

/-- The address of texel `i` of the current block, when it lies inside the image (41_bc1.md R130). -/
def texelAddr (s : State) (i : Nat) : Option Nat :=
  let cols := blockCount s.bc.bw s.cmd.width
  let px := s.bc.k.toNat % cols * 4 + i % 4
  let py := s.bc.k.toNat / cols * 4 + i / 4
  if px < s.cmd.width.toNat ∧ py < s.cmd.height.toNat then some (pixelAddr s.cmd.width.toNat px py) else none

/-- `t` is `s` after the current block's pixels have been written and the walk has gone on (41_bc1.md R130): each texel
inside the image holds its pixel, every other byte of OUT reads as before, the block counter has moved by one, and the
command goes on or returns OUT. -/
def blockWritten (s t : State) (pix : List Pixel) : Prop :=
  (∀ i, i < 16 → ∀ a, texelAddr s i = some a → ∀ c, c < 4 →
      Memory.read outFill t.bc.out (a + c) = some (pixelChannel (pix.getD i ⟨0, 0, 0, 0⟩) c)) ∧
  (∀ b, (∀ i, i < 16 → ∀ a, texelAddr s i = some a → b < a ∨ a + 4 ≤ b) →
      Memory.read outFill t.bc.out b = Memory.read outFill s.bc.out b) ∧
  t.bc.k = s.bc.k + 1 ∧ t.bc.bw = s.bc.bw ∧ t.bc.bh = s.bc.bh ∧ t.bc.palette = false ∧
  (if s.bc.k.toNat + 1 < gridBlocks s.cmd s.bc then stillRunning s t
   else returned t (.pixelBuffer (outBytes t.bc.out (s.cmd.width.toNat * s.cmd.height.toNat * 4)))) ∧
  sameSurroundings s t ∧ sameStreams s t

/-- A BCn command has begun its walk (41_bc1.md R130): the block grid, block 0 and an OUT with nothing written; an image
without blocks has returned the empty buffer. That `bw` and `bh` hold the low 30 bits of their counts, and a side from
0xFFFFFFFD counts exactly all the same, is the model's choice (assumption log 18). The working registers start from their power-on values (assumption
log 4). -/
def bcStarted (s t : State) : Prop :=
  (if blocksAlong s.cmd.width * blocksAlong s.cmd.height = 0 then returned t (.pixelBuffer [])
   else t.status = .busy ∧ t.result = s.result ∧ t.starting = false) ∧
  t.bc.bw.toNat = (s.cmd.width.toNat + 3) / 4 % 2 ^ 30 ∧ t.bc.bh.toNat = (s.cmd.height.toNat + 3) / 4 % 2 ^ 30 ∧
  blockCount t.bc.bw s.cmd.width = (s.cmd.width.toNat + 3) / 4 ∧
  blockCount t.bc.bh s.cmd.height = (s.cmd.height.toNat + 3) / 4 ∧ t.bc.k = 0 ∧
  (∀ a, Memory.read outFill t.bc.out a = none) ∧ t.bc.palette = false ∧ t.bc.blk = 0 ∧ t.bc.work = BcWork.reset ∧
  sameSurroundings s t ∧ sameStreams s t

/-- Only the LZSS engine has moved, and the command goes on. -/
def onlyLzss (s t : State) : Prop :=
  stillRunning s t ∧ sameSurroundings s t ∧ t.bc = s.bc ∧ t.lzo = s.lzo ∧ t.lz4 = s.lz4

/-! ### Copies and bounds -/

/-- `after` is `before` with `n` bytes appended one by one, each equal to the byte `d` places before it
(48_lzo1x.md R253, 70_reset_and_hazards.md R347). -/
def copied (d : Nat) (before after : List Byte) (n : Nat) : Prop :=
  after.length = before.length + n ∧ before <+: after ∧
    ∀ j, j < n → after.getD (before.length + j) 0 = after.getD (before.length + j - d) 0

/-- An output of `n` bytes does not pass MAX_OUTPUT (60_exceptions.md R320). -/
def fits (p : Params) (n : Nat) : Prop := ∀ m, p.maxOutput = some m → n ≤ m

/-- An output of `n` bytes passes MAX_OUTPUT (60_exceptions.md R320). -/
def exceeds (p : Params) (n : Nat) : Prop := ∃ m, p.maxOutput = some m ∧ m < n

/-! ### LZO1X tokens -/

/-- What the rule of a match token computes (48_lzo1x.md R246–R250): distance, length, bytes read by its row, trailing
literals, and the offset of its control byte. -/
structure LzoMatch where
  dist     : Nat
  len      : Nat
  used     : Nat
  trailing : Nat
  tok      : Nat
deriving DecidableEq, Repr

/-- The match of each token by R246–R250. The row of a token with length field 0 runs after its LZO.EXT row, which has read
the control byte and the extension value `ext` (assumption log 1). -/
def lzoMatchOf (e : LzoRegs) : Instr → Option LzoMatch
  | .lzoM1Far d q h => some ⟨2049 + d.toNat + 4 * h.toNat, 3, 2, q.toNat, e.ip⟩
  | .lzoM1Near d q h => some ⟨1 + d.toNat + 4 * h.toNat, 2, 2, q.toNat, e.ip⟩
  | .lzoM2 l d q h => some ⟨1 + d.toNat + 8 * h.toNat, l.toNat + 1, 2, q.toNat, e.ip⟩
  | .lzoM3 l w =>
    if l = 0 then some ⟨1 + w.toNat / 4, 31 + e.ext.getD 0 + 2, 2, w.toNat % 4, e.tok⟩
    else some ⟨1 + w.toNat / 4, l.toNat + 2, 3, w.toNat % 4, e.ip⟩
  | .lzoM4 h l w =>
    if l = 0 then some ⟨16384 + 16384 * h.toNat + w.toNat / 4, 7 + e.ext.getD 0 + 2, 2, w.toNat % 4, e.tok⟩
    else some ⟨16384 + 16384 * h.toNat + w.toNat / 4, l.toNat + 2, 3, w.toNat % 4, e.ip⟩
  | _ => none

/-- The literals of a literal-run token (R244, R245): the index in IN of the first and how many. -/
def lzoRunOf (e : LzoRegs) : Instr → Option (Nat × Nat)
  | .lzoFirstLit b => some (e.ip + 1, b.toNat - 17)
  | .lzoLit l => some (e.ip + 1, l.toNat + 3)
  | .lzoLitExt => some (e.ip, 15 + e.ext.getD 0 + 3)
  | _ => none

/-! ### LZ4 sequences -/

/-- The literals a row copies (49_lz4chain.md R284, R285): how many, and the registers before the copy. A token whose
literal length is extended has none yet. -/
def lz4LiteralsOf (e : Lz4Regs) : Instr → Option (Nat × Lz4Regs)
  | .lz4Seq ll ml => if ll = 15 then none else some (ll.toNat, { e with tok := e.ip, ml := ml, ip := e.ip + 1 })
  | .lz4Ext ffs v => if e.phase = .litLen then some (15 + 255 * ffs + v.toNat, { e with ip := e.ip + ffs + 1 }) else none
  | _ => none

/-- The registers once `n` literals are copied (R284). -/
def lz4WithLiterals (inp : List Byte) (n : Nat) (e : Lz4Regs) : Lz4Regs :=
  { e with ch := e.ch ++ inSlice inp e.ip n, ip := e.ip + n }

/-- The registers once the offset `O` after the literals is read (R284). -/
def lz4WithOffset (inp : List Byte) (e : Lz4Regs) : Lz4Regs :=
  { e with off := (inp.getD (e.ip + 1) 0) ++ (inp.getD e.ip 0), ip := e.ip + 2 }

/-- The match a row copies (R284, R286): offset, length, and the registers before the copy. A match follows the row's
literals unless the chunk ends there or the match length is extended; an extended one follows its extension. -/
def lz4MatchOf (inp : List Byte) (e : Lz4Regs) (i : Instr) : Option (Nat × Nat × Lz4Regs) :=
  match lz4LiteralsOf e i with
  | some (n, e1) =>
    if e1.ip + n + 2 ≤ e1.chunkEnd ∧ e1.ml ≠ 15 then
      let e2 := lz4WithOffset inp (lz4WithLiterals inp n e1)
      some (e2.off.toNat, e1.ml.toNat + 4, e2)
    else none
  | none =>
    match i with
    | .lz4Ext ffs v =>
      if e.phase = .matchLen then some (e.off.toNat, 15 + 4 + 255 * ffs + v.toNat, { e with ip := e.ip + ffs + 1 })
      else none
    | _ => none

/-- The end of the last chunk passes both checks of R289; a chunk that is not the last has none. -/
def lz4Closes (s : State) (e : Lz4Regs) : Prop :=
  e.last = 1 → e.ip = s.cmd.declaredBlockSize.toNat ∧ e.total.length + e.ch.length = e.target.toNat

/-- The chunk of the registers `e` has ended (R280, R287–R289): TOTAL has grown by CH, DICT holds the last bytes of
DICT ++ CH, at most 65536 of them, and after the last chunk the command has returned TOTAL. -/
def lz4ChunkEnded (s t : State) (e : Lz4Regs) : Prop :=
  ∃ d, d <:+ e.dict ++ e.ch ∧ d.length = min 65536 (e.dict.length + e.ch.length) ∧
    t = { s with
      lz4 := { e with total := e.total ++ e.ch, dict := d, ch := [], phase := .chunk }
      status := if e.last = 1 then .done else s.status
      result := if e.last = 1 then .ok (.decodedBytes (e.total ++ e.ch)) else s.result
      starting := if e.last = 1 then false else s.starting }

/-! ### LZSS: the ring follows the output (47_lzss.md R213, R214, 70 R349) -/

/-- The byte `off` places back in the output, 4096 places for `off = 0`, or 0x20 where no output reaches (R214, R349). -/
def outputBack (out : List Byte) (off : BitVec 12) : Byte :=
  let back := if off = 0 then 4096 else off.toNat
  if back ≤ out.length then out.getD (out.length - back) 0 else ringFillByte

/-- While an LZSS command runs, every ring read gives the byte that many places back in the output, the cursor has moved
once per output byte, and the checksum is the sum of the output (R217). -/
def ringFollowsOutput (s : State) : Prop :=
  s.status = .busy → s.starting = false → s.cmd.op = 0x10 →
    Memory.wf ringFill s.lzss.ring ∧
    s.lzss.r = lzssR0 + BitVec.ofNat 12 s.lzss.out.length ∧
    s.lzss.csum = (s.lzss.out.map (widen s.cmd.signedChecksum)).sum ∧
    ∀ off : BitVec 12, lzssRead s.lzss off = outputBack s.lzss.out off

/-! ### Independence of earlier commands (10_state.md R20, 70 R341) -/

/-- Two machines that are about to start the same command, whatever their engines hold. -/
def sameStart (s t : State) : Prop :=
  s.params = t.params ∧ s.rom = t.rom ∧ s.cmd = t.cmd ∧ s.status = .busy ∧ t.status = .busy ∧
    s.starting = true ∧ t.starting = true

end Sys2Proof.Machine
end

