-- ==== Sys2Proof/Certificates/Slice0/Obligations.lean ====
section
/-! DEFINITION. The statements for the provers, in the order of OBLIGATIONS.json. -/

open Sys2Proof Sys2Proof.Machine

/-! ### Decode and encode -/

/-- R70, R72–R77, R89–R99: the decoder reads back what the encoder writes, whatever follows it. -/
def Obligations.DecodeEncodeRoundTrip : Prop :=
  ∀ (i : Instr) (rest : List Byte), i.wf = true → decode (homeCtx i) (encode i ++ rest) = .ok i

/-- R72–R77, R89–R99: whatever the decoder reads, in any place, is well formed and its encoding is what the bytes begin
with: no bit of an encoding is dropped. -/
def Obligations.DecodedBytesReencode : Prop :=
  ∀ (c : DecodeCtx) (bs : List Byte) (i : Instr), decode c bs = .ok i → i.wf = true ∧ encode i <+: bs

/-- R70, R72, R74, R77, R90, R93, R98, R99: a few words written out from the spec's encodings. -/
def Obligations.SampleWordsDecode : Prop :=
  decode .command [0x12] = .ok .decompressLz4Chain ∧
  decode .bc1 [0xFF, 0xFF, 0x00, 0x00, 0x10, 0x32, 0x54, 0x76] = .ok (.bc1Block4 0x765432100000FFFF) ∧
  decode .alpha [0x00, 0xFF, 0x88, 0xC6, 0xFA, 0x88, 0xC6, 0xFA] = .ok (.alphaInterp6 0xFAC688FAC688FF00) ∧
  decode .bc7 [0xC0, 1, 2, 3, 4, 5, 6, 7, 8, 9, 10, 11, 12, 13, 14, 15] =
    .ok (.bc7Mode6 0x0F0E0D0C0B0A090807060504030201C0) ∧
  decode .lzssRef [0x34, 0xA5] = .ok (.lzssRef 0xA34 5) ∧
  decode (.lzoToken .outer) [0xA9, 0x02] = .ok (.lzoM2 5 2 1 0x02) ∧
  decode (.lzoToken .outer) [0x19, 0x07, 0x80] = .ok (.lzoM4 1 1 0x8007) ∧
  decode .lz4Chunk [0x56, 0x34, 0x12, 0x80] = .ok (.lz4Chunk 0x123456 1) ∧
  decode .lz4Ext [0xFF, 0xFF, 0x07] = .ok (.lz4Ext 2 7)

/-- R172: BC7's mode is 8 for byte 0 = 0, otherwise the least set bit, and the row of a block is the row of its mode. -/
def Obligations.Bc7RowIsTheLowestSetBit : Prop :=
  ∀ (blk : BitVec 128) (i : Instr),
    decode .bc7 (leBytes 16 blk.toNat) = .ok i ↔
      (i = .bc7Mode0 blk ∧ blk.getLsbD 0 = true) ∨
      (i = .bc7Mode1 blk ∧ blk.getLsbD 1 = true ∧ blk.toNat % 2 = 0) ∨
      (i = .bc7Mode2 blk ∧ blk.getLsbD 2 = true ∧ blk.toNat % 4 = 0) ∨
      (i = .bc7Mode3 blk ∧ blk.getLsbD 3 = true ∧ blk.toNat % 8 = 0) ∨
      (i = .bc7Mode4 blk ∧ blk.getLsbD 4 = true ∧ blk.toNat % 16 = 0) ∨
      (i = .bc7Mode5 blk ∧ blk.getLsbD 5 = true ∧ blk.toNat % 32 = 0) ∨
      (i = .bc7Mode6 blk ∧ blk.getLsbD 6 = true ∧ blk.toNat % 64 = 0) ∨
      (i = .bc7Mode7 blk ∧ blk.getLsbD 7 = true ∧ blk.toNat % 128 = 0) ∨
      (i = .bc7Reserved blk ∧ blk.toNat % 256 = 0)

/-! ### The step -/

/-- A Busy engine whose next bytes decode to a well-formed row runs that row, and nothing else happens in the step; an
engine that is not Busy does nothing (assumption log 14). -/
def Obligations.StepRunsDecodedRow : Prop :=
  ∀ (s : State) (i : Instr), i.wf = true →
    (s.status = .busy → decode (fetchSite s).1 (fetchSite s).2 = .ok i → step s = exec i s) ∧
    (s.status ≠ .busy → step s = .next s)

/-- R71: an undefined command code fails with BadCommand at offset 0 in the step that would start it: IN is not read and
nothing is written. -/
def Obligations.UndefinedCommandIsBadCommand : Prop :=
  ∀ s : State, s.status = .busy → s.starting = true →
    s.cmd.op ∉ [0x01, 0x02, 0x03, 0x04, 0x05, 0x06, 0x07, 0x10, 0x11, 0x12] →
    step s = .next (raiseFail ⟨.badCommand, 0⟩ s)

/-- R343, R22, R318: every step leaves a next state; a Busy engine stays Busy, or is Done with an output value, or Failed with
an error record; an engine that is not Busy stays as it is (assumption log 14). That RESULT stays as it was while the engine
is Busy is no rule of the spec, whose R23 does not define it then: it is the model's DESIGN CHOICE (assumption log 5). -/
def Obligations.CommandLifeCycle : Prop :=
  ∀ s : State, ∃ t, step s = .next t ∧
    (s.status ≠ .busy → t = s) ∧
    (s.status = .busy →
      (t.status = .busy ∧ t.result = s.result) ∨ (t.status = .done ∧ ∃ v, t.result = .ok v) ∨
        (t.status = .failed ∧ ∃ k o, t.result = .fail k o))

/-- R21, R26, R27, R51: no step writes the command record, IN, ROM or a build-time parameter. -/
def Obligations.StepsNeverWriteRecordRomOrParameters : Prop :=
  ∀ s t : State, step s = .next t → t.cmd = s.cmd ∧ t.rom = s.rom ∧ t.params = s.params ∧ t.issues = s.issues

/-- R310, R311, R314, R318: a step that fails leaves the record, the kind as its code of R310's table and a 32-bit offset,
and nothing the command had produced is left in any engine; which values the discarded registers take is the model's choice
(assumption log 8). -/
def Obligations.FailureDiscardsEverything : Prop :=
  ([ErrKind.checksumMismatch, .overflow, .sizeMismatch, .invalidOffset, .unknownFlags, .blockLengthMismatch,
      .inputTruncated, .unimplemented, .badParameter, .malformedChunk, .outputOverrun, .badCommand].map errCode =
    [1, 2, 3, 4, 5, 6, 7, 8, 9, 10, 11, 12]) ∧
  ∀ s t : State, s.status = .busy → step s = .next t → t.status = .failed →
    ∃ (kind : ErrKind) (offset : Nat), t =
      { s with
        status := .failed
        result := .fail (errCode kind) (BitVec.ofNat 32 offset)
        starting := false
        bc := BcRegs.reset
        lzss := LzssRegs.reset
        lzo := LzoRegs.reset
        lz4 := Lz4Regs.reset }

/-! ### Reset, the invariant, the end of a command -/

/-- R340: after power-on STATUS is Idle, ROM holds the tables, RESULT cannot be collected, and the core does nothing until
the host issues a command. -/
def Obligations.PowerOnIsIdle : Prop :=
  State.reset.status = .idle ∧ State.reset.rom = standardRom ∧ step State.reset = .next State.reset ∧
    hostCollect State.reset = .refused .resultNotReadable ∧
    ∀ c : CmdRecord, ∃ t, hostIssue c State.reset = .next t ∧ t.status = .busy ∧ t.cmd = c

/-- The power-on state meets the invariant (the register values are those of assumption log 4). -/
def Obligations.PowerOnMeetsInvariant : Prop := Inv State.reset

/-- Every step, and every move of the host, keeps the invariant: ROM fits its layouts (R27), canonical memories, RING inside
4096 slots (R32), DICT at most 65536 bytes (R36), and a started command inside its input and output. -/
def Obligations.StepKeepsInvariant : Prop :=
  ∀ s t : State, Inv s →
    step s = .next t ∨ (∃ c, hostIssue c s = .next t) ∨ (∃ c, hostWriteRecord c s = .next t) → Inv t

/-- R124, R344: every command ends, after a number of steps bounded by its input and operands. -/
def Obligations.EveryCommandEnds : Prop :=
  ∀ s : State, Inv s →
    ∃ n t, n ≤ stepsLeft s ∧ Host.Core.run Sys2Proof.core n s = .next t ∧ t.status ≠ .busy

/-- R20, R316, R341: the status after any number of steps, and the result of a command that has ended, do not depend on
what the engines held before the command. -/
def Obligations.ResultsDependOnTheCommandAlone : Prop :=
  ∀ (s t : State), sameStart s t → ∀ n : Nat, ∃ s' t',
    Host.Core.run Sys2Proof.core n s = .next s' ∧ Host.Core.run Sys2Proof.core n t = .next t' ∧
      s'.status = t'.status ∧ (s'.status ≠ .busy → s'.result = t'.result)

/-- R24, 95 S7: an `Ok` result has exactly its declared size. -/
def Obligations.OkResultsHaveTheirDeclaredSize : Prop :=
  ∀ s t : State, Inv s → s.status = .busy → step s = .next t → t.status = .done →
    (∃ px, t.result = .ok (.pixelBuffer px) ∧ s.cmd.op.toNat ≤ 7 ∧
      px.length = s.cmd.width.toNat * s.cmd.height.toNat * 4) ∨
    (∃ data n, t.result = .ok (.lzssData data n) ∧ s.cmd.op = 0x10 ∧ data.length = s.cmd.expectedSize.toNat) ∨
    (∃ data, t.result = .ok (.decodedBytes data) ∧ s.cmd.op = 0x11 ∧ data.length = s.cmd.expectedSize.toNat) ∨
    (∃ data, t.result = .ok (.decodedBytes data) ∧ s.cmd.op = 0x12 ∧ data.length = s.lz4.target.toNat)

/-! ### The host and several engines -/

/-- R343, R345, R346: what each move of the host does, and where it has no move. -/
def Obligations.HostMovesFollowTheLifeCycle : Prop :=
  ∀ (c : CmdRecord) (s : State),
    (s.status = .busy →
      hostIssue c s = .refused .issueWhileBusy ∧ hostWriteRecord c s = .refused .recordWriteWhileBusy ∧
        hostCollect s = .refused .resultReadWhileBusy) ∧
    (s.status ≠ .busy →
      (∃ t, hostIssue c s = .next t ∧ t.status = .busy ∧ t.starting = true ∧ t.cmd = c ∧ t.rom = s.rom ∧
        t.params = s.params ∧ t.bc = s.bc ∧ t.lzss = s.lzss ∧ t.lzo = s.lzo ∧ t.lz4 = s.lz4) ∧
      hostWriteRecord c s = .next { s with cmd := c }) ∧
    (s.status = .done ∨ s.status = .failed → hostCollect s = .next s.result) ∧
    (s.status = .idle → hostCollect s = .refused .resultNotReadable) ∧
    hostPoll s = s.status

/-- R63, R327: a step of one engine instance is that instance's own step and leaves every other instance as it is; steps of
two instances commute, so results do not depend on how commands interleave. -/
def Obligations.EngineInstancesAreIndependent : Prop :=
  (∀ (sys : List State) (i : Nat), ∃ u, systemStep i sys = .next u ∧ u.length = sys.length ∧
    (∀ s, sys[i]? = some s → ∃ t, step s = .next t ∧ u[i]? = some t) ∧ ∀ k, k ≠ i → u[k]? = sys[k]?) ∧
  ∀ (sys : List State) (i j : Nat), i ≠ j →
    ∃ u v w, systemStep i sys = .next u ∧ systemStep j u = .next w ∧ systemStep j sys = .next v ∧ systemStep i v = .next w ∧
      w.length = sys.length ∧ w[i]? = u[i]? ∧ w[j]? = v[j]? ∧ ∀ k, k ≠ i → k ≠ j → w[k]? = sys[k]?

/-! ### BCn commands -/

/-- R130, R134, R140, R150, R160, R170: the commands of BC1, BC2, BC3, BC4 (with a channel 0 to 3) and BC7, on an input that
is long enough, begin the block walk. For a width or height from 0xFFFFFFFD the exact block count is the model's choice
(assumption log 18). -/
def Obligations.BcCommandsBeginTheWalk : Prop :=
  ∀ (s : State) (i : Instr) (n : Nat),
    (i, n) ∈ [(Instr.decodeBC1, 8), (.decodeBC2, 16), (.decodeBC3, 16), (.decodeBC4, 8), (.decodeBC7, 16)] →
    (i = .decodeBC4 → s.cmd.channel.toNat ≤ 3) →
    blocksAlong s.cmd.width * blocksAlong s.cmd.height * n ≤ s.cmd.input.length →
    ∃ t, exec i s = .next t ∧ bcStarted s t

/-- R130, R160, R315: what a BCn command checks before its first block, in that order: BadParameter for a BC4 channel above
3, then InputTruncated for an input shorter than all blocks (for a width or height from 0xFFFFFFFD the exact count is the
model's choice, assumption log 18). -/
def Obligations.BcCommandsCheckBeforeTheFirstBlock : Prop :=
  ∀ s : State,
    (∀ (i : Instr) (n : Nat), (i, n) ∈ [(Instr.decodeBC1, 8), (.decodeBC2, 16), (.decodeBC3, 16), (.decodeBC7, 16)] →
      s.cmd.input.length < blocksAlong s.cmd.width * blocksAlong s.cmd.height * n →
      exec i s = .next (raiseFail ⟨.inputTruncated, s.cmd.input.length⟩ s)) ∧
    (3 < s.cmd.channel.toNat → exec .decodeBC4 s = .next (raiseFail ⟨.badParameter, 0⟩ s)) ∧
    (s.cmd.channel.toNat ≤ 3 → s.cmd.input.length < blocksAlong s.cmd.width * blocksAlong s.cmd.height * 8 →
      exec .decodeBC4 s = .next (raiseFail ⟨.inputTruncated, s.cmd.input.length⟩ s))

/-- R166: decodeBC5 and decodeBC6 raise Unimplemented (code 8) at offset 0, whatever the operands. -/
def Obligations.BC5AndBC6AreUnimplemented : Prop :=
  ∀ s : State,
    (∃ t, exec .decodeBC5 s = .next t ∧ t.status = .failed ∧ t.result = .fail 8 0 ∧ t.starting = false ∧
      sameSurroundings s t) ∧
    (∃ t, exec .decodeBC6 s = .next t ∧ t.status = .failed ∧ t.result = .fail 8 0 ∧ t.starting = false ∧
      sameSurroundings s t)

/-- R131–R133: a BC1 block in either mode writes the pixels of DecodeBC1Block, texel `i` the palette entry of its two index
bits, and leaves its colour registers, the four palette entries among them; nothing else changes. -/
def Obligations.BC1BlocksWriteTheirPixels : Prop :=
  ∀ (s : State) (blk : BitVec 64) (i : Instr), i = .bc1Block4 blk ∨ i = .bc1Block3 blk → i.wf = true →
    let c0 := fieldOf blk 0 16
    let c1 := fieldOf blk 16 16
    let cp := fun j => paletteEntry s.params c0 c1 (decide (c0 ≤ c1)) s.cmd.useAlpha j
    ∃ t, exec i s = .next t ∧ blockWritten s t (decodeBC1Block s.params s.cmd.useAlpha blk) ∧
      decodeBC1Block s.params s.cmd.useAlpha blk = (List.range 16).map (fun n => cp (blk.toNat / 2 ^ (32 + 2 * n) % 4)) ∧
      t.bc.blk = blk.setWidth 128 ∧
      t.bc.work = { s.bc.work with
        c0Raw := BitVec.ofNat 16 c0
        c1Raw := BitVec.ofNat 16 c1
        idx2 := BitVec.ofNat 32 (fieldOf blk 32 32)
        hasAlphaOrBlack := decide (c0 ≤ c1)
        cp := #v[cp 0, cp 1, cp 2, cp 3] }

/-- R141: a BC2 block writes the pixels of DecodeBC2Block, texel `i` the palette entry of its two index bits with alpha 17
times its nibble of AMAP; its colour part is four-colour whatever its raw colours. -/
def Obligations.BC2BlocksWriteTheirPixels : Prop :=
  ∀ (s : State) (blk : BitVec 128),
    let c0 := fieldOf blk 64 16
    let c1 := fieldOf blk 80 16
    let cp := fun j => paletteEntry s.params c0 c1 false false j
    ∃ t, exec (.bc2Block blk) s = .next t ∧ blockWritten s t (decodeBC2Block s.params blk) ∧
      decodeBC2Block s.params blk = (List.range 16).map (fun n =>
        { cp (blk.toNat / 2 ^ (96 + 2 * n) % 4) with a := BitVec.ofNat 8 (17 * (blk.toNat / 2 ^ (4 * n) % 16)) }) ∧
      t.bc.blk = blk ∧
      t.bc.work = { s.bc.work with
        c0Raw := BitVec.ofNat 16 c0
        c1Raw := BitVec.ofNat 16 c1
        idx2 := BitVec.ofNat 32 (fieldOf blk 96 32)
        hasAlphaOrBlack := false
        amap := BitVec.ofNat 64 (fieldOf blk 0 64)
        cp := #v[cp 0, cp 1, cp 2, cp 3] }

/-- R151, R152, R116, R117, R28: an alpha row loads BLK with the block being decoded (the alpha block, and in BC3 the colour
part after it in IN), the endpoints, the index field and the palette of its form, of eight values or of six values with 0
and 255; nothing else changes but the model's mark that the palette is there (assumption log 1). -/
def Obligations.AlphaRowsBuildThePalette : Prop :=
  ∀ (s : State) (blk : BitVec 64),
    let a0 := blk.extractLsb' 0 8
    let a1 := blk.extractLsb' 8 8
    let up := fun (n : Nat) => match s.params.alphaRound with | .trunc => 0 | .round => n
    let colorPart : BitVec 64 :=
      if s.cmd.op = 0x03 then BitVec.ofNat 64 (leNat (inSlice s.cmd.input (16 * s.bc.k.toNat + 8) 8)) else 0
    ∃ ap8 ap6 : Vector Byte 8,
      (entry ap8 0 0 = a0 ∧ entry ap8 1 0 = a1 ∧
        ∀ j, 1 ≤ j → j ≤ 6 → (entry ap8 (j + 1) 0).toNat = ((7 - j) * a0.toNat + j * a1.toNat + up 3) / 7) ∧
      (entry ap6 0 0 = a0 ∧ entry ap6 1 0 = a1 ∧ entry ap6 6 0 = 0 ∧ entry ap6 7 0 = 255 ∧
        ∀ j, 1 ≤ j → j ≤ 4 → (entry ap6 (j + 1) 0).toNat = ((5 - j) * a0.toNat + j * a1.toNat + up 2) / 5) ∧
      exec (.alphaInterp8 blk) s = .next { s with bc := { s.bc with
        blk := colorPart ++ blk
        palette := true
        work := { s.bc.work with a0 := a0, a1 := a1, idx3 := blk.extractLsb' 16 48, ap := ap8 } } } ∧
      exec (.alphaInterp6 blk) s = .next { s with bc := { s.bc with
        blk := colorPart ++ blk
        palette := true
        work := { s.bc.work with a0 := a0, a1 := a1, idx3 := blk.extractLsb' 16 48, ap := ap6 } } }

/-- R153, R161: a BC3 or BC4 block, in any state, takes its alpha or channel values from the palette register AP, texel `i` the
entry of its three index bits, and writes its pixels; a BC4 pixel is (0, 0, 0, 255) but for the selected channel. -/
def Obligations.BC3AndBC4BlocksReadThePaletteRegister : Prop :=
  ∀ s : State,
    (∀ blk : BitVec 128,
      let c0 := fieldOf blk 64 16
      let c1 := fieldOf blk 80 16
      let cp := fun j => paletteEntry s.params c0 c1 false false j
      ∃ t, exec (.bc3Block blk) s = .next t ∧
      blockWritten s t ((List.range 16).map fun n =>
        { cp (blk.toNat / 2 ^ (96 + 2 * n) % 4) with
          a := entry s.bc.work.ap (blk.toNat / 2 ^ (16 + 3 * n) % 8) 0 }) ∧
      t.bc.blk = blk ∧
      t.bc.work = { s.bc.work with
        a0 := blk.extractLsb' 0 8
        a1 := blk.extractLsb' 8 8
        idx3 := blk.extractLsb' 16 48
        c0Raw := BitVec.ofNat 16 c0
        c1Raw := BitVec.ofNat 16 c1
        idx2 := BitVec.ofNat 32 (fieldOf blk 96 32)
        hasAlphaOrBlack := false
        cp := #v[cp 0, cp 1, cp 2, cp 3] }) ∧
    (∀ blk : BitVec 64, ∃ t, exec (.bc4Block blk) s = .next t ∧
      blockWritten s t ((List.range 16).map fun n =>
        let v := entry s.bc.work.ap (blk.toNat / 2 ^ (16 + 3 * n) % 8) 0
        match s.cmd.channel.toNat with
        | 0 => ⟨v, 0, 0, 255⟩
        | 1 => ⟨0, v, 0, 255⟩
        | 2 => ⟨0, 0, v, 255⟩
        | 3 => ⟨0, 0, 0, v⟩
        | _ => ⟨0, 0, 0, 255⟩) ∧
      t.bc.blk = blk.setWidth 128 ∧
      t.bc.work =
        { s.bc.work with a0 := blk.extractLsb' 0 8, a1 := blk.extractLsb' 8 8, idx3 := blk.extractLsb' 16 48 })

/-- R171–R179, R182–R189: a BC7 block of any mode, under a ROM that fits the layouts, writes its pixels: texel `i` is the blend,
by the weights of its indices, of endpoints `2s` and `2s+1`, `s` its subset, with alpha exchanged as the rotation says.
Endpoints (with p-bit and expansion), subsets and indices are those of Blocks.lean, read from the bits where the layout
tables put them; they are also what the working registers hold. E entries that the mode has not, and I2 in a mode with one
index set, stay as they are. -/
def Obligations.BC7BlocksWriteTheirPixels : Prop :=
  ∀ (s : State) (blk : BitVec 128) (i : Instr) (y : Bc7Layout), romOk s.rom → y ∈ bc7Layouts →
    (i, y.mode) ∈ [(Instr.bc7Mode0 blk, 0), (.bc7Mode1 blk, 1), (.bc7Mode2 blk, 2), (.bc7Mode3 blk, 3), (.bc7Mode4 blk, 4),
      (.bc7Mode5 blk, 5), (.bc7Mode6 blk, 6), (.bc7Mode7 blk, 7)] →
    i.wf = true →
    let texel := fun n =>
      let s0 := subsetIn s.rom y blk n
      let a := endpointIn y blk (2 * s0)
      let b := endpointIn y blk (2 * s0 + 1)
      let w1 := weightIn s.rom y.indexBits1 (firstIndexIn s.rom y blk n)
      let w2 := weightIn s.rom y.indexBits2 (secondIndexIn y blk n)
      let swap := y.mode = 4 ∧ idxModeIn y blk = 1
      let wc := if swap then w2 else w1
      let wa := if y.indexBits2 = 0 ∨ swap then w1 else w2
      let blend := fun (w : Nat) (e0 e1 : Byte) => BitVec.ofNat 8 (((64 - w) * e0.toNat + w * e1.toNat + 32) / 64)
      let r := blend wc a.r b.r
      let g := blend wc a.g b.g
      let bl := blend wc a.b b.b
      let al := if y.alphaBits = 0 then 255 else blend wa a.a b.a
      match rotationIn y blk with
      | 1 => (⟨al, g, bl, r⟩ : Pixel)
      | 2 => ⟨r, al, bl, g⟩
      | 3 => ⟨r, g, al, bl⟩
      | _ => ⟨r, g, bl, al⟩
    ∃ t, exec i s = .next t ∧ blockWritten s t ((List.range 16).map texel) ∧
      decodeBC7Block s.rom blk = (List.range 16).map texel ∧ t.bc.blk = blk ∧
      t.bc.work.mode.toNat = y.mode ∧
      t.bc.work.partition.toNat = partitionIn y blk ∧
      t.bc.work.rotation.toNat = rotationIn y blk ∧
      t.bc.work.idxMode.toNat = idxModeIn y blk ∧
      (∀ e, e < 6 → entry t.bc.work.endpoints e ⟨0, 0, 0, 0⟩ =
        if e < y.endpoints then endpointIn y blk e else entry s.bc.work.endpoints e ⟨0, 0, 0, 0⟩) ∧
      (∀ n, n < 16 → (entry t.bc.work.i1 n 0).toNat = firstIndexIn s.rom y blk n ∧
        (entry t.bc.work.subset n 0).toNat = subsetIn s.rom y blk n ∧
        (y.indexBits2 ≠ 0 → (entry t.bc.work.i2 n 0).toNat = secondIndexIn y blk n)) ∧
      (y.indexBits2 = 0 → t.bc.work.i2 = s.bc.work.i2) ∧
      t.bc.work = { s.bc.work with
        mode := t.bc.work.mode
        partition := t.bc.work.partition
        rotation := t.bc.work.rotation
        idxMode := t.bc.work.idxMode
        endpoints := t.bc.work.endpoints
        i1 := t.bc.work.i1
        i2 := t.bc.work.i2
        subset := t.bc.work.subset }

/-- R180, R317: a reserved BC7 block is no error: every texel of it inside the image is (255, 0, 255, 255). -/
def Obligations.BC7ReservedBlockIsMagenta : Prop :=
  ∀ (s : State) (blk : BitVec 128),
    ∃ t, exec (.bc7Reserved blk) s = .next t ∧ blockWritten s t (List.replicate 16 ⟨255, 0, 255, 255⟩) ∧ t.bc.blk = blk ∧
      t.bc.work = { s.bc.work with mode := 8 }

/-- R130, R134, R140, R150, R160, R170, R29: a BCn command on an input that is long enough returns the picture: every pixel
of the image is its texel of its block's DecodeBlock, as Blocks.lean computes it from the bits of IN. One step starts the command, and each block takes one step, or two
where its alpha block has a row of its own (the steps are the model's, assumption log 1; that a width or height from 0xFFFFFFFD counts exactly is its choice too,
assumption log 18). -/
def Obligations.BcCommandsReturnThePicture : Prop :=
  ∀ (s : State) (rows : Nat), s.status = .busy → s.starting = true →
    (s.cmd.op, rows) ∈ [((0x01 : Byte), 1), (0x02, 1), (0x03, 2), (0x04, 2), (0x07, 1)] →
    (s.cmd.op = 0x04 → s.cmd.channel.toNat ≤ 3) → (s.cmd.op = 0x07 → romOk s.rom) →
    blocksAlong s.cmd.width * blocksAlong s.cmd.height * blockBytes s.cmd.op ≤ s.cmd.input.length →
    ∃ t, Host.Core.run Sys2Proof.core (rows * (blocksAlong s.cmd.width * blocksAlong s.cmd.height) + 1) s = .next t ∧
      t.status = .done ∧ t.result = .ok (.pixelBuffer (picture s.params s.rom s.cmd)) ∧ sameSurroundings s t

/-! ### BC arithmetic and BC7 layouts -/

/-- R111: a field of a block held as two words, also when it crosses from the low word into the high one. -/
def Obligations.BitsCrossTheWordBoundary : Prop :=
  ∀ (lo hi : BitVec 64) (start count : Nat), start + count ≤ 128 →
    bits lo hi start count = ((lo.toNat + 2 ^ 64 * hi.toNat) >>> start) &&& (1 <<< count - 1) ∧
    (start + count ≤ 64 → bits lo hi start count = lo.toNat / 2 ^ start % 2 ^ count) ∧
    (64 ≤ start → bits lo hi start count = hi.toNat / 2 ^ (start - 64) % 2 ^ count) ∧
    (start < 64 → 64 < start + count →
      bits lo hi start count = lo.toNat / 2 ^ start + 2 ^ (64 - start) * (hi.toNat % 2 ^ (start + count - 64)))

/-- R112–R120: the expansion of a 5:6:5 channel is exact under both values of EXPAND565, and a 5:6:5 word holds red in bits
15:11, green in 10:5, blue in 4:0; every interpolation is exact in a byte and lies between its two operands, and the expansion
of an endpoint component is exact; R205: BC7 index 0 gives the first endpoint and the top index the second. -/
def Obligations.InterpolationsAreExact : Prop :=
  (∀ v, v < 32 → (expand565 .replicate v 5).toNat = 8 * v + v / 4 ∧ (expand565 .scale v 5).toNat = (v * 255 + 15) / 31) ∧
  (∀ v, v < 64 → (expand565 .replicate v 6).toNat = 4 * v + v / 16 ∧ (expand565 .scale v 6).toNat = (v * 255 + 31) / 63) ∧
  (∀ (e : Expand565) (c : BitVec 16), unpack565 e c =
    ⟨expand565 e (c.toNat / 2048) 5, expand565 e (c.toNat / 32 % 64) 6, expand565 e (c.toNat % 32) 5, 255⟩) ∧
  ∀ (m : Rounding) (x y : Byte),
    let up := fun (n : Nat) => match m with | .trunc => 0 | .round => n
    let between := fun (b : Byte) => min x.toNat y.toNat ≤ b.toNat ∧ b.toNat ≤ max x.toNat y.toNat
    ((halfCh m x y).toNat = (x.toNat + y.toNat + up 1) / 2 ∧ between (halfCh m x y)) ∧
    ((oneThirdCh m x y).toNat = (2 * x.toNat + y.toNat + up 1) / 3 ∧ between (oneThirdCh m x y)) ∧
    ((twoThirdsCh m x y).toNat = (x.toNat + 2 * y.toNat + up 1) / 3 ∧ between (twoThirdsCh m x y)) ∧
    (∀ j, 1 ≤ j → j ≤ 6 →
      (sevenths m x y j).toNat = ((7 - j) * x.toNat + j * y.toNat + up 3) / 7 ∧ between (sevenths m x y j)) ∧
    (∀ j, 1 ≤ j → j ≤ 4 →
      (fifths m x y j).toNat = ((5 - j) * x.toNat + j * y.toNat + up 2) / 5 ∧ between (fifths m x y j)) ∧
    (∀ w, w ≤ 64 → (blend64 w x y).toNat = ((64 - w) * x.toNat + w * y.toNat + 32) / 64 ∧ between (blend64 w x y)) ∧
    (∀ p v, 5 ≤ p → p ≤ 8 → v < 2 ^ p → (bc7Expand v p).toNat = v * 2 ^ (8 - p) + v / 2 ^ (2 * p - 8)) ∧
    (∀ w, w ∈ [2, 3, 4] → bc7Interp standardRom x y w 0 = x ∧ bc7Interp standardRom x y w (2 ^ w - 1) = y)

/-- R80–R87: the partition, rotation and index-selection fields, the endpoint components and the p-bits of each mode stand
where the layout tables say. -/
def Obligations.BC7FieldsStandAtTheirBits : Prop :=
  ∀ (blk : BitVec 128) (y : Bc7Layout), y ∈ bc7Layouts →
    let f := bc7Fields standardRom y.mode blk
    f.partition = fieldOf blk (y.mode + 1) y.partitionBits ∧
    f.rotation = fieldOf blk (y.mode + 1) y.rotationBits ∧
    f.idxMode = fieldOf blk 7 y.idxModeBits ∧
    f.r = (List.range y.endpoints).map (fun e => fieldOf blk (y.red + y.colorBits * e) y.colorBits) ∧
    f.g = (List.range y.endpoints).map (fun e => fieldOf blk (y.green + y.colorBits * e) y.colorBits) ∧
    f.b = (List.range y.endpoints).map (fun e => fieldOf blk (y.blue + y.colorBits * e) y.colorBits) ∧
    f.a = (if y.alphaBits = 0 then []
      else (List.range y.endpoints).map fun e => fieldOf blk (y.alpha + y.alphaBits * e) y.alphaBits) ∧
    f.pbits = (List.range y.pbits).map (fun e => fieldOf blk (y.pbit + e) 1)

/-- R88, R177: each index stands at the start of its set plus the widths of the texels before it, an anchor one bit narrower
with its top bit 0, and the sets end at bit 128. -/
def Obligations.BC7IndicesArePackedWithNarrowAnchors : Prop :=
  ∀ (blk : BitVec 128) (y : Bc7Layout),
    y ∈ bc7Layouts →
    let m := y.mode
    let start1 := y.index1
    let start2 := y.index2
    let md := modeRow standardRom m
    let f := bc7Fields standardRom m blk
    let anchors := anchorsOf standardRom md.ns f.partition
    let w1 := fun i => if i ∈ anchors then md.ib - 1 else md.ib
    let w2 := fun i => if i = 0 then md.ib2 - 1 else md.ib2
    f.i1.length = 16 ∧
    (∀ i, i < 16 → f.i1.getD i 0 = fieldOf blk (start1 + ((List.range i).map w1).sum) (w1 i)) ∧
    (∀ i, i ∈ anchors → f.i1.getD i 0 < 2 ^ (md.ib - 1)) ∧
    start1 + ((List.range 16).map w1).sum = start2 ∧
    (md.ib2 ≠ 0 → f.i2.length = 16 ∧
      (∀ i, i < 16 → f.i2.getD i 0 = fieldOf blk (start2 + ((List.range i).map w2).sum) (w2 i)) ∧
      start2 + ((List.range 16).map w2).sum = 128)

/-- R206: the consistency checks of the BC7 tables. -/
def Obligations.BC7TablesPassTheirChecks : Prop :=
  (∀ p, p < 64 →
    partition2At standardRom p (standardRom.anchor2.getD p 0) = 1 ∧
    partition3At standardRom p (standardRom.anchor3s1.getD p 0) = 1 ∧
    partition3At standardRom p (standardRom.anchor3s2.getD p 0) = 2 ∧
    partition2At standardRom p 0 = 0 ∧ partition3At standardRom p 0 = 0 ∧
    (∀ g, g < 2 → ∃ i, i < 16 ∧ partition2At standardRom p i = g) ∧
    (∀ g, g < 3 → ∃ i, i < 16 ∧ partition3At standardRom p i = g)) ∧
  standardRom.partition2.Nodup ∧ standardRom.partition3.Nodup ∧
  (∀ m, m < 8 →
    let md := modeRow standardRom m
    m + 1 + md.pb + md.rb + md.isb + 2 * md.ns * (3 * md.cb + md.ab) + 2 * md.ns * md.epb + md.ns * md.spb +
      (16 * md.ib - md.ns) + (16 * md.ib2 - if md.ib2 = 0 then 0 else 1) = 128)

/-! ### LZSS -/

/-- R210, R211: lzssDecompress starts from RING all 0x20, r = 4078, flags = 0, ip = offset, no output and checksum 0. -/
def Obligations.LzssStartsFromItsInitialState : Prop :=
  ∀ s : State, ∃ t, exec .lzssDecompress s = .next t ∧
    (∀ j, j < 4096 → Memory.read ringFill t.lzss.ring j = some 0x20) ∧
    t.lzss.r = 4078 ∧ t.lzss.flags = 0 ∧ t.lzss.ip = s.cmd.offset.toNat ∧ t.lzss.out = [] ∧ t.lzss.csum = 0 ∧
    t.lzss.fresh = false ∧ t.status = .busy ∧ t.starting = false ∧ t.result = s.result ∧
    sameSurroundings s t ∧ t.bc = s.bc ∧ t.lzo = s.lzo ∧ t.lz4 = s.lz4

/-- R212: the flag byte fills the flag register with `0xFF00 | byte`, so that bit j is the kind of token j, the sentinel stands
through eight tokens, and after them it is used up. -/
def Obligations.LzssFlagByteGovernsEightTokens : Prop :=
  ∀ (s : State) (kinds : BitVec 8),
    let flags : BitVec 16 := 0xFF00 ||| kinds.setWidth 16
    exec (.lzssFlags kinds) s =
      .next { s with lzss := { s.lzss with flags := flags, fresh := true, ip := s.lzss.ip + 1 } } ∧
    (∀ j, j < 8 → (flags >>> j).getLsbD 0 = kinds.getLsbD j) ∧
    (∀ j, j ≤ 7 → (flags >>> j).getLsbD 8 = true) ∧ (flags >>> 8).getLsbD 8 = false

/-- R215, R217: a literal is appended to OUT, written to RING at r, added to the checksum, and r and ip move on. -/
def Obligations.LzssLiteralIsEmitted : Prop :=
  ∀ (s : State) (v : BitVec 8), Memory.wf ringFill s.lzss.ring →
    ∃ t, exec (.lzssLit v) s = .next t ∧
      t.lzss.out = s.lzss.out ++ [v] ∧
      (∀ a, Memory.read ringFill t.lzss.ring a =
        if a = s.lzss.r.toNat then some v else Memory.read ringFill s.lzss.ring a) ∧
      t.lzss.r.toNat = (s.lzss.r.toNat + 1) % 4096 ∧
      t.lzss.csum = s.lzss.csum + BitVec.ofInt 32 (if s.cmd.signedChecksum then v.toInt else v.toNat) ∧
      t.lzss.flags = (if s.lzss.fresh then s.lzss.flags else s.lzss.flags >>> 1) ∧ t.lzss.fresh = false ∧
      t.lzss.ip = s.lzss.ip + 1 ∧ onlyLzss s t

/-- R213, R214, R216, R347: a back-reference that fits copies L + 3 bytes from `off` places behind r, byte by byte through
the ring, each one written before the next is read. -/
def Obligations.LzssBackReferenceCopiesThroughTheRing : Prop :=
  ∀ (s : State) (off : BitVec 12) (l : BitVec 4), Memory.wf ringFill s.lzss.ring →
    s.lzss.out.length + (l.toNat + 3) ≤ s.cmd.expectedSize.toNat →
    ∃ (t : State) (xs : List Byte), exec (.lzssRef off l) s = .next t ∧
      xs.length = l.toNat + 3 ∧ t.lzss.out = s.lzss.out ++ xs ∧
      (∀ j, j < l.toNat + 3 → some (xs.getD j 0) =
        if 1 ≤ off.toNat ∧ off.toNat ≤ j then some (xs.getD (j - off.toNat) 0)
        else Memory.read ringFill s.lzss.ring ((s.lzss.r.toNat + j + 4096 - off.toNat) % 4096)) ∧
      (∀ j, j < l.toNat + 3 →
        Memory.read ringFill t.lzss.ring ((s.lzss.r.toNat + j) % 4096) = some (xs.getD j 0)) ∧
      (∀ a, (∀ j, j < l.toNat + 3 → a ≠ (s.lzss.r.toNat + j) % 4096) →
        Memory.read ringFill t.lzss.ring a = Memory.read ringFill s.lzss.ring a) ∧
      t.lzss.r.toNat = (s.lzss.r.toNat + (l.toNat + 3)) % 4096 ∧
      t.lzss.csum = s.lzss.csum +
        (xs.map fun v => BitVec.ofInt 32 (if s.cmd.signedChecksum then v.toInt else v.toNat)).sum ∧
      t.lzss.flags = (if s.lzss.fresh then s.lzss.flags else s.lzss.flags >>> 1) ∧ t.lzss.fresh = false ∧
      t.lzss.ip = s.lzss.ip + 2 ∧ onlyLzss s t

/-- R218: a back-reference past expectedSize raises Overflow at its first byte, before it copies anything. -/
def Obligations.LzssBackReferenceOverflows : Prop :=
  ∀ (s : State) (off : BitVec 12) (l : BitVec 4), s.cmd.expectedSize.toNat < s.lzss.out.length + (l.toNat + 3) →
    exec (.lzssRef off l) s = .next (raiseFail ⟨.overflow, s.lzss.ip⟩ s)

/-- R219: a trailer equal to the checksum returns the data and the bytes consumed, trailer included; any other raises
ChecksumMismatch at the trailer's first byte. -/
def Obligations.LzssTrailerEndsTheCommand : Prop :=
  ∀ (s : State) (stored : BitVec 32),
    (stored = s.lzss.csum → exec (.lzssCsum stored) s = .next { s with
      lzss := { s.lzss with ip := s.lzss.ip + 4 }
      status := .done
      result := .ok (.lzssData s.lzss.out (s.lzss.ip + 4 - s.cmd.offset.toNat))
      starting := false }) ∧
    (stored ≠ s.lzss.csum → exec (.lzssCsum stored) s = .next (raiseFail ⟨.checksumMismatch, s.lzss.ip⟩ s))

/-- R213, R214, R217, R349: while an LZSS command runs, every ring read gives the byte that many places back in the output
(4096 for offset 0, 0x20 beyond the output), and the checksum is the sum of the output; every step keeps this. -/
def Obligations.LzssRingFollowsTheOutput : Prop :=
  ∀ s t : State, ringFollowsOutput s → step s = .next t → ringFollowsOutput t

/-- R210, R212, R215, R216, R219, R89, R90: which row a started LZSS command runs next, and from which bytes of IN. The
next fetch gives exactly this row when the bytes it is read from lie in IN at ip, and gives no row when they do not: the
trailer of the four little-endian bytes at ip once `expectedSize` bytes are produced; before that the flag byte at ip, the
literal byte at ip, or the back-reference with `b0` at ip and `b1` after it, its offset `b1[7:4]` above `b0` and its length
field `b1[3:0]`. A flag byte and the group's first token are two rows (assumption log 1). -/
def Obligations.LzssNextRowFollowsTheFlags : Prop :=
  ∀ s : State, s.status = .busy → s.starting = false → s.cmd.op = 0x10 →
    let inp := s.cmd.input
    let ip := s.lzss.ip
    let flagByte := ∀ i, fetch s = .instr i ↔ ∃ b, inp[ip]? = some b ∧ i = .lzssFlags b
    let literal := ∀ i, fetch s = .instr i ↔ ∃ b, inp[ip]? = some b ∧ i = .lzssLit b
    let backRef := ∀ i, fetch s = .instr i ↔ ∃ b0 b1, inp[ip]? = some b0 ∧ inp[ip + 1]? = some b1 ∧
      i = .lzssRef (b1.extractLsb' 4 4 ++ b0) (b1.extractLsb' 0 4)
    (s.cmd.expectedSize.toNat ≤ s.lzss.out.length →
      ∀ i, fetch s = .instr i ↔ ∃ b0 b1 b2 b3, inp[ip]? = some b0 ∧ inp[ip + 1]? = some b1 ∧
        inp[ip + 2]? = some b2 ∧ inp[ip + 3]? = some b3 ∧ i = .lzssCsum (b3 ++ b2 ++ b1 ++ b0)) ∧
    (s.lzss.out.length < s.cmd.expectedSize.toNat →
      (s.lzss.fresh = false → (s.lzss.flags >>> 1).getLsbD 8 = false → flagByte) ∧
      (s.lzss.fresh = false → (s.lzss.flags >>> 1).getLsbD 8 = true → s.lzss.flags.getLsbD 1 = true → literal) ∧
      (s.lzss.fresh = false → (s.lzss.flags >>> 1).getLsbD 8 = true → s.lzss.flags.getLsbD 1 = false → backRef) ∧
      (s.lzss.fresh = true → s.lzss.flags.getLsbD 0 = true → literal) ∧
      (s.lzss.fresh = true → s.lzss.flags.getLsbD 0 = false → backRef))

/-- R220, R313: an LZSS read that ends past `len(IN)` raises InputTruncated at `len(IN)`: of a trailer, of a flag byte or a
token's first byte, of a back-reference's second byte. -/
def Obligations.LzssShortInputIsTruncated : Prop :=
  ∀ s : State, s.status = .busy → s.starting = false → s.cmd.op = 0x10 →
    (s.cmd.expectedSize.toNat ≤ s.lzss.out.length ∧ s.cmd.input.length < s.lzss.ip + 4 ∨
      s.lzss.out.length < s.cmd.expectedSize.toNat ∧ s.cmd.input.length < s.lzss.ip + 1 ∨
      s.lzss.out.length < s.cmd.expectedSize.toNat ∧ s.lzss.fresh = true ∧ s.lzss.flags.getLsbD 0 = false ∧
        s.cmd.input.length < s.lzss.ip + 2 ∨
      s.lzss.out.length < s.cmd.expectedSize.toNat ∧ s.lzss.fresh = false ∧ (s.lzss.flags >>> 1).getLsbD 8 = true ∧
        s.lzss.flags.getLsbD 1 = false ∧ s.cmd.input.length < s.lzss.ip + 2) →
    step s = .next (raiseFail ⟨.inputTruncated, s.cmd.input.length⟩ s)

/-! ### LZO1X -/

/-- R243, R244: lzoDecompress starts with nothing read and nothing produced; a first byte above 17 will be a first literal
run, any other is read in state Outer. -/
def Obligations.LzoStartsFromItsInitialState : Prop :=
  ∀ s : State, ∃ t, exec .lzoDecompress s = .next t ∧
    t.lzo.ip = 0 ∧ t.lzo.out = [] ∧ t.lzo.t = 0 ∧ t.lzo.ext = none ∧ t.lzo.tok = 0 ∧
    t.lzo.st = (if 1 ≤ s.cmd.input.length ∧ 17 < (s.cmd.input.getD 0 0).toNat then .start else .outer) ∧
    t.status = .busy ∧ t.starting = false ∧ t.result = s.result ∧
    sameSurroundings s t ∧ t.bc = s.bc ∧ t.lzss = s.lzss ∧ t.lz4 = s.lz4

/-- R240–R242, R244–R251, R92–R94, R96: which row a started LZO1X command runs next, and from which bytes of IN. The
control byte `t` at ip and, below 16, the state choose the row; the next fetch gives exactly that row, its fields those of
`t` and of the bytes after it, when the bytes lie in IN, and gives no row when they do not. In state Start a first byte
above 17 is a first literal run. The class 0001HLLL is the end marker exactly when its raw distance is 0. A length field 0
calls for its extension first (assumption log 1): `n` zero bytes after `t` and a byte that is not zero. Once that is read,
the token's own row follows: the extended literal run after 0x00, M3 after 0x20, M4 or the end marker after 0x10, M4 after
0x18, with the two distance bytes at ip. -/
def Obligations.LzoNextRowFollowsTheControlByte : Prop :=
  ∀ s : State, s.status = .busy → s.starting = false → s.cmd.op = 0x11 →
    let inp := s.cmd.input
    let ip := s.lzo.ip
    let threeStates := [LzoSt.outer, .afterRun, .afterShort]
    (∀ t : Byte, s.lzo.ext = none → inp[ip]? = some t →
      let needsExtension := t = 0x20 ∨ t = 0x18 ∨ t = 0x10 ∨ t = 0x00 ∧ s.lzo.st = .outer
      (s.lzo.st = .start → 17 < t.toNat → fetch s = .instr (.lzoFirstLit t)) ∧
      (s.lzo.st ∈ threeStates → 64 ≤ t.toNat → ∀ i, fetch s = .instr i ↔ ∃ h, inp[ip + 1]? = some h ∧
        i = .lzoM2 (t.extractLsb' 5 3) (t.extractLsb' 2 3) (t.extractLsb' 0 2) h) ∧
      (s.lzo.st ∈ threeStates → 32 < t.toNat → t.toNat < 64 → ∀ i, fetch s = .instr i ↔
        ∃ d0 d1, inp[ip + 1]? = some d0 ∧ inp[ip + 2]? = some d1 ∧ i = .lzoM3 (t.extractLsb' 0 5) (d1 ++ d0)) ∧
      (s.lzo.st ∈ threeStates → 16 < t.toNat → t.toNat < 32 → t ≠ 0x18 → ∀ i, fetch s = .instr i ↔
        ∃ d0 d1, inp[ip + 1]? = some d0 ∧ inp[ip + 2]? = some d1 ∧
          let raw := t.toNat / 8 % 2 * 16384 + (d1 ++ d0).toNat / 4
          i = if raw = 0 then .lzoEof (t.extractLsb' 0 3) (d0.extractLsb' 0 2)
            else .lzoM4 (t.extractLsb' 3 1) (t.extractLsb' 0 3) (d1 ++ d0)) ∧
      (s.lzo.st = .outer → t ≠ 0 → t.toNat < 16 → fetch s = .instr (.lzoLit (t.extractLsb' 0 4))) ∧
      (s.lzo.st = .afterRun → t.toNat < 16 → ∀ i, fetch s = .instr i ↔ ∃ h, inp[ip + 1]? = some h ∧
        i = .lzoM1Far (t.extractLsb' 2 2) (t.extractLsb' 0 2) h) ∧
      (s.lzo.st = .afterShort → t.toNat < 16 → ∀ i, fetch s = .instr i ↔ ∃ h, inp[ip + 1]? = some h ∧
        i = .lzoM1Near (t.extractLsb' 2 2) (t.extractLsb' 0 2) h) ∧
      (s.lzo.st ∈ threeStates → needsExtension → ∀ i, fetch s = .instr i ↔
        ∃ n v, (∀ a, ip < a → a < ip + 1 + n → inp[a]? = some 0) ∧ inp[ip + 1 + n]? = some v ∧ v ≠ 0 ∧
          i = .lzoExt n v)) ∧
    (s.lzo.ext ≠ none → s.lzo.st ∈ threeStates →
      (s.lzo.t = 0x00 → s.lzo.st = .outer → fetch s = .instr .lzoLitExt) ∧
      (s.lzo.t = 0x20 → ∀ i, fetch s = .instr i ↔
        ∃ d0 d1, inp[ip]? = some d0 ∧ inp[ip + 1]? = some d1 ∧ i = .lzoM3 0 (d1 ++ d0)) ∧
      (s.lzo.t = 0x10 → ∀ i, fetch s = .instr i ↔
        ∃ d0 d1, inp[ip]? = some d0 ∧ inp[ip + 1]? = some d1 ∧
          i = if (d1 ++ d0).toNat / 4 = 0 then .lzoEof 0 (d0.extractLsb' 0 2) else .lzoM4 0 0 (d1 ++ d0)) ∧
      (s.lzo.t = 0x18 → ∀ i, fetch s = .instr i ↔
        ∃ d0 d1, inp[ip]? = some d0 ∧ inp[ip + 1]? = some d1 ∧ i = .lzoM4 1 0 (d1 ++ d0)))

/-- R242, R94: the extension row reads the control byte and the chain after it, each zero byte worth 255, and keeps their
value and the token's offset for the token's own row (assumption log 1). -/
def Obligations.LzoExtensionIsReadBeforeItsToken : Prop :=
  ∀ (s : State) (zeros : Nat) (v t : BitVec 8), s.cmd.input[s.lzo.ip]? = some t →
    exec (.lzoExt zeros v) s = .next { s with lzo := { s.lzo with
      t := t.setWidth 32
      tok := s.lzo.ip
      ip := s.lzo.ip + 1 + (zeros + 1)
      ext := some (255 * zeros + v.toNat) } }

/-- R244, R245, R254: a literal-run token whose literals lie in IN, with MAX_OUTPUT not passed, appends them and moves to
its next state. -/
def Obligations.LzoLiteralRunsAppend : Prop :=
  ∀ (s : State) (i : Instr) (start n : Nat), i.wf = true → lzoRunOf s.lzo i = some (start, n) →
    start + n ≤ s.cmd.input.length → fits s.params (s.lzo.out.length + n) →
    exec i s = .next { s with lzo := { s.lzo with
      ip := start + n
      out := s.lzo.out ++ inSlice s.cmd.input start n
      st := match i with
        | .lzoFirstLit _ => if n ≤ 3 then .afterShort else .afterRun
        | _ => .afterRun
      t := match i with
        | .lzoFirstLit _ => s.lzo.t
        | .lzoLit l => l.setWidth 32
        | _ => 0
      ext := match i with
        | .lzoFirstLit _ => s.lzo.ext
        | _ => none } }

/-- R246–R250, R252, R253: a match token whose distance lies in the output, whose trailing literals lie in IN and whose
output does not pass MAX_OUTPUT copies its bytes one by one, appends its trailing literals and moves to the state they
give. -/
def Obligations.LzoMatchesCopy : Prop :=
  ∀ (s : State) (i : Instr) (m : LzoMatch), i.wf = true → lzoMatchOf s.lzo i = some m → m.dist ≤ s.lzo.out.length →
    fits s.params (s.lzo.out.length + m.len + m.trailing) →
    (m.trailing = 0 ∨ s.lzo.ip + m.used + m.trailing ≤ s.cmd.input.length) →
    ∃ out, copied m.dist s.lzo.out out m.len ∧
      exec i s = .next { s with lzo := { s.lzo with
        ip := s.lzo.ip + m.used + m.trailing
        out := out ++ inSlice s.cmd.input (s.lzo.ip + m.used) m.trailing
        t := BitVec.ofNat 32 m.trailing
        st := if m.trailing = 0 then .outer else .afterShort
        ext := none } }

/-- R252–R254, R256, R315: what the tokens check, each in this order. A literal run: InputTruncated before anything is
copied, OutputOverrun after the literals. A match: InvalidOffset at its control byte, OutputOverrun after the copy,
InputTruncated before its trailing literals, OutputOverrun after them. -/
def Obligations.LzoTokenChecks : Prop :=
  ∀ (s : State) (i : Instr), i.wf = true →
    (∀ start n, lzoRunOf s.lzo i = some (start, n) →
      (s.cmd.input.length < start + n → exec i s = .next (raiseFail ⟨.inputTruncated, s.cmd.input.length⟩ s)) ∧
      (start + n ≤ s.cmd.input.length → exceeds s.params (s.lzo.out.length + n) →
        exec i s = .next (raiseFail ⟨.outputOverrun, start + n⟩ s))) ∧
    (∀ m, lzoMatchOf s.lzo i = some m →
      (s.lzo.out.length < m.dist → exec i s = .next (raiseFail ⟨.invalidOffset, m.tok⟩ s)) ∧
      (m.dist ≤ s.lzo.out.length →
        (exceeds s.params (s.lzo.out.length + m.len) →
          exec i s = .next (raiseFail ⟨.outputOverrun, s.lzo.ip + m.used⟩ s)) ∧
        (fits s.params (s.lzo.out.length + m.len) → m.trailing ≠ 0 →
          (s.cmd.input.length < s.lzo.ip + m.used + m.trailing →
            exec i s = .next (raiseFail ⟨.inputTruncated, s.cmd.input.length⟩ s)) ∧
          (s.lzo.ip + m.used + m.trailing ≤ s.cmd.input.length →
            exceeds s.params (s.lzo.out.length + m.len + m.trailing) →
            exec i s = .next (raiseFail ⟨.outputOverrun, s.lzo.ip + m.used + m.trailing⟩ s)))))

/-- R251, R255: the end marker copies nothing; the output returns when it has the expected size and, where all input is
required, the marker is the last of it; else SizeMismatch, then BlockLengthMismatch, at the cursor after the marker. -/
def Obligations.LzoEndMarkerEndsTheCommand : Prop :=
  ∀ (s : State) (l : BitVec 3) (q : BitVec 2),
    let ip := s.lzo.ip + (if l = 0 then 0 else 1) + 2
    (s.lzo.out.length = s.cmd.expectedSize.toNat →
      (s.params.lzoRequireAllInput = true → ip = s.cmd.input.length) →
      exec (.lzoEof l q) s = .next { s with
        lzo := { s.lzo with ip := ip, st := .eof, t := BitVec.ofNat 32 (16 + l.toNat), ext := none }
        status := .done
        result := .ok (.decodedBytes s.lzo.out)
        starting := false }) ∧
    (s.lzo.out.length ≠ s.cmd.expectedSize.toNat → exec (.lzoEof l q) s = .next (raiseFail ⟨.sizeMismatch, ip⟩ s)) ∧
    (s.lzo.out.length = s.cmd.expectedSize.toNat → s.params.lzoRequireAllInput = true → ip ≠ s.cmd.input.length →
      exec (.lzoEof l q) s = .next (raiseFail ⟨.blockLengthMismatch, ip⟩ s))

/-- R242, R243, R313: a started LZO1X command with nothing left to read raises InputTruncated at `len(IN)`, and so does a
token whose fixed bytes do not all lie in IN, a length extension whose zero bytes reach the end of IN, and a token whose
length extension is read and whose two distance bytes do not both lie in IN. -/
def Obligations.LzoShortInputIsTruncated : Prop :=
  ∀ s : State, s.status = .busy → s.starting = false → s.cmd.op = 0x11 →
    s.lzo.st ∈ [LzoSt.outer, .afterRun, .afterShort] →
    (s.lzo.ext = none ∧
      (s.cmd.input.length ≤ s.lzo.ip ∨
        ∃ t, s.cmd.input[s.lzo.ip]? = some t ∧
          (64 ≤ t.toNat ∧ s.cmd.input.length < s.lzo.ip + 2 ∨
            t.toNat < 16 ∧ s.lzo.st ≠ .outer ∧ s.cmd.input.length < s.lzo.ip + 2 ∨
            16 < t.toNat ∧ t.toNat < 64 ∧ t ≠ 24 ∧ t ≠ 32 ∧ s.cmd.input.length < s.lzo.ip + 3 ∨
            (t = 16 ∨ t = 24 ∨ t = 32 ∨ t = 0 ∧ s.lzo.st = .outer) ∧
              ∀ a, s.lzo.ip < a → a < s.cmd.input.length → s.cmd.input[a]? = some 0)) ∨
      s.lzo.ext ≠ none ∧ (s.lzo.t = 0x10 ∨ s.lzo.t = 0x18 ∨ s.lzo.t = 0x20) ∧
        s.cmd.input.length < s.lzo.ip + 2) →
    step s = .next (raiseFail ⟨.inputTruncated, s.cmd.input.length⟩ s)

/-! ### LZ4 chain -/

/-- R280, R281: decompressLz4Chain starts with nothing read, an empty dictionary and nothing produced, before its header;
the header row takes the target size. That target and chunkEnd hold 0 until their rows write them is the model's DESIGN
CHOICE (assumption log 4). -/
def Obligations.Lz4StartsAndReadsItsTarget : Prop :=
  ∀ s : State,
    (∃ t, exec .decompressLz4Chain s = .next t ∧ t.lz4.ip = 0 ∧ t.lz4.dict = [] ∧ t.lz4.total = [] ∧ t.lz4.ch = [] ∧
      t.lz4.phase = .target ∧ t.lz4 = Lz4Regs.reset ∧ t.status = .busy ∧ t.starting = false ∧ t.result = s.result ∧
      sameSurroundings s t ∧ t.bc = s.bc ∧ t.lzss = s.lzss ∧ t.lzo = s.lzo) ∧
    ∀ target : BitVec 32, exec (.lz4Target target) s =
      .next { s with lz4 := { s.lz4 with target := target, ip := s.lz4.ip + 4, phase := .chunk } }

/-- R280–R282, R284, R285, R287: which row a started LZ4 chain command runs next, and from which bytes: the header, a chunk
header whose flags are in order, a token, or the length extension that a token has called for. A token and an extension are
read inside the chunk's payload only (the phase between two rows is the model's, assumption log 1). -/
def Obligations.Lz4NextRowFollowsTheSequence : Prop :=
  ∀ s : State, s.status = .busy → s.starting = false → s.cmd.op = 0x12 →
    (s.lz4.phase = .target → s.lz4.ip + 4 ≤ s.cmd.input.length →
      ∃ target, fetch s = .instr (.lz4Target target) ∧ leBytes 4 target.toNat = inSlice s.cmd.input s.lz4.ip 4) ∧
    (s.lz4.phase = .chunk → s.lz4.ip + 4 ≤ s.cmd.input.length → s.cmd.input.getD (s.lz4.ip + 3) 0 &&& 0x7F#8 = 0 →
      ∃ size last, fetch s = .instr (.lz4Chunk size last) ∧ leBytes 3 size.toNat = inSlice s.cmd.input s.lz4.ip 3 ∧
        (last = 1 ↔ 128 ≤ (s.cmd.input.getD (s.lz4.ip + 3) 0).toNat)) ∧
    (∀ t : Byte, s.lz4.phase = .seq → s.lz4.ip < s.lz4.chunkEnd → s.cmd.input[s.lz4.ip]? = some t →
      fetch s = .instr (.lz4Seq (BitVec.ofNat 4 (t.toNat / 16)) (BitVec.ofNat 4 (t.toNat % 16)))) ∧
    (∀ (n : Nat) (v : Byte), s.lz4.phase = .litLen ∨ s.lz4.phase = .matchLen →
      (∀ a, s.lz4.ip ≤ a → a < s.lz4.ip + n → s.cmd.input[a]? = some 0xFF) →
      s.cmd.input[s.lz4.ip + n]? = some v → v ≠ 0xFF → s.lz4.ip + n < s.lz4.chunkEnd →
      fetch s = .instr (.lz4Ext n v))

/-- R282, R283: a chunk header whose payload lies in IN begins its chunk; an empty chunk, where the parameter allows it,
ends at once with nothing produced. -/
def Obligations.Lz4ChunkHeaderBeginsItsChunk : Prop :=
  ∀ (s : State) (size : BitVec 24) (last : BitVec 1),
    s.lz4.ip + 4 + size.toNat ≤ s.cmd.input.length →
    (size ≠ 0 → exec (.lz4Chunk size last) s = .next { s with lz4 := { s.lz4 with
      ip := s.lz4.ip + 4, chunkEnd := s.lz4.ip + 4 + size.toNat, last := last, ch := [], phase := .seq } }) ∧
    (size = 0 → s.params.lz4EmptyChunkOk = true →
      lz4Closes s { s.lz4 with ip := s.lz4.ip + 4, last := last, ch := [] } →
      ∃ t, exec (.lz4Chunk size last) s = .next t ∧
        lz4ChunkEnded s t { s.lz4 with ip := s.lz4.ip + 4, chunkEnd := s.lz4.ip + 4, last := last, ch := [] })

/-- R282, R283, R315: what a chunk header checks, in that order: UnknownFlags at the header, InputTruncated for a payload
past `len(IN)`, MalformedChunk for an empty chunk. -/
def Obligations.Lz4ChunkHeaderChecks : Prop :=
  ∀ s : State,
    (s.status = .busy → s.starting = false → s.cmd.op = 0x12 → s.lz4.phase = .chunk →
      s.lz4.ip + 4 ≤ s.cmd.input.length → s.cmd.input.getD (s.lz4.ip + 3) 0 &&& 0x7F#8 ≠ 0 →
      step s = .next (raiseFail ⟨.unknownFlags, s.lz4.ip⟩ s)) ∧
    (∀ (size : BitVec 24) (last : BitVec 1), s.cmd.input.length < s.lz4.ip + 4 + size.toNat →
      exec (.lz4Chunk size last) s = .next (raiseFail ⟨.inputTruncated, s.cmd.input.length⟩ s)) ∧
    (∀ last : BitVec 1, s.lz4.ip + 4 ≤ s.cmd.input.length → s.params.lz4EmptyChunkOk = false →
      exec (.lz4Chunk 0 last) s = .next (raiseFail ⟨.malformedChunk, s.lz4.ip + 4⟩ s))

/-- R284, R285, R287, R290: a token whose literal length is extended waits for its extension, with nothing copied yet; a row
that copies literals which lie in the chunk, with MAX_OUTPUT not passed: the chunk ends right after them, or the offset is
read and an extended match length is waited for. -/
def Obligations.Lz4LiteralsAreCopied : Prop :=
  ∀ s : State,
    (∀ ml : BitVec 4, exec (.lz4Seq 15 ml) s =
      .next { s with lz4 := { s.lz4 with ip := s.lz4.ip + 1, tok := s.lz4.ip, ml := ml, phase := .litLen } }) ∧
    ∀ (i : Instr) (n : Nat) (e : Lz4Regs), lz4LiteralsOf s.lz4 i = some (n, e) → e.ip + n ≤ e.chunkEnd →
      fits s.params (e.total.length + (lz4WithLiterals s.cmd.input n e).ch.length) →
      (e.ip + n = e.chunkEnd → lz4Closes s (lz4WithLiterals s.cmd.input n e) →
        ∃ t, exec i s = .next t ∧ lz4ChunkEnded s t (lz4WithLiterals s.cmd.input n e)) ∧
      (e.ip + n + 2 ≤ e.chunkEnd → e.ml = 15 → exec i s = .next { s with
        lz4 := { lz4WithOffset s.cmd.input (lz4WithLiterals s.cmd.input n e) with phase := .matchLen } })

/-- R286, R287, R290, R347: a row that copies a match whose offset lies in DICT ++ CH, with MAX_OUTPUT not passed, copies it
byte by byte from DICT ++ CH into CH; then the next sequence follows, or the chunk ends. -/
def Obligations.Lz4MatchesAreCopied : Prop :=
  ∀ (s : State) (i : Instr) (o n : Nat) (e : Lz4Regs), lz4MatchOf s.cmd.input s.lz4 i = some (o, n, e) →
    1 ≤ o → o ≤ e.dict.length + e.ch.length → fits s.params (e.total.length + e.ch.length + n) →
    ∃ ch, copied o (e.dict ++ e.ch) (e.dict ++ ch) n ∧
      (e.ip < e.chunkEnd → exec i s = .next { s with lz4 := { e with ch := ch, phase := .seq } }) ∧
      (e.chunkEnd ≤ e.ip → lz4Closes s { e with ch := ch } →
        ∃ t, exec i s = .next t ∧ lz4ChunkEnded s t { e with ch := ch })

/-- R284, R286, R287, R290, R315: what a sequence checks: literals past the chunk, the output after the literals, an offset
past the chunk, the offset against DICT ++ CH, the output after the match. -/
def Obligations.Lz4SequenceChecks : Prop :=
  ∀ (s : State) (i : Instr),
    (∀ n e, lz4LiteralsOf s.lz4 i = some (n, e) →
      (e.chunkEnd < e.ip + n → exec i s = .next (raiseFail ⟨.malformedChunk, e.chunkEnd⟩ s)) ∧
      (e.ip + n ≤ e.chunkEnd → exceeds s.params (e.total.length + (lz4WithLiterals s.cmd.input n e).ch.length) →
        exec i s = .next (raiseFail ⟨.outputOverrun, e.ip + n⟩ s)) ∧
      (e.ip + n + 1 = e.chunkEnd → fits s.params (e.total.length + (lz4WithLiterals s.cmd.input n e).ch.length) →
        exec i s = .next (raiseFail ⟨.malformedChunk, e.chunkEnd⟩ s))) ∧
    (∀ o n e, lz4MatchOf s.cmd.input s.lz4 i = some (o, n, e) → fits s.params (e.total.length + e.ch.length) →
      (o = 0 ∨ e.dict.length + e.ch.length < o → exec i s = .next (raiseFail ⟨.invalidOffset, e.tok⟩ s)) ∧
      (1 ≤ o → o ≤ e.dict.length + e.ch.length → exceeds s.params (e.total.length + e.ch.length + n) →
        exec i s = .next (raiseFail ⟨.outputOverrun, e.ip⟩ s)))

/-- R283, R289, R315: a last chunk that ends elsewhere than at declaredBlockSize raises BlockLengthMismatch, and one that
leaves another total than the target raises SizeMismatch, both at the cursor after it: after literals, after a match, and
where LZ4_EMPTY_CHUNK_OK allows an empty last chunk. -/
def Obligations.Lz4LastChunkChecks : Prop :=
  ∀ (s : State) (i : Instr) (e : Lz4Regs), e.last = 1 →
    (∃ n e0, lz4LiteralsOf s.lz4 i = some (n, e0) ∧ e = lz4WithLiterals s.cmd.input n e0 ∧ e.ip = e.chunkEnd ∧
        fits s.params (e.total.length + e.ch.length)) ∨
      (∃ o n e0, lz4MatchOf s.cmd.input s.lz4 i = some (o, n, e0) ∧ 1 ≤ o ∧ o ≤ e0.dict.length + e0.ch.length ∧
        e = { e0 with ch := copyDict e0.dict o n e0.ch } ∧ e.chunkEnd ≤ e.ip ∧
        fits s.params (e.total.length + e.ch.length)) ∨
      (i = .lz4Chunk 0 1 ∧ s.params.lz4EmptyChunkOk = true ∧ s.lz4.ip + 4 ≤ s.cmd.input.length ∧
        e = { s.lz4 with ip := s.lz4.ip + 4, chunkEnd := s.lz4.ip + 4, last := 1, ch := [] }) →
    (e.ip ≠ s.cmd.declaredBlockSize.toNat → exec i s = .next (raiseFail ⟨.blockLengthMismatch, e.ip⟩ s)) ∧
    (e.ip = s.cmd.declaredBlockSize.toNat → e.total.length + e.ch.length ≠ e.target.toNat →
      exec i s = .next (raiseFail ⟨.sizeMismatch, e.ip⟩ s))

/-- R281, R282, R287, R313: a header cut short by the end of IN raises InputTruncated; a token or an extension at the end of
its chunk raises MalformedChunk at the chunk's end, whatever follows the chunk in IN. -/
def Obligations.Lz4ShortInputAndShortChunk : Prop :=
  ∀ s : State, s.status = .busy → s.starting = false → s.cmd.op = 0x12 →
    (s.lz4.phase = .target ∨ s.lz4.phase = .chunk → s.cmd.input.length < s.lz4.ip + 4 →
      step s = .next (raiseFail ⟨.inputTruncated, s.cmd.input.length⟩ s)) ∧
    (s.lz4.phase = .seq ∨ s.lz4.phase = .litLen ∨ s.lz4.phase = .matchLen → s.lz4.chunkEnd ≤ s.lz4.ip →
      step s = .next (raiseFail ⟨.malformedChunk, s.lz4.chunkEnd⟩ s)) ∧
    (s.lz4.phase = .litLen ∨ s.lz4.phase = .matchLen →
      (∀ a, s.lz4.ip ≤ a → a < s.lz4.chunkEnd → s.cmd.input[a]? = some 0xFF) →
      step s = .next (raiseFail ⟨.malformedChunk, s.lz4.chunkEnd⟩ s))

/-- R288: the dictionary is the last min(65536, len(DICT) + len(CH)) bytes of DICT ++ CH, in both of its cases. -/
def Obligations.Lz4DictionaryKeepsTheLastBytes : Prop :=
  ∀ dict ch : List Byte,
    dictUpdate dict ch <:+ dict ++ ch ∧ (dictUpdate dict ch).length = min 65536 (dict.length + ch.length) ∧
    (65536 ≤ ch.length → dictUpdate dict ch = ch.drop (ch.length - 65536)) ∧
    (ch.length < 65536 → dictUpdate dict ch = dict.drop (dict.length + ch.length - 65536) ++ ch)

/-- R291, R286, R348: at any point of a chunk where a sequence ends, cutting the chunk there changes no later match: with
the bytes so far moved into the dictionary, the same offset is valid or not as before and copies the same bytes. -/
def Obligations.Lz4SplitChunksDecodeAlike : Prop :=
  ∀ (dict x y : List Byte) (o n : Nat), 1 ≤ o → o ≤ 65535 →
    (o ≤ (dictUpdate dict x).length + y.length ↔ o ≤ dict.length + (x ++ y).length) ∧
    (o ≤ dict.length + (x ++ y).length → copyDict dict o n (x ++ y) = x ++ copyDict (dictUpdate dict x) o n y)
end

