-- ==== Sys2Proof/Laws/Decode.lean ====
section
/-! SUPPORT. Little-endian values, length extensions and fixed-width reads: what the pieces of the decoder do. -/

set_option Elab.async false

namespace Sys2Proof

/-! ### Little-endian values -/

@[simp] theorem leNat_nil : leNat [] = 0 := rfl

@[simp] theorem leNat_cons (b : Byte) (bs : List Byte) : leNat (b :: bs) = b.toNat + 256 * leNat bs := rfl

@[simp] theorem leBytes_length (n v : Nat) : (leBytes n v).length = n := by
  induction n generalizing v with
  | zero => rfl
  | succ n ih => simp [leBytes, ih]

theorem leNat_lt (bs : List Byte) : leNat bs < 256 ^ bs.length := by
  induction bs with
  | nil => simp
  | cons b bs ih =>
    have hb : b.toNat < 256 := b.isLt
    simp only [leNat_cons, List.length_cons, Nat.pow_succ]
    omega

/-- Writing `n` bytes and reading them back keeps the value modulo `256^n` (R54). -/
theorem leNat_leBytes (n v : Nat) : leNat (leBytes n v) = v % 256 ^ n := by
  induction n generalizing v with
  | zero => simp [leBytes, Nat.mod_one]
  | succ n ih =>
    simp only [leBytes, leNat_cons, ih, BitVec.toNat_ofNat, Nat.pow_succ]
    rw [Nat.mul_comm (256 ^ n) 256, Nat.mod_mul (x := v) (a := 256)]

/-- Reading bytes and writing them back keeps them (R54). -/
theorem leBytes_leNat (bs : List Byte) : leBytes bs.length (leNat bs) = bs := by
  induction bs with
  | nil => rfl
  | cons b bs ih =>
    have hb : b.toNat < 256 := b.isLt
    have h1 : (b.toNat + 256 * leNat bs) / 256 = leNat bs := by omega
    have h2 : BitVec.ofNat 8 (b.toNat + 256 * leNat bs) = b := by
      apply BitVec.eq_of_toNat_eq
      simp only [BitVec.toNat_ofNat]
      omega
    simp only [List.length_cons, leBytes, leNat_cons, h1, h2, ih]

/-! ### Fixed-width reads -/

/-- A read of `n` bytes gives the value of the first `n` bytes exactly when there are so many. -/
theorem takeLe_eq_ok {n v : Nat} {bs : List Byte} : takeLe n bs = .ok v ↔ n ≤ bs.length ∧ v = leNat (bs.take n) := by
  unfold takeLe
  split
  · exact ⟨fun h => by simp at h, fun h => by omega⟩
  · exact ⟨fun h => ⟨by omega, by simpa using h.symm⟩, fun h => by rw [h.2]⟩

/-- A read fails only for want of bytes. -/
theorem takeLe_eq_error {n : Nat} {bs : List Byte} {e : Reject} :
    takeLe n bs = .error e ↔ bs.length < n ∧ e = .truncated := by
  unfold takeLe
  split
  · exact ⟨fun h => ⟨by assumption, by simpa using h.symm⟩, fun h => by rw [h.2]⟩
  · exact ⟨fun h => by simp at h, fun h => by omega⟩

theorem takeLe_append (n : Nat) (bs rest : List Byte) (h : bs.length = n) : takeLe n (bs ++ rest) = .ok (leNat bs) := by
  rw [takeLe_eq_ok]
  simp [← h]

/-- Reading back `n` written bytes. -/
theorem takeLe_leBytes (n v : Nat) (rest : List Byte) : takeLe n (leBytes n v ++ rest) = .ok (v % 256 ^ n) := by
  rw [takeLe_append n _ _ (leBytes_length n v), leNat_leBytes]

/-- The bytes of a value that was read are those the sequence begins with. -/
theorem leBytes_prefix_of_takeLe {n v : Nat} {bs : List Byte} (h : takeLe n bs = .ok v) : leBytes n v <+: bs := by
  obtain ⟨hn, rfl⟩ := takeLe_eq_ok.1 h
  have hl : (bs.take n).length = n := by simp [hn]
  have := leBytes_leNat (bs.take n)
  rw [hl] at this
  rw [this]
  exact List.take_prefix n bs

theorem takeLe_lt {n v : Nat} {bs : List Byte} (h : takeLe n bs = .ok v) : v < 256 ^ n := by
  obtain ⟨hn, rfl⟩ := takeLe_eq_ok.1 h
  have := leNat_lt (bs.take n)
  rwa [List.length_take, Nat.min_eq_left hn] at this

/-! ### Length extensions -/

/-- A sequence is its run of `x` followed by what `countRun` leaves, which does not begin with `x`. -/
theorem countRun_spec (x : Byte) (bs : List Byte) :
    bs = List.replicate (countRun x bs).1 x ++ (countRun x bs).2 ∧ ∀ v, (countRun x bs).2.head? = some v → v ≠ x := by
  induction bs with
  | nil => simp [countRun]
  | cons b bs ih =>
    unfold countRun
    split
    · rename_i hb
      subst hb
      exact ⟨by rw [List.replicate_succ, List.cons_append, ← ih.1], ih.2⟩
    · rename_i hb
      refine ⟨by simp, fun v hv => ?_⟩
      simp only [List.head?_cons, Option.some.injEq] at hv
      exact hv ▸ hb

/-- A chain written out is counted back. -/
theorem countRun_replicate (x v : Byte) (n : Nat) (rest : List Byte) (h : v ≠ x) :
    countRun x (List.replicate n x ++ v :: rest) = (n, v :: rest) := by
  induction n with
  | zero => simp [countRun, h]
  | succ n ih => simp [List.replicate_succ, countRun, ih]

/-- What a length extension reads: `n` bytes `x`, then a byte that is not `x`. -/
theorem decodeChain_eq_ok {x : Byte} {mk : Nat → Byte → Instr} {bs : List Byte} {i : Instr}
    (h : decodeChain x mk bs = .ok i) :
    ∃ n v rest, i = mk n v ∧ v ≠ x ∧ bs = List.replicate n x ++ v :: rest := by
  obtain ⟨h1, h2⟩ := countRun_spec x bs
  unfold decodeChain at h
  split at h
  · simp at h
  · rename_i n v rest heq
    rw [heq] at h1 h2
    exact ⟨n, v, rest, by simpa using h.symm, h2 v rfl, h1⟩

/-- A length extension fails only when the bytes end inside it. -/
theorem decodeChain_eq_error {x : Byte} {mk : Nat → Byte → Instr} {bs : List Byte} {e : Reject}
    (h : decodeChain x mk bs = .error e) : e = .truncated := by
  unfold decodeChain at h
  split at h <;> simp_all

end Sys2Proof
end

