-- ==== Sys2Proof/Laws/Fetch.lean ====
section
/-! SUPPORT. Which rejections a fetch can meet: an undefined command code, bytes cut short, bad chunk flags. -/

set_option Elab.async false

namespace Sys2Proof.Machine

/-- The rejections that Machine/Fetch.lean turns into an error of the spec. -/
def Reject.named (r : Reject) : Prop := r = .noCommand ∨ r = .truncated ∨ r = .unknownFlags

theorem takeLe_map_named {n : Nat} {bs : List Byte} {f : Nat → Instr} {r : Reject}
    (h : (takeLe n bs).map f = .error r) : Reject.named r := by
  unfold takeLe at h
  split at h
  · exact .inr (.inl (by simpa [Except.map] using h.symm))
  · simp [Except.map] at h

theorem decodeChain_named {x : Byte} {mk : Nat → Byte → Instr} {bs : List Byte} {r : Reject}
    (h : decodeChain x mk bs = .error r) : Reject.named r := by
  unfold decodeChain at h
  split at h
  · exact .inr (.inl (by simpa using h.symm))
  · simp at h

theorem decodeChunk_named {bs : List Byte} {r : Reject} (h : decodeChunk bs = .error r) : Reject.named r := by
  unfold decodeChunk at h
  split at h
  · rename_i e he
    unfold takeLe at he
    split at he
    · exact .inr (.inl (by rw [← Except.error.inj h, ← Except.error.inj he]))
    · simp at he
  · split at h
    · simp at h
    · exact .inr (.inr (by simpa using h.symm))

theorem lzoM3_control_of_zero :
    ∀ t : Byte, ¬64 ≤ t.toNat → 32 ≤ t.toNat → t.extractLsb' 0 5 = 0 → t = 0x20 := by decide +kernel

theorem lzoM4_control_of_zero :
    ∀ t : Byte, ¬32 ≤ t.toNat → 16 ≤ t.toNat → t.extractLsb' 0 3 = 0 → t = 0x10 ∨ t = 0x18 := by decide +kernel

/-- A control byte whose length field is not 0 is never rejected for it. -/
theorem decodeLzoToken_named {st : LzoSt} {t : Byte} {rest : List Byte} {r : Reject}
    (hn : lzoNeedsExt st t = false) (h : decodeLzoToken st (t :: rest) = .error r) : Reject.named r := by
  simp only [lzoNeedsExt, Bool.or_eq_false_iff, Bool.and_eq_false_iff, decide_eq_false_iff_not] at hn
  obtain ⟨⟨⟨h20, h10⟩, h18⟩, h00⟩ := hn
  simp only [decodeLzoToken] at h
  split at h
  · split at h
    · exact .inr (.inl (by simpa using h.symm))
    · simp at h
  · split at h
    · split at h
      · rename_i h64 h32 h0
        exact absurd (lzoM3_control_of_zero t h64 h32 h0) h20
      · exact takeLe_map_named h
    · split at h
      · split at h
        · rename_i h32 h16 h0
          rcases lzoM4_control_of_zero t h32 h16 h0 with e | e
          · exact absurd e h10
          · exact absurd e h18
        · exact takeLe_map_named h
      · cases st <;> simp only [lzoShort] at h
        all_goals first
          | (split at h
             · exact .inr (.inl (by simpa using h.symm))
             · simp at h)
          | skip
        split at h
        · exfalso; rename_i h0; rcases h00 with h00 | h00
          · exact h00 h0
          · exact h00 rfl
        · simp at h

theorem decodeLzoBody_named {st : LzoSt} {t : Byte} {rest : List Byte} {r : Reject}
    (hn : lzoNeedsExt st t = true) (h : decodeLzoBody (t :: rest) = .error r) : Reject.named r := by
  simp only [lzoNeedsExt, Bool.or_eq_true, Bool.and_eq_true, decide_eq_true_eq] at hn
  simp only [decodeLzoBody] at h
  split at h
  · simp at h
  · split at h
    · exact takeLe_map_named h
    · split at h
      · exact takeLe_map_named h
      · split at h
        · exact takeLe_map_named h
        · exfalso; tauto

/-- A command code or block is rejected by name. -/
theorem decode_named {c : DecodeCtx} {bs : List Byte} {r : Reject} (h : decode c bs = .error r)
    (h1 : c ≠ .lzoFirst) (h2 : ∀ st, c ≠ .lzoToken st) (h3 : c ≠ .lzoBody) : Reject.named r := by
  cases c <;> simp only [decode] at h
  case command =>
    split at h
    · exact .inr (.inl (by simpa using h.symm))
    · split at h
      · simp at h
      · exact .inl (by simpa using h.symm)
  case lzoFirst => exact absurd rfl h1
  case lzoToken st => exact absurd rfl (h2 st)
  case lzoBody => exact absurd rfl h3
  case lzoExt => exact decodeChain_named h
  case lz4Ext => exact decodeChain_named h
  case lz4Chunk => exact decodeChunk_named h
  all_goals exact takeLe_map_named h

theorem lzoSite_named {s : State} {r : Reject} (h : decode (lzoSite s).1 (lzoSite s).2 = .error r) :
    Reject.named r := by
  unfold lzoSite at h
  split at h
  · rename_i hc
    exact decodeLzoBody_named (by simpa using (Bool.and_eq_true _ _ ▸ hc).2) h
  · split at h
    · exact .inr (.inl (by simpa [decode, decodeLzoToken] using h.symm))
    · split at h
      · rename_i hc
        simp [decode, hc.2] at h
      · split at h
        · exact decodeChain_named h
        · rename_i hn
          exact decodeLzoToken_named (by simpa using hn) h

/-- A fetch is rejected for an undefined command code, bytes cut short or bad chunk flags, and for nothing else. -/
theorem fetchSite_named {s : State} {r : Reject} (h : decode (fetchSite s).1 (fetchSite s).2 = .error r) :
    Reject.named r := by
  unfold fetchSite at h
  split at h
  · exact decode_named h (by simp) (by simp) (by simp)
  · split at h
    case h_7 => exact lzoSite_named h
    case h_6 =>
      refine decode_named h ?_ ?_ ?_ <;> simp only [lzssSite, lzssTokenCtx] <;> intros <;>
        repeat (first | split | simp)
    case h_8 => refine decode_named h ?_ ?_ ?_ <;> simp only [lz4Site] <;> intros <;> split <;> simp
    case h_9 => exact decode_named h (by simp) (by simp) (by simp)
    all_goals
      refine decode_named h ?_ ?_ ?_ <;> simp only [bcSite] <;> intros <;> split <;> simp

end Sys2Proof.Machine
end

