-- ==== Sys2Proof/Laws/Memory.lean ====
section
/-! SUPPORT. The laws of byte memories: a write gives the value written, leaves every other byte alone and keeps the
canonical form. -/

set_option Elab.async false

namespace Sys2Proof.Machine

variable {fill : Option Byte} {m : Memory} {a b : Nat} {v : Byte}

@[simp] theorem Memory.read_nil : Memory.read fill [] a = fill := rfl

/-- An address below every cell reads as an unlisted one. -/
theorem Memory.read_of_forall_lt (h : ∀ c ∈ m, a < c.1) : Memory.read fill m a = fill := by
  induction m with
  | nil => rfl
  | cons c cs ih =>
    have hc := h c (by simp)
    have hne : ¬ c.1 = a := by omega
    simp only [Memory.read, hne, if_false]
    exact ih fun d hd => h d (by simp [hd])

/-- A write leaves every other address alone. -/
theorem Memory.read_write_ne (h : b ≠ a) : Memory.read fill (Memory.write fill m a v) b = Memory.read fill m b := by
  induction m with
  | nil =>
    unfold Memory.write
    split
    · rfl
    · simp [Memory.read, Ne.symm h]
  | cons c cs ih =>
    unfold Memory.write
    split
    · simp only [Memory.read, ih]
    · split
      · rename_i hlt heq
        have hcb : ¬ c.1 = b := by omega
        split <;> simp [Memory.read, hcb, Ne.symm h]
      · split <;> simp [Memory.read, Ne.symm h]

/-- Where no value stands for an unlisted address, a write can be read back whatever the memory. -/
theorem Memory.read_write_eq_of_none : Memory.read none (Memory.write none m a v) a = some v := by
  induction m with
  | nil => simp [Memory.write, Memory.read]
  | cons c cs ih =>
    unfold Memory.write
    split
    · rename_i hlt
      have hne : ¬ c.1 = a := by omega
      simp only [Memory.read, hne, if_false, ih]
    · split <;> simp [Memory.read]

/-- In a canonical memory a write can be read back. -/
theorem Memory.read_write_eq (h : Memory.wf fill m) : Memory.read fill (Memory.write fill m a v) a = some v := by
  induction m with
  | nil =>
    unfold Memory.write
    split
    · rename_i hv; simp [Memory.read, hv]
    · simp [Memory.read]
  | cons c cs ih =>
    obtain ⟨hp, hf⟩ := h
    rw [List.pairwise_cons] at hp
    unfold Memory.write
    split
    · rename_i hlt
      have hne : ¬ c.1 = a := by omega
      simp only [Memory.read, hne, if_false]
      exact ih ⟨hp.2, fun d hd => hf d (by simp [hd])⟩
    · split
      · rename_i hlt heq
        split
        · rename_i hv
          rw [hv]
          exact Memory.read_of_forall_lt fun d hd => by have := hp.1 d hd; omega
        · simp [Memory.read]
      · rename_i hlt hne
        split
        · rename_i hv
          rw [hv]
          refine Memory.read_of_forall_lt fun d hd => ?_
          rcases List.mem_cons.1 hd with rfl | hd
          · omega
          · have := hp.1 d hd; omega
        · simp [Memory.read]

/-- Every cell after a write is the one written or was there before. -/
theorem Memory.mem_write {c : Host.Cell} (h : c ∈ Memory.write fill m a v) : c = (a, v) ∨ c ∈ m := by
  induction m with
  | nil =>
    unfold Memory.write at h
    split at h <;> simp_all
  | cons d ds ih =>
    unfold Memory.write at h
    split at h
    · rcases List.mem_cons.1 h with rfl | h
      · simp
      · rcases ih h with h | h <;> simp [h]
    · split at h <;> split at h <;> simp_all <;> tauto

/-- A write keeps the canonical form. -/
theorem Memory.write_wf (h : Memory.wf fill m) : Memory.wf fill (Memory.write fill m a v) := by
  induction m with
  | nil =>
    unfold Memory.write
    split
    · exact h
    · rename_i hv; exact ⟨by simp, by simpa using hv⟩
  | cons c cs ih =>
    obtain ⟨hp, hf⟩ := h
    have hcs : Memory.wf fill cs := ⟨(List.pairwise_cons.1 hp).2, fun d hd => hf d (by simp [hd])⟩
    have hlow := (List.pairwise_cons.1 hp).1
    unfold Memory.write
    split
    · rename_i hlt
      refine ⟨List.pairwise_cons.2 ⟨fun d hd => ?_, (ih hcs).1⟩, fun d hd => ?_⟩
      · rcases Memory.mem_write hd with rfl | hd
        · exact hlt
        · exact hlow d hd
      · rcases List.mem_cons.1 hd with rfl | hd
        · exact hf _ (by simp)
        · exact (ih hcs).2 d hd
    · split
      · rename_i hlt heq
        split
        · exact hcs
        · rename_i hv
          refine ⟨List.pairwise_cons.2 ⟨fun d hd => by have := hlow d hd; simpa [← heq] using this, hcs.1⟩, fun d hd => ?_⟩
          rcases List.mem_cons.1 hd with rfl | hd
          · exact hv
          · exact hf d (by simp [hd])
      · rename_i hlt hne
        split
        · exact ⟨hp, hf⟩
        · rename_i hv
          refine ⟨List.pairwise_cons.2 ⟨fun d hd => ?_, hp⟩, fun d hd => ?_⟩
          · rcases List.mem_cons.1 hd with rfl | hd
            · change a < d.1; omega
            · have := hlow d hd; change a < d.1; omega
          · rcases List.mem_cons.1 hd with rfl | hd
            · exact hv
            · exact hf d hd

@[simp] theorem Memory.writeAll_nil : Memory.writeAll fill m [] = m := rfl

@[simp] theorem Memory.writeAll_cons {c : Host.Cell} {cs : List Host.Cell} :
    Memory.writeAll fill m (c :: cs) = Memory.writeAll fill (Memory.write fill m c.1 c.2) cs := rfl

/-- A list of writes leaves the addresses it does not name alone. -/
theorem Memory.read_writeAll_of_not_mem {cells : List Host.Cell} (h : ∀ c ∈ cells, c.1 ≠ b) :
    Memory.read fill (Memory.writeAll fill m cells) b = Memory.read fill m b := by
  induction cells generalizing m with
  | nil => rfl
  | cons c cs ih =>
    rw [Memory.writeAll_cons, ih fun d hd => h d (by simp [hd])]
    exact Memory.read_write_ne (Ne.symm (h c (by simp)))

/-- A list of writes keeps the canonical form. -/
theorem Memory.writeAll_wf {cells : List Host.Cell} (h : Memory.wf fill m) : Memory.wf fill (Memory.writeAll fill m cells) := by
  induction cells generalizing m with
  | nil => exact h
  | cons c cs ih => exact ih (Memory.write_wf h)

end Sys2Proof.Machine
end

