-- ==== Sys2Proof/Laws/State.lean ====
section
/-! SUPPORT. One lemma per field per named update of State, true by definition. -/

set_option Elab.async false

namespace Sys2Proof.Machine

@[simp] theorem raiseFail_params (e : Failure) (s : State) : (raiseFail e s).params = s.params := rfl
@[simp] theorem raiseFail_rom (e : Failure) (s : State) : (raiseFail e s).rom = s.rom := rfl
@[simp] theorem raiseFail_status (e : Failure) (s : State) : (raiseFail e s).status = .failed := rfl
@[simp] theorem raiseFail_result (e : Failure) (s : State) : (raiseFail e s).result = .fail (errCode e.kind) (BitVec.ofNat 32 e.offset) := rfl
@[simp] theorem raiseFail_cmd (e : Failure) (s : State) : (raiseFail e s).cmd = s.cmd := rfl
@[simp] theorem raiseFail_bc (e : Failure) (s : State) : (raiseFail e s).bc = BcRegs.reset := rfl
@[simp] theorem raiseFail_lzss (e : Failure) (s : State) : (raiseFail e s).lzss = LzssRegs.reset := rfl
@[simp] theorem raiseFail_lzo (e : Failure) (s : State) : (raiseFail e s).lzo = LzoRegs.reset := rfl
@[simp] theorem raiseFail_lz4 (e : Failure) (s : State) : (raiseFail e s).lz4 = Lz4Regs.reset := rfl
@[simp] theorem raiseFail_starting (e : Failure) (s : State) : (raiseFail e s).starting = false := rfl
@[simp] theorem raiseFail_issues (e : Failure) (s : State) : (raiseFail e s).issues = s.issues := rfl

@[simp] theorem complete_params (v : OutputValue) (s : State) : (complete v s).params = s.params := rfl
@[simp] theorem complete_rom (v : OutputValue) (s : State) : (complete v s).rom = s.rom := rfl
@[simp] theorem complete_status (v : OutputValue) (s : State) : (complete v s).status = .done := rfl
@[simp] theorem complete_result (v : OutputValue) (s : State) : (complete v s).result = .ok v := rfl
@[simp] theorem complete_cmd (v : OutputValue) (s : State) : (complete v s).cmd = s.cmd := rfl
@[simp] theorem complete_bc (v : OutputValue) (s : State) : (complete v s).bc = s.bc := rfl
@[simp] theorem complete_lzss (v : OutputValue) (s : State) : (complete v s).lzss = s.lzss := rfl
@[simp] theorem complete_lzo (v : OutputValue) (s : State) : (complete v s).lzo = s.lzo := rfl
@[simp] theorem complete_lz4 (v : OutputValue) (s : State) : (complete v s).lz4 = s.lz4 := rfl
@[simp] theorem complete_starting (v : OutputValue) (s : State) : (complete v s).starting = false := rfl
@[simp] theorem complete_issues (v : OutputValue) (s : State) : (complete v s).issues = s.issues := rfl

@[simp] theorem startCommand_params (s : State) : (startCommand s).params = s.params := rfl
@[simp] theorem startCommand_rom (s : State) : (startCommand s).rom = s.rom := rfl
@[simp] theorem startCommand_status (s : State) : (startCommand s).status = .busy := rfl
@[simp] theorem startCommand_result (s : State) : (startCommand s).result = s.result := rfl
@[simp] theorem startCommand_cmd (s : State) : (startCommand s).cmd = s.cmd := rfl
@[simp] theorem startCommand_bc (s : State) : (startCommand s).bc = s.bc := rfl
@[simp] theorem startCommand_lzss (s : State) : (startCommand s).lzss = s.lzss := rfl
@[simp] theorem startCommand_lzo (s : State) : (startCommand s).lzo = s.lzo := rfl
@[simp] theorem startCommand_lz4 (s : State) : (startCommand s).lz4 = s.lz4 := rfl
@[simp] theorem startCommand_starting (s : State) : (startCommand s).starting = false := rfl
@[simp] theorem startCommand_issues (s : State) : (startCommand s).issues = s.issues := rfl

@[simp] theorem putBc_params (s : State) (r : BcRegs) : (putBc s r).params = s.params := rfl
@[simp] theorem putBc_rom (s : State) (r : BcRegs) : (putBc s r).rom = s.rom := rfl
@[simp] theorem putBc_status (s : State) (r : BcRegs) : (putBc s r).status = s.status := rfl
@[simp] theorem putBc_result (s : State) (r : BcRegs) : (putBc s r).result = s.result := rfl
@[simp] theorem putBc_cmd (s : State) (r : BcRegs) : (putBc s r).cmd = s.cmd := rfl
@[simp] theorem putBc_bc (s : State) (r : BcRegs) : (putBc s r).bc = r := rfl
@[simp] theorem putBc_lzss (s : State) (r : BcRegs) : (putBc s r).lzss = s.lzss := rfl
@[simp] theorem putBc_lzo (s : State) (r : BcRegs) : (putBc s r).lzo = s.lzo := rfl
@[simp] theorem putBc_lz4 (s : State) (r : BcRegs) : (putBc s r).lz4 = s.lz4 := rfl
@[simp] theorem putBc_starting (s : State) (r : BcRegs) : (putBc s r).starting = s.starting := rfl
@[simp] theorem putBc_issues (s : State) (r : BcRegs) : (putBc s r).issues = s.issues := rfl

@[simp] theorem putLzss_params (s : State) (r : LzssRegs) : (putLzss s r).params = s.params := rfl
@[simp] theorem putLzss_rom (s : State) (r : LzssRegs) : (putLzss s r).rom = s.rom := rfl
@[simp] theorem putLzss_status (s : State) (r : LzssRegs) : (putLzss s r).status = s.status := rfl
@[simp] theorem putLzss_result (s : State) (r : LzssRegs) : (putLzss s r).result = s.result := rfl
@[simp] theorem putLzss_cmd (s : State) (r : LzssRegs) : (putLzss s r).cmd = s.cmd := rfl
@[simp] theorem putLzss_bc (s : State) (r : LzssRegs) : (putLzss s r).bc = s.bc := rfl
@[simp] theorem putLzss_lzss (s : State) (r : LzssRegs) : (putLzss s r).lzss = r := rfl
@[simp] theorem putLzss_lzo (s : State) (r : LzssRegs) : (putLzss s r).lzo = s.lzo := rfl
@[simp] theorem putLzss_lz4 (s : State) (r : LzssRegs) : (putLzss s r).lz4 = s.lz4 := rfl
@[simp] theorem putLzss_starting (s : State) (r : LzssRegs) : (putLzss s r).starting = s.starting := rfl
@[simp] theorem putLzss_issues (s : State) (r : LzssRegs) : (putLzss s r).issues = s.issues := rfl

@[simp] theorem putLzo_params (s : State) (r : LzoRegs) : (putLzo s r).params = s.params := rfl
@[simp] theorem putLzo_rom (s : State) (r : LzoRegs) : (putLzo s r).rom = s.rom := rfl
@[simp] theorem putLzo_status (s : State) (r : LzoRegs) : (putLzo s r).status = s.status := rfl
@[simp] theorem putLzo_result (s : State) (r : LzoRegs) : (putLzo s r).result = s.result := rfl
@[simp] theorem putLzo_cmd (s : State) (r : LzoRegs) : (putLzo s r).cmd = s.cmd := rfl
@[simp] theorem putLzo_bc (s : State) (r : LzoRegs) : (putLzo s r).bc = s.bc := rfl
@[simp] theorem putLzo_lzss (s : State) (r : LzoRegs) : (putLzo s r).lzss = s.lzss := rfl
@[simp] theorem putLzo_lzo (s : State) (r : LzoRegs) : (putLzo s r).lzo = r := rfl
@[simp] theorem putLzo_lz4 (s : State) (r : LzoRegs) : (putLzo s r).lz4 = s.lz4 := rfl
@[simp] theorem putLzo_starting (s : State) (r : LzoRegs) : (putLzo s r).starting = s.starting := rfl
@[simp] theorem putLzo_issues (s : State) (r : LzoRegs) : (putLzo s r).issues = s.issues := rfl

@[simp] theorem putLz4_params (s : State) (r : Lz4Regs) : (putLz4 s r).params = s.params := rfl
@[simp] theorem putLz4_rom (s : State) (r : Lz4Regs) : (putLz4 s r).rom = s.rom := rfl
@[simp] theorem putLz4_status (s : State) (r : Lz4Regs) : (putLz4 s r).status = s.status := rfl
@[simp] theorem putLz4_result (s : State) (r : Lz4Regs) : (putLz4 s r).result = s.result := rfl
@[simp] theorem putLz4_cmd (s : State) (r : Lz4Regs) : (putLz4 s r).cmd = s.cmd := rfl
@[simp] theorem putLz4_bc (s : State) (r : Lz4Regs) : (putLz4 s r).bc = s.bc := rfl
@[simp] theorem putLz4_lzss (s : State) (r : Lz4Regs) : (putLz4 s r).lzss = s.lzss := rfl
@[simp] theorem putLz4_lzo (s : State) (r : Lz4Regs) : (putLz4 s r).lzo = s.lzo := rfl
@[simp] theorem putLz4_lz4 (s : State) (r : Lz4Regs) : (putLz4 s r).lz4 = r := rfl
@[simp] theorem putLz4_starting (s : State) (r : Lz4Regs) : (putLz4 s r).starting = s.starting := rfl
@[simp] theorem putLz4_issues (s : State) (r : Lz4Regs) : (putLz4 s r).issues = s.issues := rfl

end Sys2Proof.Machine
end

