-- ==== Sys2Proof/Laws/Ops.lean ====
section
/-! SUPPORT. For each shared operation, one lemma that says everything it can do. -/

set_option Elab.async false

namespace Sys2Proof.Machine

/-! ### Turns -/

/-- A row's turn always leaves a next state: the registers replaced, the command returned, or the error taken. -/
theorem settle_cases {ρ : Type} {put : State → ρ → State} {s t : State} {u : Turn ρ} (h : settle put s u = .next t) :
    (∃ r, u = .run r ∧ t = put s r) ∨ (∃ r v, u = .done r v ∧ t = complete v (put s r)) ∨
      (∃ e, u = .fail e ∧ t = raiseFail e s) := by
  cases u with
  | run r => exact .inl ⟨r, rfl, by simpa [settle] using h.symm⟩
  | done r v => exact .inr (.inl ⟨r, v, rfl, by simpa [settle] using h.symm⟩)
  | fail e => exact .inr (.inr ⟨e, rfl, by simpa [settle] using h.symm⟩)

/-- A row's turn never ends in a fault or a refusal. -/
theorem settle_next {ρ : Type} (put : State → ρ → State) (s : State) (u : Turn ρ) : ∃ t, settle put s u = .next t := by
  cases u <;> exact ⟨_, rfl⟩

/-- A second part of a row runs exactly when the first part neither ended nor failed. -/
theorem Turn.andThen_run {ρ : Type} {u : Turn ρ} {f : ρ → Turn ρ} {r : ρ} (h : u.andThen f = .run r) :
    ∃ r', u = .run r' ∧ f r' = .run r := by
  cases u with
  | run r' => exact ⟨r', rfl, h⟩
  | done r' v => simp [Turn.andThen] at h
  | fail e => simp [Turn.andThen] at h

@[simp] theorem Turn.andThen_of_run {ρ : Type} (r : ρ) (f : ρ → Turn ρ) : (Turn.run r).andThen f = f r := rfl

@[simp] theorem Turn.andThen_of_fail {ρ : Type} (e : Failure) (f : ρ → Turn ρ) : (Turn.fail e).andThen f = .fail e := rfl

@[simp] theorem Turn.andThen_of_done {ρ : Type} (r : ρ) (v : OutputValue) (f : ρ → Turn ρ) :
    (Turn.done r v).andThen f = .done r v := rfl

/-! ### Reads and copies -/

/-- A read of IN gives its value exactly when it ends inside IN, else InputTruncated at `len(IN)` (R313). -/
theorem memRead_cases (inp : List Byte) (a n : Nat) :
    (inp.length < a + n ∧ memRead inp a n = .error ⟨.inputTruncated, inp.length⟩) ∨
      (a + n ≤ inp.length ∧ memRead inp a n = .ok (leNat ((inp.drop a).take n))) := by
  unfold memRead
  split
  · exact .inl ⟨by assumption, rfl⟩
  · exact .inr ⟨by omega, rfl⟩

theorem inSlice_length {inp : List Byte} {a n : Nat} (h : a + n ≤ inp.length) : (inSlice inp a n).length = n := by
  simp [inSlice]; omega

@[simp] theorem copyBack_length (d n : Nat) (out : List Byte) : (copyBack d n out).length = out.length + n := by
  induction n generalizing out with
  | zero => rfl
  | succ n ih => simp [copyBack, ih]; omega

@[simp] theorem copyDict_length (dict : List Byte) (o n : Nat) (ch : List Byte) :
    (copyDict dict o n ch).length = ch.length + n := by
  induction n generalizing ch with
  | zero => rfl
  | succ n ih => simp [copyDict, ih]; omega

@[simp] theorem lastBytes_length (k : Nat) (s : List Byte) : (lastBytes k s).length = min k s.length := by
  simp [lastBytes]; omega

/-- DICT never outgrows 65536 bytes (R288). -/
theorem dictUpdate_length (dict ch : List Byte) : (dictUpdate dict ch).length = min dictMax (dict.length + ch.length) := by
  simp [dictUpdate]

/-! ### BCn -/

/-- Entry `i` of a tabulated array. -/
@[simp] theorem entry_tabulate {α : Type} (n : Nat) (f : Nat → α) (i : Nat) (d : α) (h : i < n) :
    entry (tabulate n f) i d = f i := by
  simp [entry, tabulate, Vector.toList, h]

/-- Entry `i` inside an array. -/
theorem entry_eq_get {α : Type} {n : Nat} (v : Vector α n) (i : Nat) (d : α) (h : i < n) : entry v i d = v[i] := by
  simp [entry, List.getD, h]

/-- A block count is at most 2^30 (assumption log 18). -/
theorem blocksAlong_le (n : BitVec 32) : blocksAlong n ≤ 2 ^ 30 := by
  unfold blocksAlong
  omega

/-- The register `bw` or `bh` stands for the exact block count of its side. -/
@[simp] theorem blockCount_ofNat (n : BitVec 32) : blockCount (BitVec.ofNat 30 (blocksAlong n)) n = blocksAlong n := by
  have hz : BitVec.ofNat 30 (blocksAlong n) = 0 ↔ blocksAlong n % 2 ^ 30 = 0 := by
    rw [← BitVec.toNat_inj, BitVec.toNat_ofNat]
    rfl
  have hn : n = 0 ↔ n.toNat = 0 := by
    rw [← BitVec.toNat_inj]
    rfl
  unfold blockCount
  rw [BitVec.toNat_ofNat]
  simp only [ne_eq, hz, hn]
  unfold blocksAlong
  split <;> omega

/-- The start of a BCn command (R130). -/
theorem bcStart_cases (n : Nat) (c : CmdRecord) :
    let total := blocksAlong c.width * blocksAlong c.height
    let r : BcRegs :=
      { BcRegs.reset with bw := BitVec.ofNat 30 (blocksAlong c.width), bh := BitVec.ofNat 30 (blocksAlong c.height) }
    (c.input.length < total * n ∧ bcStart n c = .fail ⟨.inputTruncated, c.input.length⟩) ∨
      (total * n ≤ c.input.length ∧ total = 0 ∧
        bcStart n c = .done r (.pixelBuffer (outBytes [] (c.width.toNat * c.height.toNat * 4)))) ∨
      (total * n ≤ c.input.length ∧ total ≠ 0 ∧ bcStart n c = .run r) := by
  intro total r
  unfold bcStart
  simp only [gridBlocks, blockCount_ofNat]
  split
  · exact .inl ⟨by assumption, rfl⟩
  · split
    · exact .inr (.inl ⟨by simp only [total]; omega, by assumption, rfl⟩)
    · exact .inr (.inr ⟨by simp only [total]; omega, by assumption, rfl⟩)

/-- One block of the walk: the cells of its texels are written, and the walk goes on or returns OUT (R130). -/
theorem bcEmit_cases (c : CmdRecord) (r : BcRegs) (pix : List Pixel) :
    let cols := blockCount r.bw c.width
    let out := Memory.writeAll outFill r.out
      (blockCells c.width.toNat c.height.toNat (r.k.toNat % cols) (r.k.toNat / cols) pix)
    let r' : BcRegs := { r with out := out, k := r.k + 1, palette := false }
    (r.k.toNat + 1 < gridBlocks c r ∧ bcEmit c r pix = .run r') ∨
      (gridBlocks c r ≤ r.k.toNat + 1 ∧
        bcEmit c r pix = .done r' (.pixelBuffer (outBytes out (c.width.toNat * c.height.toNat * 4)))) := by
  intro cols out r'
  unfold bcEmit
  simp only
  split
  · exact .inl ⟨by assumption, rfl⟩
  · exact .inr ⟨by omega, rfl⟩

/-- BLK begins with the alpha block that its row decodes (10_state.md R28). -/
theorem alphaBlk_low (c : CmdRecord) (k : BitVec 60) (a : BitVec 64) : (alphaBlk c k a).extractLsb' 0 64 = a := by
  unfold alphaBlk
  split
  · rw [BitVec.extractLsb'_append_eq_right]
  · ext i hi
    simp [show i < 128 by omega, BitVec.getLsbD_eq_getElem hi]

/-- E after a block of mode `m`: the mode's endpoints, the other entries as they were (R173–R175). -/
theorem loadBc7_endpoint (rom : Rom) (m : Nat) (blk : BitVec 128) (w : BcWork) (e : Nat) (d : Pixel) (h : e < 6) :
    entry (loadBc7 rom m blk w).endpoints e d =
      if e < 2 * (modeRow rom m).ns then endpointAt (modeRow rom m) (bc7Fields rom m blk) e
      else entry w.endpoints e ⟨0, 0, 0, 0⟩ := by
  simp [loadBc7, h]

/-- I1 after a block of mode `m` (R177). -/
theorem loadBc7_i1 (rom : Rom) (m : Nat) (blk : BitVec 128) (w : BcWork) (i : Nat) (d : BitVec 4) (h : i < 16) :
    entry (loadBc7 rom m blk w).i1 i d = BitVec.ofNat 4 ((bc7Fields rom m blk).i1.getD i 0) := by
  simp [loadBc7, h]

/-- I2 after a block of mode `m` (R177). -/
theorem loadBc7_i2 (rom : Rom) (m : Nat) (blk : BitVec 128) (w : BcWork) (i : Nat) (d : BitVec 4) (h : i < 16) :
    entry (loadBc7 rom m blk w).i2 i d =
      if (modeRow rom m).ib2 = 0 then entry w.i2 i d else BitVec.ofNat 4 ((bc7Fields rom m blk).i2.getD i 0) := by
  simp only [loadBc7]
  split
  · rfl
  · simp [h]

/-- S after a block of mode `m` (R176). -/
theorem loadBc7_subset (rom : Rom) (m : Nat) (blk : BitVec 128) (w : BcWork) (i : Nat) (d : BitVec 2) (h : i < 16) :
    entry (loadBc7 rom m blk w).subset i d =
      BitVec.ofNat 2 (subsetAt rom (modeRow rom m).ns (bc7Fields rom m blk).partition i) := by
  simp [loadBc7, h]

/-! ### LZSS -/

@[simp] theorem lzssEmit_out (g : Bool) (e : LzssRegs) (c : Byte) : (lzssEmit g e c).out = e.out ++ [c] := rfl

@[simp] theorem lzssEmit_ring (g : Bool) (e : LzssRegs) (c : Byte) :
    (lzssEmit g e c).ring = Memory.write ringFill e.ring e.r.toNat c := rfl

@[simp] theorem lzssEmit_r (g : Bool) (e : LzssRegs) (c : Byte) : (lzssEmit g e c).r = e.r + 1 := rfl

@[simp] theorem lzssEmit_csum (g : Bool) (e : LzssRegs) (c : Byte) : (lzssEmit g e c).csum = e.csum + widen g c := rfl

@[simp] theorem lzssEmit_flags (g : Bool) (e : LzssRegs) (c : Byte) : (lzssEmit g e c).flags = e.flags := rfl

@[simp] theorem lzssEmit_ip (g : Bool) (e : LzssRegs) (c : Byte) : (lzssEmit g e c).ip = e.ip := rfl

@[simp] theorem lzssEmit_fresh (g : Bool) (e : LzssRegs) (c : Byte) : (lzssEmit g e c).fresh = e.fresh := rfl

/-- A copy adds its length to the output, moves the cursor as often, and touches neither flags nor `ip` (R216). -/
theorem lzssCopy_frame (g : Bool) (off : BitVec 12) (n : Nat) (e : LzssRegs) :
    (lzssCopy g off n e).out.length = e.out.length + n ∧ (lzssCopy g off n e).r = e.r + BitVec.ofNat 12 n ∧
      (lzssCopy g off n e).flags = e.flags ∧ (lzssCopy g off n e).ip = e.ip ∧ (lzssCopy g off n e).fresh = e.fresh := by
  induction n generalizing e with
  | zero => simp [lzssCopy]
  | succ n ih =>
    obtain ⟨h1, h2, h3, h4, h5⟩ := ih (lzssEmit g e (lzssRead e off))
    refine ⟨?_, ?_, ?_, ?_, ?_⟩ <;> simp only [lzssCopy, h1, h2, h3, h4, h5, lzssEmit_out, lzssEmit_r, lzssEmit_flags,
      lzssEmit_ip, lzssEmit_fresh, List.length_append, List.length_singleton]
    · omega
    · rw [BitVec.ofNat_add, BitVec.add_assoc, BitVec.add_comm (BitVec.ofNat 12 n)]; rfl

/-! ### LZO1X -/

/-- `CheckOutput()` passes the registers on or raises OutputOverrun at `ip` (R256). -/
theorem lzoCheck_cases (p : Params) (e : LzoRegs) :
    (overruns p e.out.length = false ∧ lzoCheck p e = .run e) ∨
      (overruns p e.out.length = true ∧ lzoCheck p e = .fail ⟨.outputOverrun, e.ip⟩) := by
  unfold lzoCheck
  cases h : overruns p e.out.length <;> simp

/-- `CopyLiterals(n)`: what it gives when it goes on (R254). -/
theorem lzoLiterals_run {p : Params} {inp : List Byte} {n : Nat} {e e' : LzoRegs} (h : lzoLiterals p inp n e = .run e') :
    e.ip + n ≤ inp.length ∧ e' = { e with out := e.out ++ inSlice inp e.ip n, ip := e.ip + n } := by
  unfold lzoLiterals at h
  split at h
  · simp at h
  · rcases lzoCheck_cases p { e with out := e.out ++ inSlice inp e.ip n, ip := e.ip + n } with ⟨-, hc⟩ | ⟨-, hc⟩
    · rw [hc] at h
      exact ⟨by omega, by simpa using h.symm⟩
    · rw [hc] at h; simp at h

/-- `CopyMatch(d, n, tok)`: what it gives when it goes on (R253). -/
theorem lzoMatch_run {p : Params} {d n tok : Nat} {e e' : LzoRegs} (h : lzoMatch p d n tok e = .run e') :
    d ≤ e.out.length ∧ e' = { e with out := copyBack d n e.out } := by
  unfold lzoMatch at h
  split at h
  · simp at h
  · rcases lzoCheck_cases p { e with out := copyBack d n e.out } with ⟨-, hc⟩ | ⟨-, hc⟩
    · rw [hc] at h
      exact ⟨by omega, by simpa using h.symm⟩
    · rw [hc] at h; simp at h

/-- `Trailing(s)`: what it gives when it goes on (R252). -/
theorem lzoTrailing_run {p : Params} {inp : List Byte} {k : Nat} {e e' : LzoRegs} (h : lzoTrailing p inp k e = .run e') :
    (k = 0 ∧ e' = { e with t := 0, st := .outer }) ∨
      (k ≠ 0 ∧ e.ip + k ≤ inp.length ∧
        e' = { e with t := BitVec.ofNat 32 k, st := .afterShort, out := e.out ++ inSlice inp e.ip k, ip := e.ip + k }) := by
  unfold lzoTrailing at h
  simp only at h
  split at h
  · rename_i hk
    subst hk
    exact .inl ⟨rfl, by simpa using h.symm⟩
  · rename_i hk
    obtain ⟨e1, h1, h2⟩ := Turn.andThen_run h
    obtain ⟨hle, rfl⟩ := lzoLiterals_run h1
    exact .inr ⟨hk, hle, by simpa using h2.symm⟩

/-! ### LZ4 chain -/

/-- `CheckOutput()` passes the registers on or raises OutputOverrun at `ip` (R290). -/
theorem lz4Check_cases (p : Params) (e : Lz4Regs) :
    (overruns p (e.total.length + e.ch.length) = false ∧ lz4Check p e = .run e) ∨
      (overruns p (e.total.length + e.ch.length) = true ∧ lz4Check p e = .fail ⟨.outputOverrun, e.ip⟩) := by
  unfold lz4Check
  cases h : overruns p (e.total.length + e.ch.length) <;> simp

/-- `Lz4Finish()` (R289): one of its three outcomes. -/
theorem lz4Finish_cases (declared : Nat) (e : Lz4Regs) :
    (e.ip ≠ declared ∧ lz4Finish declared e = .fail ⟨.blockLengthMismatch, e.ip⟩) ∨
      (e.ip = declared ∧ e.total.length ≠ e.target.toNat ∧ lz4Finish declared e = .fail ⟨.sizeMismatch, e.ip⟩) ∨
      (e.ip = declared ∧ e.total.length = e.target.toNat ∧ lz4Finish declared e = .done e (.decodedBytes e.total)) := by
  unfold lz4Finish
  split
  · exact .inl ⟨by assumption, rfl⟩
  · split
    · exact .inr (.inl ⟨by omega, by assumption, rfl⟩)
    · exact .inr (.inr ⟨by omega, by omega, rfl⟩)

/-- A sequence boundary: the next sequence, or the end of the chunk (R287). -/
theorem lz4Boundary_cases (declared : Nat) (e : Lz4Regs) :
    (e.ip < e.chunkEnd ∧ lz4Boundary declared e = .run { e with phase := .seq }) ∨
      (e.chunkEnd ≤ e.ip ∧ lz4Boundary declared e = lz4EndChunk declared e) := by
  unfold lz4Boundary
  split
  · exact .inl ⟨by assumption, rfl⟩
  · exact .inr ⟨by omega, rfl⟩

end Sys2Proof.Machine
end

