-- ==== Sys2Proof/Laws/PerInstr.lean ====
section
/-! SUPPORT. The per-instruction family EncodeNonempty: every row takes at least one byte of its stream, the fact behind
40_primitives.md R124 (each step of LZO1X and LZ4 chain consumes at least one byte of IN). -/

set_option Elab.async false

namespace Sys2Proof.Laws

/-- A row's encoding has at least one byte. -/
def EncodeNonempty.Statement (i : Instr) : Prop := 1 ≤ (encode i).length

theorem EncodeNonempty.decodeBC1 :
    EncodeNonempty.Statement (Instr.decodeBC1) := by
  simp [Statement, encode]

theorem EncodeNonempty.decodeBC2 :
    EncodeNonempty.Statement (Instr.decodeBC2) := by
  simp [Statement, encode]

theorem EncodeNonempty.decodeBC3 :
    EncodeNonempty.Statement (Instr.decodeBC3) := by
  simp [Statement, encode]

theorem EncodeNonempty.decodeBC4 :
    EncodeNonempty.Statement (Instr.decodeBC4) := by
  simp [Statement, encode]

theorem EncodeNonempty.decodeBC5 :
    EncodeNonempty.Statement (Instr.decodeBC5) := by
  simp [Statement, encode]

theorem EncodeNonempty.decodeBC6 :
    EncodeNonempty.Statement (Instr.decodeBC6) := by
  simp [Statement, encode]

theorem EncodeNonempty.decodeBC7 :
    EncodeNonempty.Statement (Instr.decodeBC7) := by
  simp [Statement, encode]

theorem EncodeNonempty.lzssDecompress :
    EncodeNonempty.Statement (Instr.lzssDecompress) := by
  simp [Statement, encode]

theorem EncodeNonempty.lzoDecompress :
    EncodeNonempty.Statement (Instr.lzoDecompress) := by
  simp [Statement, encode]

theorem EncodeNonempty.decompressLz4Chain :
    EncodeNonempty.Statement (Instr.decompressLz4Chain) := by
  simp [Statement, encode]

theorem EncodeNonempty.bc1Block4 (blk : BitVec 64) :
    EncodeNonempty.Statement (Instr.bc1Block4 blk) := by
  simp [Statement, encode]

theorem EncodeNonempty.bc1Block3 (blk : BitVec 64) :
    EncodeNonempty.Statement (Instr.bc1Block3 blk) := by
  simp [Statement, encode]

theorem EncodeNonempty.bc2Block (blk : BitVec 128) :
    EncodeNonempty.Statement (Instr.bc2Block blk) := by
  simp [Statement, encode]

theorem EncodeNonempty.alphaInterp8 (blk : BitVec 64) :
    EncodeNonempty.Statement (Instr.alphaInterp8 blk) := by
  simp [Statement, encode]

theorem EncodeNonempty.alphaInterp6 (blk : BitVec 64) :
    EncodeNonempty.Statement (Instr.alphaInterp6 blk) := by
  simp [Statement, encode]

theorem EncodeNonempty.bc3Block (blk : BitVec 128) :
    EncodeNonempty.Statement (Instr.bc3Block blk) := by
  simp [Statement, encode]

theorem EncodeNonempty.bc4Block (blk : BitVec 64) :
    EncodeNonempty.Statement (Instr.bc4Block blk) := by
  simp [Statement, encode]

theorem EncodeNonempty.bc7Mode0 (blk : BitVec 128) :
    EncodeNonempty.Statement (Instr.bc7Mode0 blk) := by
  simp [Statement, encode]

theorem EncodeNonempty.bc7Mode1 (blk : BitVec 128) :
    EncodeNonempty.Statement (Instr.bc7Mode1 blk) := by
  simp [Statement, encode]

theorem EncodeNonempty.bc7Mode2 (blk : BitVec 128) :
    EncodeNonempty.Statement (Instr.bc7Mode2 blk) := by
  simp [Statement, encode]

theorem EncodeNonempty.bc7Mode3 (blk : BitVec 128) :
    EncodeNonempty.Statement (Instr.bc7Mode3 blk) := by
  simp [Statement, encode]

theorem EncodeNonempty.bc7Mode4 (blk : BitVec 128) :
    EncodeNonempty.Statement (Instr.bc7Mode4 blk) := by
  simp [Statement, encode]

theorem EncodeNonempty.bc7Mode5 (blk : BitVec 128) :
    EncodeNonempty.Statement (Instr.bc7Mode5 blk) := by
  simp [Statement, encode]

theorem EncodeNonempty.bc7Mode6 (blk : BitVec 128) :
    EncodeNonempty.Statement (Instr.bc7Mode6 blk) := by
  simp [Statement, encode]

theorem EncodeNonempty.bc7Mode7 (blk : BitVec 128) :
    EncodeNonempty.Statement (Instr.bc7Mode7 blk) := by
  simp [Statement, encode]

theorem EncodeNonempty.bc7Reserved (blk : BitVec 128) :
    EncodeNonempty.Statement (Instr.bc7Reserved blk) := by
  simp [Statement, encode]

theorem EncodeNonempty.lzssFlags (kinds : BitVec 8) :
    EncodeNonempty.Statement (Instr.lzssFlags kinds) := by
  simp [Statement, encode]

theorem EncodeNonempty.lzssLit (v : BitVec 8) :
    EncodeNonempty.Statement (Instr.lzssLit v) := by
  simp [Statement, encode]

theorem EncodeNonempty.lzssRef (off : BitVec 12) (l : BitVec 4) :
    EncodeNonempty.Statement (Instr.lzssRef off l) := by
  simp [Statement, encode]

theorem EncodeNonempty.lzssCsum (stored : BitVec 32) :
    EncodeNonempty.Statement (Instr.lzssCsum stored) := by
  simp [Statement, encode]

theorem EncodeNonempty.lzoFirstLit (b : BitVec 8) :
    EncodeNonempty.Statement (Instr.lzoFirstLit b) := by
  simp [Statement, encode]

theorem EncodeNonempty.lzoLitExt :
    EncodeNonempty.Statement (Instr.lzoLitExt) := by
  simp [Statement, encode]

theorem EncodeNonempty.lzoLit (l : BitVec 4) :
    EncodeNonempty.Statement (Instr.lzoLit l) := by
  simp [Statement, encode]

theorem EncodeNonempty.lzoM1Far (d : BitVec 2) (s : BitVec 2) (h : BitVec 8) :
    EncodeNonempty.Statement (Instr.lzoM1Far d s h) := by
  simp [Statement, encode]

theorem EncodeNonempty.lzoM1Near (d : BitVec 2) (s : BitVec 2) (h : BitVec 8) :
    EncodeNonempty.Statement (Instr.lzoM1Near d s h) := by
  simp [Statement, encode]

theorem EncodeNonempty.lzoM4 (h : BitVec 1) (l : BitVec 3) (w : BitVec 16) :
    EncodeNonempty.Statement (Instr.lzoM4 h l w) := by
  simp [Statement, encode, leBytes]

theorem EncodeNonempty.lzoEof (l : BitVec 3) (s : BitVec 2) :
    EncodeNonempty.Statement (Instr.lzoEof l s) := by
  simp [Statement, encode, leBytes]

theorem EncodeNonempty.lzoM3 (l : BitVec 5) (w : BitVec 16) :
    EncodeNonempty.Statement (Instr.lzoM3 l w) := by
  simp [Statement, encode, leBytes]

theorem EncodeNonempty.lzoM2 (l : BitVec 3) (d : BitVec 3) (s : BitVec 2) (h : BitVec 8) :
    EncodeNonempty.Statement (Instr.lzoM2 l d s h) := by
  simp [Statement, encode]

theorem EncodeNonempty.lzoExt (zeros : Nat) (v : BitVec 8) :
    EncodeNonempty.Statement (Instr.lzoExt zeros v) := by
  simp [Statement, encode]

theorem EncodeNonempty.lz4Target (target : BitVec 32) :
    EncodeNonempty.Statement (Instr.lz4Target target) := by
  simp [Statement, encode]

theorem EncodeNonempty.lz4Chunk (size : BitVec 24) (last : BitVec 1) :
    EncodeNonempty.Statement (Instr.lz4Chunk size last) := by
  simp [Statement, encode]

theorem EncodeNonempty.lz4Seq (ll : BitVec 4) (ml : BitVec 4) :
    EncodeNonempty.Statement (Instr.lz4Seq ll ml) := by
  simp [Statement, encode]

theorem EncodeNonempty.lz4Ext (ffs : Nat) (v : BitVec 8) :
    EncodeNonempty.Statement (Instr.lz4Ext ffs v) := by
  simp [Statement, encode]

end Sys2Proof.Laws
end

