-- ==== Sys2Proof/Laws/Step.lean ====
section
/-! SUPPORT. What any row and any step can do to what the engines share: the record, ROM and the parameters stay; STATUS,
RESULT and the start mark stay, or the command begins, returns or fails. -/

set_option Elab.async false

namespace Sys2Proof.Machine

/-- What a row does outside its engine: it fails; or it leaves the surroundings and the command goes on, begins or
returns. -/
def rowOutcome (s t : State) : Prop :=
  (∃ e, t = raiseFail e s) ∨
    (sameSurroundings s t ∧
      (stillRunning s t ∨ (t.status = .busy ∧ t.result = s.result ∧ t.starting = false) ∨ ∃ v, returned t v))

/-- A write of an engine's registers touches nothing else. -/
def engineWrite {ρ : Type} (put : State → ρ → State) : Prop :=
  ∀ s r, sameSurroundings s (put s r) ∧ stillRunning s (put s r)

theorem putBc_engineWrite : engineWrite putBc := fun _ _ => ⟨⟨rfl, rfl, rfl, rfl⟩, rfl, rfl, rfl⟩

theorem putLzss_engineWrite : engineWrite putLzss := fun _ _ => ⟨⟨rfl, rfl, rfl, rfl⟩, rfl, rfl, rfl⟩

theorem putLzo_engineWrite : engineWrite putLzo := fun _ _ => ⟨⟨rfl, rfl, rfl, rfl⟩, rfl, rfl, rfl⟩

theorem putLz4_engineWrite : engineWrite putLz4 := fun _ _ => ⟨⟨rfl, rfl, rfl, rfl⟩, rfl, rfl, rfl⟩

/-- Everything the turn of a running command can do to the shared state. -/
theorem settle_outcome {ρ : Type} {put : State → ρ → State} (hp : engineWrite put) (s : State) (u : Turn ρ) :
    ∃ t, settle put s u = .next t ∧ rowOutcome s t := by
  cases u with
  | run r => exact ⟨_, rfl, .inr ⟨(hp s r).1, .inl (hp s r).2⟩⟩
  | done r v => exact ⟨_, rfl, .inr ⟨(hp s r).1, .inr (.inr ⟨v, rfl, rfl, rfl⟩)⟩⟩
  | fail e => exact ⟨_, rfl, .inl ⟨e, rfl⟩⟩

/-- Everything the turn of a command that begins can do to the shared state. -/
theorem settle_start_outcome {ρ : Type} {put : State → ρ → State} (hp : engineWrite put) (s : State) (u : Turn ρ) :
    ∃ t, settle put (startCommand s) u = .next t ∧ rowOutcome s t := by
  cases u with
  | run r => exact ⟨_, rfl, .inr ⟨(hp (startCommand s) r).1, .inr (.inl (hp (startCommand s) r).2)⟩⟩
  | done r v => exact ⟨_, rfl, .inr ⟨(hp (startCommand s) r).1, .inr (.inr ⟨v, rfl, rfl, rfl⟩)⟩⟩
  | fail e => exact ⟨_, rfl, .inl ⟨e, rfl⟩⟩

/-- Every instruction has a next state, and what it does to the shared state. -/
theorem exec_outcome (i : Instr) (s : State) : ∃ t, exec i s = .next t ∧ rowOutcome s t := by
  cases i
  case decodeBC1 | decodeBC2 | decodeBC3 | decodeBC4 | decodeBC7 => exact settle_start_outcome putBc_engineWrite s _
  case decodeBC5 | decodeBC6 => exact ⟨_, rfl, .inl ⟨_, rfl⟩⟩
  case lzssDecompress | lzoDecompress | decompressLz4Chain =>
    exact ⟨_, rfl, .inr ⟨⟨rfl, rfl, rfl, rfl⟩, .inr (.inl ⟨rfl, rfl, rfl⟩)⟩⟩
  case alphaInterp8 | alphaInterp6 | lzssFlags | lzssLit | lz4Target =>
    exact ⟨_, rfl, .inr ⟨⟨rfl, rfl, rfl, rfl⟩, .inl ⟨rfl, rfl, rfl⟩⟩⟩
  case lzssRef | lzssCsum => exact settle_outcome putLzss_engineWrite s _
  case lzoFirstLit | lzoLit | lzoLitExt | lzoM1Far | lzoM1Near | lzoM2 | lzoM3 | lzoM4 | lzoEof | lzoExt =>
    exact settle_outcome putLzo_engineWrite s _
  case lz4Chunk | lz4Seq | lz4Ext => exact settle_outcome putLz4_engineWrite s _
  all_goals exact settle_outcome putBc_engineWrite s _

/-- Every step has a next state; an engine that is not Busy stays as it is, a Busy one takes its row's outcome. -/
theorem step_outcome (s : State) :
    ∃ t, step s = .next t ∧ (s.status ≠ .busy → t = s) ∧ (s.status = .busy → rowOutcome s t) := by
  unfold step
  cases h : s.status
  case busy =>
    cases hf : fetch s with
    | instr i =>
      obtain ⟨t, h1, h2⟩ := exec_outcome i s
      exact ⟨t, h1, by simp, fun _ => h2⟩
    | fail e => exact ⟨_, rfl, by simp, fun _ => .inl ⟨e, rfl⟩⟩
  all_goals exact ⟨s, rfl, by simp, by simp⟩

end Sys2Proof.Machine
end

