-- ==== Sys2Proof/Tests/Slice0.lean ====
section
/-! SUPPORT. The model's own tests: ill-formed terms, words written out from the spec's encodings, single steps with the
values of 95_test_vectors.md, and for each obligation with hypotheses a state and operands that meet them. -/

set_option Elab.async false

namespace Sys2Proof.Tests

open Sys2Proof.Machine

/-! ### Helpers -/

/-- The next state of an outcome. -/
def after (o : Host.Outcome State Fault Refusal) : State :=
  match o with
  | .next t => t
  | .fault _ => State.reset
  | .refused _ => State.reset

/-- A running command at its first bytes `bs`, read in place `c`. -/
def placed (c : DecodeCtx) (bs : List Byte) : State := placeAt c bs State.reset

/-- A command issued and not started, with the operands of `c`. -/
def issued (c : CmdRecord) : State := { State.reset with status := .busy, starting := true, cmd := c }

/-- Texel `i` of a 4×4 image as the bytes of OUT. -/
def texel (t : State) (i : Nat) : List (Option Byte) :=
  (List.range 4).map fun c => Memory.read outFill t.bc.out (4 * i + c)

/-- Whether a step failed with the given record. -/
def failedWith (k : ErrKind) (off : BitVec 32) (t : State) : Prop := t.status = .failed ∧ t.result = .fail (errCode k) off

/-! ### WellFormed: one ill-formed term for each check -/

theorem test_wf_bc1Block4 : (Instr.bc1Block4 0x00000000FFFF0000).wf = false := by decide
theorem test_wf_bc1Block4_equal : (Instr.bc1Block4 0x00000000001F001F).wf = false := by decide
theorem test_wf_bc1Block3 : (Instr.bc1Block3 0x000000000000FFFF).wf = false := by decide
theorem test_wf_alphaInterp8 : (Instr.alphaInterp8 0x0000000000008080).wf = false := by decide
theorem test_wf_alphaInterp6 : (Instr.alphaInterp6 0x00000000000000FF).wf = false := by decide
theorem test_wf_bc7Mode0 : (Instr.bc7Mode0 0x02).wf = false := by decide
theorem test_wf_bc7Mode1 : (Instr.bc7Mode1 0x03).wf = false := by decide
theorem test_wf_bc7Mode2 : (Instr.bc7Mode2 0x06).wf = false := by decide
theorem test_wf_bc7Mode3 : (Instr.bc7Mode3 0x0C).wf = false := by decide
theorem test_wf_bc7Mode4 : (Instr.bc7Mode4 0x18).wf = false := by decide
theorem test_wf_bc7Mode5 : (Instr.bc7Mode5 0x30).wf = false := by decide
theorem test_wf_bc7Mode6 : (Instr.bc7Mode6 0x60).wf = false := by decide
theorem test_wf_bc7Mode7 : (Instr.bc7Mode7 0xC0).wf = false := by decide
theorem test_wf_bc7Reserved : (Instr.bc7Reserved 0x80).wf = false := by decide
theorem test_wf_lzoFirstLit : (Instr.lzoFirstLit 17).wf = false := by decide
theorem test_wf_lzoLit : (Instr.lzoLit 0).wf = false := by decide
theorem test_wf_lzoM4 : (Instr.lzoM4 0 1 3).wf = false := by decide
theorem test_wf_lzoM2 : (Instr.lzoM2 1 0 0 0).wf = false := by decide
theorem test_wf_lzoExt : (Instr.lzoExt 2 0).wf = false := by decide
theorem test_wf_lz4Ext : (Instr.lz4Ext 2 0xFF).wf = false := by decide

/-! ### Decoding: every constructor from a word written out from its encoding (30_encoding.md) -/

/-- R70, R71. -/
theorem test_decode_commands :
    decode .command [0x01] = .ok .decodeBC1 ∧ decode .command [0x02] = .ok .decodeBC2 ∧
    decode .command [0x03] = .ok .decodeBC3 ∧ decode .command [0x04] = .ok .decodeBC4 ∧
    decode .command [0x05] = .ok .decodeBC5 ∧ decode .command [0x06] = .ok .decodeBC6 ∧
    decode .command [0x07] = .ok .decodeBC7 ∧ decode .command [0x10] = .ok .lzssDecompress ∧
    decode .command [0x11] = .ok .lzoDecompress ∧ decode .command [0x12] = .ok .decompressLz4Chain ∧
    decode .command [0x00] = .error .noCommand ∧ decode .command [0x08] = .error .noCommand ∧
    decode .command [0x0F] = .error .noCommand ∧ decode .command [0x13] = .error .noCommand := by decide

/-- R72: `c0_raw` is bytes 0–1 and `c1_raw` bytes 2–3. -/
theorem test_decode_bc1 :
    decode .bc1 [0x00, 0xF8, 0x1F, 0x00, 0xE4, 0xE4, 0xE4, 0xE4] = .ok (.bc1Block4 0xE4E4E4E4001FF800) ∧
    decode .bc1 [0x1F, 0x00, 0x00, 0xF8, 0xE4, 0xE4, 0xE4, 0xE4] = .ok (.bc1Block3 0xE4E4E4E4F800001F) ∧
    decode .bc1 [0x1F, 0x00, 0x1F, 0x00, 0xFF, 0xFF, 0xFF, 0xFF] = .ok (.bc1Block3 0xFFFFFFFF001F001F) ∧
    decode .bc1 [0, 0, 0, 0, 0, 0, 0] = .error .truncated := by decide

/-- R73, R75, R76. -/
theorem test_decode_bc2_bc3_bc4 :
    decode .bc2 [0x10, 0x32, 0x54, 0x76, 0x98, 0xBA, 0xDC, 0xFE, 0xFF, 0xFF, 0, 0, 0, 0, 0, 0] =
      .ok (.bc2Block 0x000000000000FFFFFEDCBA9876543210) ∧
    decode .bc3 [0x00, 0xFF, 0x88, 0xC6, 0xFA, 0x88, 0xC6, 0xFA, 0xFF, 0xFF, 0, 0, 0, 0, 0, 0] =
      .ok (.bc3Block 0x000000000000FFFFFAC688FAC688FF00) ∧
    decode .bc4 [0x80, 0x81, 0, 0, 0, 0, 0, 0] = .ok (.bc4Block 0x8180) := by decide

/-- R74: `a0` is byte 0 and `a1` byte 1; equal endpoints take the six-value palette. -/
theorem test_decode_alpha :
    decode .alpha [0xFF, 0x00, 0x88, 0xC6, 0xFA, 0x88, 0xC6, 0xFA] = .ok (.alphaInterp8 0xFAC688FAC68800FF) ∧
    decode .alpha [0x00, 0xFF, 0x88, 0xC6, 0xFA, 0x88, 0xC6, 0xFA] = .ok (.alphaInterp6 0xFAC688FAC688FF00) ∧
    decode .alpha [0x80, 0x80, 0, 0, 0, 0, 0, 0] = .ok (.alphaInterp6 0x8080) := by decide

/-- R77: the mode patterns of byte 0, the other bytes 0. -/
theorem test_decode_bc7 :
    decode .bc7 [0x31, 0, 0, 0, 0, 0, 0, 0, 0, 0, 0, 0, 0, 0, 0, 0] = .ok (.bc7Mode0 0x31) ∧
    decode .bc7 [0x32, 0, 0, 0, 0, 0, 0, 0, 0, 0, 0, 0, 0, 0, 0, 0] = .ok (.bc7Mode1 0x32) ∧
    decode .bc7 [0x34, 0, 0, 0, 0, 0, 0, 0, 0, 0, 0, 0, 0, 0, 0, 0] = .ok (.bc7Mode2 0x34) ∧
    decode .bc7 [0x38, 0, 0, 0, 0, 0, 0, 0, 0, 0, 0, 0, 0, 0, 0, 0] = .ok (.bc7Mode3 0x38) ∧
    decode .bc7 [0x30, 0, 0, 0, 0, 0, 0, 0, 0, 0, 0, 0, 0, 0, 0, 0] = .ok (.bc7Mode4 0x30) ∧
    decode .bc7 [0x60, 0, 0, 0, 0, 0, 0, 0, 0, 0, 0, 0, 0, 0, 0, 0] = .ok (.bc7Mode5 0x60) ∧
    decode .bc7 [0xC0, 0, 0, 0, 0, 0, 0, 0, 0, 0, 0, 0, 0, 0, 0, 0] = .ok (.bc7Mode6 0xC0) ∧
    decode .bc7 [0x80, 0, 0, 0, 0, 0, 0, 0, 0, 0, 0, 0, 0, 0, 0, 1] =
      .ok (.bc7Mode7 0x01000000000000000000000000000080) ∧
    decode .bc7 [0x00, 0xFF, 0, 0, 0, 0, 0, 0, 0, 0, 0, 0, 0, 0, 0, 0] = .ok (.bc7Reserved 0xFF00) := by decide

/-- R89, R90: `offset[7:0] = b0`, `offset[11:8] = b1[7:4]`, `L = b1[3:0]`. -/
theorem test_decode_lzss :
    decode .lzssFlags [0x03] = .ok (.lzssFlags 0x03) ∧ decode .lzssLit [0x41] = .ok (.lzssLit 0x41) ∧
    decode .lzssRef [0x34, 0xA5] = .ok (.lzssRef 0xA34 5) ∧
    decode .lzssCsum [0x0C, 0x02, 0x00, 0x80] = .ok (.lzssCsum 0x8000020C) := by decide

/-- R92, R93, R94, R96: each class of control byte, at the edges of its range. -/
theorem test_decode_lzo :
    decode .lzoFirst [0x12] = .ok (.lzoFirstLit 0x12) ∧
    decode .lzoBody [0x00] = .ok .lzoLitExt ∧
    decode (.lzoToken .outer) [0x0F] = .ok (.lzoLit 15) ∧
    decode (.lzoToken .afterRun) [0x0E, 0xFF] = .ok (.lzoM1Far 3 2 0xFF) ∧
    decode (.lzoToken .afterShort) [0x0E, 0xFF] = .ok (.lzoM1Near 3 2 0xFF) ∧
    decode (.lzoToken .afterRun) [0x11, 0x04, 0x00] = .ok (.lzoM4 0 1 4) ∧
    decode (.lzoToken .outer) [0x19, 0x00, 0x00] = .ok (.lzoM4 1 1 0) ∧
    decode (.lzoToken .outer) [0x11, 0x03, 0x00] = .ok (.lzoEof 1 3) ∧
    decode .lzoBody [0x10, 0x00, 0x00] = .ok (.lzoEof 0 0) ∧
    decode (.lzoToken .outer) [0x3F, 0x0D, 0x80] = .ok (.lzoM3 31 0x800D) ∧
    decode .lzoBody [0x20, 0x0C, 0x00] = .ok (.lzoM3 0 0x000C) ∧
    decode (.lzoToken .outer) [0x40, 0x05] = .ok (.lzoM2 2 0 0 0x05) ∧
    decode (.lzoToken .outer) [0xFD, 0x05] = .ok (.lzoM2 7 7 1 0x05) ∧
    decode .lzoExt [0x00, 0x05, 0x0C] = .ok (.lzoExt 1 5) := by decide

/-- R97, R98, R99. -/
theorem test_decode_lz4 :
    decode .lz4Target [0x0C, 0x00, 0x00, 0x01] = .ok (.lz4Target 0x0100000C) ∧
    decode .lz4Chunk [0x05, 0x00, 0x01, 0x00] = .ok (.lz4Chunk 0x010005 0) ∧
    decode .lz4Chunk [0x03, 0x00, 0x00, 0x80] = .ok (.lz4Chunk 3 1) ∧
    decode .lz4Chunk [0x03, 0x00, 0x00, 0x81] = .error .unknownFlags ∧
    decode .lz4Seq [0x1F] = .ok (.lz4Seq 1 15) ∧
    decode .lz4Ext [0xFF, 0x01] = .ok (.lz4Ext 1 1) ∧ decode .lz4Ext [0x00] = .ok (.lz4Ext 0 0) := by decide

/-! ### Arithmetic (95_test_vectors.md 2.1) -/

/-- V-P-2 to V-P-5. -/
theorem test_unpack565 :
    unpack565 .replicate 0xF800 = ⟨255, 0, 0, 255⟩ ∧ unpack565 .replicate 0x07E0 = ⟨0, 255, 0, 255⟩ ∧
    expand565 .replicate 0x20 6 = 0x82 ∧ expand565 .replicate 3 5 = 24 ∧ expand565 .scale 3 5 = 25 := by decide

/-- V-P-6 to V-P-12. -/
theorem test_interpolation :
    halfCh .trunc 255 0 = 127 ∧ halfCh .round 255 0 = 128 ∧ oneThirdCh .trunc 255 0 = 170 ∧
    twoThirdsCh .trunc 255 0 = 85 ∧ oneThirdCh .round 0 2 = 1 ∧ sevenths .trunc 255 0 1 = 218 ∧
    sevenths .round 255 0 1 = 219 ∧ fifths .trunc 0 255 1 = 51 ∧ fifths .round 0 3 1 = 1 ∧
    bc7Expand 0b10110 5 = 0xB5 ∧ bc7Interp standardRom 0 255 2 1 = 84 ∧ bc7Interp standardRom 0 255 4 1 = 16 := by decide

/-! ### Commands, one step each -/

/-- A record with the given code, input and size of image. -/
def bcCmd (op : Byte) (inp : List Byte) (w h : BitVec 32) : CmdRecord :=
  { CmdRecord.reset with op := op, input := inp, width := w, height := h }

/-- V-BC1-5: an empty image is done at once; R130's example: 5×3 has two blocks in a row. -/
theorem test_decodeBC1 :
    (after (step (issued (bcCmd 0x01 [] 0 0)))).result = .ok (.pixelBuffer []) ∧
    ((after (step (issued (bcCmd 0x01 (List.replicate 16 0) 5 3)))).bc.bw,
      (after (step (issued (bcCmd 0x01 (List.replicate 16 0) 5 3)))).bc.bh) = (2, 1) := by decide +kernel

/-- R130 on the largest width: 2^30 blocks a row, held in 30 bits as 0 (assumption log 18), so one byte is too short. -/
theorem test_decodeBC1_widest :
    blocksAlong 0xFFFFFFFF = 2 ^ 30 ∧ blockCount (BitVec.ofNat 30 (blocksAlong 0xFFFFFFFF)) 0xFFFFFFFF = 2 ^ 30 ∧
    failedWith .inputTruncated 1 (after (step (issued (bcCmd 0x01 [0] 0xFFFFFFFF 1)))) := by unfold failedWith; decide +kernel

/-- V-BC1-4. -/
theorem test_decodeBC1_short : failedWith .inputTruncated 2 (after (step (issued (bcCmd 0x01 [0x00, 0xF8] 4 4)))) := by
  unfold failedWith; decide +kernel

/-- V-BC2-3. -/
theorem test_decodeBC2_short :
    failedWith .inputTruncated 15 (after (step (issued (bcCmd 0x02 (List.replicate 15 0) 4 4)))) := by
  unfold failedWith; decide +kernel

/-- R150: the next row of a started BC3 command is its alpha block's. -/
theorem test_decodeBC3 :
    fetch (after (step (issued (bcCmd 0x03 [0xFF, 0, 0, 0, 0, 0, 0, 0, 0, 0, 0, 0, 0, 0, 0, 0] 4 4)))) =
      .instr (.alphaInterp8 0xFF) := by decide +kernel

/-- V-BC4-3: the channel is checked before the input. -/
theorem test_decodeBC4_channel :
    failedWith .badParameter 0 (after (step (issued { bcCmd 0x04 [] 4 4 with channel := 4 }))) := by
  unfold failedWith; decide +kernel

/-- V-BC5-1, V-BC6-1. -/
theorem test_decodeBC5_decodeBC6 :
    failedWith .unimplemented 0 (after (step (issued (bcCmd 0x05 [] 1 1)))) ∧
    failedWith .unimplemented 0 (after (step (issued (bcCmd 0x06 [] 1 1)))) := by unfold failedWith; decide +kernel

/-- V-BC7-10: 32 bytes are enough for 5×3. -/
theorem test_decodeBC7 :
    fetch (after (step (issued (bcCmd 0x07 (List.replicate 32 0) 5 3)))) = .instr (.bc7Reserved 0) := by decide +kernel

/-- R310's codes; RESULT holds the code (R311). -/
theorem test_errCode :
    (errCode .checksumMismatch, errCode .inputTruncated, errCode .malformedChunk, errCode .badCommand) = (1, 7, 10, 12) ∧
    (after (step (issued (bcCmd 0x06 [] 1 1)))).result = .fail 8 0 := by decide +kernel

/-- V-CMD-1. -/
theorem test_badCommand : failedWith .badCommand 0 (after (step (issued (bcCmd 0x08 [] 4 4)))) := by
  unfold failedWith; decide +kernel

/-- P1's start state. -/
theorem test_lzssDecompress :
    (after (step (issued { CmdRecord.reset with op := 0x10, input := [0x03], offset := 3 }))).lzss =
      { LzssRegs.reset with ip := 3 } ∧ LzssRegs.reset.r = 4078 := by decide +kernel

/-- P2's start state; R92: a first byte of 17 is read in state Outer. -/
theorem test_lzoDecompress :
    (after (step (issued { CmdRecord.reset with op := 0x11, input := [0x14] }))).lzo.st = .start ∧
    (after (step (issued { CmdRecord.reset with op := 0x11, input := [0x11] }))).lzo.st = .outer := by decide +kernel

/-- P3's start state. -/
theorem test_decompressLz4Chain :
    (after (step (issued { CmdRecord.reset with op := 0x12 }))).lz4 = Lz4Regs.reset := by decide +kernel

/-! ### Blocks, one step each -/

/-- V-BC1-1. -/
theorem test_bc1Block4 :
    let t := after (step (placed .bc1 [0x00, 0xF8, 0x1F, 0x00, 0xE4, 0xE4, 0xE4, 0xE4]))
    texel t 1 = [some 0, some 0, some 255, some 255] ∧ texel t 14 = [some 170, some 0, some 85, some 255] ∧
      texel t 3 = [some 85, some 0, some 170, some 255] ∧ t.status = .done := by decide +kernel

/-- V-BC1-3. -/
theorem test_bc1Block3 :
    let s := placed .bc1 [0x1F, 0x00, 0x00, 0xF8, 0xE4, 0xE4, 0xE4, 0xE4]
    texel (after (step s)) 2 = [some 127, some 0, some 127, some 255] ∧
      texel (after (step s)) 3 = [some 0, some 0, some 0, some 255] ∧
      texel (after (step { s with cmd := { s.cmd with useAlpha := true } })) 3 = [some 0, some 0, some 0, some 0] := by
  decide +kernel

/-- V-BC1-6 (P4): texel 0 of block 1 is the pixel (4, 0), at byte 16. -/
theorem test_bc1Block3_clipped :
    let s := placed .bc1 [0xE0, 0x07, 0xE0, 0x07, 0, 0, 0, 0, 0xE0, 0x07, 0xE0, 0x07, 0, 0, 0, 0]
    let t := after (step { s with
      cmd := { s.cmd with width := 5, height := 3 }
      bc := { s.bc with bw := 2, bh := 1, k := 1 } })
    texel t 4 = [some 0, some 255, some 0, some 255] ∧ texel t 5 = [none, none, none, none] ∧ t.status = .done := by
  decide +kernel

/-- V-BC2-1. -/
theorem test_bc2Block :
    texel (after (step (placed .bc2 [0x10, 0x32, 0x54, 0x76, 0x98, 0xBA, 0xDC, 0xFE, 0xFF, 0xFF, 0, 0, 0, 0, 0, 0]))) 13 =
      [some 255, some 255, some 255, some 0xDD] := by decide +kernel

/-- R141: a BC2 colour part is four-colour though `c0_raw <= c1_raw` (V-BC1-1's colours exchanged). -/
theorem test_bc2Block_forced :
    texel (after (step (placed .bc2 [0, 0, 0, 0, 0, 0, 0, 0, 0x1F, 0x00, 0x00, 0xF8, 0xE4, 0xE4, 0xE4, 0xE4]))) 3 =
      [some 170, some 0, some 85, some 0] := by decide +kernel

/-- V-BC3-1. -/
theorem test_alphaInterp8 :
    (after (step (placed .alpha [255, 0, 0x88, 0xC6, 0xFA, 0x88, 0xC6, 0xFA]))).bc.work.ap =
      #v[255, 0, 218, 182, 145, 109, 72, 36] := by decide +kernel

/-- V-BC3-3. -/
theorem test_alphaInterp6 :
    (after (step (placed .alpha [10, 20, 0, 0, 0, 0, 0, 0]))).bc.work.ap = #v[10, 20, 12, 14, 16, 18, 0, 255] := by
  decide +kernel

/-- R28, R75: in a BC3 command BLK holds all 16 bytes of the block while its alpha block is decoded. -/
theorem test_alpha_blk :
    (after (step (after (step (issued (bcCmd 0x03
      [0xFF, 0, 0, 0, 0, 0, 0, 0, 1, 2, 3, 4, 5, 6, 7, 8] 4 4)))))).bc.blk = 0x080706050403020100000000000000FF := by
  decide +kernel

/-- A block's state after its alpha row, with V-BC3-2's palette. -/
def withPalette (s : State) : State :=
  { s with bc := { s.bc with work := { s.bc.work with ap := #v[0, 255, 51, 102, 153, 204, 0, 255] } } }

/-- V-BC3-4. -/
theorem test_bc3Block :
    let t := after (step (withPalette
      (placed .bc3 [0x00, 0xFF, 0x88, 0xC6, 0xFA, 0x88, 0xC6, 0xFA, 0xFF, 0xFF, 0, 0, 0, 0, 0, 0])))
    texel t 2 = [some 255, some 255, some 255, some 51] ∧ texel t 13 = [some 255, some 255, some 255, some 204] := by
  decide +kernel

/-- V-BC4-4, and R161: channel 3 replaces alpha. -/
theorem test_bc4Block :
    let s := withPalette (placed .bc4 [0x00, 0xFF, 0x88, 0xC6, 0xFA, 0x88, 0xC6, 0xFA])
    texel (after (step s)) 10 = [some 51, some 0, some 0, some 255] ∧
      texel (after (step { s with cmd := { s.cmd with channel := 3 } })) 10 = [some 0, some 0, some 0, some 51] := by
  decide +kernel

/-- V-BC7-0. -/
theorem test_bc7Mode0 :
    let t := after (step (placed .bc7 [0x01, 0xFE, 0x1F, 0x00, 0x1E, 0xE0, 0x1F, 0x1E, 0x00, 0xC0, 0x07, 0, 0, 0, 0, 0]))
    texel t 2 = [some 255, some 8, some 8, some 255] ∧ texel t 9 = [some 8, some 255, some 8, some 255] := by
  decide +kernel

/-- V-BC7-1. -/
theorem test_bc7Mode1 :
    let t := after (step (placed .bc7
      [0x36, 0xC0, 0xFF, 0xFF, 0xC0, 0x0F, 0x00, 0xC0, 0x0F, 0x00, 0xF2, 0xFF, 0xFF, 0xFF, 0xFF, 0xFF]))
    texel t 1 = [some 253, some 253, some 253, some 255] ∧ texel t 8 = [some 255, some 2, some 2, some 255] := by
  decide +kernel

/-- V-BC7-2. -/
theorem test_bc7Mode2 :
    let t := after (step (placed .bc7
      [0x04, 0xFE, 0x07, 0x00, 0x00, 0x00, 0xFE, 0x07, 0x00, 0x00, 0x00, 0xFE, 0x07, 0x00, 0x00, 0x00]))
    texel t 0 = [some 255, some 0, some 0, some 255] ∧ texel t 12 = [some 0, some 0, some 255, some 255] := by
  decide +kernel

/-- V-BC7-3. -/
theorem test_bc7Mode3 :
    let t := after (step (placed .bc7
      [0x08, 0xFC, 0x01, 0x00, 0x00, 0x00, 0xF0, 0x07, 0x00, 0xFE, 0x80, 0xFF, 0xAB, 0xAA, 0xAA, 0xAA]))
    texel t 0 = [some 255, some 1, some 1, some 255] ∧ texel t 1 = [some 172, some 1, some 84, some 255] ∧
      texel t 2 = [some 1, some 172, some 84, some 255] := by decide +kernel

/-- V-BC7-4a and V-BC7-4b, texel 1. -/
theorem test_bc7Mode4 :
    texel (after (step (placed .bc7
      [0x10, 0x1F, 0x80, 0x0F, 0xC0, 0x0F, 0xC8, 0xC9, 0xC9, 0xC9, 0x89, 0xC6, 0xFA, 0x88, 0xC6, 0xFA]))) 1 =
        [some 171, some 84, some 0, some 219] ∧
    texel (after (step (placed .bc7
      [0x90, 0x1F, 0x80, 0x0F, 0xC0, 0x0F, 0xC8, 0xC9, 0xC9, 0xC9, 0x89, 0xC6, 0xFA, 0x88, 0xC6, 0xFA]))) 1 =
        [some 219, some 36, some 0, some 171] := by decide +kernel

/-- V-BC7-5a and V-BC7-5b, texel 1. -/
theorem test_bc7Mode5 :
    texel (after (step (placed .bc7
      [0x20, 0x7F, 0x00, 0x00, 0x00, 0xF8, 0xFF, 0x03, 0xC8, 0xC9, 0xC9, 0xC9, 0x1B, 0x1B, 0x1B, 0x1B]))) 1 =
        [some 171, some 0, some 84, some 84] ∧
    texel (after (step (placed .bc7
      [0x60, 0x7F, 0x00, 0x00, 0x00, 0xF8, 0xFF, 0x03, 0xC8, 0xC9, 0xC9, 0xC9, 0x1B, 0x1B, 0x1B, 0x1B]))) 1 =
        [some 84, some 0, some 84, some 171] := by decide +kernel

/-- V-BC7-6, texel 9, and V-BC7-9, texel 0. -/
theorem test_bc7Mode6 :
    texel (after (step (placed .bc7
      [0x40, 0xC0, 0x1F, 0xF0, 0x07, 0xFC, 0x01, 0x7F, 0x11, 0x32, 0x54, 0x76, 0x98, 0xBA, 0xDC, 0xFE]))) 9 =
        [some 151, some 151, some 151, some 151] ∧
    texel (after (step (placed .bc7
      [0xC0, 0xC0, 0x1F, 0xF0, 0x07, 0xFC, 0x01, 0x7F, 0x11, 0x32, 0x54, 0x76, 0x98, 0xBA, 0xDC, 0xFE]))) 0 =
        [some 2, some 0, some 0, some 0] := by decide +kernel

/-- V-BC7-7. -/
theorem test_bc7Mode7 :
    let t := after (step (placed .bc7
      [0x80, 0xC0, 0x07, 0x00, 0x00, 0xF0, 0x01, 0xF8, 0xE0, 0xFF, 0x0F, 0xFE, 0x02, 0x00, 0x00, 0x00]))
    texel t 1 = [some 255, some 4, some 4, some 255] ∧ texel t 2 = [some 0, some 251, some 0, some 0] := by decide +kernel

/-- V-BC7-8. -/
theorem test_bc7Reserved :
    let t := after (step (placed .bc7 (List.replicate 16 0)))
    texel t 7 = [some 255, some 0, some 255, some 255] ∧ t.status = .done := by decide +kernel

/-! ### LZSS, one step each (P1) -/

/-- P1: the refill of step 1. -/
theorem test_lzssFlags : (after (step (placed .lzssFlags [0x03]))).lzss.flags = 0xFF03 := by decide +kernel

/-- P1, step 1, and V-LZSS-5's signed addend. -/
theorem test_lzssLit :
    let t := after (step (placed .lzssLit [0x41]))
    (t.lzss.out, t.lzss.r, t.lzss.csum) = ([0x41], 4079, 0x41) ∧
    Memory.read ringFill t.lzss.ring 4078 = some 0x41 ∧
    widen true 0xFF = 0xFFFFFFFF ∧ widen false 0xFF = 0xFF := by decide +kernel

/-- P1's engine after step 2. -/
def p1 : State :=
  { placeLzss 8 false 0x7F81 [0x03, 0x41, 0x42, 0x02, 0x03, 0x0C, 0x02, 0x00, 0x00] State.reset with
    lzss := { LzssRegs.reset with
      ring := [(4078, 0x41), (4079, 0x42)], r := 4080, flags := 0x7F81, ip := 3, out := [0x41, 0x42], csum := 0x83 } }

/-- P1, step 3. -/
theorem test_lzssRef :
    let t := after (step p1)
    (t.lzss.out, t.lzss.r, t.lzss.flags, t.lzss.ip, t.lzss.csum) =
      ([0x41, 0x42, 0x41, 0x42, 0x41, 0x42, 0x41, 0x42], 4086, 0x3FC0, 5, 0x20C) := by decide +kernel

/-- V-LZSS-8: 18 bytes against 5. -/
theorem test_lzssRef_overflow :
    failedWith .overflow 1 (after (step
      { placeLzss 5 true 0xFF00 [0x00, 0x00, 0x0F, 0, 0, 0, 0] State.reset with
        lzss := { LzssRegs.reset with fresh := true, flags := 0xFF00, ip := 1 } })) := by unfold failedWith; decide +kernel

/-- P1's engine after step 3, with the trailer's last byte given. -/
def p1End (b : Byte) : State :=
  { placeLzss 8 false 0x3FC0 [0x03, 0x41, 0x42, 0x02, 0x03, 0x0C, 0x02, 0x00, b] State.reset with
    lzss := { LzssRegs.reset with
      out := [0x41, 0x42, 0x41, 0x42, 0x41, 0x42, 0x41, 0x42], flags := 0x3FC0, ip := 5, csum := 0x20C } }

/-- P1's end, and V-LZSS-16. -/
theorem test_lzssCsum :
    (after (step (p1End 0))).result = .ok (.lzssData [0x41, 0x42, 0x41, 0x42, 0x41, 0x42, 0x41, 0x42] 9) ∧
    failedWith .checksumMismatch 5 (after (step (p1End 1))) := by unfold failedWith; decide +kernel

/-! ### LZO1X, one step each -/

/-- An LZO1X engine in state `st` with output `out`, at the first byte of `bs`. -/
def lzoAt (st : LzoSt) (out bs : List Byte) : State :=
  { placeLzo st bs State.reset with lzo := { LzoRegs.reset with st := st, out := out } }

/-- P2, step 1, and V-LZO-13. -/
theorem test_lzoFirstLit :
    (after (step (lzoAt .start [] [0x14, 0x61, 0x62, 0x63, 0xA8, 0x00]))).lzo =
      { LzoRegs.reset with ip := 4, out := [0x61, 0x62, 0x63], st := .afterShort } ∧
    failedWith .inputTruncated 3 (after (step (lzoAt .start [] [0x14, 0x61, 0x62]))) := by unfold failedWith; decide +kernel

/-- V-LZO-4: `Ext(15) = 18`, 21 literals. -/
theorem test_lzoLitExt :
    let s := lzoAt .outer [] (0x00 :: 0x03 :: List.replicate 21 0x41)
    (after (step s)).lzo.ext = some 3 ∧
    (after (step { s with lzo := { s.lzo with t := 0, ip := 2, ext := some 3 } })).lzo.out = List.replicate 21 0x41 := by
  decide +kernel

/-- V-LZO-3. -/
theorem test_lzoLit :
    let t := after (step (lzoAt .outer [] [0x01, 0x77, 0x78, 0x79, 0x7A]))
    (t.lzo.out, t.lzo.st, t.lzo.ip) = ([0x77, 0x78, 0x79, 0x7A], .afterRun, 5) := by decide +kernel

/-- R246: distance 2049 needs 2049 bytes of output (here 2048: InvalidOffset at the control byte). -/
theorem test_lzoM1Far :
    failedWith .invalidOffset 0 (after (step (lzoAt .afterRun (List.replicate 2048 1) [0x00, 0x00]))) ∧
    (after (step (lzoAt .afterRun (List.replicate 2049 1) [0x00, 0x00]))).lzo.out.length = 2052 := by
  unfold failedWith; decide +kernel

/-- V-LZO-5: M1 near `d = 2`. -/
theorem test_lzoM1Near :
    (after (step (lzoAt .afterShort [0x61, 0x62, 0x63, 0x5A] [0x04, 0x00]))).lzo.out =
      [0x61, 0x62, 0x63, 0x5A, 0x63, 0x5A] := by decide +kernel

/-- V-LZO-5: M2 with one trailing literal. -/
theorem test_lzoM2 :
    (after (step (lzoAt .afterShort [0x61, 0x62, 0x63] [0xA9, 0x00, 0x5A]))).lzo =
      { LzoRegs.reset with
        ip := 3, out := [0x61, 0x62, 0x63, 0x61, 0x62, 0x63, 0x61, 0x62, 0x63, 0x5A], t := 1, st := .afterShort } := by
  decide +kernel

/-- V-LZO-11: distance 2 with one byte of output, at control byte 2. -/
theorem test_lzoM2_invalid :
    let s := lzoAt .afterShort [0x61] [0x12, 0x61, 0xA4, 0x00]
    failedWith .invalidOffset 2 (after (step { s with lzo := { s.lzo with ip := 2 } })) := by
  unfold failedWith; decide +kernel

/-- V-LZO-6, and V-LZO-7 after its extension: `n = 31 + 255 + 5 + 2 = 293`. -/
theorem test_lzoM3 :
    (after (step (lzoAt .afterRun [0x41, 0x42, 0x43, 0x44] [0x28, 0x0C, 0x00]))).lzo.out =
      [0x41, 0x42, 0x43, 0x44, 0x41, 0x42, 0x43, 0x44, 0x41, 0x42, 0x43, 0x44, 0x41, 0x42] ∧
    (let s := lzoAt .afterRun [0x41, 0x42, 0x43, 0x44] [0x20, 0x00, 0x05, 0x0C, 0x00]
     (after (step { s with lzo := { s.lzo with t := 0x20, ip := 3, ext := some 260 } })).lzo.out.length = 297) := by
  decide +kernel

/-- R250: `11 04 00` is distance 16385, here beyond the output. -/
theorem test_lzoM4 :
    failedWith .invalidOffset 0 (after (step (lzoAt .afterRun [0x41] [0x11, 0x04, 0x00]))) ∧
    lzoMatchOf LzoRegs.reset (.lzoM4 0 1 4) = some ⟨16385, 3, 3, 0, 0⟩ := by unfold failedWith; decide +kernel

/-- P2's end, and V-LZO-9. -/
theorem test_lzoEof :
    let s := lzoAt .outer [0x61, 0x62, 0x63] [0x11, 0x00, 0x00]
    (after (step { s with cmd := { s.cmd with expectedSize := 3 } })).result = .ok (.decodedBytes [0x61, 0x62, 0x63]) ∧
    failedWith .sizeMismatch 3 (after (step { s with cmd := { s.cmd with expectedSize := 4 } })) := by
  unfold failedWith; decide +kernel

/-- R242's example: bytes `00 05` after the control byte are worth 255 + 5. -/
theorem test_lzoExt :
    (after (step (lzoAt .outer [] [0x20, 0x00, 0x05, 0x0C, 0x00]))).lzo =
      { LzoRegs.reset with ip := 3, t := 0x20, st := .outer, ext := some 260, tok := 0 } := by decide +kernel

/-! ### LZ4 chain, one step each (P3) -/

/-- P3's input. -/
def p3Bytes : List Byte :=
  [0x0C, 0, 0, 0, 0x05, 0, 0, 0x00, 0x40, 0x61, 0x62, 0x63, 0x64, 0x03, 0, 0, 0x80, 0x04, 0x04, 0x00]

/-- P3's engine with the given registers. -/
def p3 (e : Lz4Regs) : State :=
  { placeLz4 e.phase p3Bytes State.reset with
    cmd := { CmdRecord.reset with op := 0x12, input := p3Bytes, declaredBlockSize := 20 }, lz4 := e }

/-- P3, step 1. -/
theorem test_lz4Target :
    (after (step (p3 Lz4Regs.reset))).lz4 = { Lz4Regs.reset with target := 12, ip := 4, phase := .chunk } := by decide +kernel

/-- P3, step 2. -/
theorem test_lz4Chunk :
    (after (step (p3 { Lz4Regs.reset with target := 12, ip := 4, phase := .chunk }))).lz4 =
      { Lz4Regs.reset with target := 12, ip := 8, phase := .seq, chunkEnd := 13 } := by decide +kernel

/-- V-LZ4-6 (flags 0x81) and V-LZ4-14 (empty chunk), each at the start of its header. -/
theorem test_lz4Chunk_checks :
    failedWith .unknownFlags 0 (after (step (placed .lz4Chunk [0x07, 0, 0, 0x81]))) ∧
    failedWith .malformedChunk 4 (after (step (placed .lz4Chunk [0, 0, 0, 0x80]))) := by unfold failedWith; decide +kernel

/-- P3, step 3: the literals end the chunk. -/
theorem test_lz4Seq :
    let t := after (step (p3 { Lz4Regs.reset with target := 12, ip := 8, phase := .seq, chunkEnd := 13 }))
    (t.lz4.dict, t.lz4.ch, t.lz4.total, t.lz4.ip, t.lz4.phase) =
      ([0x61, 0x62, 0x63, 0x64], [], [0x61, 0x62, 0x63, 0x64], 13, .chunk) := by decide +kernel

/-- P3, steps 5 and 6: a match from the dictionary into the chunk's own output ends the block. -/
theorem test_lz4Seq_match :
    (after (step (p3 { Lz4Regs.reset with
      target := 12, ip := 17, phase := .seq, chunkEnd := 20, last := 1
      dict := [0x61, 0x62, 0x63, 0x64], total := [0x61, 0x62, 0x63, 0x64] }))).result =
      .ok (.decodedBytes [0x61, 0x62, 0x63, 0x64, 0x61, 0x62, 0x63, 0x64, 0x61, 0x62, 0x63, 0x64]) := by decide +kernel

/-- R285's examples: `F0 01` is 16 literals; `1F … FF 01` is a match of 275 bytes. -/
theorem test_lz4Ext :
    (let s := placeLz4 .litLen (0x01 :: List.replicate 16 0x41) State.reset
     (after (step s)).lz4.total.length = 16) ∧
    (let s := placeLz4 .matchLen [0xFF, 0x01, 0x00] State.reset
     (after (step { s with lz4 := { s.lz4 with ch := [0x78], off := 1, ml := 15 } })).lz4.ch.length = 276) := by decide +kernel

/-! ### Witnesses: states and operands that meet an obligation's hypotheses -/

theorem fits_of {p : Params} {m n : Nat} (h : p.maxOutput = some m) (hn : n ≤ m) : fits p n := by
  intro k hk
  rw [h] at hk
  cases hk
  exact hn

theorem exceeds_of {p : Params} {m n : Nat} (h : p.maxOutput = some m) (hn : m < n) : exceeds p n := ⟨m, h, hn⟩

/-- `s` with MAX_OUTPUT bounded. -/
def bounded (m : Nat) (s : State) : State := { s with params := { s.params with maxOutput := some m } }

/-- Edges of the ranges of R92, R93, R94, R99. -/
theorem witness_DecodeEncodeRoundTrip :
    (Instr.lzoM4 0 7 4).wf = true ∧ (Instr.lzoM4 1 0 0).wf = true ∧ (Instr.lzoM2 2 0 0 0).wf = true ∧
    (Instr.lzoFirstLit 18).wf = true ∧ (Instr.lzoExt 3 1).wf = true ∧ (Instr.lz4Ext 0 0xFE).wf = true ∧
    (Instr.bc1Block3 0x001F001F).wf = true ∧ (Instr.bc7Mode7 0x80).wf = true := by decide

theorem witness_DecodedBytesReencode : decode .lzoExt [0, 0, 1, 9] = .ok (.lzoExt 2 1) := by decide

theorem witness_Bc7RowIsTheLowestSetBit :
    decode .bc7 (leBytes 16 (0xC0#128).toNat) = .ok (.bc7Mode6 0xC0) ∧ (0xC0#128).toNat % 64 = 0 := by decide

theorem witness_StepRunsDecodedRow :
    let s := placed .lzssLit [0x41]
    (Instr.lzssLit 0x41).wf = true ∧ s.status = .busy ∧
      decode (fetchSite s).1 (fetchSite s).2 = .ok (.lzssLit 0x41) ∧ State.reset.status ≠ .busy := by decide +kernel

/-- The edges of R71's ranges. -/
theorem witness_UndefinedCommandIsBadCommand :
    ∀ op ∈ ([0x00, 0x08, 0x0F, 0x13, 0xFF] : List Byte),
      let s := issued { CmdRecord.reset with op := op }
      s.status = .busy ∧ s.starting = true ∧
        s.cmd.op ∉ [0x01, 0x02, 0x03, 0x04, 0x05, 0x06, 0x07, 0x10, 0x11, 0x12] := by decide +kernel

theorem witness_CommandLifeCycle :
    State.reset.status ≠ .busy ∧ (placed .lzssLit [0x41]).status = .busy := by decide +kernel

theorem witness_StepsNeverWriteRecordRomOrParameters : step State.reset = .next State.reset := rfl

theorem witness_FailureDiscardsEverything :
    let s := issued { CmdRecord.reset with op := 0x05 }
    let t := raiseFail ⟨.unimplemented, 0⟩ s
    s.status = .busy ∧ step s = .next t ∧ t.status = .failed := ⟨rfl, rfl, rfl⟩

/-! #### The invariant -/

/-- The digits of PARTITION3 are subsets (46_bc7_tables.md R202). -/
theorem romOk_standard : romOk standardRom := by
  unfold romOk
  decide +kernel

/-- A running command of each engine: BC1 at its only block, P1 at its last token, P2's marker, P3's last sequence. -/
def runBc : State := placed .bc1 [0x00, 0xF8, 0x1F, 0x00, 0xE4, 0xE4, 0xE4, 0xE4]

def runLzss : State := p1End 0

def runLzo : State :=
  { lzoAt .outer [0x61, 0x62, 0x63] [0x11, 0x00, 0x00] with
    cmd := { CmdRecord.reset with op := 0x11, input := [0x11, 0x00, 0x00], expectedSize := 3 } }

def runLz4 : State :=
  p3 { Lz4Regs.reset with
    target := 12, ip := 17, phase := .seq, chunkEnd := 20, last := 1
    dict := [0x61, 0x62, 0x63, 0x64], total := [0x61, 0x62, 0x63, 0x64] }

theorem inv_runBc : Inv runBc := by
  refine ⟨romOk_standard, by decide, by decide, by decide, by decide, by decide, fun _ _ => ?_⟩
  show bcRunning runBc
  unfold bcRunning
  decide

theorem inv_runLzss : Inv runLzss := by
  refine ⟨romOk_standard, by decide, by decide, by decide, by decide, by decide, fun _ _ => ?_⟩
  show lzssRunning runLzss
  unfold lzssRunning
  decide

theorem inv_runLzo : Inv runLzo := by
  refine ⟨romOk_standard, by decide, by decide, by decide, by decide, by decide, fun _ _ => ?_⟩
  show lzoRunning runLzo
  unfold lzoRunning
  decide

theorem inv_runLz4 : Inv runLz4 := by
  refine ⟨romOk_standard, by decide, by decide, by decide, by decide, by decide, fun _ _ => ?_⟩
  show lz4Running runLz4
  exact ⟨by decide, by decide, by decide⟩

/-- A step, an issue and a write of the record, each from a state that meets the invariant. -/
theorem witness_StepKeepsInvariant :
    let done := complete (.decodedBytes []) runLzo
    Inv runLz4 ∧ (∃ t, step runLz4 = .next t) ∧
    Inv done ∧ (∃ t, hostIssue CmdRecord.reset done = .next t) ∧ (∃ t, hostWriteRecord CmdRecord.reset done = .next t) := by
  refine ⟨inv_runLz4, (step_outcome runLz4).imp fun _ h => h.1, ?_, ⟨_, rfl⟩, ⟨_, rfl⟩⟩
  exact ⟨romOk_standard, by decide, by decide, by decide, by decide, by decide, fun h => absurd h (by decide)⟩

theorem witness_EveryCommandEnds : Inv runBc ∧ Inv runLzss ∧ Inv runLzo ∧ Inv runLz4 :=
  ⟨inv_runBc, inv_runLzss, inv_runLzo, inv_runLz4⟩

/-- S6: P1 on a fresh engine and on an engine that another command has left full. -/
theorem witness_ResultsDependOnTheCommandAlone :
    let c := { CmdRecord.reset with op := 0x10, input := [0x03, 0x41, 0x42], expectedSize := 8 }
    sameStart (issued c) { issued c with lzss := p1.lzss, lz4 := runLz4.lz4, result := .fail 2 1 } := by
  intro c
  exact ⟨rfl, rfl, rfl, rfl, rfl, rfl, rfl⟩

/-- One command of each kind of result, at its last step. -/
theorem witness_OkResultsHaveTheirDeclaredSize :
    Inv runBc ∧ (after (step runBc)).status = .done ∧ Inv runLzss ∧ (after (step runLzss)).status = .done ∧
    Inv runLzo ∧ (after (step runLzo)).status = .done ∧ Inv runLz4 ∧ (after (step runLz4)).status = .done :=
  ⟨inv_runBc, by decide +kernel, inv_runLzss, by decide +kernel, inv_runLzo, by decide +kernel, inv_runLz4,
    by decide +kernel⟩

theorem witness_HostMovesFollowTheLifeCycle :
    runBc.status = .busy ∧ State.reset.status = .idle ∧ (complete (.decodedBytes []) runBc).status = .done ∧
    (raiseFail ⟨.overflow, 0⟩ runBc).status = .failed := by decide +kernel

theorem witness_EngineInstancesAreIndependent :
    (0 : Nat) ≠ 1 ∧ (systemReset 2)[0]? = some State.reset ∧ (systemReset 2)[1]? = some State.reset := by decide

/-! #### BCn -/

/-- An issued command on a 5×3 image (two blocks) with `n` bytes of input. -/
def image (op : Byte) (n : Nat) (channel : BitVec 32) : State :=
  issued { bcCmd op (List.replicate n 0) 5 3 with channel := channel }

/-- Inputs of exactly two blocks, and the largest channel. -/
theorem witness_BcCommandsBeginTheWalk :
    ∀ p ∈ [((0x01 : Byte), 8), (0x02, 16), (0x03, 16), (0x04, 8), (0x07, 16)],
      let s := image p.1 (2 * p.2) 3
      s.cmd.channel.toNat ≤ 3 ∧ blocksAlong s.cmd.width * blocksAlong s.cmd.height * p.2 ≤ s.cmd.input.length := by
  decide +kernel

/-- Inputs one byte short, and the smallest channel that is refused. -/
theorem witness_BcCommandsCheckBeforeTheFirstBlock :
    (∀ n ∈ [8, 16],
      let s := image 0x01 (2 * n - 1) 3
      s.cmd.input.length < blocksAlong s.cmd.width * blocksAlong s.cmd.height * n) ∧
    3 < (image 0x04 15 4).cmd.channel.toNat ∧ (image 0x04 15 3).cmd.channel.toNat ≤ 3 := by decide +kernel

theorem witness_BC1BlocksWriteTheirPixels :
    (Instr.bc1Block4 0x00000000001FF800).wf = true ∧ (Instr.bc1Block3 0x00000000001F001F).wf = true := by decide

/-- Each mode's least well-formed block, under the standard tables, whose modes are those of the layouts. -/
theorem witness_BC7BlocksWriteTheirPixels :
    romOk standardRom ∧ bc7Layouts.map (·.mode) = [0, 1, 2, 3, 4, 5, 6, 7] ∧
    (Instr.bc7Mode0 0x01).wf = true ∧ (Instr.bc7Mode1 0x02).wf = true ∧ (Instr.bc7Mode2 0x04).wf = true ∧
    (Instr.bc7Mode3 0x08).wf = true ∧ (Instr.bc7Mode4 0x10).wf = true ∧ (Instr.bc7Mode5 0x20).wf = true ∧
    (Instr.bc7Mode6 0x40).wf = true ∧ (Instr.bc7Mode7 0x80).wf = true := ⟨romOk_standard, by decide⟩

/-- The block of the 5×3 image whose texels partly lie outside it, and the walk's last block. -/
theorem witness_blockWritten :
    let s := { image 0x01 16 0 with bc := { BcRegs.reset with bw := 2, bh := 1, k := 1 } }
    texelAddr s 0 = some 16 ∧ texelAddr s 1 = none ∧ texelAddr s 8 = some 56 ∧ texelAddr s 12 = none ∧
      ¬ s.bc.k.toNat + 1 < gridBlocks s.cmd s.bc := by decide +kernel

theorem witness_BcCommandsReturnThePicture :
    (∀ op n channel, romOk (image op n channel).rom) ∧
    ∀ p ∈ [((0x01 : Byte), 1, 16), (0x02, 1, 32), (0x03, 2, 32), (0x04, 2, 16), (0x07, 1, 32)],
      let s := image p.1 p.2.2 3
      s.status = .busy ∧ s.starting = true ∧
      (s.cmd.op, p.2.1) ∈ [((0x01 : Byte), 1), (0x02, 1), (0x03, 2), (0x04, 2), (0x07, 1)] ∧ s.cmd.channel.toNat ≤ 3 ∧
      blocksAlong s.cmd.width * blocksAlong s.cmd.height * blockBytes s.cmd.op ≤ s.cmd.input.length :=
  ⟨fun _ _ _ => romOk_standard, by decide +kernel⟩

/-- R111's example crosses the boundary; the other clauses at their edges. -/
theorem witness_BitsCrossTheWordBoundary :
    bits 0x8000000000000000 0x1 63 2 = 3 ∧ bits 0x8000000000000000 0x1 60 4 = 8 ∧ bits 0 0x1 64 1 = 1 ∧
    bits 0 0x8000000000000000 127 1 = 1 := by decide +kernel

/-- The edges of `j`, `w` and `p`. -/
theorem witness_InterpolationsAreExact :
    sevenths .trunc 255 0 6 = 36 ∧ sevenths .trunc 255 0 1 = 218 ∧ fifths .trunc 0 255 4 = 204 ∧
    fifths .trunc 0 255 1 = 51 ∧ blend64 64 3 7 = 7 ∧ blend64 0 3 7 = 3 ∧ bc7Expand 31 5 = 255 ∧ bc7Expand 200 8 = 200 ∧
    bc7Interp standardRom 3 7 4 15 = 7 := by decide

/-- Modes 0 and 7; in V-BC7-6 the p-bit of endpoint 1 is bit 64, which is 1. -/
theorem witness_BC7FieldsStandAtTheirBits :
    (⟨0, 4, 0, 0, 6, 4, 5, 29, 53, 0, 77, 6, 77, 3, 83, 0, 128⟩ : Bc7Layout) ∈ bc7Layouts ∧
    (⟨7, 6, 0, 0, 4, 5, 14, 34, 54, 5, 74, 4, 94, 2, 98, 0, 128⟩ : Bc7Layout) ∈ bc7Layouts ∧
    (bc7Fields standardRom 6 0xFEDCBA98765432117F01FC07F01FC040).pbits = [0, 1] := by decide +kernel

/-- Mode 4, the only mode whose two index sets differ in width; its texels 7 and 15 stand at bits 64:63 and 80:79 (R186). -/
theorem witness_BC7IndicesArePackedWithNarrowAnchors :
    (⟨4, 0, 2, 1, 2, 5, 8, 18, 28, 6, 38, 0, 50, 2, 50, 3, 81⟩ : Bc7Layout) ∈ bc7Layouts ∧
    0 ∈ anchorsOf standardRom 1 0 ∧ (modeRow standardRom 4).ib2 ≠ 0 ∧
    (bc7Fields standardRom 4 (BitVec.ofNat 128 (3 * 2 ^ 63))).i1.getD 7 0 = 3 ∧
    (bc7Fields standardRom 4 (BitVec.ofNat 128 (3 * 2 ^ 79))).i1.getD 15 0 = 3 := by decide +kernel

/-! #### LZSS -/

/-- The last and the first bit of P1's flag byte. -/
theorem witness_LzssFlagByteGovernsEightTokens :
    (flagsRefill 0x03 >>> 1).getLsbD 0 = true ∧ (flagsRefill 0x03 >>> 7).getLsbD 0 = false ∧
    (flagsRefill 0x03 >>> 7).getLsbD 8 = true := by decide

theorem witness_LzssLiteralIsEmitted : Memory.wf ringFill p1.lzss.ring := by decide

/-- P1, step 3: the reference reaches `expectedSize` exactly, and reads both what the ring held and its own bytes. -/
theorem witness_LzssBackReferenceCopiesThroughTheRing :
    Memory.wf ringFill p1.lzss.ring ∧ p1.lzss.out.length + ((3 : BitVec 4).toNat + 3) ≤ p1.cmd.expectedSize.toNat ∧
    1 ≤ (2 : BitVec 12).toNat ∧ (2 : BitVec 12).toNat ≤ 5 := by decide

/-- One byte more than P1's room. -/
theorem witness_LzssBackReferenceOverflows :
    p1.cmd.expectedSize.toNat < p1.lzss.out.length + ((4 : BitVec 4).toNat + 3) := by decide

theorem witness_LzssTrailerEndsTheCommand :
    (0x20C : BitVec 32) = runLzss.lzss.csum ∧ (0x0100020C : BitVec 32) ≠ runLzss.lzss.csum := by decide

/-- P1 after its first literal. -/
def ringState : State :=
  { p1 with lzss := { LzssRegs.reset with ring := [(4078, 0x41)], r := 4079, flags := 0xFF03, ip := 2, out := [0x41], csum := 0x41 } }

theorem witness_LzssRingFollowsTheOutput :
    ringFollowsOutput ringState ∧ ringState.status = .busy ∧ ringState.starting = false ∧ ringState.cmd.op = 0x10 ∧
      ∃ t, step ringState = .next t := by
  refine ⟨fun _ _ _ => ⟨by decide, by decide, by decide, ?_⟩, by decide, by decide, by decide, ?_⟩
  · decide +kernel
  · exact (step_outcome ringState).imp fun _ h => h.1

/-- An LZSS engine with `n` bytes asked for, the given `fresh` and flags, and input `bs`. -/
def lzssAt (n : BitVec 32) (fresh : Bool) (flags : BitVec 16) (bs : List Byte) : State :=
  placeLzss n fresh flags bs State.reset

/-- A state for each clause, each with its last byte at the end of IN: the trailer, a used-up group, a later literal and
reference, a first literal and reference, and a reference in mid-stream. -/
theorem witness_LzssNextRowFollowsTheFlags :
    fetch (lzssAt 0 false 0 [1, 2, 3, 4]) = .instr (.lzssCsum 0x04030201) ∧
    fetch (lzssAt 1 false 0x01FF [9]) = .instr (.lzssFlags 9) ∧
    fetch (lzssAt 1 false 0x0202 [9]) = .instr (.lzssLit 9) ∧
    fetch (lzssAt 9 false 0x0200 [9, 0xA5]) = .instr (.lzssRef 0xA09 5) ∧
    fetch (lzssAt 1 true 0xFF01 [9]) = .instr (.lzssLit 9) ∧
    fetch (lzssAt 9 true 0xFF00 [9, 0]) = .instr (.lzssRef 9 0) ∧
    (let s := lzssAt 9 true 0xFF00 [1, 2, 3, 9, 0xF0]
     fetch { s with lzss := { s.lzss with ip := 3 } } = .instr (.lzssRef 0xF09 0)) ∧
    ((0x01FF : BitVec 16) >>> 1).getLsbD 8 = false ∧ ((0x0202 : BitVec 16) >>> 1).getLsbD 8 = true := by decide +kernel

/-- Each clause with one byte missing (V-LZSS-11, V-LZSS-12). -/
theorem witness_LzssShortInputIsTruncated :
    (let s := lzssAt 0 false 0 [1, 2, 3]
     s.cmd.expectedSize.toNat ≤ s.lzss.out.length ∧ s.cmd.input.length < s.lzss.ip + 4) ∧
    (let s := lzssAt 1 false 0 []
     s.lzss.out.length < s.cmd.expectedSize.toNat ∧ s.cmd.input.length < s.lzss.ip + 1) ∧
    (let s := lzssAt 3 true 0xFF00 [5]
     s.lzss.fresh = true ∧ s.lzss.flags.getLsbD 0 = false ∧ s.cmd.input.length < s.lzss.ip + 2) ∧
    (let s := lzssAt 3 false 0x0200 [5]
     s.status = .busy ∧ s.starting = false ∧ s.cmd.op = 0x10 ∧ (s.lzss.flags >>> 1).getLsbD 8 = true ∧
      s.lzss.flags.getLsbD 1 = false ∧ s.cmd.input.length < s.lzss.ip + 2) := by decide +kernel

/-! #### LZO1X -/

/-- An LZO1X engine that has read the control byte `t` and its length extension, with the bytes `bs` left. -/
def lzoExtended (st : LzoSt) (t : BitVec 32) (bs : List Byte) : State :=
  { placeLzo st bs State.reset with lzo := { LzoRegs.reset with st := st, t := t, ext := some 5 } }

/-- A control byte at each edge of each clause. -/
theorem witness_LzoNextRowFollowsTheControlByte :
    fetch (lzoAt .outer [] [64, 7]) = .instr (.lzoM2 2 0 0 7) ∧
    fetch (lzoAt .afterShort [] [0xFF, 0x80]) = .instr (.lzoM2 7 7 3 0x80) ∧
    fetch (lzoAt .afterShort [] [33, 0x12, 0x34]) = .instr (.lzoM3 1 0x3412) ∧
    fetch (lzoAt .outer [] [17, 3, 0]) = .instr (.lzoEof 1 3) ∧ fetch (lzoAt .outer [] [25, 0, 0]) = .instr (.lzoM4 1 1 0) ∧
    fetch (lzoAt .afterRun [] [33, 4, 0]) = .instr (.lzoM3 1 4) ∧ fetch (lzoAt .outer [] [63, 4, 0]) = .instr (.lzoM3 31 4) ∧
    fetch (lzoAt .outer [] [17, 4, 0]) = .instr (.lzoM4 0 1 4) ∧ fetch (lzoAt .outer [] [31, 0, 0]) = .instr (.lzoM4 1 7 0) ∧
    fetch (lzoAt .outer [] [23, 3, 0]) = .instr (.lzoEof 7 3) ∧
    fetch (lzoAt .outer [] [32, 1]) = .instr (.lzoExt 0 1) ∧ fetch (lzoAt .outer [] [24, 0, 1]) = .instr (.lzoExt 1 1) ∧
    fetch (lzoAt .outer [] [16, 255]) = .instr (.lzoExt 0 255) ∧
    fetch (lzoAt .outer [] [15]) = .instr (.lzoLit 15) ∧ fetch (lzoAt .outer [] [1]) = .instr (.lzoLit 1) ∧
    fetch (lzoAt .outer [] [0, 1]) = .instr (.lzoExt 0 1) ∧
    fetch (lzoAt .afterRun [] [0, 1]) = .instr (.lzoM1Far 0 0 1) ∧
    fetch (lzoAt .afterShort [] [15, 1]) = .instr (.lzoM1Near 3 3 1) ∧
    fetch (lzoAt .start [] [18, 1]) = .instr (.lzoFirstLit 18) ∧
    fetch (lzoExtended .outer 0x00 []) = .instr .lzoLitExt ∧
    fetch (lzoExtended .afterRun 0x20 [0x0C, 0x80]) = .instr (.lzoM3 0 0x800C) ∧
    fetch (lzoExtended .outer 0x10 [0x04, 0x00]) = .instr (.lzoM4 0 0 4) ∧
    fetch (lzoExtended .outer 0x10 [0x03, 0x00]) = .instr (.lzoEof 0 3) ∧
    fetch (lzoExtended .afterShort 0x18 [0x00, 0x00]) = .instr (.lzoM4 1 0 0) := by decide +kernel

theorem witness_LzoExtensionIsReadBeforeItsToken :
    (lzoAt .outer [] [0x20, 0x00, 0x05]).cmd.input[(lzoAt .outer [] [0x20, 0x00, 0x05]).lzo.ip]? = some 0x20 := by
  decide +kernel

/-- The three literal runs, each ending at the last byte of IN and reaching MAX_OUTPUT: 3 and 4 literals of a first run, 4
of a short run, 19 of an extended one. -/
theorem witness_LzoLiteralRunsAppend :
    (Instr.lzoFirstLit 20).wf = true ∧ lzoRunOf LzoRegs.reset (.lzoFirstLit 20) = some (1, 3) ∧
    lzoRunOf LzoRegs.reset (.lzoFirstLit 21) = some (1, 4) ∧ lzoRunOf LzoRegs.reset (.lzoLit 1) = some (1, 4) ∧
    lzoRunOf { LzoRegs.reset with ip := 2, ext := some 1 } .lzoLitExt = some (2, 19) ∧
    1 + 4 ≤ (lzoAt .outer [] (List.replicate 5 0)).cmd.input.length ∧
    fits (bounded 4 (lzoAt .outer [] (List.replicate 5 0))).params (0 + 4) :=
  ⟨by decide, by decide, by decide, by decide, by decide, by decide +kernel, fits_of rfl (by decide)⟩

/-- The longest and the shortest distance of each token, one token with its length extended (R249's example), and a token
whose distance is all of the output, with trailing literals up to the end of IN and an output of exactly MAX_OUTPUT. -/
theorem witness_LzoMatchesCopy :
    lzoMatchOf LzoRegs.reset (.lzoM1Far 3 0 255) = some ⟨3072, 3, 2, 0, 0⟩ ∧
    lzoMatchOf LzoRegs.reset (.lzoM1Near 0 3 0) = some ⟨1, 2, 2, 3, 0⟩ ∧
    lzoMatchOf LzoRegs.reset (.lzoM2 7 7 1 255) = some ⟨2048, 8, 2, 1, 0⟩ ∧
    lzoMatchOf LzoRegs.reset (.lzoM3 31 0xFFFF) = some ⟨16384, 33, 3, 3, 0⟩ ∧
    lzoMatchOf { LzoRegs.reset with ip := 3, ext := some 260 } (.lzoM3 0 12) = some ⟨4, 293, 2, 0, 0⟩ ∧
    lzoMatchOf LzoRegs.reset (.lzoM4 1 7 0xFFFF) = some ⟨49151, 9, 3, 3, 0⟩ ∧
    (let s := bounded 10 (lzoAt .afterShort [0x61, 0x62, 0x63] [0xA9, 0x00, 0x5A])
     (Instr.lzoM2 5 2 1 0).wf = true ∧ lzoMatchOf s.lzo (.lzoM2 5 2 1 0) = some ⟨3, 6, 2, 1, 0⟩ ∧
       3 ≤ s.lzo.out.length ∧ s.lzo.ip + 2 + 1 ≤ s.cmd.input.length ∧ fits s.params (s.lzo.out.length + 6 + 1)) :=
  ⟨by decide, by decide, by decide, by decide, by decide, by decide, by decide, by decide, by decide, by decide,
    fits_of rfl (by decide)⟩

/-- Each check of a literal run and of a match, one byte past its bound. -/
theorem witness_LzoTokenChecks :
    (lzoRunOf LzoRegs.reset (.lzoLit 1) = some (1, 4) ∧ (lzoAt .outer [] (List.replicate 4 0)).cmd.input.length < 1 + 4) ∧
    exceeds (bounded 3 (lzoAt .outer [] (List.replicate 5 0))).params (0 + 4) ∧
    (let s := lzoAt .afterShort [0x61, 0x62, 0x63] [0xA9, 0x00]
     (Instr.lzoM2 5 3 1 0).wf = true ∧ lzoMatchOf s.lzo (.lzoM2 5 3 1 0) = some ⟨4, 6, 2, 1, 0⟩ ∧ s.lzo.out.length < 4 ∧
       s.cmd.input.length < s.lzo.ip + 2 + 1) ∧
    exceeds (bounded 8 (lzoAt .afterShort [0x61, 0x62, 0x63] [0xA9, 0x00])).params (3 + 6) ∧
    fits (bounded 9 (lzoAt .afterShort [0x61, 0x62, 0x63] [0xA9, 0x00])).params (3 + 6) ∧
    exceeds (bounded 9 (lzoAt .afterShort [0x61, 0x62, 0x63] [0xA9, 0x00, 0x5A])).params (3 + 6 + 1) :=
  ⟨by decide, exceeds_of rfl (by decide), by decide, exceeds_of rfl (by decide), fits_of rfl (by decide),
    exceeds_of rfl (by decide)⟩

/-- `s` under LZO_REQUIRE_ALL_INPUT. -/
def allInput (s : State) : State := { s with params := { s.params with lzoRequireAllInput := true } }

/-- V-LZO-16's two outcomes and V-LZO-9's. -/
theorem witness_LzoEndMarkerEndsTheCommand :
    runLzo.lzo.out.length = runLzo.cmd.expectedSize.toNat ∧ (allInput runLzo).params.lzoRequireAllInput = true ∧
    runLzo.lzo.ip + 1 + 2 = runLzo.cmd.input.length ∧
    ({ runLzo with cmd := { runLzo.cmd with input := [0x11, 0, 0, 0xAA] } }).cmd.input.length ≠ runLzo.lzo.ip + 1 + 2 ∧
    runLzo.lzo.out.length ≠ ({ runLzo with cmd := { runLzo.cmd with expectedSize := 4 } }).cmd.expectedSize.toNat := by
  decide +kernel

/-- A state for each way of ending early, with one byte missing. -/
theorem witness_LzoShortInputIsTruncated :
    (let s := lzoAt .outer [] []
     s.status = .busy ∧ s.starting = false ∧ s.cmd.op = 0x11 ∧ s.lzo.ext = none ∧
      s.lzo.st ∈ [LzoSt.outer, .afterRun, .afterShort] ∧ s.cmd.input.length ≤ s.lzo.ip) ∧
    (let s := lzoAt .outer [] [64]
     s.cmd.input[s.lzo.ip]? = some 64 ∧ s.cmd.input.length < s.lzo.ip + 2) ∧
    (let s := lzoAt .afterRun [] [15]
     s.cmd.input[s.lzo.ip]? = some 15 ∧ s.lzo.st ≠ .outer ∧ s.cmd.input.length < s.lzo.ip + 2) ∧
    (let s := lzoAt .outer [] [17, 0]
     s.cmd.input[s.lzo.ip]? = some 17 ∧ s.cmd.input.length < s.lzo.ip + 3) ∧
    (let s := lzoAt .outer [] [63, 0]
     s.cmd.input[s.lzo.ip]? = some 63 ∧ s.cmd.input.length < s.lzo.ip + 3) ∧
    (∀ bs ∈ ([[0x20], [0x00, 0, 0], [0x10, 0]] : List (List Byte)),
      let s := lzoAt .outer [] bs
      ∀ a < s.cmd.input.length, s.lzo.ip < a → s.cmd.input[a]? = some 0) ∧
    (let s := lzoExtended .afterRun 0x18 [0]
     s.lzo.ext ≠ none ∧ s.lzo.t = 0x18 ∧ s.cmd.input.length < s.lzo.ip + 2) := by decide +kernel

/-! #### LZ4 chain -/

/-- An LZ4 engine whose last chunk ends where the block does. -/
def lz4At (ph : Lz4Phase) (ch bs : List Byte) (target : BitVec 32) : State :=
  { placeLz4 ph bs State.reset with
    cmd := { CmdRecord.reset with op := 0x12, input := bs, declaredBlockSize := BitVec.ofNat 32 bs.length }
    lz4 := { Lz4Regs.reset with phase := ph, chunkEnd := bs.length, ch := ch, target := target, last := 1 } }

/-- Each phase at the last bytes it can read. -/
theorem witness_Lz4NextRowFollowsTheSequence :
    fetch (lz4At .target [] [1, 2, 3, 4] 0) = .instr (.lz4Target 0x04030201) ∧
    fetch (lz4At .chunk [] [1, 2, 3, 0x80] 0) = .instr (.lz4Chunk 0x030201 1) ∧
    fetch (lz4At .seq [] [0x5F] 0) = .instr (.lz4Seq 5 15) ∧
    fetch (lz4At .litLen [] [0xFF, 0xFF, 0x07] 0) = .instr (.lz4Ext 2 7) ∧
    fetch (lz4At .matchLen [] [0x00] 0) = .instr (.lz4Ext 0 0) ∧
    (let s := lz4At .matchLen [] [0xFF, 0xFF, 0x07] 0
     (∀ a < 2, s.cmd.input[a]? = some 0xFF) ∧ s.cmd.input[s.lz4.ip + 2]? = some 7 ∧ s.lz4.ip + 2 < s.lz4.chunkEnd) := by
  decide +kernel

/-- A payload that ends with IN, and an empty last chunk where the parameter allows it. -/
theorem witness_Lz4ChunkHeaderBeginsItsChunk :
    (let s := lz4At .chunk [] [2, 0, 0, 0x80, 0, 0] 0
     s.lz4.ip + 4 + (2 : BitVec 24).toNat ≤ s.cmd.input.length ∧ (2 : BitVec 24) ≠ 0) ∧
    (let s := lz4At .chunk [] [0, 0, 0, 0x80] 0
     s.lz4.ip + 4 + (0 : BitVec 24).toNat ≤ s.cmd.input.length ∧
     ({ s with params := { s.params with lz4EmptyChunkOk := true } }).params.lz4EmptyChunkOk = true ∧
     lz4Closes s { s.lz4 with ip := s.lz4.ip + 4, last := 1, ch := [] }) := by
  unfold lz4Closes
  decide +kernel

theorem witness_Lz4ChunkHeaderChecks :
    (let s := lz4At .chunk [] [7, 0, 0, 0x81] 0
     s.status = .busy ∧ s.starting = false ∧ s.cmd.op = 0x12 ∧ s.lz4.phase = .chunk ∧
      s.lz4.ip + 4 ≤ s.cmd.input.length ∧ s.cmd.input.getD (s.lz4.ip + 3) 0 &&& 0x7F#8 ≠ 0) ∧
    (let s := lz4At .chunk [] [1, 0, 0, 0x80] 0
     s.cmd.input.length < s.lz4.ip + 4 + (1 : BitVec 24).toNat ∧ s.params.lz4EmptyChunkOk = false) := by decide +kernel

/-- A chunk that ends with its literals (V-LZ4-5), and one whose match length is extended (V-LZ4-4), both with MAX_OUTPUT
reached. -/
theorem witness_Lz4LiteralsAreCopied :
    (let s := bounded 3 (lz4At .seq [] [0x30, 0x61, 0x62, 0x63] 3)
     let e : Lz4Regs := { s.lz4 with tok := 0, ml := 0, ip := 1 }
     lz4LiteralsOf s.lz4 (.lz4Seq 3 0) = some (3, e) ∧ e.ip + 3 = e.chunkEnd ∧
       fits s.params (e.total.length + (lz4WithLiterals s.cmd.input 3 e).ch.length) ∧
       lz4Closes s (lz4WithLiterals s.cmd.input 3 e)) ∧
    (let s := bounded 1 (lz4At .seq [] [0x1F, 0x78, 0x01, 0x00] 3)
     let e : Lz4Regs := { s.lz4 with tok := 0, ml := 15, ip := 1 }
     lz4LiteralsOf s.lz4 (.lz4Seq 1 15) = some (1, e) ∧ e.ip + 1 + 2 ≤ e.chunkEnd ∧ e.ml = 15 ∧
       fits s.params (e.total.length + (lz4WithLiterals s.cmd.input 1 e).ch.length)) ∧
    lz4LiteralsOf (lz4At .litLen [] [0x01] 0).lz4 (.lz4Ext 0 1) =
      some (16, { (lz4At .litLen [] [0x01] 0).lz4 with ip := 1 }) := by
  refine ⟨⟨by decide, by decide, fits_of rfl (by decide), by unfold lz4Closes; decide⟩,
    ⟨by decide, by decide, by decide, fits_of rfl (by decide)⟩, by decide⟩

/-- The match of V-LZ4-2 after its literals ends the chunk; the same match in a longer chunk does not; an extended match. -/
theorem witness_Lz4MatchesAreCopied :
    (let s := bounded 12 (lz4At .seq [] [0x44, 0x61, 0x62, 0x63, 0x64, 0x04, 0x00] 12)
     let e : Lz4Regs := { s.lz4 with tok := 0, ml := 4, ip := 7, off := 4, ch := [0x61, 0x62, 0x63, 0x64] }
     lz4MatchOf s.cmd.input s.lz4 (.lz4Seq 4 4) = some (4, 8, e) ∧ 4 ≤ e.dict.length + e.ch.length ∧
       fits s.params (e.total.length + e.ch.length + 8) ∧ e.chunkEnd ≤ e.ip ∧
       lz4Closes s { e with ch := copyDict e.dict 4 8 e.ch }) ∧
    (let s := lz4At .seq [] [0x44, 0x61, 0x62, 0x63, 0x64, 0x04, 0x00, 0x00] 12
     let e : Lz4Regs := { s.lz4 with tok := 0, ml := 4, ip := 7, off := 4, ch := [0x61, 0x62, 0x63, 0x64] }
     lz4MatchOf s.cmd.input s.lz4 (.lz4Seq 4 4) = some (4, 8, e) ∧ e.ip < e.chunkEnd) ∧
    (let e : Lz4Regs := { Lz4Regs.reset with phase := .matchLen, off := 1, ch := [0x78] }
     lz4MatchOf [] e (.lz4Ext 1 1) = some (1, 275, { e with ip := 2 })) := by
  refine ⟨⟨by decide, by decide, fits_of rfl (by decide), by decide, by unfold lz4Closes; decide⟩,
    ⟨by decide, by decide⟩, by decide⟩

/-- V-LZ4-11, V-LZ4-12, V-LZ4-7, V-LZ4-8, and MAX_OUTPUT passed by one byte after literals and after a match. -/
theorem witness_Lz4SequenceChecks :
    (let s := bounded 0 (lz4At .seq [] [0x50, 0x41] 0)
     let e : Lz4Regs := { s.lz4 with tok := 0, ml := 0, ip := 1 }
     lz4LiteralsOf s.lz4 (.lz4Seq 5 0) = some (5, e) ∧ e.chunkEnd < e.ip + 5 ∧
     lz4LiteralsOf s.lz4 (.lz4Seq 1 0) = some (1, e) ∧ e.ip + 1 ≤ e.chunkEnd ∧
     exceeds s.params (e.total.length + (lz4WithLiterals s.cmd.input 1 e).ch.length)) ∧
    (let s := bounded 1 (lz4At .seq [] [0x10, 0x41, 0x04] 0)
     let e : Lz4Regs := { s.lz4 with tok := 0, ml := 0, ip := 1 }
     lz4LiteralsOf s.lz4 (.lz4Seq 1 0) = some (1, e) ∧ e.ip + 1 + 1 = e.chunkEnd ∧
     fits s.params (e.total.length + (lz4WithLiterals s.cmd.input 1 e).ch.length)) ∧
    (let s := bounded 1 (lz4At .seq [] [0x10, 0x41, 0x02, 0x00] 0)
     let e : Lz4Regs := { s.lz4 with tok := 0, ml := 0, ip := 4, off := 2, ch := [0x41] }
     lz4MatchOf s.cmd.input s.lz4 (.lz4Seq 1 0) = some (2, 4, e) ∧ e.dict.length + e.ch.length < 2 ∧
     fits s.params (e.total.length + e.ch.length)) ∧
    (let s := bounded 4 (lz4At .seq [] [0x10, 0x41, 0x01, 0x00] 0)
     let e : Lz4Regs := { s.lz4 with tok := 0, ml := 0, ip := 4, off := 1, ch := [0x41] }
     lz4MatchOf s.cmd.input s.lz4 (.lz4Seq 1 0) = some (1, 4, e) ∧ 1 ≤ e.dict.length + e.ch.length ∧
     exceeds s.params (e.total.length + e.ch.length + 4)) := by
  refine ⟨⟨by decide, by decide, by decide, by decide, exceeds_of rfl (by decide)⟩,
    ⟨by decide, by decide, fits_of rfl (by decide)⟩, ⟨by decide, by decide, fits_of rfl (by decide)⟩,
    ⟨by decide, by decide, exceeds_of rfl (by decide)⟩⟩

/-- V-LZ4-9 and V-LZ4-10, after a match, after literals, and at an allowed empty chunk. -/
theorem witness_Lz4LastChunkChecks :
    (let s := bounded 12 (lz4At .seq [] [0x44, 0x61, 0x62, 0x63, 0x64, 0x04, 0x00] 13)
     let e : Lz4Regs := { s.lz4 with tok := 0, ml := 4, ip := 7, off := 4, ch := [0x61, 0x62, 0x63, 0x64] }
     e.last = 1 ∧ lz4MatchOf s.cmd.input s.lz4 (.lz4Seq 4 4) = some (4, 8, e) ∧ e.chunkEnd ≤ e.ip ∧
       fits s.params (e.total.length + (copyDict e.dict 4 8 e.ch).length) ∧ e.ip = s.cmd.declaredBlockSize.toNat ∧
       e.total.length + (copyDict e.dict 4 8 e.ch).length ≠ e.target.toNat) ∧
    (let s := bounded 1 { lz4At .seq [] [0x10, 0x41] 1 with
       cmd := { CmdRecord.reset with op := 0x12, input := [0x10, 0x41], declaredBlockSize := 3 } }
     let e : Lz4Regs := { s.lz4 with tok := 0, ml := 0, ip := 1 }
     lz4LiteralsOf s.lz4 (.lz4Seq 1 0) = some (1, e) ∧
       (lz4WithLiterals s.cmd.input 1 e).ip = (lz4WithLiterals s.cmd.input 1 e).chunkEnd ∧
       fits s.params (e.total.length + (lz4WithLiterals s.cmd.input 1 e).ch.length) ∧
       (lz4WithLiterals s.cmd.input 1 e).ip ≠ s.cmd.declaredBlockSize.toNat) ∧
    (let s := { lz4At .chunk [] [0, 0, 0, 0x80] 1 with params := { standardParams with lz4EmptyChunkOk := true } }
     let e : Lz4Regs := { s.lz4 with ip := s.lz4.ip + 4, chunkEnd := s.lz4.ip + 4, last := 1, ch := [] }
     s.params.lz4EmptyChunkOk = true ∧ s.lz4.ip + 4 ≤ s.cmd.input.length ∧ e.ip = s.cmd.declaredBlockSize.toNat ∧
       e.total.length + e.ch.length ≠ e.target.toNat ∧
       failedWith .sizeMismatch 4 (after (exec (.lz4Chunk 0 1) s))) := by
  unfold failedWith
  refine ⟨⟨by decide, by decide, by decide, fits_of rfl (by decide), by decide, by decide⟩,
    ⟨by decide, by decide, fits_of rfl (by decide), by decide⟩, by decide +kernel⟩

/-- V-LZ4-15, V-LZ4-19; a token at the end of its chunk; a chain that fills its chunk while IN goes on. -/
theorem witness_Lz4ShortInputAndShortChunk :
    (let s := lz4At .target [] [0x0C, 0, 0] 0
     s.status = .busy ∧ s.starting = false ∧ s.cmd.op = 0x12 ∧ s.lz4.phase = .target ∧
       s.cmd.input.length < s.lz4.ip + 4) ∧
    (let s := lz4At .seq [] [] 0
     s.lz4.phase = .seq ∧ s.lz4.chunkEnd ≤ s.lz4.ip) ∧
    (let s := { lz4At .matchLen [] [0xFF, 0xFF, 0x00] 0 with lz4 := { Lz4Regs.reset with phase := .matchLen, chunkEnd := 2 } }
     s.lz4.phase = .matchLen ∧ ∀ a < s.lz4.chunkEnd, s.lz4.ip ≤ a → s.cmd.input[a]? = some 0xFF) := by decide +kernel

/-- A chunk of exactly 65536 bytes, and one byte less. -/
theorem witness_Lz4DictionaryKeepsTheLastBytes :
    65536 ≤ (List.replicate 65536 (0 : Byte)).length ∧ (List.replicate 65535 (0 : Byte)).length < 65536 := by
  rw [List.length_replicate, List.length_replicate]
  decide

/-- The nearest and the farthest offset. -/
theorem witness_Lz4SplitChunksDecodeAlike :
    1 ≤ 65535 ∧ 65535 ≤ (List.replicate 65534 (0 : Byte)).length + (([1] : List Byte) ++ []).length ∧
    1 ≤ ([] : List Byte).length + (([1] : List Byte) ++ []).length := by
  rw [List.length_replicate]
  decide

end Sys2Proof.Tests
end

section
/-! PROOFS. Rows in their places: a decoded row is at home in the place it is read from, and its encoding lies inside the
bytes given to the decoder. -/

namespace Sys2Proof

/-- The row `i` belongs to the place `c` (an LZO1X token to every state of the token machine), and its encoding is no
longer than the bytes `bs`. -/
def Instr.liesIn (i : Instr) (c : DecodeCtx) (bs : List Byte) : Prop :=
  (homeCtx i = c ∨ ∃ st st', c = .lzoToken st ∧ homeCtx i = .lzoToken st') ∧ (encode i).length ≤ bs.length

theorem Instr.liesIn_of_home {i : Instr} {c : DecodeCtx} {bs : List Byte} (hc : homeCtx i = c)
    (hl : (encode i).length ≤ bs.length) : i.liesIn c bs := ⟨.inl hc, hl⟩

/-- Outside the LZO1X token places a row's place is its home. -/
theorem Instr.liesIn.home {i : Instr} {c : DecodeCtx} {bs : List Byte} (h : i.liesIn c bs)
    (hc : ∀ st, c ≠ .lzoToken st) : homeCtx i = c := by
  obtain ⟨h | ⟨st, _, h, _⟩, -⟩ := h
  · exact h
  · exact absurd h (hc st)

/-- In an LZO1X token place a row's home is a token place. -/
theorem Instr.liesIn.token {i : Instr} {st : LzoSt} {bs : List Byte} (h : i.liesIn (.lzoToken st) bs) :
    ∃ st', homeCtx i = .lzoToken st' := by
  obtain ⟨h | ⟨_, st', _, h⟩, -⟩ := h
  · exact ⟨st, h⟩
  · exact ⟨st', h⟩

/-- The state of the token machine does not matter to where a token lies. -/
theorem Instr.liesIn.anyToken {i : Instr} {st : LzoSt} {bs : List Byte} (h : i.liesIn (.lzoToken st) bs)
    (st' : LzoSt) : i.liesIn (.lzoToken st') bs :=
  h.token.elim fun st'' hc => ⟨.inr ⟨st', st'', rfl, hc⟩, h.2⟩

/-- A fixed-width row: its place and width decide where it lies. -/
theorem liesIn_of_takeLe_map {n : Nat} {bs : List Byte} {f : Nat → Instr} {i : Instr} {c : DecodeCtx}
    (h : (takeLe n bs).map f = .ok i) (hc : ∀ v, homeCtx (f v) = c) (hl : ∀ v, (encode (f v)).length = n) :
    i.liesIn c bs := by
  cases ht : takeLe n bs with
  | error e => simp [ht, Except.map] at h
  | ok v =>
    obtain rfl : f v = i := by simpa [ht, Except.map] using h
    exact Instr.liesIn_of_home (hc v) (by rw [hl]; exact (takeLe_eq_ok.1 ht).1)

theorem commandOf_home {op : Byte} {i : Instr} (h : commandOf op = some i) :
    homeCtx i = .command ∧ (encode i).length = 1 := by
  unfold commandOf at h
  split at h <;> simp only [Option.some.injEq, reduceCtorEq] at h <;> subst h <;> exact ⟨rfl, rfl⟩

theorem bc7Row_home (blk : BitVec 128) : homeCtx (bc7Row blk) = .bc7 ∧ (encode (bc7Row blk)).length = 16 := by
  unfold bc7Row
  split <;> exact ⟨rfl, leBytes_length 16 _⟩

theorem bc1Row_home (blk : BitVec 64) : homeCtx (bc1Row blk) = .bc1 ∧ (encode (bc1Row blk)).length = 8 := by
  unfold bc1Row
  split <;> exact ⟨rfl, leBytes_length 8 _⟩

theorem alphaRow_home (blk : BitVec 64) : homeCtx (alphaRow blk) = .alpha ∧ (encode (alphaRow blk)).length = 8 := by
  unfold alphaRow
  split <;> exact ⟨rfl, leBytes_length 8 _⟩

theorem lzoM4Of_home (h : BitVec 1) (l : BitVec 3) (w : BitVec 16) :
    homeCtx (lzoM4Of h l w) = (if l = 0 then .lzoBody else .lzoToken .outer) ∧
      (encode (lzoM4Of h l w)).length = 3 := by
  unfold lzoM4Of
  split <;> simp [homeCtx, encode]

theorem decodeChain_liesIn {x : Byte} {mk : Nat → Byte → Instr} {bs : List Byte} {i : Instr} {c : DecodeCtx}
    (h : decodeChain x mk bs = .ok i) (hc : ∀ n v, homeCtx (mk n v) = c)
    (hl : ∀ n v, (encode (mk n v)).length = n + 1) : i.liesIn c bs := by
  obtain ⟨n, v, rest, rfl, -, rfl⟩ := decodeChain_eq_ok h
  exact Instr.liesIn_of_home (hc n v) (by simp [hl])

theorem decodeChunk_liesIn {bs : List Byte} {i : Instr} (h : decodeChunk bs = .ok i) : i.liesIn .lz4Chunk bs := by
  unfold decodeChunk at h
  split at h
  · simp at h
  · rename_i n hn
    split at h
    · obtain rfl := Except.ok.inj h
      exact Instr.liesIn_of_home rfl (by simpa [encode] using (takeLe_eq_ok.1 hn).1)
    · simp at h

/-- The two-byte words that follow a control byte `t`. -/
theorem liesIn_of_control_word {t : Byte} {rest : List Byte} {f : Nat → Instr} {i : Instr} {c : DecodeCtx}
    (h : (takeLe 2 rest).map f = .ok i) (hc : ∀ v, homeCtx (f v) = c) (hl : ∀ v, (encode (f v)).length = 3) :
    i.liesIn c (t :: rest) := by
  cases ht : takeLe 2 rest with
  | error e => simp [ht, Except.map] at h
  | ok v =>
    obtain rfl : f v = i := by simpa [ht, Except.map] using h
    have hr := (takeLe_eq_ok.1 ht).1
    exact Instr.liesIn_of_home (hc v) (by rw [hl, List.length_cons]; omega)

theorem decodeLzoBody_liesIn {bs : List Byte} {i : Instr} (h : decodeLzoBody bs = .ok i) : i.liesIn .lzoBody bs := by
  cases bs with
  | nil => simp [decodeLzoBody] at h
  | cons t rest =>
    simp only [decodeLzoBody] at h
    split at h
    · obtain rfl := Except.ok.inj h
      exact Instr.liesIn_of_home rfl (by simp [encode])
    · split at h
      · exact liesIn_of_control_word h (fun _ => rfl) (fun _ => by simp [encode])
      · split at h
        · exact liesIn_of_control_word h (fun _ => (lzoM4Of_home _ _ _).1) (fun _ => (lzoM4Of_home _ _ _).2)
        · split at h
          · exact liesIn_of_control_word h (fun _ => (lzoM4Of_home _ _ _).1) (fun _ => (lzoM4Of_home _ _ _).2)
          · simp at h

theorem lzoShort_liesIn {st : LzoSt} {t : Byte} {rest : List Byte} {i : Instr} (h : lzoShort st t rest = .ok i) :
    i.liesIn (.lzoToken st) (t :: rest) := by
  unfold lzoShort at h
  split at h
  · split at h
    · simp at h
    · obtain rfl := Except.ok.inj h
      exact (Instr.liesIn_of_home (c := .lzoToken .outer) rfl (by simp [encode])).anyToken _
  · split at h
    · simp at h
    · obtain rfl := Except.ok.inj h
      exact (Instr.liesIn_of_home (c := .lzoToken .afterRun) rfl (by simp [encode])).anyToken _
  all_goals
    split at h
    · simp at h
    · obtain rfl := Except.ok.inj h
      exact (Instr.liesIn_of_home (c := .lzoToken .afterShort) rfl (by simp [encode])).anyToken _

theorem decodeLzoToken_liesIn {st : LzoSt} {bs : List Byte} {i : Instr} (h : decodeLzoToken st bs = .ok i) :
    i.liesIn (.lzoToken st) bs := by
  cases bs with
  | nil => simp [decodeLzoToken] at h
  | cons t rest =>
    simp only [decodeLzoToken] at h
    split at h
    · split at h
      · simp at h
      · obtain rfl := Except.ok.inj h
        exact (Instr.liesIn_of_home (c := .lzoToken .outer) rfl (by simp [encode])).anyToken _
    · split at h
      · split at h
        · simp at h
        · rename_i hl
          exact (liesIn_of_control_word h (fun _ => if_neg hl) (fun _ => by simp [encode])).anyToken _
      · split at h
        · split at h
          · simp at h
          · rename_i hl
            exact (liesIn_of_control_word h (fun _ => (lzoM4Of_home _ _ _).1.trans (if_neg hl))
              (fun _ => (lzoM4Of_home _ _ _).2)).anyToken _
        · exact lzoShort_liesIn h

/-- Whatever the decoder reads belongs to the place it was read from and lies inside the bytes given (R70, R72–R99). -/
theorem decode_liesIn {c : DecodeCtx} {bs : List Byte} {i : Instr} (h : decode c bs = .ok i) : i.liesIn c bs := by
  cases c <;> simp only [decode] at h
  case command =>
    split at h
    · simp at h
    · split at h
      · rename_i hop
        obtain rfl := Except.ok.inj h
        exact Instr.liesIn_of_home (commandOf_home hop).1 (by simp [(commandOf_home hop).2])
      · simp at h
  case lzoFirst =>
    split at h
    · simp at h
    · split at h
      · obtain rfl := Except.ok.inj h
        exact Instr.liesIn_of_home rfl (by simp [encode])
      · simp at h
  case bc1 => exact liesIn_of_takeLe_map h (fun _ => (bc1Row_home _).1) (fun _ => (bc1Row_home _).2)
  case alpha => exact liesIn_of_takeLe_map h (fun _ => (alphaRow_home _).1) (fun _ => (alphaRow_home _).2)
  case bc7 => exact liesIn_of_takeLe_map h (fun _ => (bc7Row_home _).1) (fun _ => (bc7Row_home _).2)
  case lzoToken st => exact decodeLzoToken_liesIn h
  case lzoBody => exact decodeLzoBody_liesIn h
  case lzoExt => exact decodeChain_liesIn h (fun _ _ => rfl) (fun _ _ => by simp [encode])
  case lz4Ext => exact decodeChain_liesIn h (fun _ _ => rfl) (fun _ _ => by simp [encode])
  case lz4Chunk => exact decodeChunk_liesIn h
  all_goals exact liesIn_of_takeLe_map h (fun _ => rfl) (fun _ => by simp [encode, lzssRefOf])

end Sys2Proof
end

section
/-! PROOFS. The four engines: the rows of each, and where a running command reads them. -/

namespace Sys2Proof.Machine

/-- The engines that run a started command. -/
inductive Engine where
  | bc
  | lzss
  | lzo
  | lz4

/-- The engine of a started command; undefined codes, BC5 and BC6 have none. -/
def engineOf (op : Byte) : Option Engine :=
  match op.toNat with
  | 0x01 | 0x02 | 0x03 | 0x04 | 0x07 => some .bc
  | 0x10 => some .lzss
  | 0x11 => some .lzo
  | 0x12 => some .lz4
  | _ => none

/-- The engine whose stream has the place `c`. -/
def placeEngine (c : DecodeCtx) : Option Engine :=
  match c with
  | .command => none
  | .bc1 | .bc2 | .alpha | .bc3 | .bc4 | .bc7 => some .bc
  | .lzssFlags | .lzssLit | .lzssRef | .lzssCsum => some .lzss
  | .lzoFirst | .lzoToken _ | .lzoBody | .lzoExt => some .lzo
  | .lz4Target | .lz4Chunk | .lz4Seq | .lz4Ext => some .lz4

/-- The engine that runs a row. -/
def rowEngine (i : Instr) : Option Engine := placeEngine (homeCtx i)

@[simp] theorem rowEngine_lzoM3 (l : BitVec 5) (w : BitVec 16) : rowEngine (.lzoM3 l w) = some .lzo := by
  simp only [rowEngine, homeCtx]
  split <;> rfl

@[simp] theorem rowEngine_lzoM4 (h : BitVec 1) (l : BitVec 3) (w : BitVec 16) : rowEngine (.lzoM4 h l w) = some .lzo := by
  simp only [rowEngine, homeCtx]
  split <;> rfl

@[simp] theorem rowEngine_lzoEof (l : BitVec 3) (q : BitVec 2) : rowEngine (.lzoEof l q) = some .lzo := by
  simp only [rowEngine, homeCtx]
  split <;> rfl

/-- What the invariant says of the engine of a started command. -/
def Engine.runs (e : Engine) (s : State) : Prop :=
  match e with
  | .bc => bcRunning s
  | .lzss => lzssRunning s
  | .lzo => lzoRunning s
  | .lz4 => lz4Running s

theorem engineOf_bc {op : Byte} (h : engineOf op = some .bc) :
    op = 0x01 ∨ op = 0x02 ∨ op = 0x03 ∨ op = 0x04 ∨ op = 0x07 := by
  unfold engineOf at h
  split at h <;> simp_all [← BitVec.toNat_inj]

theorem engineOf_lzss {op : Byte} (h : engineOf op = some .lzss) : op = 0x10 := by
  unfold engineOf at h
  split at h <;> simp_all [← BitVec.toNat_inj]

theorem engineOf_lzo {op : Byte} (h : engineOf op = some .lzo) : op = 0x11 := by
  unfold engineOf at h
  split at h <;> simp_all [← BitVec.toNat_inj]

theorem engineOf_lz4 {op : Byte} (h : engineOf op = some .lz4) : op = 0x12 := by
  unfold engineOf at h
  split at h <;> simp_all [← BitVec.toNat_inj]

/-- The invariant's clause on a started command is that of the command's engine. -/
theorem running_iff {s : State} {e : Engine} (h : engineOf s.cmd.op = some e) : running s ↔ e.runs s := by
  cases e with
  | bc => obtain h | h | h | h | h := engineOf_bc h <;> simp [running, Engine.runs, h]
  | lzss => simp [running, Engine.runs, engineOf_lzss h]
  | lzo => simp [running, Engine.runs, engineOf_lzo h]
  | lz4 => simp [running, Engine.runs, engineOf_lz4 h]

/-- Only a command that has an engine is found running. -/
theorem engineOf_of_running {s : State} (h : running s) : ∃ e, engineOf s.cmd.op = some e := by
  unfold running at h
  unfold engineOf
  split at h <;> simp_all

/-- The rows of a decoded place belong to its engine. -/
theorem rowEngine_of_decode {c : DecodeCtx} {bs : List Byte} {i : Instr} (h : decode c bs = .ok i) :
    rowEngine i = placeEngine c := by
  unfold rowEngine
  obtain ⟨hc | ⟨st, st', rfl, hc⟩, -⟩ := decode_liesIn h
  · rw [hc]
  · rw [hc]; rfl

/-- Outside the LZO1X stream a row is decoded in its home place. -/
theorem homeCtx_of_decode {c : DecodeCtx} {bs : List Byte} {i : Instr} (h : decode c bs = .ok i)
    (hc : placeEngine c ≠ some .lzo) : homeCtx i = c :=
  (decode_liesIn h).home (by rintro st rfl; exact hc rfl)

/-! ### Where a running command reads -/

theorem fetchSite_starting {s : State} (h : s.starting = true) : fetchSite s = (.command, [s.cmd.op]) := by
  simp [fetchSite, h]

/-- A started command reads in its engine's places: those of its block format. -/
theorem fetchSite_bc {op : Byte} (he : engineOf op = some .bc) :
    ∃ c n a, placeEngine c = some .bc ∧
      ∀ s : State, s.starting = false → s.cmd.op = op → fetchSite s = bcSite c n a s := by
  obtain rfl | rfl | rfl | rfl | rfl := engineOf_bc he
  · exact ⟨.bc1, 8, false, rfl, fun s hs h => by simp [fetchSite, hs, h]⟩
  · exact ⟨.bc2, 16, false, rfl, fun s hs h => by simp [fetchSite, hs, h]⟩
  · exact ⟨.bc3, 16, true, rfl, fun s hs h => by simp [fetchSite, hs, h]⟩
  · exact ⟨.bc4, 8, true, rfl, fun s hs h => by simp [fetchSite, hs, h]⟩
  · exact ⟨.bc7, 16, false, rfl, fun s hs h => by simp [fetchSite, hs, h]⟩

theorem fetchSite_lzss {s : State} (hs : s.starting = false) (he : engineOf s.cmd.op = some .lzss) :
    fetchSite s = lzssSite s := by
  simp [fetchSite, hs, engineOf_lzss he]

theorem fetchSite_lzo {s : State} (hs : s.starting = false) (he : engineOf s.cmd.op = some .lzo) :
    fetchSite s = lzoSite s := by
  simp [fetchSite, hs, engineOf_lzo he]

theorem fetchSite_lz4 {s : State} (hs : s.starting = false) (he : engineOf s.cmd.op = some .lz4) :
    fetchSite s = lz4Site s := by
  simp [fetchSite, hs, engineOf_lz4 he]

theorem bcSite_engine {c : DecodeCtx} (hc : placeEngine c = some .bc) (n : Nat) (a : Bool) (s : State) :
    placeEngine (bcSite c n a s).1 = some .bc := by
  unfold bcSite
  dsimp only
  split
  · rfl
  · exact hc

theorem lzssTokenCtx_cases (f : BitVec 16) : lzssTokenCtx f = .lzssLit ∨ lzssTokenCtx f = .lzssRef := by
  unfold lzssTokenCtx
  split <;> simp

/-- An LZSS command reads its trailer once the output is complete, and else a flag byte or a token (R210, R212). -/
theorem lzssSite_place (s : State) :
    (s.cmd.expectedSize.toNat ≤ s.lzss.out.length ∧ (lzssSite s).1 = .lzssCsum) ∨
      (s.lzss.out.length < s.cmd.expectedSize.toNat ∧
        ((lzssSite s).1 = .lzssFlags ∨ (lzssSite s).1 = .lzssLit ∨ (lzssSite s).1 = .lzssRef)) := by
  unfold lzssSite
  dsimp only
  split
  · exact .inl ⟨by assumption, rfl⟩
  · refine .inr ⟨by omega, ?_⟩
    split
    · exact .inr (lzssTokenCtx_cases _)
    · split
      · exact .inl rfl
      · exact .inr (lzssTokenCtx_cases _)

theorem lzssSite_engine (s : State) : placeEngine (lzssSite s).1 = some .lzss := by
  obtain ⟨-, h⟩ | ⟨-, h | h | h⟩ := lzssSite_place s <;> rw [h] <;> rfl

theorem lzoSite_engine (s : State) : placeEngine (lzoSite s).1 = some .lzo := by
  unfold lzoSite
  split
  · rfl
  · split
    · rfl
    · split
      · rfl
      · split <;> rfl

theorem lz4Site_engine (s : State) : placeEngine (lz4Site s).1 = some .lz4 := by
  unfold lz4Site
  split <;> rfl

/-- A started command reads only in places of its own engine. -/
theorem fetchSite_engine {s : State} {e : Engine} (hs : s.starting = false) (he : engineOf s.cmd.op = some e) :
    placeEngine (fetchSite s).1 = some e := by
  cases e with
  | bc =>
    obtain ⟨c, n, a, hc, h⟩ := fetchSite_bc he
    rw [h s hs rfl]
    exact bcSite_engine hc n a s
  | lzss => rw [fetchSite_lzss hs he]; exact lzssSite_engine s
  | lzo => rw [fetchSite_lzo hs he]; exact lzoSite_engine s
  | lz4 => rw [fetchSite_lz4 hs he]; exact lz4Site_engine s

/-! ### What a step of a Busy engine runs -/

/-- A step of a Busy engine runs the row it decodes or takes the error of its bytes. -/
theorem step_busy_cases {s : State} (hb : s.status = .busy) :
    (∃ i, decode (fetchSite s).1 (fetchSite s).2 = .ok i ∧ step s = exec i s) ∨
      ∃ r, decode (fetchSite s).1 (fetchSite s).2 = .error r ∧
        step s = .next (raiseFail (rejectFailure s (fetchSite s).1 r) s) := by
  simp only [step, hb, fetch]
  cases hd : decode (fetchSite s).1 (fetchSite s).2 with
  | ok i => exact .inl ⟨i, rfl, rfl⟩
  | error r => exact .inr ⟨r, rfl, rfl⟩

theorem step_not_busy {s : State} (hb : s.status ≠ .busy) : step s = .next s := by
  unfold step
  cases h : s.status <;> simp_all

/-- The row with which an issued command starts is that of its code. -/
theorem decode_command {op : Byte} {i : Instr} (h : decode .command [op] = .ok i) : commandOf op = some i := by
  simp only [decode] at h
  split at h
  · rename_i hop
    rw [hop, Except.ok.inj h]
  · simp at h

end Sys2Proof.Machine
end

section
/-! PROOFS. What the turn of a row guarantees, and how the machine's invariant follows from it. -/

namespace Sys2Proof.Machine

/-! ### Postconditions of a turn -/

/-- `goesOn` holds of the registers when the command goes on, `returns` of registers and value when it returns. -/
def Turn.ensures {ρ : Type} (u : Turn ρ) (goesOn : ρ → Prop) (returns : ρ → OutputValue → Prop) : Prop :=
  match u with
  | .run r => goesOn r
  | .done r v => returns r v
  | .fail _ => True

section
variable {ρ : Type} {u : Turn ρ} {f : ρ → Turn ρ} {P P' : ρ → Prop} {Q Q' : ρ → OutputValue → Prop}

theorem Turn.ensures.imp (h : u.ensures P Q) (hP : ∀ r, P r → P' r) (hQ : ∀ r v, Q r v → Q' r v) :
    u.ensures P' Q' := by
  cases u with
  | run r => exact hP r h
  | done r v => exact hQ r v h
  | fail e => trivial

/-- Two parts of a row in sequence: the second starts from what the first ensures when it goes on. -/
theorem Turn.ensures.andThen (h : u.ensures P Q) (hf : ∀ r, P r → (f r).ensures P' Q) :
    (u.andThen f).ensures P' Q := by
  cases u with
  | run r => exact hf r h
  | done r v => exact h
  | fail e => trivial

end

/-! ### The invariant, split into what every engine keeps -/

/-- The clauses of the invariant on RING: canonical form and 4096 slots (10_state.md R32). -/
def ringOk (m : Memory) : Prop := Memory.wf ringFill m ∧ ∀ c ∈ m, c.1 < 4096

/-- The clauses of the invariant that hold in every state, running or not. -/
def storesOk (s : State) : Prop :=
  romOk s.rom ∧ Memory.wf outFill s.bc.out ∧ ringOk s.lzss.ring ∧ s.lz4.dict.length ≤ dictMax

theorem inv_iff (s : State) :
    Inv s ↔ storesOk s ∧ (s.starting = true → s.status = .busy) ∧ (s.status = .busy → s.starting = false → running s) := by
  simp only [Inv, storesOk, ringOk, and_assoc]

theorem ringOk_nil : ringOk [] := ⟨⟨List.Pairwise.nil, by simp⟩, by simp⟩

theorem outOk_nil : Memory.wf outFill [] := ⟨List.Pairwise.nil, by simp⟩

/-- A write through the 12-bit cursor keeps RING in order. -/
theorem ringOk_write {m : Memory} (h : ringOk m) (r : BitVec 12) (v : Byte) :
    ringOk (Memory.write ringFill m r.toNat v) := by
  refine ⟨Memory.write_wf h.1, fun c hc => ?_⟩
  obtain rfl | hc := Memory.mem_write hc
  · exact r.isLt
  · exact h.2 c hc

theorem storesOk_raiseFail {s : State} (h : storesOk s) (e : Failure) : storesOk (raiseFail e s) :=
  ⟨h.1, outOk_nil, ringOk_nil, Nat.zero_le _⟩

/-- An error ends the command in a state that meets the invariant. -/
theorem inv_raiseFail {s : State} (h : storesOk s) (e : Failure) : Inv (raiseFail e s) := by
  rw [inv_iff]
  exact ⟨storesOk_raiseFail h e, by simp, by simp⟩

/-! ### The kind and size of a result -/

/-- An output value of the kind the command returns, of its declared size (10_state.md R24). -/
def declaredResult (s : State) (v : OutputValue) : Prop :=
  match engineOf s.cmd.op with
  | some .bc => ∃ px, v = .pixelBuffer px ∧ px.length = s.cmd.width.toNat * s.cmd.height.toNat * 4
  | some .lzss => ∃ data n, v = .lzssData data n ∧ data.length = s.cmd.expectedSize.toNat
  | some .lzo => ∃ data, v = .decodedBytes data ∧ data.length = s.cmd.expectedSize.toNat
  | some .lz4 => ∃ data, v = .decodedBytes data ∧ data.length = s.lz4.target.toNat
  | none => False

/-- What a step of a Busy engine keeps: the invariant holds again, and a result has its declared size. -/
def stepKeeps (s t : State) : Prop :=
  Inv t ∧ (t.status = .done → ∃ v, t.result = .ok v ∧ declaredResult s v)

theorem stepKeeps_raiseFail {s : State} (h : storesOk s) (e : Failure) : stepKeeps s (raiseFail e s) :=
  ⟨inv_raiseFail h e, by simp⟩

/-- A turn of the engine `g` keeps the invariant when the registers it leaves are in order: stores always, and the
engine's clause as long as the command goes on. -/
theorem settle_stepKeeps {ρ : Type} {put : State → ρ → State} (hp : engineWrite put) {s t : State} {u : Turn ρ}
    {g : Engine} (hg : engineOf s.cmd.op = some g) (hb : s.status = .busy) (hs : s.starting = false)
    (hk : storesOk s)
    (hu : u.ensures (fun r => storesOk (put s r) ∧ g.runs (put s r))
      (fun r v => storesOk (put s r) ∧ declaredResult s v))
    (h : settle put s u = .next t) : stepKeeps s t := by
  obtain ⟨r, rfl, rfl⟩ | ⟨r, v, rfl, rfl⟩ | ⟨e, rfl, rfl⟩ := settle_cases h
  · obtain ⟨hstore, hrun⟩ := hu
    obtain ⟨⟨hcmd, -⟩, hstatus, -, hstarting⟩ := hp s r
    refine ⟨(inv_iff _).2 ⟨hstore, ?_, fun _ _ => (running_iff (hcmd ▸ hg)).2 hrun⟩, ?_⟩
    · simp [hstarting, hs]
    · simp [hstatus, hb]
  · obtain ⟨hstore, hres⟩ := hu
    exact ⟨(inv_iff _).2 ⟨hstore, by simp, by simp⟩, fun _ => ⟨v, rfl, hres⟩⟩
  · exact stepKeeps_raiseFail hk e

/-! ### One engine at a time -/

/-- BCn registers from which the command goes on. -/
def bcGoes (s : State) (r : BcRegs) : Prop := Memory.wf outFill r.out ∧ bcRunning (putBc s r)

/-- BCn registers and value with which the command returns. -/
def bcReturns (s : State) (r : BcRegs) (v : OutputValue) : Prop :=
  Memory.wf outFill r.out ∧ ∃ px, v = .pixelBuffer px ∧ px.length = s.cmd.width.toNat * s.cmd.height.toNat * 4

/-- LZSS registers from which the command goes on. -/
def lzssGoes (s : State) (r : LzssRegs) : Prop := ringOk r.ring ∧ r.out.length ≤ s.cmd.expectedSize.toNat

/-- LZSS registers and value with which the command returns. -/
def lzssReturns (s : State) (r : LzssRegs) (v : OutputValue) : Prop :=
  ringOk r.ring ∧ ∃ data n, v = .lzssData data n ∧ data.length = s.cmd.expectedSize.toNat

/-- LZO1X registers from which the command goes on. -/
def lzoGoes (s : State) (r : LzoRegs) : Prop := lzoRunning (putLzo s r)

/-- The value that an LZO1X command returns. -/
def lzoReturns (s : State) (_ : LzoRegs) (v : OutputValue) : Prop :=
  ∃ data, v = .decodedBytes data ∧ data.length = s.cmd.expectedSize.toNat

/-- LZ4 chain registers from which the command goes on. -/
def lz4Goes (s : State) (r : Lz4Regs) : Prop := r.dict.length ≤ dictMax ∧ lz4Running (putLz4 s r)

/-- LZ4 chain registers and value with which the command returns. -/
def lz4Returns (s : State) (r : Lz4Regs) (v : OutputValue) : Prop :=
  r.dict.length ≤ dictMax ∧ ∃ data, v = .decodedBytes data ∧ data.length = s.lz4.target.toNat

section
variable {s t : State} (hb : s.status = .busy) (hs : s.starting = false) (hk : storesOk s)
include hb hs hk

theorem settle_bc_stepKeeps {u : Turn BcRegs} (he : engineOf s.cmd.op = some .bc)
    (h : settle putBc s u = .next t) (hu : u.ensures (bcGoes s) (bcReturns s)) : stepKeeps s t := by
  have ⟨hrom, _, hring, hdict⟩ := hk
  refine settle_stepKeeps putBc_engineWrite he hb hs hk (hu.imp ?_ ?_) h
  · exact fun r ⟨hout, hrun⟩ => ⟨⟨hrom, hout, hring, hdict⟩, hrun⟩
  · exact fun r v ⟨hout, hv⟩ => ⟨⟨hrom, hout, hring, hdict⟩, by simpa only [declaredResult, he] using hv⟩

theorem settle_lzss_stepKeeps {u : Turn LzssRegs} (he : engineOf s.cmd.op = some .lzss)
    (h : settle putLzss s u = .next t) (hu : u.ensures (lzssGoes s) (lzssReturns s)) : stepKeeps s t := by
  have ⟨hrom, hout, _, hdict⟩ := hk
  refine settle_stepKeeps putLzss_engineWrite he hb hs hk (hu.imp ?_ ?_) h
  · exact fun r ⟨hring, hrun⟩ => ⟨⟨hrom, hout, hring, hdict⟩, hrun⟩
  · exact fun r v ⟨hring, hv⟩ => ⟨⟨hrom, hout, hring, hdict⟩, by simpa only [declaredResult, he] using hv⟩

theorem settle_lzo_stepKeeps {u : Turn LzoRegs} (he : engineOf s.cmd.op = some .lzo)
    (h : settle putLzo s u = .next t) (hu : u.ensures (lzoGoes s) (lzoReturns s)) : stepKeeps s t :=
  settle_stepKeeps putLzo_engineWrite he hb hs hk
    (hu.imp (fun _ hr => ⟨hk, hr⟩) fun _ _ hv => ⟨hk, by simpa only [declaredResult, he, lzoReturns] using hv⟩) h

theorem settle_lz4_stepKeeps {u : Turn Lz4Regs} (he : engineOf s.cmd.op = some .lz4)
    (h : settle putLz4 s u = .next t) (hu : u.ensures (lz4Goes s) (lz4Returns s)) : stepKeeps s t := by
  have ⟨hrom, hout, hring, _⟩ := hk
  refine settle_stepKeeps putLz4_engineWrite he hb hs hk (hu.imp ?_ ?_) h
  · exact fun r ⟨hdict, hrun⟩ => ⟨⟨hrom, hout, hring, hdict⟩, hrun⟩
  · exact fun r v ⟨hdict, hv⟩ => ⟨⟨hrom, hout, hring, hdict⟩, by simpa only [declaredResult, he] using hv⟩

end

end Sys2Proof.Machine
end

section
/-! PROOFS. The rows of each engine: the first row of a command leaves its engine's registers in order, every later row keeps
them so, and the row that ends the command returns its declared size. -/

namespace Sys2Proof.Machine

/-! ### The starting row -/

/-- What the row of an issued command does: its engine's first turn, which depends on the command record alone, or the
error Unimplemented of BC5 and BC6 (R166). -/
theorem exec_command {c : CmdRecord} {i : Instr} (h : commandOf c.op = some i) :
    (engineOf c.op = some .bc ∧ ∃ u, (u = bcStart (blockBytes c.op) c ∨ ∃ e, u = .fail e) ∧
      ∀ s : State, s.cmd = c → exec i s = settle putBc (startCommand s) u) ∨
    (engineOf c.op = some .lzss ∧
      ∀ s : State, s.cmd = c → exec i s = settle putLzss (startCommand s) (.run (lzssInit c))) ∨
    (engineOf c.op = some .lzo ∧
      ∀ s : State, s.cmd = c → exec i s = settle putLzo (startCommand s) (.run (lzoInit c.input))) ∨
    (engineOf c.op = some .lz4 ∧
      ∀ s : State, s.cmd = c → exec i s = settle putLz4 (startCommand s) (.run Lz4Regs.reset)) ∨
    ∃ e, ∀ s : State, exec i s = .next (raiseFail e s) := by
  unfold commandOf at h
  split at h
  case h_1 hop | h_2 hop | h_3 hop | h_7 hop =>
    obtain rfl := Option.some.inj h
    refine .inl ⟨by simp [engineOf, hop], _, .inl rfl, ?_⟩
    rintro s rfl
    simp only [blockBytes, ← BitVec.toNat_inj, hop]
    rfl
  case h_4 hop =>
    obtain rfl := Option.some.inj h
    refine .inl ⟨by simp [engineOf, hop],
      if 3 < c.channel.toNat then .fail ⟨.badParameter, 0⟩ else bcStart (blockBytes c.op) c, ?_, ?_⟩
    · split
      · exact .inr ⟨_, rfl⟩
      · exact .inl rfl
    · rintro s rfl
      simp only [blockBytes, ← BitVec.toNat_inj, hop]
      rfl
  case h_5 | h_6 =>
    obtain rfl := Option.some.inj h
    exact .inr (.inr (.inr (.inr ⟨_, fun _ => rfl⟩)))
  case h_8 hop =>
    obtain rfl := Option.some.inj h
    exact .inr (.inl ⟨by simp [engineOf, hop], by rintro s rfl; rfl⟩)
  case h_9 hop =>
    obtain rfl := Option.some.inj h
    exact .inr (.inr (.inl ⟨by simp [engineOf, hop], by rintro s rfl; rfl⟩))
  case h_10 hop =>
    obtain rfl := Option.some.inj h
    exact .inr (.inr (.inr (.inl ⟨by simp [engineOf, hop], fun _ _ => rfl⟩)))
  case h_11 => simp at h

/-! ### BCn -/

/-- The row of a block writes BLK and the working registers and emits the block's pixels; the row of an alpha block goes on
without writing OUT. -/
theorem exec_bcRow {i : Instr} (hi : rowEngine i = some .bc) (s : State) :
    ∃ blk w, (∃ pix, exec i s = settle putBc s (bcEmit s.cmd { s.bc with blk := blk, work := w } pix)) ∨
      exec i s = settle putBc s (.run { s.bc with blk := blk, work := w, palette := true }) := by
  cases i
  case alphaInterp8 | alphaInterp6 => exact ⟨_, _, .inr rfl⟩
  case bc1Block4 | bc1Block3 | bc2Block | bc3Block | bc4Block | bc7Mode0 | bc7Mode1 | bc7Mode2 | bc7Mode3 | bc7Mode4 |
      bc7Mode5 | bc7Mode6 | bc7Mode7 | bc7Reserved => exact ⟨_, _, .inl ⟨_, rfl⟩⟩
  case lzoM3 | lzoM4 | lzoEof => simp at hi
  all_goals simp [rowEngine, homeCtx, placeEngine] at hi

@[simp] theorem outBytes_length (m : Memory) (n : Nat) : (outBytes m n).length = n := by
  simp [outBytes]

/-- An image has at most 2^60 blocks. -/
theorem blocks_le (w h : BitVec 32) : blocksAlong w * blocksAlong h ≤ 2 ^ 60 :=
  (Nat.mul_le_mul (blocksAlong_le w) (blocksAlong_le h)).trans (by norm_num)

/-- One block of the walk keeps the walk inside its grid, or returns an OUT of the image's size (R130). -/
theorem bcEmit_ensures {s : State} {r : BcRegs} (hout : Memory.wf outFill r.out) (hrun : bcRunning (putBc s r))
    (pix : List Pixel) : (bcEmit s.cmd r pix).ensures (bcGoes s) (bcReturns s) := by
  obtain ⟨hbw, hbh, -, hin⟩ := hrun
  have hgrid : gridBlocks s.cmd r = blocksAlong s.cmd.width * blocksAlong s.cmd.height := by
    simp only [putBc_bc, putBc_cmd] at hbw hbh
    simp only [gridBlocks, hbw, hbh, blockCount_ofNat]
  have hk := blocks_le s.cmd.width s.cmd.height
  obtain ⟨hlt, he⟩ | ⟨-, he⟩ := bcEmit_cases s.cmd r pix <;> rw [he]
  · have hnext : (r.k + 1).toNat = r.k.toNat + 1 := by
      rw [BitVec.toNat_add]
      exact Nat.mod_eq_of_lt (by simp; omega)
    refine ⟨Memory.writeAll_wf hout, hbw, hbh, ?_, hin⟩
    simpa only [putBc_bc, putBc_cmd, hnext, ← hgrid] using hlt
  · exact ⟨Memory.writeAll_wf hout, _, rfl, outBytes_length _ _⟩

/-- A BCn command begins at block 0 of its grid, or returns the empty image (R130). -/
theorem bcStart_ensures (s : State) :
    (bcStart (blockBytes s.cmd.op) s.cmd).ensures (bcGoes s) (bcReturns s) := by
  obtain ⟨-, h⟩ | ⟨-, -, h⟩ | ⟨hin, h0, h⟩ := bcStart_cases (blockBytes s.cmd.op) s.cmd <;> rw [h]
  · trivial
  · exact ⟨outOk_nil, _, rfl, outBytes_length _ _⟩
  · exact ⟨outOk_nil, rfl, rfl, Nat.pos_of_ne_zero h0, hin⟩

/-- The rows of a BCn command keep its walk inside the grid. -/
theorem exec_bc_stepKeeps {s t : State} {i : Instr} (hb : s.status = .busy) (hs : s.starting = false)
    (hk : storesOk s) (he : engineOf s.cmd.op = some .bc) (hrun : bcRunning s) (hi : rowEngine i = some .bc)
    (h : exec i s = .next t) : stepKeeps s t := by
  have hout : Memory.wf outFill s.bc.out := hk.2.1
  obtain ⟨blk, w, ⟨pix, hx⟩ | hx⟩ := exec_bcRow hi s <;> rw [hx] at h
  · exact settle_bc_stepKeeps hb hs hk he h (bcEmit_ensures (r := { s.bc with blk := blk, work := w }) hout hrun pix)
  · exact settle_bc_stepKeeps hb hs hk he h ⟨hout, hrun⟩

/-! ### LZSS -/

theorem ringOk_lzssEmit {e : LzssRegs} (h : ringOk e.ring) (g : Bool) (c : Byte) : ringOk (lzssEmit g e c).ring :=
  ringOk_write h e.r c

theorem ringOk_lzssCopy {e : LzssRegs} (h : ringOk e.ring) (g : Bool) (off : BitVec 12) (n : Nat) :
    ringOk (lzssCopy g off n e).ring := by
  induction n generalizing e with
  | zero => exact h
  | succ n ih => exact ih (ringOk_lzssEmit h g _)

theorem lzssInit_goes (s : State) : lzssGoes s (lzssInit s.cmd) := ⟨ringOk_nil, Nat.zero_le _⟩

theorem exec_lzssFlags (kinds : BitVec 8) (s : State) :
    exec (.lzssFlags kinds) s =
      settle putLzss s (.run { s.lzss with flags := flagsRefill kinds, fresh := true, ip := s.lzss.ip + 1 }) := rfl

theorem exec_lzssLit (v : BitVec 8) (s : State) :
    exec (.lzssLit v) s = settle putLzss s (.run (lzssEmit s.cmd.signedChecksum (lzssTake s.lzss 1) v)) := rfl

/-- The rows of an LZSS command never produce more than was asked for, and its trailer ends it with exactly that. -/
theorem exec_lzss_stepKeeps {s t : State} {i : Instr} (hb : s.status = .busy) (hs : s.starting = false)
    (hk : storesOk s) (he : engineOf s.cmd.op = some .lzss) (hrun : lzssRunning s)
    (hi : decode (lzssSite s).1 (lzssSite s).2 = .ok i) (h : exec i s = .next t) : stepKeeps s t := by
  have hring : ringOk s.lzss.ring := hk.2.2.1
  have hengine : rowEngine i = some .lzss := (rowEngine_of_decode hi).trans (lzssSite_engine s)
  have hhome : homeCtx i = (lzssSite s).1 := homeCtx_of_decode hi (by simp [lzssSite_engine])
  have hplace := lzssSite_place s
  rw [← hhome] at hplace
  cases i
  case lzssFlags kinds =>
    rw [exec_lzssFlags] at h
    exact settle_lzss_stepKeeps hb hs hk he h ⟨hring, hrun⟩
  case lzssLit v =>
    have hmore : s.lzss.out.length < s.cmd.expectedSize.toNat := by simpa [homeCtx] using hplace
    rw [exec_lzssLit] at h
    refine settle_lzss_stepKeeps hb hs hk he h ⟨ringOk_lzssEmit (e := lzssTake s.lzss 1) hring _ _, ?_⟩
    simpa [lzssTake] using hmore
  case lzssRef off l =>
    refine settle_lzss_stepKeeps hb hs hk he h ?_
    split
    · trivial
    · rename_i hfits
      refine ⟨ringOk_lzssCopy (e := lzssTake s.lzss 2) hring _ _ _, ?_⟩
      rw [(lzssCopy_frame _ _ _ _).1]
      exact Nat.le_of_not_lt hfits
  case lzssCsum stored =>
    have hfull : s.cmd.expectedSize.toNat ≤ s.lzss.out.length := by simpa [homeCtx] using hplace
    refine settle_lzss_stepKeeps hb hs hk he h ?_
    split
    · trivial
    · exact ⟨hring, _, _, rfl, Nat.le_antisymm hrun hfull⟩
  case lzoM3 | lzoM4 | lzoEof => simp at hengine
  all_goals simp [rowEngine, homeCtx, placeEngine] at hengine

/-! ### LZ4 chain -/

/-- Registers inside a chunk: the cursor inside the chunk, the chunk inside IN (R283, R287), DICT bounded (R288). -/
def lz4InChunk (s : State) (e : Lz4Regs) : Prop :=
  e.dict.length ≤ dictMax ∧ e.target = s.lz4.target ∧ e.ip ≤ e.chunkEnd ∧ e.chunkEnd ≤ s.cmd.input.length

/-- The end of a chunk (R280): TOTAL takes CH, DICT takes at most 65536 bytes (R288). -/
theorem lz4EndChunk_eq (declared : Nat) (e : Lz4Regs) :
    ∃ dict : List Byte, dict.length ≤ dictMax ∧
      lz4EndChunk declared e =
        if isLast e.last then
          lz4Finish declared { e with total := e.total ++ e.ch, dict := dict, ch := [], phase := .chunk }
        else .run { e with total := e.total ++ e.ch, dict := dict, ch := [], phase := .chunk } := by
  refine ⟨dictUpdate e.dict e.ch, ?_, rfl⟩
  rw [dictUpdate_length]
  exact Nat.min_le_left _ _

section
variable {s : State} {e : Lz4Regs}

/-- A chunk's end leads to the next header, or returns an output of the size of the block header (R289). -/
theorem lz4EndChunk_ensures (declared : Nat) (h : lz4InChunk s e) :
    (lz4EndChunk declared e).ensures (lz4Goes s) (lz4Returns s) := by
  obtain ⟨-, htarget, hip, hend⟩ := h
  obtain ⟨dict, hdict, hend'⟩ := lz4EndChunk_eq declared e
  rw [hend']
  split
  · obtain ⟨-, hf⟩ | ⟨-, -, hf⟩ | ⟨-, hsize, hf⟩ := lz4Finish_cases declared
      { e with total := e.total ++ e.ch, dict := dict, ch := [], phase := .chunk } <;> rw [hf]
    · trivial
    · trivial
    · exact ⟨hdict, _, rfl, htarget ▸ hsize⟩
  · exact ⟨hdict, hip.trans hend, trivial⟩

theorem lz4Boundary_ensures (declared : Nat) (h : lz4InChunk s e) :
    (lz4Boundary declared e).ensures (lz4Goes s) (lz4Returns s) := by
  obtain ⟨hlt, he⟩ | ⟨-, he⟩ := lz4Boundary_cases declared e <;> rw [he]
  · obtain ⟨hdict, -, hip, hend⟩ := h
    exact ⟨hdict, hip.trans hend, hlt, hend⟩
  · exact lz4EndChunk_ensures declared h

/-- `CheckOutput()` passes the registers on as they are. -/
theorem lz4Check_ensures {Q : Lz4Regs → OutputValue → Prop} (p : Params) (h : lz4InChunk s e) :
    (lz4Check p e).ensures (lz4InChunk s) Q := by
  obtain ⟨-, hc⟩ | ⟨-, hc⟩ := lz4Check_cases p e <;> rw [hc]
  · exact h
  · trivial

theorem lz4Match_ensures (p : Params) (declared o n : Nat) (h : lz4InChunk s e) :
    (lz4Match p declared o n e).ensures (lz4Goes s) (lz4Returns s) := by
  unfold lz4Match
  split
  · trivial
  · exact (lz4Check_ensures p (e := { e with ch := copyDict e.dict o n e.ch }) h).andThen
      fun _ => lz4Boundary_ensures declared

theorem lz4Offset_ensures (p : Params) (declared : Nat) (h : lz4InChunk s e) :
    (lz4Offset p s.cmd.input declared e).ensures (lz4Goes s) (lz4Returns s) := by
  obtain ⟨hdict, htarget, -, hend⟩ := h
  unfold lz4Offset
  split
  · trivial
  · rename_i hroom
    have hip : e.ip + 2 ≤ e.chunkEnd := Nat.le_of_not_lt hroom
    dsimp only
    split
    · exact ⟨hdict, hip.trans hend, hip, hend⟩
    · exact lz4Match_ensures p declared _ _ ⟨hdict, htarget, hip, hend⟩

theorem lz4Literals_ensures (p : Params) (declared n : Nat) (h : lz4InChunk s e) :
    (lz4Literals p s.cmd.input declared n e).ensures (lz4Goes s) (lz4Returns s) := by
  obtain ⟨hdict, htarget, -, hend⟩ := h
  unfold lz4Literals
  split
  · trivial
  · rename_i hroom
    have hin : lz4InChunk s { e with ch := e.ch ++ inSlice s.cmd.input e.ip n, ip := e.ip + n } :=
      ⟨hdict, htarget, Nat.le_of_not_lt hroom, hend⟩
    refine (lz4Check_ensures p hin).andThen fun e' he' => ?_
    split
    · exact lz4EndChunk_ensures declared he'
    · exact lz4Offset_ensures p declared he'

theorem lz4Bounds_ensures (p : Params) (declared size : Nat) (hdict : e.dict.length ≤ dictMax)
    (htarget : e.target = s.lz4.target) :
    (lz4Bounds p s.cmd.input declared size e).ensures (lz4Goes s) (lz4Returns s) := by
  unfold lz4Bounds
  split
  · trivial
  · rename_i hroom
    split
    · trivial
    · exact lz4Boundary_ensures declared ⟨hdict, htarget, Nat.le_add_right _ _, Nat.le_of_not_lt hroom⟩

end

/-- What a row of a running LZ4 chain command has read: a header inside IN, a token or an extension inside its chunk. -/
theorem lz4_row_read {s : State} {i : Instr} (hrun : lz4Running s) (hi : decode (lz4Site s).1 (lz4Site s).2 = .ok i) :
    ((s.lz4.phase = .target ∧ homeCtx i = .lz4Target ∨ s.lz4.phase = .chunk ∧ homeCtx i = .lz4Chunk) ∧
      s.lz4.ip + (encode i).length ≤ s.cmd.input.length) ∨
    ((s.lz4.phase = .seq ∧ homeCtx i = .lz4Seq ∨
        (s.lz4.phase = .litLen ∨ s.lz4.phase = .matchLen) ∧ homeCtx i = .lz4Ext) ∧
      s.lz4.ip + (encode i).length ≤ s.lz4.chunkEnd ∧ s.lz4.chunkEnd ≤ s.cmd.input.length) := by
  have hhome : homeCtx i = (lz4Site s).1 := homeCtx_of_decode hi (by simp [lz4Site_engine])
  have hlen := (decode_liesIn hi).2
  obtain ⟨hip, hphase⟩ := hrun
  cases hp : s.lz4.phase <;> simp only [lz4Site, hp, inSlice, List.length_take, List.length_drop] at hhome hlen hphase <;>
    simp [hhome] <;> omega

theorem exec_lz4Target (target : BitVec 32) (s : State) :
    exec (.lz4Target target) s =
      settle putLz4 s (.run { s.lz4 with target := target, ip := s.lz4.ip + 4, phase := .chunk }) := rfl

/-- The rows of an LZ4 chain command keep the cursor inside the chunk and IN, and end it with the size of its header. -/
theorem exec_lz4_stepKeeps {s t : State} {i : Instr} (hb : s.status = .busy) (hs : s.starting = false)
    (hk : storesOk s) (he : engineOf s.cmd.op = some .lz4) (hrun : lz4Running s)
    (hi : decode (lz4Site s).1 (lz4Site s).2 = .ok i) (h : exec i s = .next t) : stepKeeps s t := by
  have hdict : s.lz4.dict.length ≤ dictMax := hk.2.2.2
  have hengine : rowEngine i = some .lz4 := (rowEngine_of_decode hi).trans (lz4Site_engine s)
  have hread := lz4_row_read hrun hi
  cases i
  case lz4Target target =>
    have hin : s.lz4.ip + 4 ≤ s.cmd.input.length := by simp_all [homeCtx, encode]
    rw [exec_lz4Target] at h
    exact settle_lz4_stepKeeps hb hs hk he h ⟨hdict, hin, trivial⟩
  case lz4Chunk size last => exact settle_lz4_stepKeeps hb hs hk he h (lz4Bounds_ensures _ _ _ hdict rfl)
  case lz4Seq ll ml =>
    have hin : s.lz4.phase = .seq ∧ s.lz4.ip + 1 ≤ s.lz4.chunkEnd ∧ s.lz4.chunkEnd ≤ s.cmd.input.length := by
      simpa [homeCtx, encode] using hread
    obtain ⟨-, hin⟩ := hin
    refine settle_lz4_stepKeeps hb hs hk he h ?_
    split
    · exact ⟨hdict, hin.1.trans hin.2, hin⟩
    · exact lz4Literals_ensures _ _ _ ⟨hdict, rfl, hin⟩
  case lz4Ext ffs v =>
    have hin : (s.lz4.phase = .litLen ∨ s.lz4.phase = .matchLen) ∧
        s.lz4.ip + (ffs + 1) ≤ s.lz4.chunkEnd ∧ s.lz4.chunkEnd ≤ s.cmd.input.length := by
      simpa [homeCtx, encode] using hread
    obtain ⟨hphase, hin⟩ := hin
    refine settle_lz4_stepKeeps hb hs hk he h ?_
    obtain hp | hp := hphase <;> rw [hp]
    · exact lz4Literals_ensures _ _ _ ⟨hdict, rfl, hin⟩
    · exact lz4Match_ensures _ _ _ _ ⟨hdict, rfl, hin⟩
  case lzoM3 | lzoM4 | lzoEof => simp at hengine
  all_goals simp [rowEngine, homeCtx, placeEngine] at hengine

/-! ### LZO1X -/

/-- Registers between two parts of a token: the cursor inside IN and no length extension waiting. -/
def lzoBetween (s : State) (e : LzoRegs) : Prop := e.ip ≤ s.cmd.input.length ∧ e.ext = none

section
variable {s : State} {e : LzoRegs} {Q : LzoRegs → OutputValue → Prop}

/-- After a token the command waits for the next one, in any state but Eof. -/
theorem lzoBetween.goes (h : lzoBetween s e) {st : LzoSt} (hst : st ≠ .eof) : lzoGoes s { e with st := st } :=
  ⟨hst, h.1, by simp [h.2]⟩

/-- `CheckOutput()` passes the registers on as they are. -/
theorem lzoCheck_ensures (p : Params) (h : lzoBetween s e) : (lzoCheck p e).ensures (lzoBetween s) Q := by
  obtain ⟨-, hc⟩ | ⟨-, hc⟩ := lzoCheck_cases p e <;> rw [hc]
  · exact h
  · trivial

theorem lzoLiterals_ensures (p : Params) (n : Nat) (h : e.ext = none) :
    (lzoLiterals p s.cmd.input n e).ensures (lzoBetween s) Q := by
  unfold lzoLiterals
  split
  · trivial
  · rename_i hroom
    exact lzoCheck_ensures p ⟨Nat.le_of_not_lt hroom, h⟩

/-- A literal run leads to the next token (R244, R245). -/
theorem lzoRun_ensures (p : Params) (n : Nat) {st : LzoSt} (h : e.ext = none) (hst : st ≠ .eof) :
    ((lzoLiterals p s.cmd.input n e).andThen fun e' => .run { e' with st := st }).ensures (lzoGoes s) Q :=
  (lzoLiterals_ensures p n h).andThen fun _ he => he.goes hst

theorem lzoMatch_ensures (p : Params) (d n tok : Nat) (h : lzoBetween s e) :
    (lzoMatch p d n tok e).ensures (lzoBetween s) Q := by
  unfold lzoMatch
  split
  · trivial
  · exact lzoCheck_ensures p h

theorem lzoTrailing_ensures (p : Params) (k : Nat) (h : lzoBetween s e) :
    (lzoTrailing p s.cmd.input k e).ensures (lzoGoes s) Q := by
  unfold lzoTrailing
  dsimp only
  split
  · exact lzoBetween.goes (e := { e with t := BitVec.ofNat 32 k }) h (by simp)
  · exact lzoRun_ensures p k h.2 (by simp)

/-- A match token leads to the next token (R246–R250, R252). -/
theorem lzoMatchToken_ensures (p : Params) (d n tok k : Nat) (h : lzoBetween s e) :
    (lzoMatchToken p s.cmd.input d n tok k e).ensures (lzoGoes s) Q :=
  (lzoMatch_ensures p d n tok h).andThen fun _ => lzoTrailing_ensures p k

/-- The end marker returns an output of the expected size, or fails (R255). -/
theorem lzoFinish_ensures (P : LzoRegs → Prop) (p : Params) :
    (lzoFinish p s.cmd.input s.cmd.expectedSize.toNat e).ensures P (lzoReturns s) := by
  unfold lzoFinish
  split
  · trivial
  · rename_i hsize
    split
    · trivial
    · exact ⟨_, rfl, not_not.1 hsize⟩

end

/-- What a row of a running LZO1X command has read: the rest of a token after its length extension, the first literal run,
a length extension after a control byte that calls for one, or a whole token. -/
theorem lzo_row_read {s : State} {i : Instr} (hrun : lzoRunning s) (hi : decode (lzoSite s).1 (lzoSite s).2 = .ok i) :
    (homeCtx i = .lzoBody ∧ s.lzo.ip + (encode i).length ≤ s.cmd.input.length + 1) ∨
    (homeCtx i = .lzoFirst ∧ s.lzo.ext = none) ∨
    (homeCtx i = .lzoExt ∧ ∃ t rest, s.cmd.input.drop s.lzo.ip = t :: rest ∧
      lzoNeedsExt (lzoReadSt s.lzo.st) t = true ∧ (encode i).length ≤ rest.length) ∨
    ((∃ st, homeCtx i = .lzoToken st) ∧ s.lzo.ip + (encode i).length ≤ s.cmd.input.length) := by
  obtain ⟨-, hip, hext⟩ := hrun
  have hdrop := List.length_drop (i := s.lzo.ip) (l := s.cmd.input)
  have hlies := decode_liesIn hi
  unfold lzoSite at hlies
  split at hlies
  · have hlen := hlies.2
    rw [List.length_cons, hdrop] at hlen
    exact .inl ⟨hlies.home (by simp), by omega⟩
  · rename_i hbody
    have hnone : s.lzo.ext = none := by
      simp only [Bool.and_eq_true, not_and] at hbody
      exact Option.not_isSome_iff_eq_none.1 fun h => hbody h (hext h)
    split at hlies
    · rename_i hnil
      have hlen := hlies.2
      rw [hnil] at hdrop
      exact .inr (.inr (.inr ⟨hlies.token, by simp only [List.length_nil] at hlen hdrop; omega⟩))
    · rename_i t rest hcons
      rw [hcons] at hdrop
      split at hlies
      · exact .inr (.inl ⟨hlies.home (by simp), hnone⟩)
      · split at hlies
        · rename_i hneeds
          exact .inr (.inr (.inl ⟨hlies.home (by simp), t, rest, hcons, hneeds, hlies.2⟩))
        · have hlen : (encode i).length ≤ (t :: rest).length := hlies.2
          exact .inr (.inr (.inr ⟨hlies.token, by omega⟩))

/-- The rows of an LZO1X command keep the cursor inside IN, and its end marker ends it with the expected size. -/
theorem exec_lzo_stepKeeps {s t : State} {i : Instr} (hb : s.status = .busy) (hs : s.starting = false)
    (hk : storesOk s) (he : engineOf s.cmd.op = some .lzo) (hrun : lzoRunning s)
    (hi : decode (lzoSite s).1 (lzoSite s).2 = .ok i) (h : exec i s = .next t) : stepKeeps s t := by
  have hengine : rowEngine i = some .lzo := (rowEngine_of_decode hi).trans (lzoSite_engine s)
  have hread := lzo_row_read hrun hi
  cases i
  case lzoFirstLit b =>
    have hnone : s.lzo.ext = none := by simpa [homeCtx] using hread
    exact settle_lzo_stepKeeps hb hs hk he h (lzoRun_ensures _ _ hnone (by split <;> simp))
  case lzoLitExt | lzoLit => exact settle_lzo_stepKeeps hb hs hk he h (lzoRun_ensures _ _ rfl (by simp))
  case lzoM1Far | lzoM1Near | lzoM2 =>
    have hin : s.lzo.ip + 2 ≤ s.cmd.input.length := by simpa [homeCtx, encode] using hread
    exact settle_lzo_stepKeeps hb hs hk he h (lzoMatchToken_ensures _ _ _ _ _ ⟨hin, rfl⟩)
  case lzoM3 l w =>
    refine settle_lzo_stepKeeps hb hs hk he h (lzoMatchToken_ensures _ _ _ _ _ ⟨?_, rfl⟩)
    by_cases hl : l = 0 <;> simp_all [homeCtx, encode, lzoTake]
  case lzoM4 q l w =>
    refine settle_lzo_stepKeeps hb hs hk he h (lzoMatchToken_ensures _ _ _ _ _ ⟨?_, rfl⟩)
    by_cases hl : l = 0 <;> simp_all [homeCtx, encode, lzoTake]
  case lzoEof => exact settle_lzo_stepKeeps hb hs hk he h (lzoFinish_ensures _ _)
  case lzoExt zeros v =>
    obtain ⟨c, rest, hcons, hneeds, hlen⟩ : ∃ c rest, s.cmd.input.drop s.lzo.ip = c :: rest ∧
        lzoNeedsExt (lzoReadSt s.lzo.st) c = true ∧ zeros + 1 ≤ rest.length := by
      simpa [homeCtx, encode] using hread
    have hdrop := List.length_drop (i := s.lzo.ip) (l := s.cmd.input)
    rw [hcons, List.length_cons] at hdrop
    refine settle_lzo_stepKeeps hb hs hk he h ?_
    obtain ⟨-, hm⟩ | ⟨-, hm⟩ := memRead_cases s.cmd.input s.lzo.ip 1 <;> rw [hm]
    · trivial
    · refine ⟨hrun.1, ?_, fun _ => ?_⟩
      · simp only [putLzo_lzo, putLzo_cmd]
        omega
      · simpa [hcons] using hneeds
  all_goals simp [rowEngine, homeCtx, placeEngine] at hengine

theorem lzoInit_goes (s : State) : lzoGoes s (lzoInit s.cmd.input) := by
  unfold lzoInit
  split
  · split <;> exact ⟨by simp [LzoRegs.reset], Nat.zero_le _, by simp [LzoRegs.reset]⟩
  · exact ⟨by simp [LzoRegs.reset], Nat.zero_le _, by simp [LzoRegs.reset]⟩

end Sys2Proof.Machine
end

section
/-! PROOFS. Every step and every move of the host keeps the invariant, a result has its declared size, and no step writes
what the host owns. -/

namespace Sys2Proof.Machine

/-- The first step of an issued command leaves its engine running in order, or the command has ended. -/
theorem start_stepKeeps {s t : State} (hb : s.status = .busy) (hs : s.starting = true) (hk : storesOk s)
    (h : step s = .next t) : stepKeeps s t := by
  obtain ⟨i, hd, hx⟩ | ⟨r, -, hx⟩ := step_busy_cases hb <;> rw [hx] at h
  · rw [fetchSite_starting hs] at hd
    have hk' : storesOk (startCommand s) := hk
    obtain ⟨he, u, hu, hexec⟩ | ⟨he, hexec⟩ | ⟨he, hexec⟩ | ⟨he, hexec⟩ | ⟨e, hexec⟩ := exec_command (decode_command hd)
    · rw [hexec s rfl] at h
      refine settle_bc_stepKeeps (s := startCommand s) rfl rfl hk' he h ?_
      obtain rfl | ⟨e, rfl⟩ := hu
      · exact bcStart_ensures (startCommand s)
      · trivial
    · rw [hexec s rfl] at h
      exact settle_lzss_stepKeeps (s := startCommand s) rfl rfl hk' he h (lzssInit_goes s)
    · rw [hexec s rfl] at h
      exact settle_lzo_stepKeeps (s := startCommand s) rfl rfl hk' he h (lzoInit_goes s)
    · rw [hexec s rfl] at h
      exact settle_lz4_stepKeeps (s := startCommand s) rfl rfl hk' he h
        ⟨Nat.zero_le _, Nat.zero_le _, trivial⟩
    · rw [hexec s] at h
      obtain rfl := Host.Outcome.next.inj h
      exact stepKeeps_raiseFail hk e
  · obtain rfl := Host.Outcome.next.inj h
    exact stepKeeps_raiseFail hk _

/-- A step of a started command keeps its engine's clause of the invariant. -/
theorem running_stepKeeps {s t : State} (hb : s.status = .busy) (hs : s.starting = false) (hk : storesOk s)
    (hrun : running s) (h : step s = .next t) : stepKeeps s t := by
  obtain ⟨e, he⟩ := engineOf_of_running hrun
  rw [running_iff he] at hrun
  obtain ⟨i, hd, hx⟩ | ⟨r, -, hx⟩ := step_busy_cases hb <;> rw [hx] at h
  · cases e with
    | bc =>
      have hi : rowEngine i = some .bc := (rowEngine_of_decode hd).trans (fetchSite_engine hs he)
      exact exec_bc_stepKeeps hb hs hk he hrun hi h
    | lzss => exact exec_lzss_stepKeeps hb hs hk he hrun (fetchSite_lzss hs he ▸ hd) h
    | lzo => exact exec_lzo_stepKeeps hb hs hk he hrun (fetchSite_lzo hs he ▸ hd) h
    | lz4 => exact exec_lz4_stepKeeps hb hs hk he hrun (fetchSite_lz4 hs he ▸ hd) h
  · obtain rfl := Host.Outcome.next.inj h
    exact stepKeeps_raiseFail hk _

/-- A step of a Busy engine keeps the invariant, and a result has its declared kind and size. -/
theorem busy_stepKeeps {s t : State} (hinv : Inv s) (hb : s.status = .busy) (h : step s = .next t) : stepKeeps s t := by
  obtain ⟨hk, -, hrun⟩ := (inv_iff s).1 hinv
  cases hs : s.starting with
  | true => exact start_stepKeeps hb hs hk h
  | false => exact running_stepKeeps hb hs hk (hrun hb hs) h

theorem step_keeps_inv {s t : State} (hinv : Inv s) (h : step s = .next t) : Inv t := by
  by_cases hb : s.status = .busy
  · exact (busy_stepKeeps hinv hb h).1
  · rw [step_not_busy hb] at h
    obtain rfl := Host.Outcome.next.inj h
    exact hinv

/-- Issuing a command keeps the invariant: the engine waits to start it. -/
theorem hostIssue_keeps_inv {s t : State} {c : CmdRecord} (hinv : Inv s) (h : hostIssue c s = .next t) : Inv t := by
  obtain ⟨hk, -, -⟩ := (inv_iff s).1 hinv
  unfold hostIssue at h
  split at h
  · simp at h
  · obtain rfl := Host.Outcome.next.inj h
    exact (inv_iff _).2 ⟨hk, fun _ => rfl, by simp⟩

/-- Writing the record of an engine that is not Busy keeps the invariant. -/
theorem hostWriteRecord_keeps_inv {s t : State} {c : CmdRecord} (hinv : Inv s) (h : hostWriteRecord c s = .next t) :
    Inv t := by
  obtain ⟨hk, hstart, -⟩ := (inv_iff s).1 hinv
  unfold hostWriteRecord at h
  split at h
  · simp at h
  · rename_i hb
    obtain rfl := Host.Outcome.next.inj h
    exact (inv_iff _).2 ⟨hk, hstart, fun hb' => absurd hb' hb⟩

/-- Settles O12: an invariant of each engine's registers, kept row by row. -/
theorem stepKeepsInvariant : Obligations.StepKeepsInvariant := by
  rintro s t hinv (h | ⟨c, h⟩ | ⟨c, h⟩)
  · exact step_keeps_inv hinv h
  · exact hostIssue_keeps_inv hinv h
  · exact hostWriteRecord_keeps_inv hinv h

/-- Settles O15: the row that ends a command has checked, or filled, exactly its declared size. -/
theorem okResultsHaveTheirDeclaredSize : Obligations.OkResultsHaveTheirDeclaredSize := by
  intro s t hinv hb h hdone
  obtain ⟨v, hv, hsize⟩ := (busy_stepKeeps hinv hb h).2 hdone
  unfold declaredResult at hsize
  split at hsize
  case h_1 he =>
    obtain ⟨px, rfl, hlen⟩ := hsize
    refine .inl ⟨px, hv, ?_, hlen⟩
    obtain hop | hop | hop | hop | hop := engineOf_bc he <;> simp [hop]
  case h_2 he =>
    obtain ⟨data, n, rfl, hlen⟩ := hsize
    exact .inr (.inl ⟨data, n, hv, engineOf_lzss he, hlen⟩)
  case h_3 he =>
    obtain ⟨data, rfl, hlen⟩ := hsize
    exact .inr (.inr (.inl ⟨data, hv, engineOf_lzo he, hlen⟩))
  case h_4 he =>
    obtain ⟨data, rfl, hlen⟩ := hsize
    exact .inr (.inr (.inr ⟨data, hv, engineOf_lz4 he, hlen⟩))
  case h_5 => exact hsize.elim

/-- Settles O8: a row writes only STATUS, RESULT, the start mark and its engine's registers. -/
theorem stepsNeverWriteRecordRomOrParameters : Obligations.StepsNeverWriteRecordRomOrParameters := by
  intro s t h
  obtain ⟨t', h', hidle, hrow⟩ := step_outcome s
  obtain rfl : t' = t := Host.Outcome.next.inj (h'.symm.trans h)
  by_cases hb : s.status = .busy
  · obtain ⟨e, rfl⟩ | ⟨hsame, -⟩ := hrow hb
    · exact ⟨rfl, rfl, rfl, rfl⟩
    · exact hsame
  · rw [hidle hb]
    exact ⟨rfl, rfl, rfl, rfl⟩

end Sys2Proof.Machine
end

section
/-! PROOFS. A command's run depends on its record, the parameters, ROM and the registers of its own engine, which its first
row initialises: so no earlier command shows in STATUS or RESULT (10_state.md R20, 70 R341). -/

namespace Sys2Proof.Machine

/-! ### Rejections -/

theorem takeLe_map_error {n : Nat} {bs : List Byte} {f : Nat → Instr} {r : Reject}
    (h : (takeLe n bs).map f = .error r) : r = .truncated := by
  cases ht : takeLe n bs with
  | ok v => simp [ht, Except.map] at h
  | error e =>
    obtain rfl : e = r := by simpa [ht, Except.map] using h
    exact (takeLe_eq_error.1 ht).2

theorem lzoShort_unknownFlags {st : LzoSt} {t : Byte} {rest : List Byte} : lzoShort st t rest ≠ .error .unknownFlags := by
  intro h
  unfold lzoShort at h
  split at h <;> split at h <;> simp at h

theorem decodeLzoToken_unknownFlags {st : LzoSt} {bs : List Byte} : decodeLzoToken st bs ≠ .error .unknownFlags := by
  intro h
  cases bs with
  | nil => simp [decodeLzoToken] at h
  | cons t rest =>
    simp only [decodeLzoToken] at h
    split at h
    · split at h <;> simp at h
    · split at h
      · split at h
        · simp at h
        · exact absurd (takeLe_map_error h) (by simp)
      · split at h
        · split at h
          · simp at h
          · exact absurd (takeLe_map_error h) (by simp)
        · exact lzoShort_unknownFlags h

theorem decodeLzoBody_unknownFlags {bs : List Byte} : decodeLzoBody bs ≠ .error .unknownFlags := by
  intro h
  cases bs with
  | nil => simp [decodeLzoBody] at h
  | cons t rest =>
    simp only [decodeLzoBody] at h
    split at h
    · simp at h
    · split at h
      · exact absurd (takeLe_map_error h) (by simp)
      · split at h
        · exact absurd (takeLe_map_error h) (by simp)
        · split at h
          · exact absurd (takeLe_map_error h) (by simp)
          · simp at h

/-- Only an LZ4 chunk header is rejected for its flags (R98). -/
theorem decode_unknownFlags {c : DecodeCtx} {bs : List Byte} (h : decode c bs = .error .unknownFlags) :
    c = .lz4Chunk := by
  cases c <;> simp only [decode] at h
  case command =>
    split at h
    · simp at h
    · split at h <;> simp at h
  case lzoFirst =>
    split at h
    · simp at h
    · split at h <;> simp at h
  case lzoToken => exact absurd h decodeLzoToken_unknownFlags
  case lzoBody => exact absurd h decodeLzoBody_unknownFlags
  case lzoExt | lz4Ext => exact absurd (decodeChain_eq_error h) (by simp)
  case lz4Chunk => rfl
  all_goals exact absurd (takeLe_map_error h) (by simp)

/-! ### States that a command cannot tell apart -/

/-- The same parameters, ROM and command record. -/
def sameInputs (s t : State) : Prop := s.params = t.params ∧ s.rom = t.rom ∧ s.cmd = t.cmd

/-- The same registers in the given engine. -/
def Engine.sameRegs (e : Engine) (s t : State) : Prop :=
  match e with
  | .bc => s.bc = t.bc
  | .lzss => s.lzss = t.lzss
  | .lzo => s.lzo = t.lzo
  | .lz4 => s.lz4 = t.lz4

/-- Two states that the command at hand cannot tell apart: the same inputs and STATUS, the same registers in the engine of a
started command, and the same RESULT once the command has ended. -/
def alike (s t : State) : Prop :=
  sameInputs s t ∧ s.status = t.status ∧ s.starting = t.starting ∧
    (s.status = .busy → s.starting = false → ∃ e, engineOf s.cmd.op = some e ∧ e.sameRegs s t) ∧
    (s.status ≠ .busy → s.result = t.result)

theorem alike_raiseFail {s t : State} (h : sameInputs s t) (e : Failure) : alike (raiseFail e s) (raiseFail e t) :=
  ⟨h, rfl, rfl, by simp, fun _ => rfl⟩

/-- The same turn of the command's engine leaves states that the command cannot tell apart. -/
theorem settle_alike {ρ : Type} {put : State → ρ → State} {e : Engine} {s t : State}
    (he : engineOf s.cmd.op = some e) (hp : engineWrite put) (hput : ∀ s t r, e.sameRegs (put s r) (put t r))
    (hin : sameInputs s t) (hbs : s.status = .busy) (hbt : t.status = .busy) (hss : s.starting = false)
    (hst : t.starting = false) (u : Turn ρ) :
    ∃ s' t', settle put s u = .next s' ∧ settle put t u = .next t' ∧ alike s' t' := by
  have hinputs : ∀ r, sameInputs (put s r) (put t r) := by
    intro r
    obtain ⟨⟨hcs, hrs, hps, -⟩, -⟩ := hp s r
    obtain ⟨⟨hct, hrt, hpt, -⟩, -⟩ := hp t r
    obtain ⟨h1, h2, h3⟩ := hin
    exact ⟨by rw [hps, hpt, h1], by rw [hrs, hrt, h2], by rw [hcs, hct, h3]⟩
  cases u with
  | run r =>
    refine ⟨_, _, rfl, rfl, hinputs r, ?_, ?_, fun _ _ => ⟨e, ?_, hput s t r⟩, fun h => ?_⟩
    · rw [(hp s r).2.1, (hp t r).2.1, hbs, hbt]
    · rw [(hp s r).2.2.2, (hp t r).2.2.2, hss, hst]
    · rw [(hp s r).1.1, he]
    · exact absurd ((hp s r).2.1.trans hbs) h
  | done r v => exact ⟨_, _, rfl, rfl, hinputs r, rfl, rfl, by simp, fun _ => rfl⟩
  | fail f => exact ⟨_, _, rfl, rfl, alike_raiseFail hin f⟩

/-! ### Rows see only the inputs and their engine's registers -/

section
variable {s t : State} {i : Instr}

theorem exec_bc_congr (hi : rowEngine i = some .bc) (hin : sameInputs s t) (hr : s.bc = t.bc) :
    ∃ u, exec i s = settle putBc s u ∧ exec i t = settle putBc t u := by
  obtain ⟨sp, srom, sst, sres, scmd, sbc, slzss, slzo, slz4, sstart, siss⟩ := s
  obtain ⟨tp, trom, tst, tres, tcmd, tbc, tlzss, tlzo, tlz4, tstart, tiss⟩ := t
  obtain ⟨rfl, rfl, rfl⟩ := hin
  obtain rfl := hr
  cases i
  case alphaInterp8 | alphaInterp6 => exact ⟨.run _, rfl, rfl⟩
  case bc1Block4 | bc1Block3 | bc2Block | bc3Block | bc4Block | bc7Mode0 | bc7Mode1 | bc7Mode2 | bc7Mode3 | bc7Mode4 |
      bc7Mode5 | bc7Mode6 | bc7Mode7 | bc7Reserved => exact ⟨_, rfl, rfl⟩
  case lzoM3 | lzoM4 | lzoEof => simp at hi
  all_goals simp [rowEngine, homeCtx, placeEngine] at hi

theorem exec_lzss_congr (hi : rowEngine i = some .lzss) (hin : sameInputs s t) (hr : s.lzss = t.lzss) :
    ∃ u, exec i s = settle putLzss s u ∧ exec i t = settle putLzss t u := by
  obtain ⟨sp, srom, sst, sres, scmd, sbc, slzss, slzo, slz4, sstart, siss⟩ := s
  obtain ⟨tp, trom, tst, tres, tcmd, tbc, tlzss, tlzo, tlz4, tstart, tiss⟩ := t
  obtain ⟨rfl, rfl, rfl⟩ := hin
  obtain rfl := hr
  cases i
  case lzssFlags | lzssLit => exact ⟨.run _, rfl, rfl⟩
  case lzssRef | lzssCsum => exact ⟨_, rfl, rfl⟩
  case lzoM3 | lzoM4 | lzoEof => simp at hi
  all_goals simp [rowEngine, homeCtx, placeEngine] at hi

theorem exec_lzo_congr (hi : rowEngine i = some .lzo) (hin : sameInputs s t) (hr : s.lzo = t.lzo) :
    ∃ u, exec i s = settle putLzo s u ∧ exec i t = settle putLzo t u := by
  obtain ⟨sp, srom, sst, sres, scmd, sbc, slzss, slzo, slz4, sstart, siss⟩ := s
  obtain ⟨tp, trom, tst, tres, tcmd, tbc, tlzss, tlzo, tlz4, tstart, tiss⟩ := t
  obtain ⟨rfl, rfl, rfl⟩ := hin
  obtain rfl := hr
  cases i
  case lzoFirstLit | lzoLitExt | lzoLit | lzoM1Far | lzoM1Near | lzoM2 | lzoM3 | lzoM4 | lzoEof | lzoExt =>
    exact ⟨_, rfl, rfl⟩
  all_goals simp [rowEngine, homeCtx, placeEngine] at hi

theorem exec_lz4_congr (hi : rowEngine i = some .lz4) (hin : sameInputs s t) (hr : s.lz4 = t.lz4) :
    ∃ u, exec i s = settle putLz4 s u ∧ exec i t = settle putLz4 t u := by
  obtain ⟨sp, srom, sst, sres, scmd, sbc, slzss, slzo, slz4, sstart, siss⟩ := s
  obtain ⟨tp, trom, tst, tres, tcmd, tbc, tlzss, tlzo, tlz4, tstart, tiss⟩ := t
  obtain ⟨rfl, rfl, rfl⟩ := hin
  obtain rfl := hr
  cases i
  case lz4Target => exact ⟨.run _, rfl, rfl⟩
  case lz4Chunk | lz4Seq | lz4Ext => exact ⟨_, rfl, rfl⟩
  case lzoM3 | lzoM4 | lzoEof => simp at hi
  all_goals simp [rowEngine, homeCtx, placeEngine] at hi

end

/-- The same row of a started command leaves states that the command cannot tell apart. -/
theorem exec_alike {s t : State} {i : Instr} {e : Engine} (he : engineOf s.cmd.op = some e) (hi : rowEngine i = some e)
    (hin : sameInputs s t) (hr : e.sameRegs s t) (hbs : s.status = .busy) (hbt : t.status = .busy)
    (hss : s.starting = false) (hst : t.starting = false) :
    ∃ s' t', exec i s = .next s' ∧ exec i t = .next t' ∧ alike s' t' := by
  cases e with
  | bc =>
    obtain ⟨u, hs, ht⟩ := exec_bc_congr hi hin hr
    rw [hs, ht]
    exact settle_alike he putBc_engineWrite (fun _ _ _ => rfl) hin hbs hbt hss hst u
  | lzss =>
    obtain ⟨u, hs, ht⟩ := exec_lzss_congr hi hin hr
    rw [hs, ht]
    exact settle_alike he putLzss_engineWrite (fun _ _ _ => rfl) hin hbs hbt hss hst u
  | lzo =>
    obtain ⟨u, hs, ht⟩ := exec_lzo_congr hi hin hr
    rw [hs, ht]
    exact settle_alike he putLzo_engineWrite (fun _ _ _ => rfl) hin hbs hbt hss hst u
  | lz4 =>
    obtain ⟨u, hs, ht⟩ := exec_lz4_congr hi hin hr
    rw [hs, ht]
    exact settle_alike he putLz4_engineWrite (fun _ _ _ => rfl) hin hbs hbt hss hst u

/-! ### Fetches see only the inputs and the engine's registers -/

theorem fetchSite_congr {s t : State} {e : Engine} (he : engineOf s.cmd.op = some e) (hcmd : s.cmd = t.cmd)
    (hr : e.sameRegs s t) (hss : s.starting = false) (hst : t.starting = false) : fetchSite s = fetchSite t := by
  have he' : engineOf t.cmd.op = some e := hcmd ▸ he
  cases e with
  | bc =>
    have hbc : s.bc = t.bc := hr
    obtain ⟨c, n, a, -, h⟩ := fetchSite_bc he
    rw [h s hss rfl, h t hst (by rw [hcmd])]
    simp only [bcSite, hbc, hcmd]
  | lzss =>
    have hregs : s.lzss = t.lzss := hr
    rw [fetchSite_lzss hss he, fetchSite_lzss hst he']
    simp only [lzssSite, hregs, hcmd]
  | lzo =>
    have hregs : s.lzo = t.lzo := hr
    rw [fetchSite_lzo hss he, fetchSite_lzo hst he']
    simp only [lzoSite, hregs, hcmd]
  | lz4 =>
    have hregs : s.lz4 = t.lz4 := hr
    rw [fetchSite_lz4 hss he, fetchSite_lz4 hst he']
    simp only [lz4Site, hregs, hcmd]

/-- Outside the LZ4 chain a rejection's error depends on the command record alone. -/
theorem rejectFailure_congr {s t : State} {c : DecodeCtx} {bs : List Byte} {r : Reject} (hcmd : s.cmd = t.cmd)
    (hc : placeEngine c ≠ some .lz4) (hd : decode c bs = .error r) : rejectFailure s c r = rejectFailure t c r := by
  cases r with
  | unknownFlags =>
    obtain rfl := decode_unknownFlags hd
    exact absurd rfl hc
  | truncated =>
    have hplace : ¬ (c = .lz4Seq ∨ c = .lz4Ext) := by
      rintro (rfl | rfl) <;> exact hc rfl
    simp only [rejectFailure, if_neg hplace, hcmd]
  | noCommand => rfl
  | notFirstRun | lengthFieldZero | lengthFieldSet => simp only [rejectFailure, hcmd]

/-- The error of a started command's rejected bytes depends on its inputs and its engine's registers. -/
theorem rejectFailure_congr_running {s t : State} {e : Engine} {bs : List Byte} {c : DecodeCtx} {r : Reject}
    (hcmd : s.cmd = t.cmd) (hr : e.sameRegs s t) (hc : placeEngine c = some e) (hd : decode c bs = .error r) :
    rejectFailure s c r = rejectFailure t c r := by
  by_cases h4 : e = .lz4
  · subst h4
    have hregs : s.lz4 = t.lz4 := hr
    cases r <;> simp only [rejectFailure, hregs, hcmd]
  · exact rejectFailure_congr hcmd (by simpa [hc] using h4) hd

/-! ### Every step -/

/-- Two Busy engines at the same bytes run the same row, or both take an error for the same rejection. -/
theorem step_pair_cases {s t : State} (hbs : s.status = .busy) (hbt : t.status = .busy)
    (hsite : fetchSite s = fetchSite t) :
    (∃ i, decode (fetchSite s).1 (fetchSite s).2 = .ok i ∧ step s = exec i s ∧ step t = exec i t) ∨
      ∃ r, decode (fetchSite s).1 (fetchSite s).2 = .error r ∧
        step s = .next (raiseFail (rejectFailure s (fetchSite s).1 r) s) ∧
        step t = .next (raiseFail (rejectFailure t (fetchSite s).1 r) t) := by
  simp only [step, hbs, hbt, fetch, ← hsite]
  cases decode (fetchSite s).1 (fetchSite s).2 with
  | ok i => exact .inl ⟨i, rfl, rfl, rfl⟩
  | error r => exact .inr ⟨r, rfl, rfl, rfl⟩

/-- The step that starts a command leaves states that the command cannot tell apart, whatever the engines held. -/
theorem start_alike {s t : State} (hin : sameInputs s t) (hbs : s.status = .busy) (hbt : t.status = .busy)
    (hss : s.starting = true) (hst : t.starting = true) :
    ∃ s' t', step s = .next s' ∧ step t = .next t' ∧ alike s' t' := by
  have hcmd : s.cmd = t.cmd := hin.2.2
  have hsite : fetchSite s = fetchSite t := by rw [fetchSite_starting hss, fetchSite_starting hst, hcmd]
  obtain ⟨i, hd, hs, ht⟩ | ⟨r, hd, hs, ht⟩ := step_pair_cases hbs hbt hsite <;> rw [hs, ht]
  · rw [fetchSite_starting hss] at hd
    obtain ⟨he, u, -, hx⟩ | ⟨he, hx⟩ | ⟨he, hx⟩ | ⟨he, hx⟩ | ⟨e, hx⟩ := exec_command (decode_command hd)
    · rw [hx s rfl, hx t hcmd.symm]
      exact settle_alike (s := startCommand s) (t := startCommand t) he putBc_engineWrite (fun _ _ _ => rfl) hin rfl
        rfl rfl rfl u
    · rw [hx s rfl, hx t hcmd.symm]
      exact settle_alike (s := startCommand s) (t := startCommand t) he putLzss_engineWrite (fun _ _ _ => rfl) hin rfl
        rfl rfl rfl _
    · rw [hx s rfl, hx t hcmd.symm]
      exact settle_alike (s := startCommand s) (t := startCommand t) he putLzo_engineWrite (fun _ _ _ => rfl) hin rfl
        rfl rfl rfl _
    · rw [hx s rfl, hx t hcmd.symm]
      exact settle_alike (s := startCommand s) (t := startCommand t) he putLz4_engineWrite (fun _ _ _ => rfl) hin rfl
        rfl rfl rfl _
    · rw [hx s, hx t]
      exact ⟨_, _, rfl, rfl, alike_raiseFail hin e⟩
  · rw [rejectFailure_congr hcmd (by rw [fetchSite_starting hss]; simp [placeEngine]) hd]
    exact ⟨_, _, rfl, rfl, alike_raiseFail hin _⟩

/-- A step of a started command keeps two states alike. -/
theorem running_alike {s t : State} {e : Engine} (he : engineOf s.cmd.op = some e) (hin : sameInputs s t)
    (hr : e.sameRegs s t) (hbs : s.status = .busy) (hbt : t.status = .busy) (hss : s.starting = false)
    (hst : t.starting = false) : ∃ s' t', step s = .next s' ∧ step t = .next t' ∧ alike s' t' := by
  have hcmd : s.cmd = t.cmd := hin.2.2
  have hsite : fetchSite s = fetchSite t := fetchSite_congr he hcmd hr hss hst
  have hplace := fetchSite_engine hss he
  obtain ⟨i, hd, hs, ht⟩ | ⟨r, hd, hs, ht⟩ := step_pair_cases hbs hbt hsite <;> rw [hs, ht]
  · exact exec_alike he ((rowEngine_of_decode hd).trans hplace) hin hr hbs hbt hss hst
  · rw [rejectFailure_congr_running hcmd hr hplace hd]
    exact ⟨_, _, rfl, rfl, alike_raiseFail hin _⟩

/-- Two states that the command cannot tell apart stay so in every step. -/
theorem step_alike {s t : State} (h : alike s t) : ∃ s' t', step s = .next s' ∧ step t = .next t' ∧ alike s' t' := by
  obtain ⟨hin, hstatus, hstart, hregs, hres⟩ := h
  by_cases hb : s.status = .busy
  · have hbt : t.status = .busy := hstatus ▸ hb
    cases hss : s.starting with
    | true => exact start_alike hin hb hbt hss (hstart ▸ hss)
    | false =>
      obtain ⟨e, he, hr⟩ := hregs hb hss
      exact running_alike he hin hr hb hbt hss (hstart ▸ hss)
  · have hbt : t.status ≠ .busy := hstatus ▸ hb
    exact ⟨s, t, step_not_busy hb, step_not_busy hbt, hin, hstatus, hstart, hregs, hres⟩

theorem run_succ {s t : State} (h : step s = .next t) (n : Nat) :
    Host.Core.run Sys2Proof.core (n + 1) s = Host.Core.run Sys2Proof.core n t := by
  have hcore : Sys2Proof.core.step s = .next t := h
  simp only [Host.Core.run, hcore]

/-- Two states that the command cannot tell apart stay so in every run. -/
theorem run_alike {s t : State} (h : alike s t) (n : Nat) :
    ∃ s' t', Host.Core.run Sys2Proof.core n s = .next s' ∧ Host.Core.run Sys2Proof.core n t = .next t' ∧ alike s' t' := by
  induction n generalizing s t with
  | zero => exact ⟨s, t, rfl, rfl, h⟩
  | succ n ih =>
    obtain ⟨s₁, t₁, hs, ht, h₁⟩ := step_alike h
    obtain ⟨s', t', hs', ht', h'⟩ := ih h₁
    exact ⟨s', t', (run_succ hs n).trans hs', (run_succ ht n).trans ht', h'⟩

/-- Settles O14: two machines that start the same record are alike after every step, so STATUS agrees, and RESULT as soon as
the command has ended. -/
theorem resultsDependOnTheCommandAlone : Obligations.ResultsDependOnTheCommandAlone := by
  rintro s t ⟨hparams, hrom, hcmd, hbs, hbt, hss, hst⟩ n
  have hstart : alike s t :=
    ⟨⟨hparams, hrom, hcmd⟩, hbs.trans hbt.symm, hss.trans hst.symm, fun _ hs => by simp [hss] at hs,
      fun hb => absurd hbs hb⟩
  obtain ⟨s', t', hs, ht, -, hstatus, -, -, hres⟩ := run_alike hstart n
  exact ⟨s', t', hs, ht, hstatus, hres⟩

end Sys2Proof.Machine
end

section
/-! PROOFS. Several engine instances: a step of one is its own step alone, and steps of two commute (20_memory.md R63,
60_exceptions.md R327). Every step answers a next state, so a step of instance `i` is the function `nextState` on entry `i`. -/

namespace Sys2Proof.Machine

/-- The state after one step. -/
def nextState (s : State) : State :=
  match step s with
  | .next t => t
  | .fault _ => s
  | .refused _ => s

/-- No step stops the machine, so `nextState` is the step itself. -/
theorem step_eq_nextState (s : State) : step s = .next (nextState s) := by
  obtain ⟨t, h, -⟩ := step_outcome s
  rw [nextState, h]

/-- A step of instance `i` replaces entry `i`, if there is one, by its next state. -/
theorem systemStep_eq_modify (i : Nat) (sys : List State) : systemStep i sys = .next (sys.modify i nextState) := by
  cases h : sys[i]? with
  | none => simp [systemStep, systemMove, h, List.modify_eq_set_getElem?]
  | some s => simp [systemStep, systemMove, h, step_eq_nextState, List.modify_eq_set_getElem?]

/-- Changes of two different entries commute. -/
theorem modify_comm_of_ne {α : Type} (f g : α → α) {i j : Nat} (hij : i ≠ j) (l : List α) :
    (l.modify i f).modify j g = (l.modify j g).modify i f := by
  refine List.ext_getElem? fun k => ?_
  by_cases hi : i = k
  · have hj : j ≠ k := fun hj => hij (hi.trans hj.symm)
    simp [hi, hj]
  · simp [List.getElem?_modify, hi]

/-- Settles O17: a system's step changes one entry, and changes of two different entries commute. -/
theorem engineInstancesAreIndependent : Obligations.EngineInstancesAreIndependent := by
  refine ⟨fun sys i => ?_, fun sys i j hij => ?_⟩
  · refine ⟨sys.modify i nextState, systemStep_eq_modify i sys, List.length_modify .., fun s hs => ?_, fun k hk => ?_⟩
    · exact ⟨nextState s, step_eq_nextState s, by simp [hs]⟩
    · exact List.getElem?_modify_ne _ _ hk.symm
  · have hcomm := modify_comm_of_ne nextState nextState hij sys
    refine ⟨sys.modify i nextState, sys.modify j nextState, (sys.modify i nextState).modify j nextState,
      systemStep_eq_modify i sys, systemStep_eq_modify j _, systemStep_eq_modify j sys, ?_, by simp, ?_, ?_, ?_⟩
    · rw [hcomm]; exact systemStep_eq_modify i _
    · exact List.getElem?_modify_ne _ _ hij.symm
    · rw [hcomm]; exact List.getElem?_modify_ne _ _ hij
    · intro k hki hkj
      rw [List.getElem?_modify_ne _ _ hkj.symm, List.getElem?_modify_ne _ _ hki.symm]

end Sys2Proof.Machine
end

section
/-! PROOFS. Words and their fields as numbers, the row that a word belongs to, and the decoder's answer to the bytes
that the encoder writes (30_encoding.md R70–R99). -/

namespace Sys2Proof

/-! ### Words as numbers -/

theorem toNat_append_add {n m : Nat} (x : BitVec n) (y : BitVec m) : (x ++ y).toNat = x.toNat * 2 ^ m + y.toNat := by
  rw [BitVec.toNat_append, ← Nat.shiftLeft_add_eq_or_of_lt y.isLt, Nat.shiftLeft_eq]

theorem toNat_field {n : Nat} (x : BitVec n) (lo w : Nat) : (x.extractLsb' lo w).toNat = x.toNat / 2 ^ lo % 2 ^ w := by
  rw [BitVec.extractLsb'_toNat, Nat.shiftRight_eq_div_pow]

theorem getLsbD_iff {n : Nat} (x : BitVec n) (i : Nat) : x.getLsbD i = true ↔ x.toNat / 2 ^ i % 2 = 1 := by
  rw [← BitVec.testBit_toNat, Nat.testBit_eq_decide_div_mod_eq, decide_eq_true_eq]

/-- The lowest set bit of a number is where only one bit can be. -/
theorem lowestBit_unique {n a b : Nat} (ha : n % 2 ^ (a + 1) = 2 ^ a) (hb : n % 2 ^ (b + 1) = 2 ^ b) : a = b := by
  have not_below : ∀ {a b : Nat}, n % 2 ^ (a + 1) = 2 ^ a → n % 2 ^ (b + 1) = 2 ^ b → ¬ a < b := by
    intro a b ha hb hlt
    have hmod : n % 2 ^ (b + 1) % 2 ^ (a + 1) = n % 2 ^ (a + 1) := Nat.mod_mod_of_dvd n (Nat.pow_dvd_pow 2 (by omega))
    have hzero : 2 ^ b % 2 ^ (a + 1) = 0 := Nat.mod_eq_zero_of_dvd (Nat.pow_dvd_pow 2 hlt)
    rw [hb, hzero, ha] at hmod
    exact absurd hmod.symm (Nat.two_pow_pos a).ne'
  have := not_below ha hb
  have := not_below hb ha
  omega

/-! ### BC7 modes (R77, R172) -/

/-- The mode is the place of byte 0's lowest set bit, and 8 when it has none. -/
theorem bc7ModeOf_spec (b : Byte) :
    (bc7ModeOf b < 8 ∧ b.toNat % 2 ^ (bc7ModeOf b + 1) = 2 ^ bc7ModeOf b) ∨ (bc7ModeOf b = 8 ∧ b.toNat = 0) := by
  simp only [bc7ModeOf, getLsbD_iff, Nat.pow_zero, Nat.div_one]
  split_ifs <;> omega

theorem bc7ModeOf_eq_iff {b : Byte} {m : Nat} (hm : m < 8) : bc7ModeOf b = m ↔ b.toNat % 2 ^ (m + 1) = 2 ^ m := by
  obtain ⟨hlt, hbit⟩ | ⟨hmode, hzero⟩ := bc7ModeOf_spec b
  · exact ⟨fun h => h ▸ hbit, fun h => lowestBit_unique hbit h⟩
  · have hpos := Nat.two_pow_pos m
    simp only [hmode, hzero, Nat.zero_mod]
    omega

theorem bc7ModeOf_eq_eight_iff {b : Byte} : bc7ModeOf b = 8 ↔ b.toNat = 0 := by
  obtain ⟨hlt, hbit⟩ | ⟨hmode, hzero⟩ := bc7ModeOf_spec b
  · have hpos := Nat.two_pow_pos (bc7ModeOf b)
    refine ⟨fun h => by omega, fun h => ?_⟩
    rw [h, Nat.zero_mod] at hbit
    omega
  · simp [hmode, hzero]

/-- A block has the pattern of mode `m` in its lowest bits exactly when `m` is its mode. -/
theorem bc7Pattern_iff {blk : BitVec 128} {m : Nat} (hm : m < 8) :
    blk.extractLsb' 0 (m + 1) = BitVec.ofNat (m + 1) (2 ^ m) ↔ bc7ModeOf (blk.extractLsb' 0 8) = m := by
  have hpow : 2 ^ m % 2 ^ (m + 1) = 2 ^ m := Nat.mod_eq_of_lt (Nat.pow_lt_pow_right (by omega) (by omega))
  have hmod : blk.toNat % 2 ^ 8 % 2 ^ (m + 1) = blk.toNat % 2 ^ (m + 1) :=
    Nat.mod_mod_of_dvd _ (Nat.pow_dvd_pow 2 (by omega))
  rw [bc7ModeOf_eq_iff hm, ← BitVec.toNat_inj, toNat_field, toNat_field, BitVec.toNat_ofNat, hpow, Nat.pow_zero,
    Nat.div_one, hmod]

theorem bc7Reserved_iff {blk : BitVec 128} : blk.extractLsb' 0 8 = 0#8 ↔ bc7ModeOf (blk.extractLsb' 0 8) = 8 := by
  rw [bc7ModeOf_eq_eight_iff, ← BitVec.toNat_inj, BitVec.toNat_zero]

/-! ### The rows of a block (R72, R74, R77) -/

theorem bc1Row_of_wf4 {blk : BitVec 64} (h : (Instr.bc1Block4 blk).wf = true) : bc1Row blk = .bc1Block4 blk :=
  if_pos (of_decide_eq_true h)

theorem bc1Row_of_wf3 {blk : BitVec 64} (h : (Instr.bc1Block3 blk).wf = true) : bc1Row blk = .bc1Block3 blk :=
  if_neg (BitVec.not_lt.2 (of_decide_eq_true h))

theorem alphaRow_of_wf8 {blk : BitVec 64} (h : (Instr.alphaInterp8 blk).wf = true) : alphaRow blk = .alphaInterp8 blk :=
  if_pos (of_decide_eq_true h)

theorem alphaRow_of_wf6 {blk : BitVec 64} (h : (Instr.alphaInterp6 blk).wf = true) : alphaRow blk = .alphaInterp6 blk :=
  if_neg (BitVec.not_lt.2 (of_decide_eq_true h))

/-- A row's fields are those of a word of the row, and `bs` is that word. -/
def Instr.codes (i : Instr) (bs : List Byte) : Prop := i.wf = true ∧ encode i = bs

theorem bc1Row_codes (blk : BitVec 64) : (bc1Row blk).codes (leBytes 8 blk.toNat) := by
  unfold bc1Row
  split
  case isTrue h => exact ⟨decide_eq_true h, rfl⟩
  case isFalse h => exact ⟨decide_eq_true (BitVec.not_lt.1 h), rfl⟩

theorem alphaRow_codes (blk : BitVec 64) : (alphaRow blk).codes (leBytes 8 blk.toNat) := by
  unfold alphaRow
  split
  case isTrue h => exact ⟨decide_eq_true h, rfl⟩
  case isFalse h => exact ⟨decide_eq_true (BitVec.not_lt.1 h), rfl⟩

/-- The row of BC7 mode `m`; mode 8 is the reserved pattern. -/
def bc7RowOfMode (m : Nat) (blk : BitVec 128) : Instr :=
  match m with
  | 0 => .bc7Mode0 blk
  | 1 => .bc7Mode1 blk
  | 2 => .bc7Mode2 blk
  | 3 => .bc7Mode3 blk
  | 4 => .bc7Mode4 blk
  | 5 => .bc7Mode5 blk
  | 6 => .bc7Mode6 blk
  | 7 => .bc7Mode7 blk
  | _ => .bc7Reserved blk

theorem bc7Row_eq_rowOfMode (blk : BitVec 128) : bc7Row blk = bc7RowOfMode (bc7ModeOf (blk.extractLsb' 0 8)) blk := rfl

theorem encode_bc7RowOfMode (m : Nat) (blk : BitVec 128) : encode (bc7RowOfMode m blk) = leBytes 16 blk.toNat := by
  unfold bc7RowOfMode
  split <;> rfl

theorem bc7RowOfMode_wf_iff {m : Nat} (hm : m ≤ 8) (blk : BitVec 128) :
    (bc7RowOfMode m blk).wf = true ↔ bc7ModeOf (blk.extractLsb' 0 8) = m := by
  obtain rfl | hlt := Nat.eq_or_lt_of_le hm
  · exact decide_eq_true_iff.trans bc7Reserved_iff
  · interval_cases m <;> exact decide_eq_true_iff.trans (bc7Pattern_iff (by omega))

theorem bc7Row_codes (blk : BitVec 128) : (bc7Row blk).codes (leBytes 16 blk.toNat) := by
  have hm : bc7ModeOf (blk.extractLsb' 0 8) ≤ 8 := by
    obtain ⟨h, -⟩ | ⟨h, -⟩ := bc7ModeOf_spec (blk.extractLsb' 0 8) <;> omega
  rw [bc7Row_eq_rowOfMode]
  exact ⟨(bc7RowOfMode_wf_iff hm blk).2 rfl, encode_bc7RowOfMode _ blk⟩

/-! ### Words of the streams (R89, R90, R98) -/

theorem leBytes_one (b : Byte) : leBytes 1 b.toNat = [b] := by simp [leBytes]

theorem lz4Chunk_toNat (size : BitVec 24) (last : BitVec 1) :
    (last ++ 0#7 ++ size).toNat = 2147483648 * last.toNat + size.toNat := by
  simp only [toNat_append_add, BitVec.toNat_ofNat]
  omega

theorem lz4Chunk_fields (size : BitVec 24) (last : BitVec 1) :
    (last ++ 0#7 ++ size).extractLsb' 24 7 = 0#7 ∧ (last ++ 0#7 ++ size).extractLsb' 0 24 = size ∧
      (last ++ 0#7 ++ size).extractLsb' 31 1 = last := by
  simp only [← BitVec.toNat_inj, toNat_field, lz4Chunk_toNat, BitVec.toNat_zero]
  omega

/-- The size and the flag byte of a chunk header are its little-endian word (R98). -/
theorem lz4Chunk_bytes (size : BitVec 24) (last : BitVec 1) :
    encode (.lz4Chunk size last) = leBytes 4 (last ++ 0#7 ++ size).toNat := by
  have hflags : (last ++ 0#7).toNat = 128 * last.toNat := by
    simp only [toNat_append_add, BitVec.toNat_ofNat]
    omega
  simp only [encode, leBytes, lz4Chunk_toNat, List.cons_append, List.nil_append, List.cons.injEq, ← BitVec.toNat_inj,
    BitVec.toNat_ofNat, hflags, and_true]
  omega

theorem lz4Chunk_codes {w : BitVec 32} (h : w.extractLsb' 24 7 = 0#7) :
    (Instr.lz4Chunk (w.extractLsb' 0 24) (w.extractLsb' 31 1)).codes (leBytes 4 w.toNat) := by
  have hw : (w.extractLsb' 31 1 ++ 0#7 ++ w.extractLsb' 0 24).toNat = w.toNat := by
    rw [← BitVec.toNat_inj, toNat_field, BitVec.toNat_zero] at h
    rw [lz4Chunk_toNat, toNat_field, toNat_field]
    omega
  exact ⟨rfl, by rw [lz4Chunk_bytes, hw]⟩

theorem lzssRefOf_codes (w : BitVec 16) : (lzssRefOf w).codes (leBytes 2 w.toNat) := by
  refine ⟨rfl, ?_⟩
  simp only [lzssRefOf, encode, leBytes, List.cons.injEq, ← BitVec.toNat_inj, toNat_append_add, toNat_field,
    BitVec.toNat_ofNat, and_true]
  omega

theorem lzssRefOf_word (off : BitVec 12) (l : BitVec 4) :
    lzssRefOf (off.extractLsb' 8 4 ++ l ++ off.extractLsb' 0 8) = .lzssRef off l := by
  simp only [lzssRefOf, Instr.lzssRef.injEq, ← BitVec.toNat_inj, toNat_append_add, toNat_field]
  omega

/-! ### LZO1X control bytes (R93, R96) -/

section
variable {st : LzoSt} {t : Byte} {rest : List Byte}

theorem decodeLzoToken_ge64 (h : 64 ≤ t.toNat) (d : Byte) :
    decodeLzoToken st (t :: d :: rest) =
      .ok (.lzoM2 (t.extractLsb' 5 3) (t.extractLsb' 2 3) (t.extractLsb' 0 2) d) := by
  simp only [decodeLzoToken, if_pos h]

theorem decodeLzoToken_ge32 (h : 32 ≤ t.toNat) (h' : t.toNat < 64) (hl : t.extractLsb' 0 5 ≠ 0) :
    decodeLzoToken st (t :: rest) =
      (takeLe 2 rest).map fun w => .lzoM3 (t.extractLsb' 0 5) (BitVec.ofNat 16 w) := by
  simp only [decodeLzoToken, if_neg (Nat.not_le.2 h'), if_pos h, if_neg hl]

theorem decodeLzoToken_ge16 (h : 16 ≤ t.toNat) (h' : t.toNat < 32) (hl : t.extractLsb' 0 3 ≠ 0) :
    decodeLzoToken st (t :: rest) =
      (takeLe 2 rest).map fun w => lzoM4Of (t.extractLsb' 3 1) (t.extractLsb' 0 3) (BitVec.ofNat 16 w) := by
  have h64 : ¬ 64 ≤ t.toNat := by omega
  simp only [decodeLzoToken, if_neg h64, if_neg (Nat.not_le.2 h'), if_pos h, if_neg hl]

theorem decodeLzoToken_lt16 (h : t.toNat < 16) : decodeLzoToken st (t :: rest) = lzoShort st t rest := by
  have h64 : ¬ 64 ≤ t.toNat := by omega
  have h32 : ¬ 32 ≤ t.toNat := by omega
  simp only [decodeLzoToken, if_neg h64, if_neg h32, if_neg (Nat.not_le.2 h)]

theorem decodeLzoToken_outer_lt16 (h : t.toNat < 16) (h0 : t ≠ 0) :
    decodeLzoToken .outer (t :: rest) = .ok (.lzoLit (t.extractLsb' 0 4)) :=
  (decodeLzoToken_lt16 h).trans (if_neg h0)

theorem decodeLzoToken_afterRun_lt16 (h : t.toNat < 16) (d : Byte) :
    decodeLzoToken .afterRun (t :: d :: rest) = .ok (.lzoM1Far (t.extractLsb' 2 2) (t.extractLsb' 0 2) d) :=
  decodeLzoToken_lt16 h

theorem decodeLzoToken_afterShort_lt16 (h : t.toNat < 16) (d : Byte) :
    decodeLzoToken .afterShort (t :: d :: rest) = .ok (.lzoM1Near (t.extractLsb' 2 2) (t.extractLsb' 0 2) d) :=
  decodeLzoToken_lt16 h

end

theorem lzoM2_control (l d : BitVec 3) (s : BitVec 2) :
    (l ++ d ++ s).toNat = 32 * l.toNat + 4 * d.toNat + s.toNat ∧
      (l ++ d ++ s).extractLsb' 5 3 = l ∧ (l ++ d ++ s).extractLsb' 2 3 = d ∧
      (l ++ d ++ s).extractLsb' 0 2 = s := by
  have h : (l ++ d ++ s).toNat = 32 * l.toNat + 4 * d.toNat + s.toNat := by
    simp only [toNat_append_add]
    omega
  simp only [← BitVec.toNat_inj, toNat_field, h, true_and]
  omega

theorem lzoM3_control (l : BitVec 5) : (1#3 ++ l).toNat = 32 + l.toNat ∧ (1#3 ++ l).extractLsb' 0 5 = l := by
  have h : (1#3 ++ l).toNat = 32 + l.toNat := by
    simp only [toNat_append_add, BitVec.toNat_ofNat]
    omega
  simp only [← BitVec.toNat_inj, toNat_field, h, true_and]
  omega

theorem lzoM4_control (x : BitVec 1) (l : BitVec 3) :
    (1#4 ++ x ++ l).toNat = 16 + 8 * x.toNat + l.toNat ∧ (1#4 ++ x ++ l).extractLsb' 3 1 = x ∧
      (1#4 ++ x ++ l).extractLsb' 0 3 = l := by
  have h : (1#4 ++ x ++ l).toNat = 16 + 8 * x.toNat + l.toNat := by
    simp only [toNat_append_add, BitVec.toNat_ofNat]
    omega
  simp only [← BitVec.toNat_inj, toNat_field, h, true_and]
  omega

theorem lzoM1_control (d s : BitVec 2) :
    (0#4 ++ d ++ s).toNat = 4 * d.toNat + s.toNat ∧ (0#4 ++ d ++ s).extractLsb' 2 2 = d ∧
      (0#4 ++ d ++ s).extractLsb' 0 2 = s := by
  have h : (0#4 ++ d ++ s).toNat = 4 * d.toNat + s.toNat := by
    simp only [toNat_append_add, BitVec.toNat_ofNat]
    omega
  simp only [← BitVec.toNat_inj, toNat_field, h, true_and]
  omega

theorem nibbles_control (x y : BitVec 4) :
    (x ++ y).toNat = 16 * x.toNat + y.toNat ∧ (x ++ y).extractLsb' 4 4 = x ∧ (x ++ y).extractLsb' 0 4 = y := by
  have h : (x ++ y).toNat = 16 * x.toNat + y.toNat := by
    simp only [toNat_append_add]
    omega
  simp only [← BitVec.toNat_inj, toNat_field, h, true_and]
  omega

theorem lzoM4Of_codes (x : BitVec 1) (l : BitVec 3) (w : BitVec 16) :
    (lzoM4Of x l w).codes ((1#4 ++ x ++ l) :: leBytes 2 w.toNat) := by
  unfold lzoM4Of
  split
  case isTrue h =>
    obtain ⟨rfl, hw⟩ := h
    have hs : (w.extractLsb' 0 2).toNat = w.toNat := by rw [toNat_field]; omega
    exact ⟨rfl, by simp only [encode, hs, BitVec.ofNat_eq_ofNat]⟩
  case isFalse h =>
    refine ⟨?_, rfl⟩
    simp only [Instr.wf, decide_eq_true_eq]
    by_cases hx : x = 0
    · exact .inr (Nat.not_lt.1 fun hw => h ⟨hx, hw⟩)
    · exact .inl hx

theorem lzoM4Of_of_wf {x : BitVec 1} {l : BitVec 3} {w : BitVec 16} (h : (Instr.lzoM4 x l w).wf = true) :
    lzoM4Of x l w = .lzoM4 x l w := by
  simp only [Instr.wf, decide_eq_true_eq] at h
  exact if_neg fun ⟨hx, hw⟩ => h.elim (fun h => h hx) (fun h => by omega)

theorem lzoM4Of_zero (l : BitVec 3) (s : BitVec 2) : lzoM4Of 0 l (s.setWidth 16) = .lzoEof l s := by
  have hs : (s.setWidth 16).toNat = s.toNat := by simp; omega
  have hlow : (s.setWidth 16).extractLsb' 0 2 = s := BitVec.eq_of_toNat_eq (by rw [toNat_field, hs]; omega)
  rw [lzoM4Of, if_pos ⟨rfl, by omega⟩, hlow]

/-! ### Reading back what the encoder writes -/

/-- A word of the right width is read back whole. -/
theorem takeLe_map_word {w n : Nat} (x : BitVec w) (hw : w ≤ 8 * n) (f : BitVec w → Instr) (rest : List Byte) :
    (takeLe n (leBytes n x.toNat ++ rest)).map (fun v => f (BitVec.ofNat w v)) = .ok (f x) := by
  have hx : x.toNat < 256 ^ n := calc
    x.toNat < 2 ^ w := x.isLt
    _ ≤ 2 ^ (8 * n) := Nat.pow_le_pow_right (by omega) hw
    _ = 256 ^ n := by rw [Nat.pow_mul]
  rw [takeLe_leBytes, Nat.mod_eq_of_lt hx]
  simp [Except.map]

theorem takeLe_one (b : Byte) (rest : List Byte) : takeLe 1 (b :: rest) = .ok b.toNat := by
  simpa using takeLe_append 1 [b] rest rfl

theorem decode_bc7RowOfMode {m : Nat} {blk : BitVec 128} (hm : m ≤ 8) (hwf : (bc7RowOfMode m blk).wf = true)
    (rest : List Byte) : decode .bc7 (leBytes 16 blk.toNat ++ rest) = .ok (bc7RowOfMode m blk) := by
  have hrow : bc7Row blk = bc7RowOfMode m blk := by rw [bc7Row_eq_rowOfMode, (bc7RowOfMode_wf_iff hm blk).1 hwf]
  rw [← hrow]
  exact takeLe_map_word (n := 16) blk (by omega) bc7Row rest

theorem decodeChain_replicate {x v : Byte} (h : v ≠ x) (mk : Nat → Byte → Instr) (n : Nat) (rest : List Byte) :
    decodeChain x mk (List.replicate n x ++ [v] ++ rest) = .ok (mk n v) := by
  simp [decodeChain, countRun_replicate x v n rest h]

/-- A chunk header read from its word (R98). -/
theorem decodeChunk_word {w : BitVec 32} (h : w.extractLsb' 24 7 = 0#7) (rest : List Byte) :
    decodeChunk (leBytes 4 w.toNat ++ rest) = .ok (.lz4Chunk (w.extractLsb' 0 24) (w.extractLsb' 31 1)) := by
  simp [decodeChunk, takeLe_leBytes, Nat.mod_eq_of_lt w.isLt, h]

theorem decodeChunk_encode (size : BitVec 24) (last : BitVec 1) (rest : List Byte) :
    decodeChunk (encode (.lz4Chunk size last) ++ rest) = .ok (.lz4Chunk size last) := by
  obtain ⟨hflags, hsize, hlast⟩ := lz4Chunk_fields size last
  rw [lz4Chunk_bytes, decodeChunk_word hflags, hsize, hlast]

/-- A token 0001HLLL, in the place that its length field gives it. -/
theorem decode_lzoM4Of (x : BitVec 1) (l : BitVec 3) (w : BitVec 16) (rest : List Byte) :
    decode (homeCtx (lzoM4Of x l w)) (encode (lzoM4Of x l w) ++ rest) = .ok (lzoM4Of x l w) := by
  rw [(lzoM4Of_home x l w).1, (lzoM4Of_codes x l w).2]
  obtain ⟨hnat, hx, hl⟩ := lzoM4_control x l
  by_cases h0 : l = 0
  · subst h0
    obtain rfl | rfl := BitVec.eq_zero_or_eq_one x
    · exact takeLe_map_word (n := 2) w (by omega) (lzoM4Of 0 0) rest
    · exact takeLe_map_word (n := 2) w (by omega) (lzoM4Of 1 0) rest
  · rw [if_neg h0, List.cons_append, decode, decodeLzoToken_ge16 (by omega) (by omega) (by rwa [hl]), hx, hl]
    exact takeLe_map_word (n := 2) w (by omega) (lzoM4Of x l) rest

theorem decode_lz4Seq_cons (t : Byte) (rest : List Byte) :
    decode .lz4Seq (t :: rest) = .ok (.lz4Seq (t.extractLsb' 4 4) (t.extractLsb' 0 4)) := by
  have hhi : BitVec.ofNat 4 (t.toNat / 16) = t.extractLsb' 4 4 :=
    BitVec.eq_of_toNat_eq (by simp only [toNat_field, BitVec.toNat_ofNat, Nat.reducePow])
  have hlo : BitVec.ofNat 4 t.toNat = t.extractLsb' 0 4 :=
    BitVec.eq_of_toNat_eq (by rw [toNat_field, BitVec.toNat_ofNat, Nat.pow_zero, Nat.div_one])
  simp only [decode, takeLe_one, Except.map, hhi, hlo]

theorem decode_lzoM3 (l : BitVec 5) (w : BitVec 16) (rest : List Byte) :
    decode (homeCtx (.lzoM3 l w)) (encode (.lzoM3 l w) ++ rest) = .ok (.lzoM3 l w) := by
  obtain ⟨hnat, hl⟩ := lzoM3_control l
  by_cases h0 : l = 0
  · subst h0
    exact takeLe_map_word (n := 2) w (by omega) (.lzoM3 0) rest
  · rw [homeCtx, if_neg h0, encode, List.cons_append, decode,
      decodeLzoToken_ge32 (by omega) (by omega) (by rwa [hl]), hl]
    exact takeLe_map_word (n := 2) w (by omega) (.lzoM3 l) rest

/-- Settles O1, row by row: a block or word is read back whole, a row chosen by a comparison or a pattern is the one
whose condition holds, and a control byte falls into its row's range. -/
theorem decodeEncodeRoundTrip : Obligations.DecodeEncodeRoundTrip := by
  intro i rest hwf
  cases i
  case decodeBC1 | decodeBC2 | decodeBC3 | decodeBC4 | decodeBC5 | decodeBC6 | decodeBC7 | lzssDecompress |
    lzoDecompress | decompressLz4Chain => rfl
  case bc1Block4 blk => exact (takeLe_map_word (n := 8) blk (by omega) bc1Row rest).trans (by rw [bc1Row_of_wf4 hwf])
  case bc1Block3 blk => exact (takeLe_map_word (n := 8) blk (by omega) bc1Row rest).trans (by rw [bc1Row_of_wf3 hwf])
  case bc2Block blk => exact takeLe_map_word (n := 16) blk (by omega) .bc2Block rest
  case alphaInterp8 blk =>
    exact (takeLe_map_word (n := 8) blk (by omega) alphaRow rest).trans (by rw [alphaRow_of_wf8 hwf])
  case alphaInterp6 blk =>
    exact (takeLe_map_word (n := 8) blk (by omega) alphaRow rest).trans (by rw [alphaRow_of_wf6 hwf])
  case bc3Block blk => exact takeLe_map_word (n := 16) blk (by omega) .bc3Block rest
  case bc4Block blk => exact takeLe_map_word (n := 8) blk (by omega) .bc4Block rest
  case bc7Mode0 blk => exact decode_bc7RowOfMode (m := 0) (by omega) hwf rest
  case bc7Mode1 blk => exact decode_bc7RowOfMode (m := 1) (by omega) hwf rest
  case bc7Mode2 blk => exact decode_bc7RowOfMode (m := 2) (by omega) hwf rest
  case bc7Mode3 blk => exact decode_bc7RowOfMode (m := 3) (by omega) hwf rest
  case bc7Mode4 blk => exact decode_bc7RowOfMode (m := 4) (by omega) hwf rest
  case bc7Mode5 blk => exact decode_bc7RowOfMode (m := 5) (by omega) hwf rest
  case bc7Mode6 blk => exact decode_bc7RowOfMode (m := 6) (by omega) hwf rest
  case bc7Mode7 blk => exact decode_bc7RowOfMode (m := 7) (by omega) hwf rest
  case bc7Reserved blk => exact decode_bc7RowOfMode (m := 8) (by omega) hwf rest
  case lzssFlags kinds =>
    rw [encode, ← leBytes_one]
    exact takeLe_map_word (n := 1) kinds (by omega) .lzssFlags rest
  case lzssLit v =>
    rw [encode, ← leBytes_one]
    exact takeLe_map_word (n := 1) v (by omega) .lzssLit rest
  case lzssRef off l =>
    rw [← lzssRefOf_word, (lzssRefOf_codes _).2]
    exact takeLe_map_word (n := 2) _ (by omega) lzssRefOf rest
  case lzssCsum stored => exact takeLe_map_word (n := 4) stored (by omega) .lzssCsum rest
  case lzoFirstLit b => exact if_pos (of_decide_eq_true hwf)
  case lzoLitExt => rfl
  case lzoLit l =>
    obtain ⟨hnat, -, hl⟩ := nibbles_control 0#4 l
    have hne : (0#4 ++ l : Byte) ≠ 0 := fun h => of_decide_eq_true hwf (hl.symm.trans (by rw [h]; rfl))
    have hlt : (0#4 ++ l).toNat < 16 := by rw [hnat, BitVec.toNat_zero]; omega
    exact (decodeLzoToken_outer_lt16 hlt hne).trans (by rw [hl])
  case lzoM1Far d s h =>
    obtain ⟨hnat, hd, hs⟩ := lzoM1_control d s
    exact (decodeLzoToken_afterRun_lt16 (by omega) h).trans (by rw [hd, hs])
  case lzoM1Near d s h =>
    obtain ⟨hnat, hd, hs⟩ := lzoM1_control d s
    exact (decodeLzoToken_afterShort_lt16 (by omega) h).trans (by rw [hd, hs])
  case lzoM4 x l w =>
    rw [← lzoM4Of_of_wf hwf]
    exact decode_lzoM4Of x l w rest
  case lzoEof l s =>
    rw [← lzoM4Of_zero]
    exact decode_lzoM4Of 0 l (s.setWidth 16) rest
  case lzoM3 l w => exact decode_lzoM3 l w rest
  case lzoM2 l d s h =>
    obtain ⟨hnat, hl, hd, hs⟩ := lzoM2_control l d s
    have hl2 : 2 ≤ l.toNat := of_decide_eq_true hwf
    exact (decodeLzoToken_ge64 (by omega) h).trans (by rw [hl, hd, hs])
  case lzoExt zeros v => exact decodeChain_replicate (of_decide_eq_true hwf) .lzoExt zeros rest
  case lz4Target target => exact takeLe_map_word (n := 4) target (by omega) .lz4Target rest
  case lz4Chunk size last => exact decodeChunk_encode size last rest
  case lz4Seq ll ml =>
    obtain ⟨-, hll, hml⟩ := nibbles_control ll ml
    exact (decode_lz4Seq_cons _ rest).trans (by rw [hll, hml])
  case lz4Ext ffs v => exact decodeChain_replicate (of_decide_eq_true hwf) .lz4Ext ffs rest

end Sys2Proof
end

section
/-! PROOFS. What the decoder answers is well formed, and the bytes begin with its encoding (30_encoding.md R70–R100). -/

namespace Sys2Proof

/-- The instruction is well formed and `bs` begins with its encoding. -/
def Instr.heads (i : Instr) (bs : List Byte) : Prop := i.wf = true ∧ encode i <+: bs

theorem Instr.codes.heads {i : Instr} {a bs : List Byte} (h : i.codes a) (ha : a <+: bs) : i.heads bs :=
  ⟨h.1, h.2.symm ▸ ha⟩

/-! ### Fixed widths -/

theorem takeLe_map_eq_ok {n : Nat} {bs : List Byte} {f : Nat → Instr} {i : Instr} (h : (takeLe n bs).map f = .ok i) :
    ∃ v, v < 256 ^ n ∧ leBytes n v <+: bs ∧ i = f v := by
  cases ht : takeLe n bs with
  | error e => simp [ht, Except.map] at h
  | ok v => exact ⟨v, takeLe_lt ht, leBytes_prefix_of_takeLe ht, by simpa [ht, Except.map] using h.symm⟩

/-- A row that is one little-endian word is headed by it, after a control byte or none. -/
theorem heads_of_takeLe_map {w n : Nat} {bs : List Byte} {i : Instr} {f : BitVec w → Instr} (front : List Byte)
    (hw : w = 8 * n) (h : (takeLe n bs).map (fun v => f (BitVec.ofNat w v)) = .ok i)
    (hf : ∀ x, (f x).codes (front ++ leBytes n x.toNat)) : i.heads (front ++ bs) := by
  obtain ⟨v, hv, hbs, rfl⟩ := takeLe_map_eq_ok h
  have hx : (BitVec.ofNat w v).toNat = v := by
    rw [BitVec.toNat_ofNat, hw, Nat.pow_mul]
    exact Nat.mod_eq_of_lt hv
  have hcodes := hf (BitVec.ofNat w v)
  rw [hx] at hcodes
  exact hcodes.heads ((List.prefix_append_right_inj front).2 hbs)

theorem commandOf_codes {op : Byte} {i : Instr} (h : commandOf op = some i) : i.codes [op] := by
  unfold commandOf at h
  split at h <;> simp only [Option.some.injEq, reduceCtorEq] at h <;> subst h
  all_goals
    rename_i hop
    exact ⟨rfl, congrArg (fun b : Byte => [b]) (BitVec.eq_of_toNat_eq hop.symm)⟩

theorem decodeChain_heads {x : Byte} {mk : Nat → Byte → Instr} {bs : List Byte} {i : Instr}
    (h : decodeChain x mk bs = .ok i) (hmk : ∀ n v, v ≠ x → (mk n v).codes (List.replicate n x ++ [v])) :
    i.heads bs := by
  obtain ⟨n, v, rest, rfl, hv, rfl⟩ := decodeChain_eq_ok h
  exact (hmk n v hv).heads ⟨rest, by simp⟩

theorem decodeChunk_heads {bs : List Byte} {i : Instr} (h : decodeChunk bs = .ok i) : i.heads bs := by
  unfold decodeChunk at h
  split at h
  case h_1 => simp at h
  case h_2 n hn =>
    have hx : (BitVec.ofNat 32 n).toNat = n := Nat.mod_eq_of_lt (takeLe_lt hn)
    split at h
    case isTrue hflags =>
      obtain rfl := Except.ok.inj h
      have hcodes := lz4Chunk_codes hflags
      rw [hx] at hcodes
      exact hcodes.heads (leBytes_prefix_of_takeLe hn)
    case isFalse => simp at h

theorem lz4Seq_codes (t : Byte) : (Instr.lz4Seq (t.extractLsb' 4 4) (t.extractLsb' 0 4)).codes [t] := by
  have ht : t.extractLsb' 4 4 ++ t.extractLsb' 0 4 = t := BitVec.eq_of_toNat_eq (by
    simp only [toNat_append_add, toNat_field]
    omega)
  exact ⟨rfl, congrArg (fun b : Byte => [b]) ht⟩

/-! ### LZO1X tokens -/

section
variable {t : Byte}

theorem lzoM2_control_eq : t.extractLsb' 5 3 ++ t.extractLsb' 2 3 ++ t.extractLsb' 0 2 = t :=
  BitVec.eq_of_toNat_eq (by
    simp only [toNat_append_add, toNat_field]
    omega)

theorem lzoM3_control_eq (h : 32 ≤ t.toNat) (h' : t.toNat < 64) : 1#3 ++ t.extractLsb' 0 5 = t :=
  BitVec.eq_of_toNat_eq (by
    simp only [toNat_append_add, toNat_field, BitVec.toNat_ofNat]
    omega)

theorem lzoM4_control_eq (h : 16 ≤ t.toNat) (h' : t.toNat < 32) :
    1#4 ++ t.extractLsb' 3 1 ++ t.extractLsb' 0 3 = t :=
  BitVec.eq_of_toNat_eq (by
    simp only [toNat_append_add, toNat_field, BitVec.toNat_ofNat]
    omega)

theorem lzoM1_control_eq (h : t.toNat < 16) : 0#4 ++ t.extractLsb' 2 2 ++ t.extractLsb' 0 2 = t :=
  BitVec.eq_of_toNat_eq (by
    simp only [toNat_append_add, toNat_field, BitVec.toNat_ofNat]
    omega)

theorem lzoLit_control_eq (h : t.toNat < 16) : 0#4 ++ t.extractLsb' 0 4 = t :=
  BitVec.eq_of_toNat_eq (by
    simp only [toNat_append_add, toNat_field, BitVec.toNat_ofNat]
    omega)

end

theorem lzoShort_heads {st : LzoSt} {t : Byte} {rest : List Byte} {i : Instr} (ht : t.toNat < 16)
    (h : lzoShort st t rest = .ok i) : i.heads (t :: rest) := by
  unfold lzoShort at h
  split at h
  · split at h
    case isTrue => simp at h
    case isFalse h0 =>
      obtain rfl := Except.ok.inj h
      have hl : t.extractLsb' 0 4 ≠ 0 := fun hl => h0 (by rw [← lzoLit_control_eq ht, hl]; rfl)
      exact ⟨decide_eq_true hl, by simp [encode, lzoLit_control_eq ht]⟩
  all_goals
    split at h
    · simp at h
    · obtain rfl := Except.ok.inj h
      exact ⟨rfl, by simp [encode, lzoM1_control_eq ht]⟩

theorem decodeLzoToken_heads {st : LzoSt} {bs : List Byte} {i : Instr} (h : decodeLzoToken st bs = .ok i) :
    i.heads bs := by
  cases bs with
  | nil => simp [decodeLzoToken] at h
  | cons t rest =>
    simp only [decodeLzoToken] at h
    split at h
    case isTrue h64 =>
      split at h
      · simp at h
      · obtain rfl := Except.ok.inj h
        have hl : 2 ≤ (t.extractLsb' 5 3).toNat := by rw [toNat_field]; omega
        exact ⟨decide_eq_true hl, by simp [encode, lzoM2_control_eq]⟩
    case isFalse h64 =>
      split at h
      case isTrue h32 =>
        split at h
        · simp at h
        · exact heads_of_takeLe_map [t] rfl h fun w => ⟨rfl, by rw [encode, lzoM3_control_eq h32 (by omega)]; rfl⟩
      case isFalse h32 =>
        split at h
        case isTrue h16 =>
          split at h
          · simp at h
          · refine heads_of_takeLe_map [t] rfl h fun w => ?_
            have hcodes := lzoM4Of_codes (t.extractLsb' 3 1) (t.extractLsb' 0 3) w
            rwa [lzoM4_control_eq h16 (by omega)] at hcodes
        case isFalse h16 => exact lzoShort_heads (by omega) h

theorem decodeLzoBody_heads {bs : List Byte} {i : Instr} (h : decodeLzoBody bs = .ok i) : i.heads bs := by
  cases bs with
  | nil => simp [decodeLzoBody] at h
  | cons t rest =>
    simp only [decodeLzoBody] at h
    split at h
    case isTrue ht =>
      obtain rfl := Except.ok.inj h
      exact ⟨rfl, by simp [encode, ht]⟩
    split at h
    case isTrue ht => exact heads_of_takeLe_map [t] rfl h fun w => ⟨rfl, by rw [ht]; rfl⟩
    split at h
    case isTrue ht => exact heads_of_takeLe_map [t] rfl h fun w => by rw [ht]; exact lzoM4Of_codes 0 0 w
    split at h
    case isTrue ht => exact heads_of_takeLe_map [t] rfl h fun w => by rw [ht]; exact lzoM4Of_codes 1 0 w
    case isFalse => simp at h

/-- Settles O2, place by place. -/
theorem decodedBytesReencode : Obligations.DecodedBytesReencode := by
  intro c bs i h
  change i.heads bs
  cases c <;> simp only [decode] at h
  case command =>
    split at h
    · simp at h
    · split at h
      case h_1 hop =>
        obtain rfl := Except.ok.inj h
        exact (commandOf_codes hop).heads ⟨_, rfl⟩
      case h_2 => simp at h
  case bc1 => exact heads_of_takeLe_map [] rfl h bc1Row_codes
  case alpha => exact heads_of_takeLe_map [] rfl h alphaRow_codes
  case bc7 => exact heads_of_takeLe_map [] rfl h bc7Row_codes
  case bc2 | bc3 | bc4 | lzssCsum | lz4Target => exact heads_of_takeLe_map [] rfl h fun _ => ⟨rfl, rfl⟩
  case lzssFlags | lzssLit => exact heads_of_takeLe_map [] rfl h fun _ => ⟨rfl, (leBytes_one _).symm⟩
  case lzssRef => exact heads_of_takeLe_map [] rfl h lzssRefOf_codes
  case lzoFirst =>
    split at h
    · simp at h
    · split at h
      case isTrue hb =>
        obtain rfl := Except.ok.inj h
        exact ⟨decide_eq_true hb, _, rfl⟩
      case isFalse => simp at h
  case lzoToken st => exact decodeLzoToken_heads h
  case lzoBody => exact decodeLzoBody_heads h
  case lzoExt => exact decodeChain_heads h fun n v hv => ⟨decide_eq_true hv, rfl⟩
  case lz4Chunk => exact decodeChunk_heads h
  case lz4Seq =>
    cases bs with
    | nil => simp [takeLe, Except.map] at h
    | cons t rest =>
      obtain rfl := Except.ok.inj ((decode_lz4Seq_cons t rest).symm.trans h)
      exact (lz4Seq_codes t).heads ⟨rest, rfl⟩
  case lz4Ext => exact decodeChain_heads h fun n v hv => ⟨decide_eq_true hv, rfl⟩

end Sys2Proof
end

section
/-! PROOFS. Words that the spec's encodings give, and an undefined command code (30_encoding.md R70, R71). -/

namespace Sys2Proof.Machine

/-- Settles O3: each word is evaluated. -/
theorem sampleWordsDecode : Obligations.SampleWordsDecode := by
  unfold Obligations.SampleWordsDecode
  decide

/-- A code that the table of R70 does not list selects no command (R71). -/
theorem commandOf_eq_none {op : Byte}
    (h : op ∉ ([0x01, 0x02, 0x03, 0x04, 0x05, 0x06, 0x07, 0x10, 0x11, 0x12] : List Byte)) : commandOf op = none := by
  unfold commandOf
  split
  case h_11 => rfl
  all_goals exact absurd h (by simp [*, ← BitVec.toNat_inj])

/-- Settles O6: the issued command's own code is what the step reads, and R71 names the rejection's error. -/
theorem undefinedCommandIsBadCommand : Obligations.UndefinedCommandIsBadCommand := by
  intro s hb hs hop
  have hsite := fetchSite_starting hs
  have hfetch : fetch s = .fail ⟨.badCommand, 0⟩ := by
    simp only [fetch, hsite, decode, commandOf_eq_none hop, rejectFailure]
  simp only [step, hb, hfetch]

end Sys2Proof.Machine
end

section
/-! PROOFS. Where the fields and indices of a BC7 block stand: the layout tables and the mode table agree, and the
second index set follows the first without a gap (30_encoding.md R78–R88, 45_bc7.md R171–R177). -/

namespace Sys2Proof.Machine

/-! ### Fields of a block -/

theorem blkBits_eq_fieldOf (b : BitVec 128) (lo w : Nat) : blkBits b lo w = fieldOf b lo w := by
  have hwords : (blkLo b).toNat ||| (blkHi b).toNat <<< 64 = b.toNat := by
    have hb : blkHi b ++ blkLo b = b := BitVec.eq_of_toNat_eq (by
      simp only [blkHi, blkLo, toNat_append_add, toNat_field]
      omega)
    rw [Nat.or_comm, ← BitVec.toNat_append, hb]
  rw [blkBits, bits, hwords, Nat.shiftRight_eq_div_pow, fieldOf]

@[simp] theorem fieldOf_width_zero {n : Nat} (b : BitVec n) (lo : Nat) : fieldOf b lo 0 = 0 := by
  rw [fieldOf, Nat.pow_zero, Nat.mod_one]

theorem fieldOf_lt {n : Nat} (b : BitVec n) (lo w : Nat) : fieldOf b lo w < 2 ^ w := Nat.mod_lt _ (Nat.two_pow_pos w)

theorem fieldRun_eq (b : BitVec 128) (pos w n : Nat) :
    fieldRun b pos w n = (List.range n).map fun e => fieldOf b (pos + w * e) w := by
  simp only [fieldRun, blkBits_eq_fieldOf]

/-! ### Layouts and the mode table -/

/-- The layout of a mode gives the widths, counts and places that R171, R173, R174 and R177 compute from the
mode table; an index set has its bits less one for each anchor, and the last set ends with the block. -/
structure Bc7Layout.Fits (y : Bc7Layout) (md : Bc7Mode) : Prop where
  partitionBits : y.partitionBits = md.pb
  rotationBits : y.rotationBits = md.rb
  rotationPlace : md.rb = 0 ∨ md.pb = 0
  idxModeBits : y.idxModeBits = md.isb
  idxModePlace : md.isb = 0 ∨ y.mode + 1 + md.pb + md.rb = 7
  endpoints : y.endpoints = 2 * md.ns
  colorBits : y.colorBits = md.cb
  red : y.red = endpointPos md y.mode
  green : y.green = endpointPos md y.mode + 2 * md.ns * md.cb
  blue : y.blue = endpointPos md y.mode + 2 * (2 * md.ns) * md.cb
  alphaBits : y.alphaBits = md.ab
  alpha : y.alpha = endpointPos md y.mode + 3 * (2 * md.ns) * md.cb
  pbits : y.pbits = pbitCount md
  pbit : y.pbit = pbitPos md y.mode
  index1 : y.index1 = pbitPos md y.mode + pbitCount md
  subsets : md.ns = 1 ∨ md.ns = 2 ∨ md.ns = 3
  partitions : md.pb ≤ 6
  indexBits : 0 < md.ib
  firstSet : y.index1 + 16 * md.ib = y.index2 + md.ns
  secondSet : md.ib2 = 0 ∨ y.index2 + 16 * md.ib2 = 128 + 1

theorem layouts_fit : ∀ y ∈ bc7Layouts, y.Fits (modeRow standardRom y.mode) := by
  intro y hy
  simp only [bc7Layouts, List.mem_cons, List.not_mem_nil, or_false] at hy
  rcases hy with rfl | rfl | rfl | rfl | rfl | rfl | rfl | rfl <;>
    exact ⟨rfl, rfl, by decide, rfl, by decide, rfl, rfl, rfl, rfl, rfl, rfl, rfl, rfl, rfl, rfl, by decide, by decide,
      by decide, rfl, by decide⟩

/-- Settles O30: the layout's places are those of the mode table; a mode has no partition field before its rotation
field, and its index selection, if any, is bit 7. -/
theorem bc7FieldsStandAtTheirBits : Obligations.BC7FieldsStandAtTheirBits := by
  intro blk y hy
  have hfit := layouts_fit y hy
  simp only [bc7Fields, blkBits_eq_fieldOf, fieldRun_eq, hfit.partitionBits, hfit.rotationBits, hfit.idxModeBits,
    hfit.endpoints, hfit.colorBits, hfit.alphaBits, hfit.pbits, hfit.red, hfit.green, hfit.blue, hfit.alpha, hfit.pbit,
    true_and]
  constructor
  · rcases hfit.rotationPlace with h | h <;> simp [h]
  · rcases hfit.idxModePlace with h | h <;> simp [h]

/-! ### Index sets (R88, R177) -/

/-- The width of texel `i`'s index in a set of `w`-bit indices. -/
def indexWidth (anchors : List Nat) (w i : Nat) : Nat := if i ∈ anchors then w - 1 else w

/-- How many bits the indices of texels `i` to `i + n - 1` take. -/
def indexBitsBefore (anchors : List Nat) (w i n : Nat) : Nat :=
  ((List.range n).map fun j => indexWidth anchors w (i + j)).sum

theorem indexBitsBefore_none (anchors : List Nat) (w i : Nat) : indexBitsBefore anchors w i 0 = 0 := rfl

theorem indexBitsBefore_succ (anchors : List Nat) (w i n : Nat) :
    indexBitsBefore anchors w i (n + 1) = indexWidth anchors w i + indexBitsBefore anchors w (i + 1) n := by
  simp only [indexBitsBefore, List.range_succ_eq_map, List.map_cons, List.sum_cons, List.map_map, Function.comp_def,
    Nat.add_zero, Nat.succ_eq_add_one, Nat.add_assoc, Nat.add_comm 1]

theorem indexBitsBefore_zero (anchors : List Nat) (w n : Nat) :
    indexBitsBefore anchors w 0 n = ((List.range n).map (indexWidth anchors w)).sum := by
  simp only [indexBitsBefore, Nat.zero_add]

/-- An index set holds, for each texel, the field after those of the texels before it. -/
theorem indexRun_eq (b : BitVec 128) (anchors : List Nat) (w n i pos : Nat) :
    indexRun b anchors w n i pos = (List.range n).map fun j =>
      fieldOf b (pos + indexBitsBefore anchors w i j) (indexWidth anchors w (i + j)) := by
  induction n generalizing i pos with
  | zero => rfl
  | succ n ih =>
    simp [indexRun, ih, blkBits_eq_fieldOf, List.range_succ_eq_map, indexBitsBefore_succ, indexBitsBefore_none,
      indexWidth, Nat.add_assoc, Nat.add_comm 1]

theorem indexEnd_eq (anchors : List Nat) (w n i pos : Nat) :
    indexEnd anchors w n i pos = pos + indexBitsBefore anchors w i n := by
  induction n generalizing i pos with
  | zero => rfl
  | succ n ih => simp [indexEnd, ih, indexBitsBefore_succ, indexWidth, Nat.add_assoc]

/-- Different anchors among the texels of a set save one bit each. -/
theorem indexBits_total {anchors : List Nat} {w n : Nat} (hnodup : anchors.Nodup) (hlt : ∀ a ∈ anchors, a < n)
    (hw : 0 < w) : indexBitsBefore anchors w 0 n + anchors.length = n * w := by
  have hcount : ∑ i ∈ Finset.range n, (if i ∈ anchors then 1 else 0) = anchors.length := by
    rw [← Finset.card_filter, ← List.toFinset_card_of_nodup hnodup]
    congr 1
    ext a
    simpa using hlt a
  have hwidth : ∀ i, indexWidth anchors w i + (if i ∈ anchors then 1 else 0) = w := by
    intro i
    unfold indexWidth
    split <;> omega
  have hsum : indexBitsBefore anchors w 0 n = ∑ i ∈ Finset.range n, indexWidth anchors w i := by
    rw [indexBitsBefore_zero]
    rfl
  calc indexBitsBefore anchors w 0 n + anchors.length
    _ = ∑ i ∈ Finset.range n, (indexWidth anchors w i + if i ∈ anchors then 1 else 0) := by
      rw [Finset.sum_add_distrib, hcount, hsum]
    _ = n * w := by simp [hwidth]

/-- The anchors of the standard tables are different texels, as many as the mode has subsets (R203, R204). -/
theorem anchorsOf_standard {ns p : Nat} (hns : ns = 1 ∨ ns = 2 ∨ ns = 3) (hp : p < 64) :
    (anchorsOf standardRom ns p).Nodup ∧ (∀ a ∈ anchorsOf standardRom ns p, a < 16) ∧
      (anchorsOf standardRom ns p).length = ns := by
  have h2 : ∀ p < 64, (anchorsOf standardRom 2 p).Nodup ∧ (∀ a ∈ anchorsOf standardRom 2 p, a < 16) := by decide
  have h3 : ∀ p < 64, (anchorsOf standardRom 3 p).Nodup ∧ (∀ a ∈ anchorsOf standardRom 3 p, a < 16) := by decide
  obtain rfl | rfl | rfl := hns
  · simp [anchorsOf]
  · exact ⟨(h2 p hp).1, (h2 p hp).2, rfl⟩
  · exact ⟨(h3 p hp).1, (h3 p hp).2, rfl⟩

theorem indexRun_length (b : BitVec 128) (anchors : List Nat) (w n i pos : Nat) :
    (indexRun b anchors w n i pos).length = n := by simp [indexRun_eq]

/-- Index `i` of a set that starts at texel 0 and bit `pos`. -/
theorem indexRun_getD (b : BitVec 128) (anchors : List Nat) (w pos : Nat) {n i : Nat} (hi : i < n) :
    (indexRun b anchors w n 0 pos).getD i 0 =
      fieldOf b (pos + ((List.range i).map (indexWidth anchors w)).sum) (indexWidth anchors w i) := by
  simp [indexRun_eq, hi, indexBitsBefore_zero]

theorem indexRun_anchor_lt (b : BitVec 128) {anchors : List Nat} (w pos : Nat) {n i : Nat} (hi : i ∈ anchors) :
    (indexRun b anchors w n 0 pos).getD i 0 < 2 ^ (w - 1) := by
  by_cases hn : i < n
  · rw [indexRun_getD b anchors w pos hn, indexWidth, if_pos hi]
    exact fieldOf_lt ..
  · rw [List.getD_eq_default _ _ (by rw [indexRun_length]; omega)]
    exact Nat.two_pow_pos _

section
variable {y : Bc7Layout} (hy : y ∈ bc7Layouts) (blk : BitVec 128)
include hy

theorem standardPartition_lt : (bc7Fields standardRom y.mode blk).partition < 64 := by
  have hpb := (layouts_fit y hy).partitions
  calc blkBits blk (y.mode + 1) (modeRow standardRom y.mode).pb
    _ < 2 ^ (modeRow standardRom y.mode).pb := by rw [blkBits_eq_fieldOf]; exact fieldOf_lt ..
    _ ≤ 2 ^ 6 := Nat.pow_le_pow_right (by omega) hpb

/-- The first index set starts where the layout says. -/
theorem bc7Fields_i1 : (bc7Fields standardRom y.mode blk).i1 =
    indexRun blk (anchorsOf standardRom (modeRow standardRom y.mode).ns (bc7Fields standardRom y.mode blk).partition)
      (modeRow standardRom y.mode).ib 16 0 y.index1 := by
  rw [(layouts_fit y hy).index1]
  rfl

/-- The first set ends where the second begins. -/
theorem firstSet_end : y.index1 + indexBitsBefore
    (anchorsOf standardRom (modeRow standardRom y.mode).ns (bc7Fields standardRom y.mode blk).partition)
    (modeRow standardRom y.mode).ib 0 16 = y.index2 := by
  have hfit := layouts_fit y hy
  obtain ⟨hnodup, hlt, hlen⟩ := anchorsOf_standard hfit.subsets (standardPartition_lt hy blk)
  have htotal := indexBits_total hnodup hlt hfit.indexBits
  have hfirst := hfit.firstSet
  omega

/-- The second index set starts where the layout says. -/
theorem bc7Fields_i2 (h2 : (modeRow standardRom y.mode).ib2 ≠ 0) : (bc7Fields standardRom y.mode blk).i2 =
    indexRun blk [0] (modeRow standardRom y.mode).ib2 16 0 y.index2 := by
  rw [← firstSet_end hy blk, ← indexEnd_eq, (layouts_fit y hy).index1]
  exact if_neg h2

/-- The second set ends with the block. -/
theorem secondSet_end (h2 : (modeRow standardRom y.mode).ib2 ≠ 0) :
    y.index2 + indexBitsBefore [0] (modeRow standardRom y.mode).ib2 0 16 = 128 := by
  have hsecond := (layouts_fit y hy).secondSet
  have htotal := indexBits_total (anchors := [0]) (n := 16) (by simp) (by simp) (Nat.pos_of_ne_zero h2)
  rw [List.length_singleton] at htotal
  omega

end

/-- Settles O31: the rules of an index set, at the places of the layout's two sets. -/
theorem bc7IndicesArePackedWithNarrowAnchors : Obligations.BC7IndicesArePackedWithNarrowAnchors := by
  intro blk y hy m start1 start2 md f anchors w1 w2
  have hi1 : f.i1 = indexRun blk anchors md.ib 16 0 start1 := bc7Fields_i1 hy blk
  rw [hi1]
  refine ⟨indexRun_length .., fun i hi => indexRun_getD blk anchors md.ib start1 hi,
    fun i hi => indexRun_anchor_lt blk md.ib start1 hi, ?_, fun h2 => ?_⟩
  · have hend := firstSet_end hy blk
    rwa [indexBitsBefore_zero] at hend
  · have hi2 : f.i2 = indexRun blk [0] md.ib2 16 0 start2 := bc7Fields_i2 hy blk h2
    have hw2 : w2 = indexWidth [0] md.ib2 := by
      funext i
      simp [w2, indexWidth]
    rw [hi2, hw2]
    refine ⟨indexRun_length .., fun i hi => indexRun_getD blk [0] md.ib2 start2 hi, ?_⟩
    have hend := secondSet_end hy h2
    rwa [indexBitsBefore_zero] at hend

end Sys2Proof.Machine
end

section
/-! PROOFS. Every command ends: each row of a running command shortens what is left of it, by blocks, output bytes or input
bytes (40_primitives.md R124), and a Busy engine runs exactly the row its bytes decode to (R123). -/

namespace Sys2Proof.Machine

/-- Settles O5: the decoded row is the only thing a step of a Busy engine runs. -/
theorem stepRunsDecodedRow : Obligations.StepRunsDecodedRow := by
  refine fun s i _ => ⟨fun hb hdecode => ?_, step_not_busy⟩
  obtain ⟨i', hdecode', hstep⟩ | ⟨r, hreject, -⟩ := step_busy_cases hb
  · obtain rfl : i' = i := Except.ok.inj (hdecode'.symm.trans hdecode)
    exact hstep
  · exact absurd (hreject.symm.trans hdecode) (by simp)

/-! ### Turns after which the command goes on -/

/-- Nothing is asked of the result of a command that returns. -/
def anyResult {ρ : Type} (_ : ρ) (_ : OutputValue) : Prop := True

/-- After a turn the command has ended, or its engine holds registers that the turn ensures. -/
theorem settle_ends_or_goes {ρ : Type} {put : State → ρ → State} {s t : State} {u : Turn ρ} {P : ρ → Prop}
    (hu : u.ensures P anyResult) (h : settle put s u = .next t) :
    t.status ≠ .busy ∨ ∃ r, P r ∧ t = put s r := by
  obtain ⟨r, rfl, rfl⟩ | ⟨r, v, -, rfl⟩ | ⟨e, -, rfl⟩ := settle_cases h
  · exact .inr ⟨r, hu, rfl⟩
  · exact .inl (by simp)
  · exact .inl (by simp)

/-! ### BCn: rows left by the blocks of the grid -/

/-- The rows a BCn command still runs: two a block, and one for the alpha block at hand when it has been read. -/
def bcRowsLeft (c : CmdRecord) (r : BcRegs) : Nat :=
  2 * (gridBlocks c r - r.k.toNat) + if r.palette then 0 else 1

theorem rowsLeft_bc {s : State} (he : engineOf s.cmd.op = some .bc) : rowsLeft s = bcRowsLeft s.cmd s.bc := by
  obtain hop | hop | hop | hop | hop := engineOf_bc he <;> simp [rowsLeft, bcRowsLeft, hop]

theorem blockCount_le (reg : BitVec 30) (n : BitVec 32) : blockCount reg n ≤ 2 ^ 30 := by
  unfold blockCount
  split <;> omega

theorem gridBlocks_le (c : CmdRecord) (r : BcRegs) : gridBlocks c r ≤ 2 ^ 60 :=
  (Nat.mul_le_mul (blockCount_le r.bw c.width) (blockCount_le r.bh c.height)).trans (by norm_num)

/-- A running BCn command has the grid of its image in its registers. -/
theorem gridBlocks_of_bcRunning {s : State} (h : bcRunning s) :
    gridBlocks s.cmd s.bc = blocksAlong s.cmd.width * blocksAlong s.cmd.height := by
  obtain ⟨hbw, hbh, -⟩ := h
  simp only [gridBlocks, hbw, hbh, blockCount_ofNat]

/-- One block of the walk takes a block off the rows left. -/
theorem bcEmit_shortens (c : CmdRecord) (r : BcRegs) (pix : List Pixel) :
    (bcEmit c r pix).ensures (fun r' => bcRowsLeft c r' < bcRowsLeft c r) anyResult := by
  obtain ⟨hlt, he⟩ | ⟨-, he⟩ := bcEmit_cases c r pix <;> rw [he]
  · have hgrid := gridBlocks_le c r
    have hnext : (r.k + 1).toNat = r.k.toNat + 1 := by
      rw [BitVec.toNat_add]
      exact Nat.mod_eq_of_lt (by simp; omega)
    change 2 * (gridBlocks c r - (r.k + 1).toNat) + 1 < bcRowsLeft c r
    rw [hnext, bcRowsLeft]
    omega
  · trivial

theorem bcStart_rowsLeft_le (n : Nat) (c : CmdRecord) :
    (bcStart n c).ensures (fun r => bcRowsLeft c r ≤ 2 * (blocksAlong c.width * blocksAlong c.height) + 1)
      anyResult := by
  obtain ⟨-, h⟩ | ⟨-, -, h⟩ | ⟨-, -, h⟩ := bcStart_cases n c <;> rw [h]
  · trivial
  · trivial
  · simp [Turn.ensures, bcRowsLeft, gridBlocks, BcRegs.reset]

/-- A running command reads an alpha block only while the block at hand has no palette yet. -/
theorem palette_of_alphaPlace {s : State} (hs : s.starting = false) (he : engineOf s.cmd.op = some .bc)
    (h : (fetchSite s).1 = .alpha) : s.bc.palette = false := by
  obtain hop | hop | hop | hop | hop := engineOf_bc he <;> simp_all [fetchSite, bcSite]

/-- The row of a whole block emits its pixels. -/
theorem exec_blockRow {i : Instr} (hi : rowEngine i = some .bc) (ha : homeCtx i ≠ .alpha) (s : State) :
    ∃ blk w pix, exec i s = settle putBc s (bcEmit s.cmd { s.bc with blk := blk, work := w } pix) := by
  cases i
  case alphaInterp8 | alphaInterp6 => exact absurd rfl ha
  case bc1Block4 | bc1Block3 | bc2Block | bc3Block | bc4Block | bc7Mode0 | bc7Mode1 | bc7Mode2 | bc7Mode3 | bc7Mode4 |
      bc7Mode5 | bc7Mode6 | bc7Mode7 | bc7Reserved => exact ⟨_, _, _, rfl⟩
  case lzoM3 | lzoM4 | lzoEof => simp at hi
  all_goals simp [rowEngine, homeCtx, placeEngine] at hi

/-- A row of a running BCn command emits a block or reads the alpha block that its block still waits for; either way fewer
rows are left. -/
theorem exec_bc_shortens {s : State} {i : Instr} (hs : s.starting = false) (he : engineOf s.cmd.op = some .bc)
    (hd : decode (fetchSite s).1 (fetchSite s).2 = .ok i) :
    ∃ u, exec i s = settle putBc s u ∧ u.ensures (fun r => bcRowsLeft s.cmd r < bcRowsLeft s.cmd s.bc) anyResult := by
  have hplace := fetchSite_engine hs he
  have hi : rowEngine i = some .bc := (rowEngine_of_decode hd).trans hplace
  by_cases ha : homeCtx i = .alpha
  · have hpal := palette_of_alphaPlace hs he ((homeCtx_of_decode hd (by simp [hplace])).symm.trans ha)
    obtain ⟨blk, w, ⟨pix, hx⟩ | hx⟩ := exec_bcRow hi s
    · exact ⟨_, hx, bcEmit_shortens s.cmd { s.bc with blk := blk, work := w } pix⟩
    · exact ⟨_, hx, by simp [Turn.ensures, bcRowsLeft, gridBlocks, hpal]⟩
  · obtain ⟨blk, w, pix, hx⟩ := exec_blockRow hi ha s
    exact ⟨_, hx, bcEmit_shortens s.cmd { s.bc with blk := blk, work := w } pix⟩

/-! ### LZSS: rows left by the bytes of the output -/

/-- The rows an LZSS command still runs: a flag byte and a token an output byte, less the flag byte when it has been read,
and the trailer. -/
def lzssRowsLeft (c : CmdRecord) (r : LzssRegs) : Nat :=
  2 * (c.expectedSize.toNat - r.out.length) + (if r.fresh then 0 else 1) + 1

theorem rowsLeft_lzss {s : State} (he : engineOf s.cmd.op = some .lzss) : rowsLeft s = lzssRowsLeft s.cmd s.lzss := by
  simp [rowsLeft, lzssRowsLeft, engineOf_lzss he]

theorem lzssInit_rowsLeft (c : CmdRecord) : lzssRowsLeft c (lzssInit c) = 2 * c.expectedSize.toNat + 2 := rfl

/-- A token that adds to an output not yet complete leaves fewer rows, also when it uses up the flag byte's mark. -/
theorem lzssRowsLeft_lt {c : CmdRecord} {r r' : LzssRegs} (hmore : r.out.length < c.expectedSize.toNat)
    (hout : r.out.length < r'.out.length) : lzssRowsLeft c r' < lzssRowsLeft c r := by
  unfold lzssRowsLeft
  split <;> split <;> omega

/-- A flag byte is read only when none is waiting for its first token. -/
theorem fresh_of_flagsPlace {s : State} (h : (lzssSite s).1 = .lzssFlags) : s.lzss.fresh = false := by
  by_contra hfresh
  simp only [lzssSite, Bool.not_eq_false] at h hfresh
  rw [if_pos hfresh] at h
  split at h
  · simp at h
  · obtain hc | hc := lzssTokenCtx_cases s.lzss.flags <;> simp [hc] at h

/-- A row of a running LZSS command refills the flags for a token to come, adds to the output or is the trailer. -/
theorem exec_lzss_shortens {s : State} {i : Instr} (hd : decode (lzssSite s).1 (lzssSite s).2 = .ok i) :
    ∃ u, exec i s = settle putLzss s u ∧
      u.ensures (fun r => lzssRowsLeft s.cmd r < lzssRowsLeft s.cmd s.lzss) anyResult := by
  have hengine : rowEngine i = some .lzss := (rowEngine_of_decode hd).trans (lzssSite_engine s)
  have hhome : homeCtx i = (lzssSite s).1 := homeCtx_of_decode hd (by simp [lzssSite_engine])
  have hplace := lzssSite_place s
  rw [← hhome] at hplace
  cases i
  case lzssFlags kinds =>
    have hfresh := fresh_of_flagsPlace hhome.symm
    exact ⟨_, exec_lzssFlags kinds s, by simp [Turn.ensures, lzssRowsLeft, hfresh]⟩
  case lzssLit v =>
    have hmore : s.lzss.out.length < s.cmd.expectedSize.toNat := by simpa [homeCtx] using hplace
    exact ⟨_, exec_lzssLit v s, lzssRowsLeft_lt hmore (by simp [lzssTake])⟩
  case lzssRef off l =>
    have hmore : s.lzss.out.length < s.cmd.expectedSize.toNat := by simpa [homeCtx] using hplace
    refine ⟨_, rfl, ?_⟩
    split
    · trivial
    · exact lzssRowsLeft_lt hmore (by rw [(lzssCopy_frame _ _ _ _).1]; simp [lzssTake, lzssRefLen])
  case lzssCsum stored =>
    refine ⟨_, rfl, ?_⟩
    split <;> trivial
  case lzoM3 | lzoM4 | lzoEof => simp at hengine
  all_goals simp [rowEngine, homeCtx, placeEngine] at hengine

/-! ### LZO1X: every row reads on -/

section
variable {e : LzoRegs} {a : Nat}

theorem lzoCheck_readsOn (p : Params) (h : a ≤ e.ip) : (lzoCheck p e).ensures (a ≤ ·.ip) anyResult := by
  obtain ⟨-, hc⟩ | ⟨-, hc⟩ := lzoCheck_cases p e <;> rw [hc]
  · exact h
  · trivial

theorem lzoLiterals_readsOn (p : Params) (inp : List Byte) (n : Nat) (h : a ≤ e.ip + n) :
    (lzoLiterals p inp n e).ensures (a ≤ ·.ip) anyResult := by
  unfold lzoLiterals
  split
  · trivial
  · exact lzoCheck_readsOn p h

theorem lzoRun_readsOn (p : Params) (inp : List Byte) (n : Nat) (st : LzoSt) (h : a ≤ e.ip + n) :
    ((lzoLiterals p inp n e).andThen fun e' => .run { e' with st := st }).ensures (a ≤ ·.ip) anyResult :=
  (lzoLiterals_readsOn p inp n h).andThen fun _ he => he

theorem lzoTrailing_readsOn (p : Params) (inp : List Byte) (k : Nat) (h : a ≤ e.ip) :
    (lzoTrailing p inp k e).ensures (a ≤ ·.ip) anyResult := by
  unfold lzoTrailing
  dsimp only
  split
  · exact h
  · exact lzoRun_readsOn p inp k .afterShort (Nat.le_add_right_of_le h)

/-- A match token ends no earlier in IN than its own bytes do. -/
theorem lzoMatchToken_readsOn (p : Params) (inp : List Byte) (d n tok k : Nat) (h : a ≤ e.ip) :
    (lzoMatchToken p inp d n tok k e).ensures (a ≤ ·.ip) anyResult := by
  have hmatch : (lzoMatch p d n tok e).ensures (a ≤ ·.ip) anyResult := by
    unfold lzoMatch
    split
    · trivial
    · exact lzoCheck_readsOn p h
  exact hmatch.andThen fun _ => lzoTrailing_readsOn p inp k

end

theorem lzoFinish_ends (P : LzoRegs → Prop) (p : Params) (inp : List Byte) (expected : Nat) (e : LzoRegs) :
    (lzoFinish p inp expected e).ensures P anyResult := by
  unfold lzoFinish
  split
  · trivial
  · split <;> trivial

theorem lt_lzoTake_ip (x : Bool) (t k : Nat) (e : LzoRegs) (h : x = false ∨ 0 < k) : e.ip < (lzoTake x t k e).ip := by
  obtain rfl | hk := h
  · simp only [lzoTake, Bool.false_eq_true, if_false]
    omega
  · simp only [lzoTake]
    omega

/-- Every LZO1X row reads at least one byte of IN, or ends the command (R124). -/
theorem exec_lzo_readsOn {i : Instr} (hi : rowEngine i = some .lzo) (s : State) :
    ∃ u, exec i s = settle putLzo s u ∧ u.ensures (s.lzo.ip + 1 ≤ ·.ip) anyResult := by
  cases i
  case lzoFirstLit => exact ⟨_, rfl, lzoRun_readsOn _ _ _ _ (Nat.le_add_right _ _)⟩
  case lzoLitExt => exact ⟨_, rfl, lzoRun_readsOn _ _ _ _ (by simp only [lzoTake, lzoExtLen]; omega)⟩
  case lzoLit => exact ⟨_, rfl, lzoRun_readsOn _ _ _ _ (Nat.le_add_right _ _)⟩
  case lzoM1Far | lzoM1Near | lzoM2 =>
    exact ⟨_, rfl, lzoMatchToken_readsOn _ _ _ _ _ _ (lt_lzoTake_ip _ _ _ _ (.inl rfl))⟩
  case lzoM3 | lzoM4 =>
    exact ⟨_, rfl, lzoMatchToken_readsOn _ _ _ _ _ _ (lt_lzoTake_ip _ _ _ _ (.inr Nat.two_pos))⟩
  case lzoEof => exact ⟨_, rfl, lzoFinish_ends _ _ _ _ _⟩
  case lzoExt zeros v =>
    refine ⟨_, rfl, ?_⟩
    obtain ⟨-, hm⟩ | ⟨-, hm⟩ := memRead_cases s.cmd.input s.lzo.ip 1 <;> rw [hm]
    · trivial
    · exact Nat.le_add_right _ _
  all_goals simp [rowEngine, homeCtx, placeEngine] at hi

/-! ### LZ4 chain: every row reads on -/

section
variable {e : Lz4Regs} {a : Nat}

theorem lz4EndChunk_readsOn (declared : Nat) (h : a ≤ e.ip) : (lz4EndChunk declared e).ensures (a ≤ ·.ip) anyResult := by
  obtain ⟨dict, -, hend⟩ := lz4EndChunk_eq declared e
  rw [hend]
  split
  · obtain ⟨-, hf⟩ | ⟨-, -, hf⟩ | ⟨-, -, hf⟩ := lz4Finish_cases declared
      { e with total := e.total ++ e.ch, dict := dict, ch := [], phase := .chunk } <;> rw [hf] <;> trivial
  · exact h

theorem lz4Boundary_readsOn (declared : Nat) (h : a ≤ e.ip) : (lz4Boundary declared e).ensures (a ≤ ·.ip) anyResult := by
  obtain ⟨-, he⟩ | ⟨-, he⟩ := lz4Boundary_cases declared e <;> rw [he]
  · exact h
  · exact lz4EndChunk_readsOn declared h

theorem lz4Check_readsOn (p : Params) (h : a ≤ e.ip) : (lz4Check p e).ensures (a ≤ ·.ip) anyResult := by
  obtain ⟨-, hc⟩ | ⟨-, hc⟩ := lz4Check_cases p e <;> rw [hc]
  · exact h
  · trivial

theorem lz4Match_readsOn (p : Params) (declared o n : Nat) (h : a ≤ e.ip) :
    (lz4Match p declared o n e).ensures (a ≤ ·.ip) anyResult := by
  unfold lz4Match
  split
  · trivial
  · exact (lz4Check_readsOn (e := { e with ch := copyDict e.dict o n e.ch }) p h).andThen
      fun _ => lz4Boundary_readsOn declared

theorem lz4Offset_readsOn (p : Params) (inp : List Byte) (declared : Nat) (h : a ≤ e.ip) :
    (lz4Offset p inp declared e).ensures (a ≤ ·.ip) anyResult := by
  have hip : a ≤ e.ip + 2 := Nat.le_add_right_of_le h
  unfold lz4Offset
  split
  · trivial
  · dsimp only
    split
    · exact hip
    · exact lz4Match_readsOn p declared _ _ hip

theorem lz4Literals_readsOn (p : Params) (inp : List Byte) (declared n : Nat) (h : a ≤ e.ip) :
    (lz4Literals p inp declared n e).ensures (a ≤ ·.ip) anyResult := by
  have hip : a ≤ e.ip + n := Nat.le_add_right_of_le h
  unfold lz4Literals
  split
  · trivial
  · refine (lz4Check_readsOn (e := { e with ch := e.ch ++ inSlice inp e.ip n, ip := e.ip + n }) p hip).andThen
      fun e' he' => ?_
    split
    · exact lz4EndChunk_readsOn declared he'
    · exact lz4Offset_readsOn p inp declared he'

theorem lz4Bounds_readsOn (p : Params) (inp : List Byte) (declared size : Nat) (h : a ≤ e.ip) :
    (lz4Bounds p inp declared size e).ensures (a ≤ ·.ip) anyResult := by
  unfold lz4Bounds
  split
  · trivial
  · split
    · trivial
    · exact lz4Boundary_readsOn declared h

end

/-- Every LZ4 chain row reads at least one byte of IN (R124). -/
theorem exec_lz4_readsOn {i : Instr} (hi : rowEngine i = some .lz4) (s : State) :
    ∃ u, exec i s = settle putLz4 s u ∧ u.ensures (s.lz4.ip + 1 ≤ ·.ip) anyResult := by
  cases i
  case lz4Target target => exact ⟨_, exec_lz4Target target s, Nat.add_le_add_left (by norm_num) _⟩
  case lz4Chunk => exact ⟨_, rfl, lz4Bounds_readsOn _ _ _ _ (Nat.add_le_add_left (by norm_num) _)⟩
  case lz4Seq =>
    refine ⟨_, rfl, ?_⟩
    split
    · exact Nat.le_refl _
    · exact lz4Literals_readsOn _ _ _ _ (Nat.le_refl _)
  case lz4Ext ffs v =>
    have hip : s.lz4.ip + 1 ≤ s.lz4.ip + (ffs + 1) := by omega
    refine ⟨_, rfl, ?_⟩
    split
    · exact lz4Literals_readsOn _ _ _ _ hip
    · exact lz4Match_readsOn _ _ _ _ hip
    all_goals exact hip
  case lzoM3 | lzoM4 | lzoEof => simp at hi
  all_goals simp [rowEngine, homeCtx, placeEngine] at hi

/-! ### Every step of a Busy engine -/

theorem rowsLeft_lzo {s : State} (he : engineOf s.cmd.op = some .lzo) :
    rowsLeft s = s.cmd.input.length - s.lzo.ip + 1 := by
  simp [rowsLeft, engineOf_lzo he]

theorem rowsLeft_lz4 {s : State} (he : engineOf s.cmd.op = some .lz4) :
    rowsLeft s = s.cmd.input.length - s.lz4.ip + 1 := by
  simp [rowsLeft, engineOf_lz4 he]

/-- A started command still has a row to run: its block, its trailer, or the bytes it reads next. -/
theorem rowsLeft_pos {s : State} (hrun : running s) : 0 < rowsLeft s := by
  obtain ⟨e, he⟩ := engineOf_of_running hrun
  rw [running_iff he] at hrun
  cases e with
  | bc =>
    have hgrid := gridBlocks_of_bcRunning hrun
    obtain ⟨-, -, hk, -⟩ := hrun
    rw [rowsLeft_bc he, bcRowsLeft]
    omega
  | lzss => rw [rowsLeft_lzss he]; exact Nat.succ_pos _
  | lzo => rw [rowsLeft_lzo he]; exact Nat.succ_pos _
  | lz4 => rw [rowsLeft_lz4 he]; exact Nat.succ_pos _

/-- A step of a started command ends it or leaves fewer rows. -/
theorem running_shortens {s t : State} (hs : s.starting = false) (hb : s.status = .busy) (hrun : running s)
    (hinv : Inv t) (h : step s = .next t) (hbt : t.status = .busy) :
    t.starting = false ∧ rowsLeft t < rowsLeft s := by
  obtain ⟨-, -, hrun'⟩ := (inv_iff t).1 hinv
  obtain ⟨e, he⟩ := engineOf_of_running hrun
  obtain ⟨i, hd, hx⟩ | ⟨r, -, hx⟩ := step_busy_cases hb <;> rw [hx] at h
  · have hi : rowEngine i = some e := (rowEngine_of_decode hd).trans (fetchSite_engine hs he)
    cases e with
    | bc =>
      obtain ⟨u, hexec, hu⟩ := exec_bc_shortens hs he hd
      obtain hend | ⟨r, hr, rfl⟩ := settle_ends_or_goes hu (hexec ▸ h)
      · exact absurd hbt hend
      · exact ⟨hs, by rw [rowsLeft_bc he, rowsLeft_bc (s := putBc s r) he]; exact hr⟩
    | lzss =>
      obtain ⟨u, hexec, hu⟩ := exec_lzss_shortens (fetchSite_lzss hs he ▸ hd)
      obtain hend | ⟨r, hr, rfl⟩ := settle_ends_or_goes hu (hexec ▸ h)
      · exact absurd hbt hend
      · exact ⟨hs, by rw [rowsLeft_lzss he, rowsLeft_lzss (s := putLzss s r) he]; exact hr⟩
    | lzo =>
      obtain ⟨u, hexec, hu⟩ := exec_lzo_readsOn hi s
      obtain hend | ⟨r, hr, rfl⟩ := settle_ends_or_goes hu (hexec ▸ h)
      · exact absurd hbt hend
      · obtain ⟨-, hip, -⟩ : lzoRunning (putLzo s r) := (running_iff (s := putLzo s r) he).1 (hrun' hbt hs)
        rw [rowsLeft_lzo he, rowsLeft_lzo (s := putLzo s r) he]
        simp only [putLzo_lzo, putLzo_cmd] at hip ⊢
        exact ⟨hs, by omega⟩
    | lz4 =>
      obtain ⟨u, hexec, hu⟩ := exec_lz4_readsOn hi s
      obtain hend | ⟨r, hr, rfl⟩ := settle_ends_or_goes hu (hexec ▸ h)
      · exact absurd hbt hend
      · obtain ⟨hip, -⟩ : lz4Running (putLz4 s r) := (running_iff (s := putLz4 s r) he).1 (hrun' hbt hs)
        rw [rowsLeft_lz4 he, rowsLeft_lz4 (s := putLz4 s r) he]
        simp only [putLz4_lz4, putLz4_cmd] at hip ⊢
        exact ⟨hs, by omega⟩
  · obtain rfl := Host.Outcome.next.inj h
    simp at hbt

/-- The step that starts a command ends it or leaves rows for its blocks, its output or its input. -/
theorem start_rowsLeft_le {s t : State} (hs : s.starting = true) (hb : s.status = .busy) (h : step s = .next t)
    (hbt : t.status = .busy) :
    t.starting = false ∧
      rowsLeft t ≤ 2 * (blocksAlong s.cmd.width * blocksAlong s.cmd.height) + 2 * s.cmd.expectedSize.toNat +
        s.cmd.input.length + 2 := by
  obtain ⟨i, hd, hx⟩ | ⟨r, -, hx⟩ := step_busy_cases hb <;> rw [hx] at h
  · rw [fetchSite_starting hs] at hd
    obtain ⟨he, u, hu, hexec⟩ | ⟨he, hexec⟩ | ⟨he, hexec⟩ | ⟨he, hexec⟩ | ⟨e, hexec⟩ := exec_command (decode_command hd)
    · have hstart : u.ensures
          (fun r => bcRowsLeft s.cmd r ≤ 2 * (blocksAlong s.cmd.width * blocksAlong s.cmd.height) + 1) anyResult := by
        obtain rfl | ⟨e, rfl⟩ := hu
        · exact bcStart_rowsLeft_le _ s.cmd
        · trivial
      obtain hend | ⟨r, hr, rfl⟩ := settle_ends_or_goes hstart (hexec s rfl ▸ h)
      · exact absurd hbt hend
      · refine ⟨rfl, ?_⟩
        rw [rowsLeft_bc (s := putBc (startCommand s) r) he]
        simp only [putBc_bc, putBc_cmd, startCommand_cmd]
        omega
    · rw [hexec s rfl] at h
      obtain rfl := Host.Outcome.next.inj h
      refine ⟨rfl, ?_⟩
      rw [rowsLeft_lzss (s := putLzss (startCommand s) _) he]
      simp only [putLzss_lzss, putLzss_cmd, startCommand_cmd, lzssInit_rowsLeft]
      omega
    · rw [hexec s rfl] at h
      obtain rfl := Host.Outcome.next.inj h
      refine ⟨rfl, ?_⟩
      rw [rowsLeft_lzo (s := putLzo (startCommand s) _) he]
      simp only [putLzo_cmd, startCommand_cmd]
      omega
    · rw [hexec s rfl] at h
      obtain rfl := Host.Outcome.next.inj h
      refine ⟨rfl, ?_⟩
      rw [rowsLeft_lz4 (s := putLz4 (startCommand s) _) he]
      simp only [putLz4_cmd, startCommand_cmd]
      omega
    · rw [hexec s] at h
      obtain rfl := Host.Outcome.next.inj h
      simp at hbt
  · obtain rfl := Host.Outcome.next.inj h
    simp at hbt

theorem stepsLeft_not_busy {s : State} (hb : s.status ≠ .busy) : stepsLeft s = 0 := by
  unfold stepsLeft
  split
  · rename_i h
    exact absurd h hb
  all_goals rfl

theorem stepsLeft_started {s : State} (hb : s.status = .busy) (hs : s.starting = false) : stepsLeft s = rowsLeft s := by
  simp [stepsLeft, hb, hs]

theorem stepsLeft_starting {s : State} (hb : s.status = .busy) (hs : s.starting = true) :
    stepsLeft s = 2 * (blocksAlong s.cmd.width * blocksAlong s.cmd.height) + 2 * s.cmd.expectedSize.toNat +
      s.cmd.input.length + 3 := by
  simp [stepsLeft, hb, hs]

/-- Every step of a Busy engine brings the end of its command nearer. -/
theorem stepsLeft_decreases {s t : State} (hinv : Inv s) (hb : s.status = .busy) (h : step s = .next t) :
    stepsLeft t < stepsLeft s := by
  have hinv' := step_keeps_inv hinv h
  obtain ⟨-, -, hrun⟩ := (inv_iff s).1 hinv
  cases hs : s.starting with
  | true =>
    rw [stepsLeft_starting hb hs]
    by_cases hbt : t.status = .busy
    · obtain ⟨hst, hle⟩ := start_rowsLeft_le hs hb h hbt
      rw [stepsLeft_started hbt hst]
      omega
    · rw [stepsLeft_not_busy hbt]
      omega
  | false =>
    rw [stepsLeft_started hb hs]
    by_cases hbt : t.status = .busy
    · obtain ⟨hst, hlt⟩ := running_shortens hs hb (hrun hb hs) hinv' h hbt
      rwa [stepsLeft_started hbt hst]
    · rw [stepsLeft_not_busy hbt]
      exact rowsLeft_pos (hrun hb hs)

/-- Settles O13, by strong induction on the bound, which every step of a Busy engine lowers. -/
theorem everyCommandEnds : Obligations.EveryCommandEnds := by
  intro s hinv
  induction hm : stepsLeft s using Nat.strong_induction_on generalizing s with
  | _ m ih =>
    by_cases hb : s.status = .busy
    · obtain ⟨s', hstep, -⟩ := step_outcome s
      have hlt := stepsLeft_decreases hinv hb hstep
      obtain ⟨n, t, hn, hrun, hend⟩ := ih _ (hm ▸ hlt) s' (step_keeps_inv hinv hstep) rfl
      exact ⟨n + 1, t, by omega, (run_succ hstep n).trans hrun, hend⟩
    · exact ⟨0, s, Nat.zero_le _, rfl, hb⟩

end Sys2Proof.Machine
end

section
/-! PROOFS. Fields of a block that is held as two words, and the arithmetic of colours and weights on naturals: no value
leaves a byte, and a weighted mean lies between its operands (40_primitives.md R111–R120). -/

namespace Sys2Proof.Machine

/-! ### Bits of two words (R111) -/

theorem toNat_or_words (lo hi : BitVec 64) : lo.toNat ||| hi.toNat <<< 64 = lo.toNat + 2 ^ 64 * hi.toNat := by
  rw [Nat.or_comm, ← Nat.shiftLeft_add_eq_or_of_lt lo.isLt, Nat.shiftLeft_eq, Nat.mul_comm, Nat.add_comm]

theorem bits_eq (lo hi : BitVec 64) (start count : Nat) :
    bits lo hi start count = (lo.toNat + 2 ^ 64 * hi.toNat) / 2 ^ start % 2 ^ count := by
  rw [bits, toNat_or_words, Nat.shiftRight_eq_div_pow]

/-- From a bit of the low word on, the high word follows what is left of the low one. -/
theorem words_div_of_le (lo hi : BitVec 64) {start : Nat} (h : start ≤ 64) :
    (lo.toNat + 2 ^ 64 * hi.toNat) / 2 ^ start = lo.toNat / 2 ^ start + 2 ^ (64 - start) * hi.toNat := by
  have hsplit : 2 ^ 64 * hi.toNat = 2 ^ start * (2 ^ (64 - start) * hi.toNat) := by
    rw [← Nat.mul_assoc, ← Nat.pow_add, Nat.add_sub_of_le h]
  rw [hsplit, Nat.add_mul_div_left _ _ (Nat.two_pow_pos start)]

theorem bits_low (lo hi : BitVec 64) {start count : Nat} (h : start + count ≤ 64) :
    bits lo hi start count = lo.toNat / 2 ^ start % 2 ^ count := by
  have hsplit : 2 ^ (64 - start) = 2 ^ count * 2 ^ (64 - start - count) := by
    rw [← Nat.pow_add, Nat.add_sub_of_le (by omega)]
  rw [bits_eq, words_div_of_le lo hi (by omega), hsplit, Nat.mul_assoc, Nat.add_mul_mod_self_left]

theorem bits_high (lo hi : BitVec 64) {start : Nat} (count : Nat) (h : 64 ≤ start) :
    bits lo hi start count = hi.toNat / 2 ^ (start - 64) % 2 ^ count := by
  have hsplit : 2 ^ start = 2 ^ 64 * 2 ^ (start - 64) := by rw [← Nat.pow_add, Nat.add_sub_of_le h]
  rw [bits_eq, hsplit, ← Nat.div_div_eq_div_mul, Nat.add_mul_div_left _ _ (Nat.two_pow_pos 64),
    Nat.div_eq_of_lt lo.isLt, Nat.zero_add]

/-- A field across the boundary joins what the low word has left with the low bits of the high word. -/
theorem bits_crossing (lo hi : BitVec 64) {start count : Nat} (hlow : start ≤ 64) (hhigh : 64 ≤ start + count) :
    bits lo hi start count = lo.toNat / 2 ^ start + 2 ^ (64 - start) * (hi.toNat % 2 ^ (start + count - 64)) := by
  have hcount : 2 ^ count = 2 ^ (64 - start) * 2 ^ (start + count - 64) := by
    rw [← Nat.pow_add]
    congr 1
    omega
  have hrest : lo.toNat / 2 ^ start < 2 ^ (64 - start) := by
    refine Nat.div_lt_of_lt_mul ?_
    rw [← Nat.pow_add, Nat.add_sub_of_le hlow]
    exact lo.isLt
  rw [bits_eq, words_div_of_le lo hi hlow, hcount, Nat.mod_mul, Nat.add_mul_mod_self_left, Nat.mod_eq_of_lt hrest,
    Nat.add_mul_div_left _ _ (Nat.two_pow_pos _), Nat.div_eq_of_lt hrest, Nat.zero_add]

/-- Settles O28: the two words are the digits of one number, from which the field is cut. -/
theorem bitsCrossTheWordBoundary : Obligations.BitsCrossTheWordBoundary := by
  refine fun lo hi start count _ => ⟨?_, bits_low lo hi, bits_high lo hi count, fun hlow hhigh =>
    bits_crossing lo hi hlow.le hhigh.le⟩
  rw [bits_eq, Nat.one_shiftLeft, Nat.and_two_pow_sub_one_eq_mod, Nat.shiftRight_eq_div_pow]

/-! ### Expansion to a byte (R112, R113, R118) -/

/-- A component of `p` bits is shifted to the top of a byte and filled up with its own top bits. -/
theorem bc7Expand_toNat {p v : Nat} (hp : 5 ≤ p) (hp' : p ≤ 8) (hv : v < 2 ^ p) :
    (bc7Expand v p).toNat = v * 2 ^ (8 - p) + v / 2 ^ (2 * p - 8) := by
  have hfill : v / 2 ^ (2 * p - 8) < 2 ^ (8 - p) := by
    refine Nat.div_lt_of_lt_mul ?_
    rwa [← Nat.pow_add, show 2 * p - 8 + (8 - p) = p by omega]
  have hbyte : v * 2 ^ (8 - p) + v / 2 ^ (2 * p - 8) < 2 ^ 8 := by
    calc v * 2 ^ (8 - p) + v / 2 ^ (2 * p - 8) < v * 2 ^ (8 - p) + 2 ^ (8 - p) := by omega
      _ = (v + 1) * 2 ^ (8 - p) := by rw [Nat.add_mul, Nat.one_mul]
      _ ≤ 2 ^ p * 2 ^ (8 - p) := Nat.mul_le_mul_right _ hv
      _ = 2 ^ 8 := by rw [← Nat.pow_add, Nat.add_sub_of_le hp']
  rw [bc7Expand, BitVec.toNat_ofNat, Nat.shiftRight_eq_div_pow, ← Nat.shiftLeft_add_eq_or_of_lt hfill,
    Nat.shiftLeft_eq, Nat.mod_eq_of_lt hbyte]

/-- Replication in a 5:6:5 channel is the expansion of a BC7 component of the same width. -/
theorem expand565_replicate (v n : Nat) : expand565 .replicate v n = bc7Expand v n := rfl

theorem expand565_scale_toNat {v n : Nat} (hn : 2 ≤ n) (hv : v < 2 ^ n) :
    (expand565 .scale v n).toNat = (v * 255 + (2 ^ n - 1) / 2) / (2 ^ n - 1) := by
  have hmax : 2 ^ 2 ≤ 2 ^ n := Nat.pow_le_pow_right Nat.two_pos hn
  rw [expand565, BitVec.toNat_ofNat, Nat.mod_eq_of_lt]
  exact Nat.div_lt_of_lt_mul (by omega)

theorem expand565_five {v : Nat} (hv : v < 32) :
    (expand565 .replicate v 5).toNat = 8 * v + v / 4 ∧ (expand565 .scale v 5).toNat = (v * 255 + 15) / 31 := by
  rw [expand565_replicate, bc7Expand_toNat (by norm_num) (by norm_num) hv, expand565_scale_toNat (by norm_num) hv]
  exact ⟨by omega, rfl⟩

theorem expand565_six {v : Nat} (hv : v < 64) :
    (expand565 .replicate v 6).toNat = 4 * v + v / 16 ∧ (expand565 .scale v 6).toNat = (v * 255 + 31) / 63 := by
  rw [expand565_replicate, bc7Expand_toNat (by norm_num) (by norm_num) hv, expand565_scale_toNat (by norm_num) hv]
  exact ⟨by omega, rfl⟩

/-- Red, green and blue of a 5:6:5 word are its bits 15:11, 10:5 and 4:0 (R112). -/
theorem unpack565_eq (e : Expand565) (c : BitVec 16) :
    unpack565 e c =
      ⟨expand565 e (c.toNat / 2048) 5, expand565 e (c.toNat / 32 % 64) 6, expand565 e (c.toNat % 32) 5, 255⟩ := by
  have hred : c.toNat / 2048 % 32 = c.toNat / 2048 := Nat.mod_eq_of_lt (by omega)
  simp only [unpack565, toNat_field, Nat.reducePow, hred, Nat.div_one]

/-! ### Weighted means (R114–R117, R119) -/

/-- The byte `b` lies between `x` and `y`. -/
def liesBetween (x y b : Byte) : Prop := min x.toNat y.toNat ≤ b.toNat ∧ b.toNat ≤ max x.toNat y.toNat

/-- What is added before a mean is divided: nothing, or `n` to round (R114–R117). -/
def roundUp (m : Rounding) (n : Nat) : Nat :=
  match m with
  | .trunc => 0
  | .round => n

theorem roundUp_le (m : Rounding) (n : Nat) : roundUp m n ≤ n := by
  cases m
  · exact Nat.zero_le n
  · exact Nat.le_refl n

/-- A weighted mean of two numbers, rounded in any way, lies between them. -/
theorem mean_between {a b d k : Nat} (x y : Nat) (hd : a + b = d) (hk : k < d) :
    min x y ≤ (a * x + b * y + k) / d ∧ (a * x + b * y + k) / d ≤ max x y := by
  have hpos : 0 < d := by omega
  constructor
  · rw [Nat.le_div_iff_mul_le hpos]
    calc min x y * d = a * min x y + b * min x y := by rw [← hd, Nat.mul_comm, Nat.add_mul]
      _ ≤ a * x + b * y :=
        Nat.add_le_add (Nat.mul_le_mul_left a (Nat.min_le_left x y)) (Nat.mul_le_mul_left b (Nat.min_le_right x y))
      _ ≤ a * x + b * y + k := Nat.le_add_right _ _
  · refine Nat.le_of_lt_succ (Nat.div_lt_of_lt_mul ?_)
    calc a * x + b * y + k < a * max x y + b * max x y + d :=
        Nat.add_lt_add_of_le_of_lt (Nat.add_le_add (Nat.mul_le_mul_left a (Nat.le_max_left x y))
          (Nat.mul_le_mul_left b (Nat.le_max_right x y))) hk
      _ = d * (max x y + 1) := by rw [← Nat.add_mul, hd, Nat.mul_add, Nat.mul_one]

/-- A weighted mean of two bytes is a byte, so that nothing wraps, and lies between them. -/
theorem byteMean_exact {a b d k : Nat} (x y : Byte) (hd : a + b = d) (hk : k < d) :
    (BitVec.ofNat 8 ((a * x.toNat + b * y.toNat + k) / d)).toNat = (a * x.toNat + b * y.toNat + k) / d ∧
      liesBetween x y (BitVec.ofNat 8 ((a * x.toNat + b * y.toNat + k) / d)) := by
  obtain ⟨hmin, hmax⟩ := mean_between x.toNat y.toNat hd hk
  have hbyte : (a * x.toNat + b * y.toNat + k) / d < 2 ^ 8 := hmax.trans_lt (Nat.max_lt.2 ⟨x.isLt, y.isLt⟩)
  have hexact := Nat.mod_eq_of_lt hbyte
  rw [liesBetween, BitVec.toNat_ofNat, hexact]
  exact ⟨rfl, hmin, hmax⟩

section
variable (m : Rounding) (x y : Byte)

theorem halfCh_exact :
    (halfCh m x y).toNat = (x.toNat + y.toNat + roundUp m 1) / 2 ∧ liesBetween x y (halfCh m x y) := by
  have hmean := byteMean_exact x y (a := 1) (b := 1) rfl (Nat.lt_succ_of_le (roundUp_le m 1))
  simp only [Nat.one_mul] at hmean
  cases m <;> exact hmean

theorem oneThirdCh_exact :
    (oneThirdCh m x y).toNat = (2 * x.toNat + y.toNat + roundUp m 1) / 3 ∧ liesBetween x y (oneThirdCh m x y) := by
  have hmean := byteMean_exact x y (a := 2) (b := 1) (d := 3) rfl ((roundUp_le m 1).trans_lt (by norm_num))
  simp only [Nat.one_mul] at hmean
  cases m <;> exact hmean

theorem twoThirdsCh_exact :
    (twoThirdsCh m x y).toNat = (x.toNat + 2 * y.toNat + roundUp m 1) / 3 ∧ liesBetween x y (twoThirdsCh m x y) := by
  have hmean := byteMean_exact x y (a := 1) (b := 2) (d := 3) rfl ((roundUp_le m 1).trans_lt (by norm_num))
  simp only [Nat.one_mul] at hmean
  cases m <;> exact hmean

theorem sevenths_exact {j : Nat} (hj : j ≤ 7) :
    (sevenths m x y j).toNat = ((7 - j) * x.toNat + j * y.toNat + roundUp m 3) / 7 ∧
      liesBetween x y (sevenths m x y j) := by
  have hmean := byteMean_exact x y (Nat.sub_add_cancel hj) ((roundUp_le m 3).trans_lt (by norm_num))
  cases m <;> exact hmean

theorem fifths_exact {j : Nat} (hj : j ≤ 5) :
    (fifths m x y j).toNat = ((5 - j) * x.toNat + j * y.toNat + roundUp m 2) / 5 ∧
      liesBetween x y (fifths m x y j) := by
  have hmean := byteMean_exact x y (Nat.sub_add_cancel hj) ((roundUp_le m 2).trans_lt (by norm_num))
  cases m <;> exact hmean

theorem blend64_exact {w : Nat} (hw : w ≤ 64) :
    (blend64 w x y).toNat = ((64 - w) * x.toNat + w * y.toNat + 32) / 64 ∧ liesBetween x y (blend64 w x y) := by
  rw [blend64, Nat.shiftRight_eq_div_pow]
  exact byteMean_exact x y (Nat.sub_add_cancel hw) (by norm_num)

theorem blend64_first : blend64 0 x y = x := by
  refine BitVec.eq_of_toNat_eq ?_
  rw [(blend64_exact x y (Nat.zero_le 64)).1]
  omega

theorem blend64_last : blend64 64 x y = y := by
  refine BitVec.eq_of_toNat_eq ?_
  rw [(blend64_exact x y (Nat.le_refl 64)).1]
  omega

end

/-- Each weight table runs from 0 to 64 (R205). -/
theorem standardRom_weight_ends {w : Nat} (hw : w ∈ [2, 3, 4]) :
    weightOf standardRom w 0 = 0 ∧ weightOf standardRom w (2 ^ w - 1) = 64 := by
  revert w
  decide

/-- Settles O29: expansions fill a byte, and every interpolation is a weighted mean of its two bytes. -/
theorem interpolationsAreExact : Obligations.InterpolationsAreExact := by
  refine ⟨fun v hv => expand565_five hv, fun v hv => expand565_six hv, unpack565_eq, fun m x y => ?_⟩
  refine ⟨halfCh_exact m x y, oneThirdCh_exact m x y, twoThirdsCh_exact m x y,
    fun j _ hj => sevenths_exact m x y (hj.trans (by norm_num)),
    fun j _ hj => fifths_exact m x y (hj.trans (by norm_num)), fun w hw => blend64_exact x y hw,
    fun p v hp hp' hv => bc7Expand_toNat hp hp' hv, fun w hw => ?_⟩
  obtain ⟨hfirst, hlast⟩ := standardRom_weight_ends hw
  rw [bc7Interp, bc7Interp, hfirst, hlast]
  exact ⟨blend64_first x y, blend64_last x y⟩

end Sys2Proof.Machine
end

section
/-! PROOFS. The BCn frame: how a command begins or stops before its walk, and what one block of the walk writes
(41_bc1.md R130). -/

namespace Sys2Proof.Machine

/-! ### Commands (R130, R134, R140, R150, R160, R170) -/

/-- A BCn command with the BLOCK_BYTES of its format starts by `bcStart`; decodeBC4 checks its channel first (R160). -/
theorem exec_bcCommand {i : Instr} {n : Nat} {s : State}
    (h : (i, n) ∈ [(Instr.decodeBC1, 8), (.decodeBC2, 16), (.decodeBC3, 16), (.decodeBC4, 8), (.decodeBC7, 16)])
    (hchannel : i = .decodeBC4 → s.cmd.channel.toNat ≤ 3) :
    exec i s = settle putBc (startCommand s) (bcStart n s.cmd) := by
  simp only [List.mem_cons, List.not_mem_nil, or_false, Prod.mk.injEq] at h
  obtain ⟨rfl, rfl⟩ | ⟨rfl, rfl⟩ | ⟨rfl, rfl⟩ | ⟨rfl, rfl⟩ | ⟨rfl, rfl⟩ := h
  case inr.inr.inr.inl => exact congrArg (settle putBc (startCommand s)) (if_neg (Nat.not_lt.2 (hchannel rfl)))
  all_goals rfl

theorem bcStart_of_short {n : Nat} {c : CmdRecord} (h : c.input.length < blocksAlong c.width * blocksAlong c.height * n) :
    bcStart n c = .fail ⟨.inputTruncated, c.input.length⟩ := by
  obtain ⟨-, he⟩ | ⟨hle, -⟩ | ⟨hle, -⟩ := bcStart_cases n c
  · exact he
  · exact absurd h (Nat.not_lt.2 hle)
  · exact absurd h (Nat.not_lt.2 hle)

/-- A start that fails leaves nothing of the command, so it is the error taken before the start. -/
theorem settle_start_fail (s : State) (e : Failure) :
    settle putBc (startCommand s) (.fail e) = .next (raiseFail e s) := rfl

/-- An image without blocks has no pixels. -/
theorem pixels_of_no_blocks {w h : BitVec 32} (hz : blocksAlong w * blocksAlong h = 0) : w.toNat * h.toNat = 0 := by
  unfold blocksAlong at hz
  obtain h0 | h0 := Nat.mul_eq_zero.1 hz
  · rw [show w.toNat = 0 by omega, Nat.zero_mul]
  · rw [show h.toNat = 0 by omega, Nat.mul_zero]

/-- On an input that holds all blocks, a BCn command begins its walk (R130). -/
theorem settle_bcStart_started {s : State} {n : Nat}
    (h : blocksAlong s.cmd.width * blocksAlong s.cmd.height * n ≤ s.cmd.input.length) :
    ∃ t, settle putBc (startCommand s) (bcStart n s.cmd) = .next t ∧ bcStarted s t := by
  obtain ⟨hlt, -⟩ | ⟨-, hz, he⟩ | ⟨-, hz, he⟩ := bcStart_cases n s.cmd
  · exact absurd h (Nat.not_le.2 hlt)
  all_goals
    rw [he]
    refine ⟨_, rfl, ?_, BitVec.toNat_ofNat .., BitVec.toNat_ofNat .., blockCount_ofNat _, blockCount_ofNat _, rfl,
      fun _ => rfl, rfl, rfl, rfl, ⟨rfl, rfl, rfl, rfl⟩, rfl, rfl, rfl⟩
  · rw [if_pos hz, pixels_of_no_blocks hz]
    exact ⟨rfl, rfl, rfl⟩
  · rw [if_neg hz]
    exact ⟨rfl, rfl, rfl⟩

/-- Settles O18: each command is the start of the frame with the BLOCK_BYTES of its format. -/
theorem bcCommandsBeginTheWalk : Obligations.BcCommandsBeginTheWalk := by
  intro s i n hi hchannel hlen
  rw [exec_bcCommand hi hchannel]
  exact settle_bcStart_started hlen

/-- Settles O19: the length check is the frame's, and decodeBC4 checks its channel before it. -/
theorem bcCommandsCheckBeforeTheFirstBlock : Obligations.BcCommandsCheckBeforeTheFirstBlock := by
  refine fun s => ⟨fun i n hi hlen => ?_, fun hchannel => ?_, fun hchannel hlen => ?_⟩
  · have hnot4 : i ≠ .decodeBC4 := by
      rintro rfl
      simp at hi
    rw [exec_bcCommand (n := n) (by simp at hi ⊢; tauto) (fun h => absurd h hnot4), bcStart_of_short hlen,
      settle_start_fail]
  · exact congrArg (settle putBc (startCommand s)) (if_pos hchannel)
  · rw [exec_bcCommand (n := 8) (by simp) (fun _ => hchannel), bcStart_of_short hlen, settle_start_fail]

/-! ### Cells of a block -/

/-- After a list of writes, an address that every write to it gives the value `v` holds `v`. -/
theorem Memory.read_writeAll_of_mem {m : Memory} {cells : List Host.Cell} {b : Nat} {v : Byte} (hmem : (b, v) ∈ cells)
    (huniq : ∀ d ∈ cells, d.1 = b → d.2 = v) :
    Memory.read outFill (Memory.writeAll outFill m cells) b = some v := by
  induction cells generalizing m with
  | nil => simp at hmem
  | cons d ds ih =>
    rw [Memory.writeAll_cons]
    by_cases hlater : ∃ e ∈ ds, e.1 = b
    · obtain ⟨⟨b', v'⟩, he, rfl⟩ := hlater
      obtain rfl : v' = v := huniq _ (List.mem_cons_of_mem _ he) rfl
      exact ih he fun e h => huniq e (List.mem_cons_of_mem _ h)
    · rw [Memory.read_writeAll_of_not_mem fun e h heq => hlater ⟨e, h, heq⟩]
      obtain rfl : (b, v) = d := by
        refine (List.mem_cons.1 hmem).resolve_right fun h => hlater ⟨_, h, rfl⟩
      exact Memory.read_write_eq_of_none

/-- The cells of a pixel are its four channels (00_scope.md R12). -/
theorem mem_pixelCells {a b : Nat} {p : Pixel} {v : Byte} :
    (b, v) ∈ pixelCells a p ↔ ∃ c, c < 4 ∧ b = a + c ∧ v = pixelChannel p c := by
  constructor
  · intro h
    simp only [pixelCells, List.mem_cons, List.not_mem_nil, or_false, Prod.mk.injEq] at h
    obtain ⟨rfl, rfl⟩ | ⟨rfl, rfl⟩ | ⟨rfl, rfl⟩ | ⟨rfl, rfl⟩ := h
    · exact ⟨0, by omega, rfl, rfl⟩
    · exact ⟨1, by omega, rfl, rfl⟩
    · exact ⟨2, by omega, rfl, rfl⟩
    · exact ⟨3, by omega, rfl, rfl⟩
  · rintro ⟨c, hc, rfl, rfl⟩
    interval_cases c <;> simp [pixelCells, pixelChannel]

/-! ### Pixel addresses (R130) -/

section
variable {width px py c : Nat}

theorem pixelAddr_channel (hc : c < 4) : (pixelAddr width px py + c) % 4 = c := by
  unfold pixelAddr
  omega

theorem pixelAddr_pixel (hc : c < 4) : (pixelAddr width px py + c) / 4 = py * width + px := by
  unfold pixelAddr
  omega

theorem pixelAddr_column (hx : px < width) (hc : c < 4) : (pixelAddr width px py + c) / 4 % width = px := by
  rw [pixelAddr_pixel hc, Nat.mul_add_mod', Nat.mod_eq_of_lt hx]

theorem pixelAddr_row (hx : px < width) (hc : c < 4) : (pixelAddr width px py + c) / 4 / width = py := by
  rw [pixelAddr_pixel hc, Nat.add_comm, Nat.add_mul_div_right _ _ (Nat.zero_lt_of_lt hx), Nat.div_eq_of_lt hx,
    Nat.zero_add]

end

/-- No byte belongs to two pixels, or to two channels of one. -/
theorem pixelAddr_inj {width px py px' py' c c' : Nat} (hx : px < width) (hx' : px' < width) (hc : c < 4) (hc' : c' < 4)
    (h : pixelAddr width px py + c = pixelAddr width px' py' + c') : px = px' ∧ py = py' ∧ c = c' := by
  have hcolumn := pixelAddr_column hx hc (py := py)
  have hrow := pixelAddr_row hx hc (py := py)
  have hchannel := pixelAddr_channel hc (width := width) (px := px) (py := py)
  rw [h, pixelAddr_column hx' hc'] at hcolumn
  rw [h, pixelAddr_row hx' hc'] at hrow
  rw [h, pixelAddr_channel hc'] at hchannel
  exact ⟨hcolumn.symm, hrow.symm, hchannel.symm⟩

/-! ### One block of the walk -/

/-- The pixel of texel `i` of the current block, when it lies inside the image (R130, 00_scope.md R14). -/
theorem texelAddr_eq_some {s : State} {i a : Nat} :
    texelAddr s i = some a ↔
      s.bc.k.toNat % blockCount s.bc.bw s.cmd.width * 4 + i % 4 < s.cmd.width.toNat ∧
        s.bc.k.toNat / blockCount s.bc.bw s.cmd.width * 4 + i / 4 < s.cmd.height.toNat ∧
        a = pixelAddr s.cmd.width.toNat (s.bc.k.toNat % blockCount s.bc.bw s.cmd.width * 4 + i % 4)
          (s.bc.k.toNat / blockCount s.bc.bw s.cmd.width * 4 + i / 4) := by
  unfold texelAddr
  dsimp only
  split
  · rename_i hin
    exact ⟨fun h => ⟨hin.1, hin.2, (Option.some.inj h).symm⟩, fun h => by rw [h.2.2]⟩
  · rename_i hout
    exact ⟨fun h => by simp at h, fun h => absurd ⟨h.1, h.2.1⟩ hout⟩

/-- No byte belongs to two texels of a block. -/
theorem texelAddr_inj {s : State} {i j a a' c c' : Nat} (hi : texelAddr s i = some a) (hj : texelAddr s j = some a')
    (hc : c < 4) (hc' : c' < 4) (h : a + c = a' + c') : i = j ∧ c = c' := by
  obtain ⟨hxi, -, rfl⟩ := texelAddr_eq_some.1 hi
  obtain ⟨hxj, -, rfl⟩ := texelAddr_eq_some.1 hj
  obtain ⟨hcolumn, hrow, hchannel⟩ := pixelAddr_inj hxi hxj hc hc' h
  exact ⟨by omega, hchannel⟩

/-- The cells of a block are the channels of its texels inside the image. -/
theorem mem_blockCells {s : State} {pix : List Pixel} {b : Nat} {v : Byte} :
    (b, v) ∈ blockCells s.cmd.width.toNat s.cmd.height.toNat (s.bc.k.toNat % blockCount s.bc.bw s.cmd.width)
        (s.bc.k.toNat / blockCount s.bc.bw s.cmd.width) pix ↔
      ∃ i, i < 16 ∧ ∃ a, texelAddr s i = some a ∧
        ∃ c, c < 4 ∧ b = a + c ∧ v = pixelChannel (pix.getD i ⟨0, 0, 0, 0⟩) c := by
  simp only [blockCells, List.mem_flatMap, List.mem_range, texelCells]
  refine exists_congr fun i => and_congr_right fun _ => ?_
  split
  · rename_i hin
    rw [mem_pixelCells]
    constructor
    · exact fun h => ⟨_, texelAddr_eq_some.2 ⟨hin.1, hin.2, rfl⟩, h⟩
    · rintro ⟨a, ha, h⟩
      obtain ⟨-, -, rfl⟩ := texelAddr_eq_some.1 ha
      exact h
  · rename_i hout
    constructor
    · exact fun h => by simp at h
    · rintro ⟨a, ha, -⟩
      obtain ⟨hx, hy, -⟩ := texelAddr_eq_some.1 ha
      exact absurd ⟨hx, hy⟩ hout

/-- The OUT that a block of pixels leaves. -/
def emittedOut (s : State) (pix : List Pixel) : Memory :=
  Memory.writeAll outFill s.bc.out
    (blockCells s.cmd.width.toNat s.cmd.height.toNat (s.bc.k.toNat % blockCount s.bc.bw s.cmd.width)
      (s.bc.k.toNat / blockCount s.bc.bw s.cmd.width) pix)

/-- A texel inside the image holds its pixel. -/
theorem read_emittedOut_texel {s : State} (pix : List Pixel) {i a c : Nat} (hi : i < 16) (ha : texelAddr s i = some a)
    (hc : c < 4) :
    Memory.read outFill (emittedOut s pix) (a + c) = some (pixelChannel (pix.getD i ⟨0, 0, 0, 0⟩) c) := by
  refine Memory.read_writeAll_of_mem (mem_blockCells.2 ⟨i, hi, a, ha, c, hc, rfl, rfl⟩) ?_
  rintro ⟨b, v⟩ hd hb
  obtain ⟨j, -, a', ha', c', hc', hb', rfl⟩ := mem_blockCells.1 hd
  obtain ⟨rfl, rfl⟩ := texelAddr_inj ha' ha hc' hc (hb'.symm.trans hb)
  rfl

/-- A byte outside the block's texels is as before. -/
theorem read_emittedOut_other {s : State} (pix : List Pixel) {b : Nat}
    (hb : ∀ i, i < 16 → ∀ a, texelAddr s i = some a → b < a ∨ a + 4 ≤ b) :
    Memory.read outFill (emittedOut s pix) b = Memory.read outFill s.bc.out b := by
  refine Memory.read_writeAll_of_not_mem ?_
  rintro ⟨b', v⟩ hd rfl
  obtain ⟨i, hi, a, ha, c, hc, heq, -⟩ := mem_blockCells.1 hd
  have := hb i hi a ha
  dsimp only at this
  omega

/-- A row that loads BLK and the working registers and emits pixels has written the current block: what the row of any
block format does outside its own registers. -/
theorem settle_bcEmit_blockWritten (s : State) (blk : BitVec 128) (w : BcWork) (pix : List Pixel) :
    ∃ t, settle putBc s (bcEmit s.cmd { s.bc with blk := blk, work := w } pix) = .next t ∧
      blockWritten s t pix ∧ t.bc.blk = blk ∧ t.bc.work = w := by
  have htexel : ∀ i, i < 16 → ∀ a, texelAddr s i = some a → ∀ c, c < 4 →
      Memory.read outFill (emittedOut s pix) (a + c) = some (pixelChannel (pix.getD i ⟨0, 0, 0, 0⟩) c) :=
    fun i hi a ha c hc => read_emittedOut_texel pix hi ha hc
  have hother : ∀ b, (∀ i, i < 16 → ∀ a, texelAddr s i = some a → b < a ∨ a + 4 ≤ b) →
      Memory.read outFill (emittedOut s pix) b = Memory.read outFill s.bc.out b :=
    fun b hb => read_emittedOut_other pix hb
  obtain ⟨hlt, he⟩ | ⟨hle, he⟩ := bcEmit_cases s.cmd { s.bc with blk := blk, work := w } pix
  all_goals
    rw [he]
    refine ⟨_, rfl, ⟨htexel, hother, rfl, rfl, rfl, rfl, ?_, ⟨rfl, rfl, rfl, rfl⟩, rfl, rfl, rfl⟩, rfl, rfl⟩
  · exact (if_pos hlt).symm ▸ ⟨rfl, rfl, rfl⟩
  · exact (if_neg (Nat.not_lt.2 hle)).symm ▸ ⟨rfl, rfl, rfl⟩

end Sys2Proof.Machine
end

section
/-! PROOFS. The colour part of a block: the rows' registers hold what Blocks.lean computes from the block's bits in exact
arithmetic (40_primitives.md R112–R115, 41_bc1.md R131–R133). -/

namespace Sys2Proof.Machine

/-! ### Fields of a part of a block (R10, R111) -/

/-- A field of a part of a block is a field of the block. -/
theorem fieldOf_extractLsb' {n : Nat} (b : BitVec n) (start len : Nat) {lo w : Nat} (h : lo + w ≤ len) :
    fieldOf (b.extractLsb' start len) lo w = fieldOf b (start + lo) w := by
  have hsplit : 2 ^ len = 2 ^ lo * 2 ^ (len - lo) := by rw [← Nat.pow_add, Nat.add_sub_of_le (by omega)]
  rw [fieldOf, fieldOf, toNat_field, hsplit, Nat.mod_mul_right_div_self,
    Nat.mod_mod_of_dvd _ (Nat.pow_dvd_pow 2 (by omega)), Nat.div_div_eq_div_mul, ← Nat.pow_add]

theorem ofNat_fieldOf {n : Nat} (b : BitVec n) (lo w : Nat) : BitVec.ofNat w (fieldOf b lo w) = b.extractLsb' lo w := by
  rw [← BitVec.toNat_inj, BitVec.toNat_ofNat, toNat_field, fieldOf, Nat.mod_mod]

theorem toNat_extractLsb'_eq_fieldOf {n : Nat} (b : BitVec n) (lo w : Nat) :
    (b.extractLsb' lo w).toNat = fieldOf b lo w := toNat_field b lo w

/-! ### Colours and the palette (R112–R115, R132) -/

theorem bc7Expand_eq_ofNat {p v : Nat} (hp : 5 ≤ p) (hp' : p ≤ 8) (hv : v < 2 ^ p) :
    bc7Expand v p = BitVec.ofNat 8 (v * 2 ^ (8 - p) + v / 2 ^ (2 * p - 8)) := by
  rw [← bc7Expand_toNat hp hp' hv, BitVec.ofNat_toNat, BitVec.setWidth_eq]

theorem expand565_eq_expanded (e : Expand565) {v n : Nat} (hn : 5 ≤ n) (hn' : n ≤ 8) (hv : v < 2 ^ n) :
    expand565 e v n = BitVec.ofNat 8 (expanded e n v) := by
  cases e
  case replicate => exact bc7Expand_eq_ofNat hn hn' hv
  case scale => rfl

theorem unpack565_eq_colorOf (e : Expand565) (c : BitVec 16) : unpack565 e c = colorOf e c.toNat := by
  have hred : c.toNat / 2048 % 32 = c.toNat / 2048 := Nat.mod_eq_of_lt (by omega)
  rw [unpack565_eq, colorOf, hred, expand565_eq_expanded e (by norm_num) (by norm_num) (by omega),
    expand565_eq_expanded e (by norm_num) (by norm_num) (by omega),
    expand565_eq_expanded e (by norm_num) (by norm_num) (by omega)]

section
variable (m : Rounding) (x y : Pixel)

theorem blendRgb_half :
    blendRgb (halfCh m) x y = mixOf (fun a b => (a + b + roundTerm m 1) / 2) x y := by
  cases m <;> rfl

theorem blendRgb_oneThird :
    blendRgb (oneThirdCh m) x y = mixOf (fun a b => (2 * a + b + roundTerm m 1) / 3) x y := by
  cases m <;> rfl

theorem blendRgb_twoThirds :
    blendRgb (twoThirdsCh m) x y = mixOf (fun a b => (a + 2 * b + roundTerm m 1) / 3) x y := by
  cases m <;> rfl

end

/-- The four palette entries, in three-colour mode when `three` (R132). -/
def paletteEntries (p : Params) (c0 c1 : Nat) (three useAlpha : Bool) : Vector Pixel 4 :=
  #v[paletteEntry p c0 c1 three useAlpha 0, paletteEntry p c0 c1 three useAlpha 1,
    paletteEntry p c0 c1 three useAlpha 2, paletteEntry p c0 c1 three useAlpha 3]

theorem palette_eq (p : Params) (c0 c1 : BitVec 16) (three useAlpha : Bool) :
    palette p (unpack565 p.expand565 c0) (unpack565 p.expand565 c1) three useAlpha =
      paletteEntries p c0.toNat c1.toNat three useAlpha := by
  rw [unpack565_eq_colorOf, unpack565_eq_colorOf, palette]
  cases three
  · rw [blendRgb_oneThird, blendRgb_twoThirds]
    rfl
  · rw [blendRgb_half]
    rfl

theorem entry_paletteEntries (p : Params) (c0 c1 : Nat) (three useAlpha : Bool) {j : Nat} (hj : j < 4) (d : Pixel) :
    entry (paletteEntries p c0 c1 three useAlpha) j d = paletteEntry p c0 c1 three useAlpha j := by
  interval_cases j <;> rfl

/-! ### The colour registers (R131, R133) -/

/-- What `ColorBlock` loads: the fields of the colour part and the palette of its raw colours. -/
theorem loadColor_eq (p : Params) (c : BitVec 64) (three useAlpha : Bool) (w : BcWork) :
    loadColor p c three useAlpha w = { w with
      c0Raw := BitVec.ofNat 16 (fieldOf c 0 16)
      c1Raw := BitVec.ofNat 16 (fieldOf c 16 16)
      idx2 := BitVec.ofNat 32 (fieldOf c 32 32)
      hasAlphaOrBlack := three
      cp := paletteEntries p (fieldOf c 0 16) (fieldOf c 16 16) three useAlpha } := by
  simp only [loadColor, palette_eq, ofNat_fieldOf, toNat_extractLsb'_eq_fieldOf]

/-- Texel `i` takes the two bits of its index (R72). -/
theorem idx2At_eq (c : BitVec 64) {i : Nat} (hi : i < 16) :
    idx2At (BitVec.ofNat 32 (fieldOf c 32 32)) i = fieldOf c (32 + 2 * i) 2 := by
  rw [ofNat_fieldOf, idx2At, Nat.shiftRight_eq_div_pow]
  exact fieldOf_extractLsb' c 32 32 (lo := 2 * i) (w := 2) (by omega)

/-- From registers that hold a loaded colour part, texel `i` is the one Blocks.lean reads from its bits. -/
theorem colorAt_loadColor (p : Params) (c : BitVec 64) (three useAlpha : Bool) (w : BcWork) {i : Nat} (hi : i < 16) :
    colorAt (loadColor p c three useAlpha w) i = colorTexel p c 0 three useAlpha i := by
  rw [loadColor_eq, colorAt, idx2At_eq c hi, entry_paletteEntries _ _ _ _ _ (fieldOf_lt c _ 2)]
  simp only [colorTexel, Nat.zero_add]

/-- Sixteen pixels agree when each texel does. -/
theorem texels_eq_sixteen {f g : Nat → Pixel} (h : ∀ i, i < 16 → f i = g i) : texels f = sixteen g :=
  List.map_congr_left fun i hi => h i (List.mem_range.1 hi)

/-! ### BC1 blocks -/

/-- The row of a BC1 block is three-colour exactly when `c0_raw <= c1_raw` (R72, R132). -/
theorem bc1Row_eq (blk : BitVec 64) :
    bc1Row blk = if fieldOf blk 0 16 ≤ fieldOf blk 16 16 then .bc1Block3 blk else .bc1Block4 blk := by
  unfold bc1Row
  simp only [BitVec.lt_def, toNat_extractLsb'_eq_fieldOf, ← Nat.not_le, ite_not]

/-- The row of a BC1 block runs its turn in the mode of its raw colours. -/
theorem exec_bc1Row (blk : BitVec 64) (s : State) :
    exec (bc1Row blk) s = settle putBc s (bc1Turn (decide (fieldOf blk 0 16 ≤ fieldOf blk 16 16)) blk s) := by
  rw [bc1Row_eq]
  split
  case isTrue h => rw [decide_eq_true h]; rfl
  case isFalse h => rw [decide_eq_false h]; rfl

theorem bc1Pixels_eq (p : Params) (useAlpha : Bool) (blk : BitVec 64) (w : BcWork) :
    bc1Pixels (loadColor p blk (decide (fieldOf blk 0 16 ≤ fieldOf blk 16 16)) useAlpha w) =
      decodeBC1Block p useAlpha blk :=
  texels_eq_sixteen fun _ hi => colorAt_loadColor p blk _ useAlpha w hi

/-- The row of a BC1 block writes the pixels of DecodeBC1Block and leaves its colour registers. -/
theorem exec_bc1Row_blockWritten (blk : BitVec 64) (s : State) :
    ∃ t, exec (bc1Row blk) s = .next t ∧ blockWritten s t (decodeBC1Block s.params s.cmd.useAlpha blk) ∧
      t.bc.blk = blk.setWidth 128 ∧
      t.bc.work = loadColor s.params blk (decide (fieldOf blk 0 16 ≤ fieldOf blk 16 16)) s.cmd.useAlpha s.bc.work := by
  rw [exec_bc1Row, bc1Turn, bc1Pixels_eq]
  exact settle_bcEmit_blockWritten s _ _ _

/-- A well-formed BC1 instruction is the row of its block. -/
theorem bc1Row_of_wf {i : Instr} {blk : BitVec 64} (hi : i = .bc1Block4 blk ∨ i = .bc1Block3 blk) (hwf : i.wf = true) :
    bc1Row blk = i := by
  obtain rfl | rfl := hi
  · exact bc1Row_of_wf4 hwf
  · exact bc1Row_of_wf3 hwf

/-- Settles O21: in either mode the row is the one its raw colours select. -/
theorem bc1BlocksWriteTheirPixels : Obligations.BC1BlocksWriteTheirPixels := by
  intro s blk i hi hwf c0 c1 cp
  obtain ⟨t, hexec, hwritten, hblk, hwork⟩ := exec_bc1Row_blockWritten blk s
  rw [bc1Row_of_wf hi hwf] at hexec
  exact ⟨t, hexec, hwritten, rfl, hblk, hwork.trans (loadColor_eq ..)⟩

end Sys2Proof.Machine
end

section
/-! PROOFS. The pixels of BC2, BC3 and BC4 blocks: the alpha map, the alpha palette and its indices as Blocks.lean reads
them from the block's bits (42_bc2.md R141, 43_bc3.md R151–R153, 44_bc4.md R161). -/

namespace Sys2Proof.Machine

/-! ### The two parts of a 128-bit block -/

/-- The colour part of a 128-bit block is its upper half (R73, R75). -/
theorem colorTexel_upper (p : Params) (blk : BitVec 128) (three useAlpha : Bool) {i : Nat} (hi : i < 16) :
    colorTexel p (blk.extractLsb' 64 64) 0 three useAlpha i = colorTexel p blk 64 three useAlpha i := by
  simp only [colorTexel]
  rw [fieldOf_extractLsb' blk 64 64 (by omega), fieldOf_extractLsb' blk 64 64 (by omega),
    fieldOf_extractLsb' blk 64 64 (by omega)]
  simp only [Nat.add_zero, Nat.zero_add, Nat.add_assoc]

/-- The alpha part of a BC3 block is its lower half (R75). -/
theorem alphaTexel_lower (p : Params) (blk : BitVec 128) {i : Nat} (hi : i < 16) :
    alphaTexel p (blk.extractLsb' 0 64) i = alphaTexel p blk i := by
  simp only [alphaTexel]
  rw [fieldOf_extractLsb' blk 0 64 (by omega), fieldOf_extractLsb' blk 0 64 (by omega),
    fieldOf_extractLsb' blk 0 64 (by omega)]
  simp only [Nat.zero_add]

/-! ### BC2 (R141) -/

/-- A nibble repeated in both halves of a byte is 17 times the nibble. -/
theorem amapAt_eq (blk : BitVec 128) {i : Nat} (hi : i < 16) :
    amapAt (blk.extractLsb' 0 64) i = BitVec.ofNat 8 (17 * fieldOf blk (4 * i) 4) := by
  have hnibble : (blk.extractLsb' 0 64).toNat / 2 ^ (4 * i) % 16 = fieldOf blk (4 * i) 4 := by
    have h := fieldOf_extractLsb' blk 0 64 (lo := 4 * i) (w := 4) (by omega)
    rwa [Nat.zero_add] at h
  rw [amapAt, Nat.shiftRight_eq_div_pow, hnibble, ← Nat.shiftLeft_add_eq_or_of_lt (fieldOf_lt blk _ 4),
    Nat.shiftLeft_eq]
  congr 1
  omega

/-- The row of a BC2 block writes the pixels of DecodeBC2Block. -/
theorem exec_bc2Block_blockWritten (blk : BitVec 128) (s : State) :
    ∃ t, exec (.bc2Block blk) s = .next t ∧ blockWritten s t (decodeBC2Block s.params blk) ∧ t.bc.blk = blk ∧
      t.bc.work = { loadColor s.params (blk.extractLsb' 64 64) false false s.bc.work with
        amap := blk.extractLsb' 0 64 } := by
  have hpix : bc2Pixels { loadColor s.params (blk.extractLsb' 64 64) false false s.bc.work with
      amap := blk.extractLsb' 0 64 } = decodeBC2Block s.params blk := by
    refine texels_eq_sixteen fun i hi => ?_
    have hcolor := colorAt_loadColor s.params (blk.extractLsb' 64 64) false false s.bc.work hi
    rw [colorTexel_upper _ _ _ _ hi] at hcolor
    rw [← hcolor, ← amapAt_eq blk hi]
    rfl
  rw [← hpix]
  exact settle_bcEmit_blockWritten s _ _ _

/-! ### The alpha palette (R116, R117, R151, R152) -/

/-- The palette that the row of an alpha block builds. -/
def alphaPaletteOf (p : Params) (a : BitVec 64) : Vector Byte 8 :=
  if fieldOf a 8 8 < fieldOf a 0 8 then alphaPalette8 p (a.extractLsb' 0 8) (a.extractLsb' 8 8)
  else alphaPalette6 p (a.extractLsb' 0 8) (a.extractLsb' 8 8)

/-- The row of an alpha block builds its palette (R74, R152). -/
theorem exec_alphaRow (a : BitVec 64) (s : State) :
    exec (alphaRow a) s = .next (putBc s (alphaTurn (alphaPaletteOf s.params a) a s)) := by
  unfold alphaRow alphaPaletteOf
  simp only [BitVec.lt_def, toNat_extractLsb'_eq_fieldOf]
  split <;> rfl

theorem sevenths_eq (m : Rounding) (x y : Byte) (j : Nat) :
    sevenths m x y j = BitVec.ofNat 8 (((7 - j) * x.toNat + j * y.toNat + roundTerm m 3) / 7) := by
  cases m <;> rfl

theorem fifths_eq (m : Rounding) (x y : Byte) (j : Nat) :
    fifths m x y j = BitVec.ofNat 8 (((5 - j) * x.toNat + j * y.toNat + roundTerm m 2) / 5) := by
  cases m <;> rfl

section
variable (p : Params) (a0 a1 : Byte) {j : Nat} (hj : j < 8)
include hj

theorem entry_alphaPalette8 (h : a1.toNat < a0.toNat) :
    entry (alphaPalette8 p a0 a1) j 0 = BitVec.ofNat 8 (alphaEntry p a0.toNat a1.toNat j) := by
  interval_cases j <;> simp [entry, alphaPalette8, alphaEntry, sevenths_eq, h]

theorem entry_alphaPalette6 (h : ¬ a1.toNat < a0.toNat) :
    entry (alphaPalette6 p a0 a1) j 0 = BitVec.ofNat 8 (alphaEntry p a0.toNat a1.toNat j) := by
  interval_cases j <;> simp [entry, alphaPalette6, alphaEntry, fifths_eq, h]

end

/-- An alpha block's palette holds the entries that its two endpoints give. -/
theorem entry_alphaPaletteOf (p : Params) (a : BitVec 64) {j : Nat} (hj : j < 8) :
    entry (alphaPaletteOf p a) j 0 = BitVec.ofNat 8 (alphaEntry p (fieldOf a 0 8) (fieldOf a 8 8) j) := by
  rw [alphaPaletteOf, ← toNat_extractLsb'_eq_fieldOf, ← toNat_extractLsb'_eq_fieldOf]
  split
  case isTrue h => exact entry_alphaPalette8 p _ _ hj h
  case isFalse h => exact entry_alphaPalette6 p _ _ hj h

/-- Texel `i` takes the three bits of its index (R74). -/
theorem alphaAt_eq (ap : Vector Byte 8) (a : BitVec 64) {i : Nat} (hi : i < 16) :
    alphaAt ap (a.extractLsb' 16 48) i = entry ap (fieldOf a (16 + 3 * i) 3) 0 := by
  rw [alphaAt, idx3At, Nat.shiftRight_eq_div_pow]
  congr 1
  exact fieldOf_extractLsb' a 16 48 (lo := 3 * i) (w := 3) (by omega)

theorem alphaAt_alphaPaletteOf (p : Params) (a : BitVec 64) {i : Nat} (hi : i < 16) :
    alphaAt (alphaPaletteOf p a) (a.extractLsb' 16 48) i = alphaTexel p a i := by
  rw [alphaAt_eq _ a hi, entry_alphaPaletteOf p a (fieldOf_lt a _ 3), alphaTexel]

/-! ### BC3 and BC4 (R153, R161) -/

/-- With the palette of its alpha part in AP, the row of a BC3 block writes the pixels of DecodeBC3Block. -/
theorem exec_bc3Block_blockWritten (blk : BitVec 128) {s : State}
    (hap : s.bc.work.ap = alphaPaletteOf s.params (blk.extractLsb' 0 64)) :
    ∃ t, exec (.bc3Block blk) s = .next t ∧ blockWritten s t (decodeBC3Block s.params blk) := by
  have hpix : bc3Pixels (loadColor s.params (blk.extractLsb' 64 64) false false
      (loadAlpha s.bc.work.ap (blk.extractLsb' 0 64) s.bc.work)) = decodeBC3Block s.params blk := by
    refine texels_eq_sixteen fun i hi => ?_
    have hcolor := colorAt_loadColor s.params (blk.extractLsb' 64 64) false false
      (loadAlpha s.bc.work.ap (blk.extractLsb' 0 64) s.bc.work) hi
    rw [hcolor, colorTexel_upper _ _ _ _ hi, ← alphaTexel_lower _ _ hi, ← alphaAt_alphaPaletteOf _ _ hi, ← hap]
    rfl
  obtain ⟨t, ht, hwritten, -⟩ := settle_bcEmit_blockWritten s blk _ _
  exact ⟨t, ht, hpix ▸ hwritten⟩

/-- The four channels of R161, under both of its readings. -/
theorem channelPixel_eq_inChannel {channel : Nat} (h : channel ≤ 3) (v : Byte) :
    channelPixel channel v = inChannel channel v := by
  interval_cases channel <;> rfl

/-- With the palette of the block in AP, the row of a BC4 block writes the pixels of DecodeBC4Block. -/
theorem exec_bc4Block_blockWritten (blk : BitVec 64) {s : State} (hchannel : s.cmd.channel.toNat ≤ 3)
    (hap : s.bc.work.ap = alphaPaletteOf s.params blk) :
    ∃ t, exec (.bc4Block blk) s = .next t ∧ blockWritten s t (decodeBC4Block s.params s.cmd.channel.toNat blk) := by
  have hpix : bc4Pixels s.cmd.channel.toNat (loadAlpha s.bc.work.ap blk s.bc.work) =
      decodeBC4Block s.params s.cmd.channel.toNat blk := by
    refine texels_eq_sixteen fun i hi => ?_
    rw [channelPixel_eq_inChannel hchannel, ← alphaAt_alphaPaletteOf _ _ hi, ← hap]
    rfl
  obtain ⟨t, ht, hwritten, -⟩ := settle_bcEmit_blockWritten s (blk.setWidth 128) _ _
  exact ⟨t, ht, hpix ▸ hwritten⟩

end Sys2Proof.Machine
end

section
/-! PROOFS. BC7 blocks: the working registers after a block of any mode hold what Blocks.lean reads from the block's bits by
the layout tables, and so do its texels (45_bc7.md R171–R180), under any ROM that fits the layouts. -/

namespace Sys2Proof.Machine

/-! ### The mode of a block (R172) -/

theorem fieldOf_pattern_iff {blk : BitVec 128} {m : Nat} (hm : m < 8) :
    fieldOf blk 0 (m + 1) = 2 ^ m ↔ bc7ModeOf (blk.extractLsb' 0 8) = m := by
  have hpow : 2 ^ m % 2 ^ (m + 1) = 2 ^ m := Nat.mod_eq_of_lt (Nat.pow_lt_pow_right (by omega) (by omega))
  rw [← bc7Pattern_iff hm, ← BitVec.toNat_inj, toNat_extractLsb'_eq_fieldOf, BitVec.toNat_ofNat, hpow]

theorem layout_mode_lt : ∀ y ∈ bc7Layouts, y.mode < 8 := by decide

theorem layout_mode_inj : ∀ y ∈ bc7Layouts, ∀ y' ∈ bc7Layouts, y.mode = y'.mode → y = y' := by decide

theorem exists_layout_of_mode : ∀ m < 8, ∃ y ∈ bc7Layouts, y.mode = m := by decide

/-- A block is decoded by the layout of its mode. -/
theorem decodeBC7Block_of_mode {rom : Rom} {blk : BitVec 128} {y : Bc7Layout} (hy : y ∈ bc7Layouts)
    (hm : bc7ModeOf (blk.extractLsb' 0 8) = y.mode) :
    decodeBC7Block rom blk = sixteen (bc7TexelIn rom y blk) := by
  unfold decodeBC7Block
  split
  case h_1 y' hfind =>
    have hy' := List.mem_of_find?_eq_some hfind
    have hpattern := (fieldOf_pattern_iff (layout_mode_lt y' hy')).1 (by simpa using List.find?_some hfind)
    rw [layout_mode_inj y hy y' hy' (hm.symm.trans hpattern)]
  case h_2 hfind =>
    have hnone := List.find?_eq_none.1 hfind y hy
    exact absurd (decide_eq_true ((fieldOf_pattern_iff (layout_mode_lt y hy)).2 hm)) hnone

/-- A block without a mode is magenta (R180). -/
theorem decodeBC7Block_reserved {rom : Rom} {blk : BitVec 128} (hm : bc7ModeOf (blk.extractLsb' 0 8) = 8) :
    decodeBC7Block rom blk = reservedPixels := by
  unfold decodeBC7Block
  split
  case h_1 y hfind =>
    have hlt := layout_mode_lt y (List.mem_of_find?_eq_some hfind)
    have hpattern := (fieldOf_pattern_iff hlt).1 (by simpa using List.find?_some hfind)
    omega
  case h_2 => rfl

/-! ### Layouts and the mode table -/

/-- What decoding needs of a layout beyond the places of its fields: which p-bits the mode has, that every component
is 5 to 8 bits wide with its p-bit, and that fields fit the registers that hold them. -/
structure Bc7Layout.Decodes (y : Bc7Layout) (md : Bc7Mode) : Prop where
  pbitKind : (md.epb = 1 ∧ y.pbits = y.endpoints) ∨ (md.epb = 0 ∧ md.spb = 1 ∧ y.endpoints = 2 * y.pbits) ∨
    (md.epb = 0 ∧ md.spb = 0 ∧ y.pbits = 0)
  colorWidth : (y.pbits = 0 ∧ 5 ≤ md.cb ∧ md.cb ≤ 8) ∨ (y.pbits ≠ 0 ∧ 4 ≤ md.cb ∧ md.cb ≤ 7)
  alphaWidth : md.ab = 0 ∨ (md.spb = 0 ∧ ((y.pbits = 0 ∧ 5 ≤ md.ab ∧ md.ab ≤ 8) ∨
    (y.pbits ≠ 0 ∧ 4 ≤ md.ab ∧ md.ab ≤ 7)))
  indexBits1 : y.indexBits1 = md.ib
  indexBits2 : y.indexBits2 = md.ib2
  indexWidth1 : md.ib ≤ 4
  indexWidth2 : md.ib2 ≤ 4
  rotationWidth : md.rb ≤ 2
  idxModeWidth : md.isb ≤ 1
  idxModeSets : md.ib2 = 0 → md.isb = 0
  secondSetSubsets : md.ib2 = 0 ∨ md.ns = 1

theorem layouts_decode : ∀ y ∈ bc7Layouts, y.Decodes (modeRow standardRom y.mode) := by
  intro y hy
  simp only [bc7Layouts, List.mem_cons, List.not_mem_nil, or_false] at hy
  rcases hy with rfl | rfl | rfl | rfl | rfl | rfl | rfl | rfl <;>
    exact ⟨by decide, by decide, by decide, rfl, rfl, by decide, by decide, by decide, by decide, by decide, by decide⟩

/-- A ROM that fits the layouts has the standard mode table. -/
theorem modeRow_of_romOk {rom : Rom} (h : romOk rom) (m : Nat) : modeRow rom m = modeRow standardRom m :=
  congrArg (·.getD m ⟨0, 0, 0, 0, 0, 0, 0, 0, 0, 0⟩) h.1

/-! ### Fields of the block (R171, R173, R174, R177) -/

theorem getD_map_range {α : Type} (f : Nat → α) {n i : Nat} (hi : i < n) (d : α) :
    ((List.range n).map f).getD i d = f i := by
  simp [hi]

section
variable {rom : Rom} {y : Bc7Layout} (hfit : y.Fits (modeRow rom y.mode)) (blk : BitVec 128)
include hfit

theorem bc7Fields_partition : (bc7Fields rom y.mode blk).partition = partitionIn y blk := by
  simp only [bc7Fields, blkBits_eq_fieldOf, partitionIn, hfit.partitionBits]

theorem bc7Fields_rotation : (bc7Fields rom y.mode blk).rotation = rotationIn y blk := by
  simp only [bc7Fields, blkBits_eq_fieldOf, rotationIn, hfit.rotationBits]
  rcases hfit.rotationPlace with h | h <;> simp [h]

theorem bc7Fields_idxMode : (bc7Fields rom y.mode blk).idxMode = idxModeIn y blk := by
  simp only [bc7Fields, blkBits_eq_fieldOf, idxModeIn, hfit.idxModeBits]
  rcases hfit.idxModePlace with h | h <;> simp [h]

section
variable {e : Nat} (he : e < y.endpoints)
include he

theorem bc7Fields_red :
    (bc7Fields rom y.mode blk).r.getD e 0 = fieldOf blk (y.red + y.colorBits * e) y.colorBits := by
  rw [hfit.endpoints] at he
  simp only [bc7Fields, fieldRun_eq, getD_map_range _ he, hfit.red, hfit.colorBits]

theorem bc7Fields_green :
    (bc7Fields rom y.mode blk).g.getD e 0 = fieldOf blk (y.green + y.colorBits * e) y.colorBits := by
  rw [hfit.endpoints] at he
  simp only [bc7Fields, fieldRun_eq, getD_map_range _ he, hfit.green, hfit.colorBits]

theorem bc7Fields_blue :
    (bc7Fields rom y.mode blk).b.getD e 0 = fieldOf blk (y.blue + y.colorBits * e) y.colorBits := by
  rw [hfit.endpoints] at he
  simp only [bc7Fields, fieldRun_eq, getD_map_range _ he, hfit.blue, hfit.colorBits]

theorem bc7Fields_alpha (ha : y.alphaBits ≠ 0) :
    (bc7Fields rom y.mode blk).a.getD e 0 = fieldOf blk (y.alpha + y.alphaBits * e) y.alphaBits := by
  rw [hfit.endpoints] at he
  rw [hfit.alphaBits] at ha
  simp only [bc7Fields, if_neg ha, fieldRun_eq, getD_map_range _ he, hfit.alpha, hfit.alphaBits]

end

theorem bc7Fields_pbit {e : Nat} (he : e < y.pbits) :
    (bc7Fields rom y.mode blk).pbits.getD e 0 = fieldOf blk (y.pbit + e) 1 := by
  rw [hfit.pbits] at he
  simp only [bc7Fields, fieldRun_eq, getD_map_range _ he, hfit.pbit, Nat.one_mul]

end

/-! ### Endpoints (R174, R175) -/

/-- A component without a p-bit. -/
theorem expandComponent_none (b : BitVec 128) (lo : Nat) {w : Nat} (hw : 5 ≤ w) (hw' : w ≤ 8) :
    expandComponent none (fieldOf b lo w) w = componentIn b lo w none :=
  bc7Expand_eq_ofNat hw hw' (fieldOf_lt b lo w)

/-- A component with its p-bit as lowest bit. -/
theorem expandComponent_some (b : BitVec 128) (lo q : Nat) {w : Nat} (hw : 4 ≤ w) (hw' : w ≤ 7) :
    expandComponent (some (fieldOf b q 1)) (fieldOf b lo w) w = componentIn b lo w (some q) := by
  have hp := fieldOf_lt b q 1
  have hv := fieldOf_lt b lo w
  have hjoin : fieldOf b lo w <<< 1 ||| fieldOf b q 1 = 2 * fieldOf b lo w + fieldOf b q 1 := by
    rw [← Nat.shiftLeft_add_eq_or_of_lt hp, Nat.shiftLeft_eq, Nat.pow_one, Nat.mul_comm]
  have hlt : 2 * fieldOf b lo w + fieldOf b q 1 < 2 ^ (w + 1) := by
    rw [Nat.pow_succ]
    omega
  rw [expandComponent, hjoin, bc7Expand_eq_ofNat (by omega) (by omega) hlt, Nat.add_sub_add_right 7 1 w]
  rfl

section
variable {rom : Rom} {y : Bc7Layout} (hfit : y.Fits (modeRow rom y.mode)) (hdec : y.Decodes (modeRow rom y.mode))
  (blk : BitVec 128) {e : Nat} (he : e < y.endpoints)
include hfit hdec he

/-- The p-bit of an endpoint is the bit that the layout names (R174). -/
theorem pbitOf_eq : pbitOf (modeRow rom y.mode) (bc7Fields rom y.mode blk) e =
    (pbitBit y e).map fun q => fieldOf blk q 1 := by
  unfold pbitOf pbitBit
  obtain ⟨hepb, hp⟩ | ⟨hepb, hspb, hp⟩ | ⟨hepb, hspb, hp⟩ := hdec.pbitKind
  · rw [if_pos hepb, if_neg (by omega), if_pos hp, bc7Fields_pbit hfit blk (by omega)]
    rfl
  · rw [if_neg (by omega), if_pos hspb, if_neg (by omega), if_neg (by omega), bc7Fields_pbit hfit blk (by omega)]
    rfl
  · rw [if_neg (by omega), if_neg (by omega), if_pos hp]
    rfl

/-- A component whose width with its p-bit is 5 to 8 bits. -/
theorem expandComponent_eq (lo : Nat) {w : Nat}
    (hw : (y.pbits = 0 ∧ 5 ≤ w ∧ w ≤ 8) ∨ (y.pbits ≠ 0 ∧ 4 ≤ w ∧ w ≤ 7)) :
    expandComponent (pbitOf (modeRow rom y.mode) (bc7Fields rom y.mode blk) e) (fieldOf blk lo w) w =
      componentIn blk lo w (pbitBit y e) := by
  rw [pbitOf_eq hfit hdec blk he]
  obtain ⟨hp, h5, h8⟩ | ⟨hp, h4, h7⟩ := hw
  · rw [pbitBit, if_pos hp]
    exact expandComponent_none blk lo h5 h8
  · rw [pbitBit, if_neg hp]
    split <;> exact expandComponent_some blk lo _ h4 h7

/-- An endpoint after p-bit reconstruction and expansion is the one Blocks.lean reads. -/
theorem endpointAt_eq : endpointAt (modeRow rom y.mode) (bc7Fields rom y.mode blk) e = endpointIn y blk e := by
  have hcolor := fun lo => expandComponent_eq hfit hdec blk he lo hdec.colorWidth
  simp only [endpointAt, endpointIn, Pixel.mk.injEq]
  rw [bc7Fields_red hfit blk he, bc7Fields_green hfit blk he, bc7Fields_blue hfit blk he, hfit.colorBits]
  refine ⟨hcolor _, hcolor _, hcolor _, ?_⟩
  rw [hfit.alphaBits]
  split
  · rfl
  · rename_i hab
    obtain ⟨hspb, hwidth⟩ := hdec.alphaWidth.resolve_left hab
    have hpbit : alphaPbit (modeRow rom y.mode) (bc7Fields rom y.mode blk) e =
        pbitOf (modeRow rom y.mode) (bc7Fields rom y.mode blk) e := by
      simp only [alphaPbit, pbitOf, hspb, Nat.zero_ne_one, if_false]
    rw [hpbit, bc7Fields_alpha hfit blk he (by rwa [hfit.alphaBits]), hfit.alphaBits]
    exact expandComponent_eq hfit hdec blk he _ hwidth

end

/-! ### Subsets and indices (R176, R177) -/

theorem indexIn_eq_indexRun (b : BitVec 128) (anchors : List Nat) (pos w : Nat) {i : Nat} (hi : i < 16) :
    (indexRun b anchors w 16 0 pos).getD i 0 = indexIn b anchors pos w i := indexRun_getD b anchors w pos hi

theorem indexIn_lt (b : BitVec 128) (anchors : List Nat) (pos w i : Nat) : indexIn b anchors pos w i < 2 ^ w := by
  refine (fieldOf_lt b _ _).trans_le (Nat.pow_le_pow_right Nat.two_pos ?_)
  dsimp only
  split <;> omega

section
variable {rom : Rom} {y : Bc7Layout} (hfit : y.Fits (modeRow rom y.mode)) (hdec : y.Decodes (modeRow rom y.mode))
  (blk : BitVec 128)
include hfit

theorem anchorsOf_eq : anchorsOf rom (modeRow rom y.mode).ns (partitionIn y blk) = anchorsIn rom y blk := by
  unfold anchorsIn
  rcases hfit.subsets with h | h | h <;> simp [anchorsOf, hfit.endpoints, h]

theorem subsetAt_eq (i : Nat) :
    subsetAt rom (modeRow rom y.mode).ns (partitionIn y blk) i = subsetIn rom y blk i := by
  unfold subsetIn
  rcases hfit.subsets with h | h | h <;>
    simp [subsetAt, partition2At, partition3At, hfit.endpoints, h, Nat.shiftRight_eq_div_pow]

/-- The endpoints of a texel's subset are among those of the mode. -/
theorem subsetIn_endpoints (hrom : romOk rom) (i : Nat) : 2 * subsetIn rom y blk i + 1 < y.endpoints := by
  have hend := hfit.endpoints
  unfold subsetIn
  rcases hfit.subsets with h | h | h <;> rw [h] at hend
  · rw [if_pos hend]
    omega
  · rw [if_neg (by omega), if_pos hend]
    omega
  · have hdigit : rom.partition3.getD (partitionIn y blk) 0 / 10 ^ (15 - i) % 10 ≤ 2 := by
      by_cases hp : partitionIn y blk < rom.partition3.length
      · rw [List.getD_eq_getElem _ _ hp]
        exact hrom.2 _ (List.getElem_mem hp) _ (by omega)
      · rw [List.getD_eq_default _ _ (Nat.not_lt.1 hp), Nat.zero_div]
        norm_num
    rw [if_neg (by omega), if_neg (by omega)]
    omega

include hdec

theorem bc7Fields_firstIndex {i : Nat} (hi : i < 16) :
    (bc7Fields rom y.mode blk).i1.getD i 0 = firstIndexIn rom y blk i := by
  have hanchors := anchorsOf_eq hfit blk
  rw [← bc7Fields_partition hfit blk] at hanchors
  rw [firstIndexIn, ← hanchors, hfit.index1, hdec.indexBits1]
  exact indexIn_eq_indexRun blk _ _ _ hi

/-- The second index set begins where the first ends; only a mode with one subset has one, so its anchors are texel 0
under any ROM. -/
theorem bc7Fields_secondIndex (h2 : (modeRow rom y.mode).ib2 ≠ 0) {i : Nat} (hi : i < 16) :
    (bc7Fields rom y.mode blk).i2.getD i 0 = secondIndexIn y blk i := by
  have hns := hdec.secondSetSubsets.resolve_left h2
  have htotal := indexBits_total (anchors := [0]) (n := 16) (by simp) (by simp) hfit.indexBits
  have hfirst := hfit.firstSet
  have hend : indexEnd [0] (modeRow rom y.mode).ib 16 0 y.index1 = y.index2 := by
    rw [List.length_singleton] at htotal
    rw [indexEnd_eq]
    omega
  rw [secondIndexIn, ← hend, hfit.index1, hdec.indexBits2, ← indexIn_eq_indexRun blk _ _ _ hi]
  simp only [bc7Fields, if_neg h2, hns, anchorsOf]

end

/-! ### The working registers after a block (10_state.md R30) -/

theorem toNat_ofNat_field {n : Nat} (b : BitVec n) (lo : Nat) {w r : Nat} (h : w ≤ r) :
    (BitVec.ofNat r (fieldOf b lo w)).toNat = fieldOf b lo w := by
  rw [BitVec.toNat_ofNat]
  exact Nat.mod_eq_of_lt ((fieldOf_lt b lo w).trans_le (Nat.pow_le_pow_right Nat.two_pos h))

theorem toNat_ofNat_index (b : BitVec 128) (anchors : List Nat) (pos i : Nat) {w r : Nat} (h : w ≤ r) :
    (BitVec.ofNat r (indexIn b anchors pos w i)).toNat = indexIn b anchors pos w i := by
  rw [BitVec.toNat_ofNat]
  exact Nat.mod_eq_of_lt ((indexIn_lt b anchors pos w i).trans_le (Nat.pow_le_pow_right Nat.two_pos h))

section
variable {rom : Rom} {y : Bc7Layout} (hfit : y.Fits (modeRow rom y.mode)) (hdec : y.Decodes (modeRow rom y.mode))
  (blk : BitVec 128) (w : BcWork)
include hfit hdec

theorem loadBc7_rotation_toNat : (loadBc7 rom y.mode blk w).rotation.toNat = rotationIn y blk := by
  have hbits := hdec.rotationWidth
  rw [← hfit.rotationBits] at hbits
  simp only [loadBc7, bc7Fields_rotation hfit blk]
  exact toNat_ofNat_field blk _ hbits

theorem loadBc7_idxMode_toNat : (loadBc7 rom y.mode blk w).idxMode.toNat = idxModeIn y blk := by
  have hbits := hdec.idxModeWidth
  rw [← hfit.idxModeBits] at hbits
  simp only [loadBc7, bc7Fields_idxMode hfit blk]
  exact toNat_ofNat_field blk _ hbits

theorem loadBc7_endpoint_eq {e : Nat} (he : e < y.endpoints) (h6 : e < 6) (d : Pixel) :
    entry (loadBc7 rom y.mode blk w).endpoints e d = endpointIn y blk e := by
  rw [loadBc7_endpoint rom y.mode blk w e d h6, if_pos (hfit.endpoints ▸ he), endpointAt_eq hfit hdec blk he]

section
variable {i : Nat} (hi : i < 16)
include hi

theorem loadBc7_i1_toNat : (entry (loadBc7 rom y.mode blk w).i1 i 0).toNat = firstIndexIn rom y blk i := by
  rw [loadBc7_i1 rom y.mode blk w i 0 hi, bc7Fields_firstIndex hfit hdec blk hi]
  exact toNat_ofNat_index blk _ _ i (hdec.indexBits1.trans_le hdec.indexWidth1)

theorem loadBc7_i2_toNat (h2 : (modeRow rom y.mode).ib2 ≠ 0) :
    (entry (loadBc7 rom y.mode blk w).i2 i 0).toNat = secondIndexIn y blk i := by
  rw [loadBc7_i2 rom y.mode blk w i 0 hi, if_neg h2, bc7Fields_secondIndex hfit hdec blk h2 hi]
  exact toNat_ofNat_index blk _ _ i (hdec.indexBits2.trans_le hdec.indexWidth2)

omit hdec in
theorem loadBc7_subset_toNat (hrom : romOk rom) :
    (entry (loadBc7 rom y.mode blk w).subset i 0).toNat = subsetIn rom y blk i := by
  have hlt := subsetIn_endpoints hfit blk hrom i
  have hend := hfit.endpoints
  rw [loadBc7_subset rom y.mode blk w i 0 hi, bc7Fields_partition hfit blk, subsetAt_eq hfit blk, BitVec.toNat_ofNat]
  rcases hfit.subsets with h | h | h <;> exact Nat.mod_eq_of_lt (by omega)

end

/-! ### Texels (R178, R179) -/

omit hfit hdec in
theorem bc7Interp_eq (e0 e1 : Byte) (width idx : Nat) :
    bc7Interp rom e0 e1 width idx = weighted (weightIn rom width idx) e0 e1 := by
  have hweight : weightOf rom width idx = weightIn rom width idx := by
    unfold weightOf weightIn
    split <;> simp_all
  rw [bc7Interp, hweight, blend64, weighted, Nat.shiftRight_eq_div_pow]

/-- The register idxMode is 0 unless the block selects its second set for colour. -/
theorem loadBc7_idxMode_eq_zero_iff : (loadBc7 rom y.mode blk w).idxMode = 0 ↔ idxModeIn y blk ≠ 1 := by
  have hidx := loadBc7_idxMode_toNat hfit hdec blk w
  have hlt := (loadBc7 rom y.mode blk w).idxMode.isLt
  rw [← BitVec.toNat_inj, hidx]
  change idxModeIn y blk = 0 ↔ _
  omega

omit w in
/-- A mode with one index set has no index selection. -/
theorem idxModeIn_of_oneSet (h : (modeRow rom y.mode).ib2 = 0) : idxModeIn y blk = 0 := by
  rw [idxModeIn, hfit.idxModeBits, hdec.idxModeSets h, fieldOf_width_zero]

section
variable {i : Nat} (hi : i < 16)
include hi

theorem colorIndex_eq : colorIndex (modeRow rom y.mode) (loadBc7 rom y.mode blk w) i =
    if idxModeIn y blk = 1 then (secondIndexIn y blk i, y.indexBits2) else (firstIndexIn rom y blk i, y.indexBits1) := by
  simp only [colorIndex, loadBc7_idxMode_eq_zero_iff hfit hdec blk w, loadBc7_i1_toNat hfit hdec blk w hi,
    hdec.indexBits1, hdec.indexBits2]
  by_cases h2 : (modeRow rom y.mode).ib2 = 0
  · rw [if_pos h2, if_neg (by rw [idxModeIn_of_oneSet hfit hdec blk h2]; exact Nat.zero_ne_one)]
  · rw [if_neg h2, loadBc7_i2_toNat hfit hdec blk w hi h2, ite_not]

theorem alphaIndex_eq : alphaIndex (modeRow rom y.mode) (loadBc7 rom y.mode blk w) i =
    if y.indexBits2 = 0 ∨ idxModeIn y blk = 1 then (firstIndexIn rom y blk i, y.indexBits1)
    else (secondIndexIn y blk i, y.indexBits2) := by
  simp only [alphaIndex, loadBc7_idxMode_eq_zero_iff hfit hdec blk w, loadBc7_i1_toNat hfit hdec blk w hi,
    hdec.indexBits1, hdec.indexBits2]
  by_cases h2 : (modeRow rom y.mode).ib2 = 0
  · rw [if_pos h2, if_pos (.inl h2)]
  · rw [if_neg h2, loadBc7_i2_toNat hfit hdec blk w hi h2, ite_not]
    simp only [h2, false_or]

/-- A texel before rotation: the blend of its subset's endpoints by the weights of its indices. -/
theorem blendTexel_eq (e0 e1 : Pixel) :
    blendTexel rom (modeRow rom y.mode) (colorIndex (modeRow rom y.mode) (loadBc7 rom y.mode blk w) i)
        (alphaIndex (modeRow rom y.mode) (loadBc7 rom y.mode blk w) i) e0 e1 =
      let w1 := weightIn rom y.indexBits1 (firstIndexIn rom y blk i)
      let w2 := weightIn rom y.indexBits2 (secondIndexIn y blk i)
      let wc := if idxModeIn y blk = 1 then w2 else w1
      let wa := if y.indexBits2 = 0 ∨ idxModeIn y blk = 1 then w1 else w2
      ⟨weighted wc e0.r e1.r, weighted wc e0.g e1.g, weighted wc e0.b e1.b,
        if y.alphaBits = 0 then 255 else weighted wa e0.a e1.a⟩ := by
  rw [colorIndex_eq hfit hdec blk w hi, alphaIndex_eq hfit hdec blk w hi]
  simp only [blendTexel, bc7Interp_eq, hfit.alphaBits, apply_ite Prod.fst, apply_ite Prod.snd]
  congr 1 <;> split_ifs <;> rfl

/-- Texel `i` from the loaded registers is the one Blocks.lean reads from the block's bits. -/
theorem bc7Texel_eq (hrom : romOk rom) :
    bc7Texel rom (modeRow rom y.mode) (loadBc7 rom y.mode blk w) i = bc7TexelIn rom y blk i := by
  have hend := subsetIn_endpoints hfit blk hrom i
  have h6 : y.endpoints ≤ 6 := by
    have := hfit.endpoints
    rcases hfit.subsets with h | h | h <;> omega
  have hrot : rotationIn y blk < 4 := loadBc7_rotation_toNat hfit hdec blk w ▸ BitVec.isLt _
  simp only [bc7Texel, bc7TexelIn]
  rw [loadBc7_subset_toNat hfit blk w hi hrom, loadBc7_rotation_toNat hfit hdec blk w,
    loadBc7_endpoint_eq hfit hdec blk w (by omega) (by omega), loadBc7_endpoint_eq hfit hdec blk w hend (by omega),
    blendTexel_eq hfit hdec blk w hi]
  interval_cases rotationIn y blk <;> rfl

end

end

/-! ### Rows (R182–R189, R180) -/

/-- The pixels of a block of the layout's mode are those of DecodeBC7Block. -/
theorem bc7Pixels_eq {rom : Rom} {blk : BitVec 128} {y : Bc7Layout} (hrom : romOk rom) (hy : y ∈ bc7Layouts)
    (hm : bc7ModeOf (blk.extractLsb' 0 8) = y.mode) (w : BcWork) :
    bc7Pixels rom y.mode (loadBc7 rom y.mode blk w) = decodeBC7Block rom blk := by
  have hrow := modeRow_of_romOk hrom y.mode
  rw [decodeBC7Block_of_mode hy hm]
  exact texels_eq_sixteen fun i hi => bc7Texel_eq (hrow ▸ layouts_fit y hy) (hrow ▸ layouts_decode y hy) blk w hi hrom

theorem exec_bc7RowOfMode {m : Nat} (hm : m < 8) (blk : BitVec 128) (s : State) :
    exec (bc7RowOfMode m blk) s = settle putBc s (bc7Turn m blk s) := by
  interval_cases m <;> rfl

/-- Under a ROM that fits the layouts, the row of a BC7 block writes the pixels of DecodeBC7Block, magenta where the block
has no mode. -/
theorem exec_bc7Row_blockWritten (blk : BitVec 128) {s : State} (hrom : romOk s.rom) :
    ∃ t, exec (bc7Row blk) s = .next t ∧ blockWritten s t (decodeBC7Block s.rom blk) := by
  rw [bc7Row_eq_rowOfMode]
  obtain ⟨hlt, -⟩ | ⟨hm, -⟩ := bc7ModeOf_spec (blk.extractLsb' 0 8)
  · obtain ⟨y, hy, hmode⟩ := exists_layout_of_mode _ hlt
    rw [exec_bc7RowOfMode hlt, bc7Turn, ← hmode, bc7Pixels_eq hrom hy hmode.symm]
    obtain ⟨t, ht, hwritten, -⟩ := settle_bcEmit_blockWritten s blk (loadBc7 s.rom y.mode blk s.bc.work) _
    exact ⟨t, ht, hwritten⟩
  · rw [hm, decodeBC7Block_reserved hm]
    obtain ⟨t, ht, hwritten, -⟩ := settle_bcEmit_blockWritten s blk { s.bc.work with mode := 8 } reservedPixels
    exact ⟨t, ht, hwritten⟩

end Sys2Proof.Machine
end

section
/-! PROOFS. The whole BCn command: each block of the walk is fetched from its place in IN and writes the picture's pixels of
that block, so that after the last one OUT is the picture (41_bc1.md R130, 10_state.md R29). -/

namespace Sys2Proof.Machine

/-! ### Steps and runs -/

theorem step_of_decode {s : State} {i : Instr} (hb : s.status = .busy)
    (hd : decode (fetchSite s).1 (fetchSite s).2 = .ok i) : step s = exec i s := by
  simp only [step, hb, fetch, hd]

theorem run_one {s t : State} (h : step s = .next t) : Host.Core.run Sys2Proof.core 1 s = .next t := run_succ h 0

theorem run_two {s s' t : State} (h : step s = .next s') (h' : step s' = .next t) :
    Host.Core.run Sys2Proof.core 2 s = .next t := (run_succ h 1).trans (run_one h')

theorem run_add {s t : State} {m : Nat} (n : Nat) (h : Host.Core.run Sys2Proof.core m s = .next t) :
    Host.Core.run Sys2Proof.core (m + n) s = Host.Core.run Sys2Proof.core n t := by
  induction m generalizing s with
  | zero =>
    obtain rfl : s = t := Host.Outcome.next.inj h
    rw [Nat.zero_add]
  | succ m ih =>
    obtain ⟨s', hstep, -⟩ := step_outcome s
    rw [Nat.succ_add, run_succ hstep]
    exact ih ((run_succ hstep m).symm.trans h)

/-! ### Reading a block (R57, R130) -/

theorem takeLe_block {m n k : Nat} {inp : List Byte} (h : n * k + m ≤ inp.length) :
    takeLe m (inp.drop (blockAddr n k)) = .ok (leNat (inSlice inp (n * k) m)) := by
  rw [blockAddr, Nat.mul_comm k n]
  exact takeLe_eq_ok.2 ⟨by rw [List.length_drop]; omega, rfl⟩

/-- A step at a block runs the row of the block's little-endian word. -/
theorem step_block {s : State} {c : DecodeCtx} {n : Nat} {alphaFirst : Bool} {row : Nat → Instr} (hb : s.status = .busy)
    (hsite : fetchSite s = bcSite c n alphaFirst s) (hrow : (alphaFirst && !s.bc.palette) = false)
    (hdecode : ∀ bs, decode c bs = (takeLe n bs).map row) (hin : n * s.bc.k.toNat + n ≤ s.cmd.input.length) :
    step s = exec (row (leNat (inSlice s.cmd.input (n * s.bc.k.toNat) n))) s := by
  refine step_of_decode hb ?_
  simp only [hsite, bcSite, hrow, Bool.false_eq_true, if_false, hdecode, takeLe_block hin]
  rfl

/-- A step at a BC3 or BC4 block without a palette runs the row of its alpha block. -/
theorem step_alpha {s : State} {c : DecodeCtx} {n : Nat} (hb : s.status = .busy)
    (hsite : fetchSite s = bcSite c n true s) (hpal : s.bc.palette = false)
    (hin : n * s.bc.k.toNat + 8 ≤ s.cmd.input.length) :
    step s = exec (alphaRow (BitVec.ofNat 64 (leNat (inSlice s.cmd.input (n * s.bc.k.toNat) 8)))) s := by
  refine step_of_decode hb ?_
  simp only [hsite, bcSite, hpal, Bool.not_false, Bool.and_self, if_true, decode, takeLe_block hin]
  rfl

theorem leNat_append (xs ys : List Byte) : leNat (xs ++ ys) = leNat xs + 256 ^ xs.length * leNat ys := by
  induction xs with
  | nil => simp
  | cons x xs ih =>
    rw [List.cons_append, leNat_cons, leNat_cons, ih, List.length_cons, Nat.pow_succ]
    ring

/-- The first 8 of 16 bytes are the lower half of their word. -/
theorem lowerHalf_of_slice {inp : List Byte} {a : Nat} (h : a + 16 ≤ inp.length) :
    (BitVec.ofNat 128 (leNat (inSlice inp a 16))).extractLsb' 0 64 = BitVec.ofNat 64 (leNat (inSlice inp a 8)) := by
  have hsplit : inSlice inp a 16 = inSlice inp a 8 ++ inSlice inp (a + 8) 8 := by
    simp only [inSlice, ← List.drop_drop, ← List.take_add]
  have hlen : (inSlice inp a 8).length = 8 := inSlice_length (by omega)
  rw [← BitVec.toNat_inj, toNat_field, hsplit, leNat_append, hlen, BitVec.toNat_ofNat, BitVec.toNat_ofNat]
  omega

/-! ### The rows of one block -/

/-- What decoding a block needs of the operands: a channel that BC4 has, and for BC7 a ROM that fits the layouts. -/
def decodable (s : State) : Prop := (s.cmd.op = 0x04 → s.cmd.channel.toNat ≤ 3) ∧ (s.cmd.op = 0x07 → romOk s.rom)

/-- A started BCn command at the first row of a block. -/
def atBlock (s : State) : Prop :=
  s.status = .busy ∧ s.starting = false ∧ s.bc.palette = false ∧ bcRunning s ∧ decodable s

theorem bcRunning_of_atBlock {s : State} (h : atBlock s) : bcRunning s := by
  obtain ⟨-, -, -, hrun, -⟩ := h
  exact hrun

/-- The codes of the BCn commands, with the rows that each block takes. -/
def bcCodes : List (Byte × Nat) := [(0x01, 1), (0x02, 1), (0x03, 2), (0x04, 2), (0x07, 1)]

/-- IN holds the block at hand. -/
theorem block_in_input {s : State} (h : bcRunning s) :
    blockBytes s.cmd.op * s.bc.k.toNat + blockBytes s.cmd.op ≤ s.cmd.input.length := by
  obtain ⟨-, -, hk, hlen⟩ := h
  calc blockBytes s.cmd.op * s.bc.k.toNat + blockBytes s.cmd.op
    _ = (s.bc.k.toNat + 1) * blockBytes s.cmd.op := by rw [Nat.add_mul, Nat.one_mul, Nat.mul_comm]
    _ ≤ _ := Nat.mul_le_mul_right _ hk
    _ ≤ _ := hlen

/-- The state after the row of the alpha block with which block `k`, of `n` bytes, begins. -/
def afterAlpha (n : Nat) (s : State) : State :=
  let a := BitVec.ofNat 64 (leNat (inSlice s.cmd.input (n * s.bc.k.toNat) 8))
  putBc s (alphaTurn (alphaPaletteOf s.params a) a s)

/-- The row of an alpha block leaves the block's palette in AP (R151). -/
theorem afterAlpha_ap (n : Nat) (s : State) : (afterAlpha n s).bc.work.ap =
    alphaPaletteOf (afterAlpha n s).params (BitVec.ofNat 64 (leNat (inSlice s.cmd.input (n * s.bc.k.toNat) 8))) := rfl

/-- A BC3 or BC4 block takes two rows: its alpha block's, then its own, which writes the pixels. -/
theorem run_alphaThenBlock {s : State} {c : DecodeCtx} {n : Nat} {row : Nat → Instr} {pix : List Pixel}
    (hb : s.status = .busy) (hpal : s.bc.palette = false)
    (hsite : ∀ r, fetchSite (putBc s r) = bcSite c n true (putBc s r))
    (hdecode : ∀ bs, decode c bs = (takeLe n bs).map row) (h8 : 8 ≤ n)
    (hin : n * s.bc.k.toNat + n ≤ s.cmd.input.length)
    (hwrites : ∃ t, exec (row (leNat (inSlice s.cmd.input (n * s.bc.k.toNat) n))) (afterAlpha n s) = .next t ∧
      blockWritten (afterAlpha n s) t pix) :
    ∃ t, Host.Core.run Sys2Proof.core 2 s = .next t ∧ blockWritten s t pix := by
  have halpha : step s = .next (afterAlpha n s) := (step_alpha hb (hsite s.bc) hpal (by omega)).trans (exec_alphaRow _ s)
  have hblock := step_block (s := afterAlpha n s) hb (hsite _) rfl hdecode hin
  obtain ⟨t, hexec, hwritten⟩ := hwrites
  exact ⟨t, run_two halpha (hblock.trans hexec), hwritten⟩

/-- After the rows of a block, the pixels of its DecodeBlock are written. -/
theorem run_block {s : State} {rows : Nat} (h : atBlock s) (hop : (s.cmd.op, rows) ∈ bcCodes) :
    ∃ t, Host.Core.run Sys2Proof.core rows s = .next t ∧
      blockWritten s t (commandBlock s.params s.rom s.cmd s.bc.k.toNat) := by
  obtain ⟨hb, hs, hpal, hrun, hchannel, hrom⟩ := h
  have hin := block_in_input hrun
  simp only [bcCodes, List.mem_cons, List.not_mem_nil, or_false, Prod.mk.injEq] at hop
  obtain ⟨hop, rfl⟩ | ⟨hop, rfl⟩ | ⟨hop, rfl⟩ | ⟨hop, rfl⟩ | ⟨hop, rfl⟩ := hop
  all_goals
    simp only [blockBytes, hop, BitVec.reduceEq, or_true, or_false, if_true, if_false] at hin
    simp only [commandBlock, hop]
  case inl =>
    have hsite : fetchSite s = bcSite .bc1 8 false s := by simp [fetchSite, hs, hop]
    have hstep := step_block (row := fun n => bc1Row (BitVec.ofNat 64 n)) hb hsite rfl (fun _ => rfl) hin
    obtain ⟨t, hexec, hwritten, -⟩ := exec_bc1Row_blockWritten _ s
    exact ⟨t, run_one (hstep.trans hexec), hwritten⟩
  case inr.inl =>
    have hsite : fetchSite s = bcSite .bc2 16 false s := by simp [fetchSite, hs, hop]
    have hstep := step_block (row := fun n => .bc2Block (BitVec.ofNat 128 n)) hb hsite rfl (fun _ => rfl) hin
    obtain ⟨t, hexec, hwritten, -⟩ := exec_bc2Block_blockWritten _ s
    exact ⟨t, run_one (hstep.trans hexec), hwritten⟩
  case inr.inr.inl =>
    have hsite : ∀ r, fetchSite (putBc s r) = bcSite .bc3 16 true (putBc s r) := fun r => by simp [fetchSite, hs, hop]
    exact run_alphaThenBlock (row := fun n => .bc3Block (BitVec.ofNat 128 n)) hb hpal hsite (fun _ => rfl)
      (by norm_num) hin (exec_bc3Block_blockWritten _ (by rw [lowerHalf_of_slice hin, afterAlpha_ap]))
  case inr.inr.inr.inl =>
    have hsite : ∀ r, fetchSite (putBc s r) = bcSite .bc4 8 true (putBc s r) := fun r => by simp [fetchSite, hs, hop]
    exact run_alphaThenBlock (row := fun n => .bc4Block (BitVec.ofNat 64 n)) hb hpal hsite (fun _ => rfl)
      (by norm_num) hin (exec_bc4Block_blockWritten _ (hchannel hop) (afterAlpha_ap 8 s))
  case inr.inr.inr.inr =>
    have hsite : fetchSite s = bcSite .bc7 16 false s := by simp [fetchSite, hs, hop]
    have hstep := step_block (row := fun n => bc7Row (BitVec.ofNat 128 n)) hb hsite rfl (fun _ => rfl) hin
    obtain ⟨t, hexec, hwritten⟩ := exec_bc7Row_blockWritten _ (hrom hop)
    exact ⟨t, run_one (hstep.trans hexec), hwritten⟩

/-! ### The picture -/

/-- The byte of the picture at channel `c` of pixel `(px, py)` (00_scope.md R14). -/
theorem pictureByte_pixelAddr (p : Params) (rom : Rom) (cmd : CmdRecord) {px py c : Nat} (hx : px < cmd.width.toNat)
    (hc : c < 4) :
    pictureByte p rom cmd (pixelAddr cmd.width.toNat px py + c) =
      pixelChannel ((commandBlock p rom cmd (py / 4 * blocksAlong cmd.width + px / 4)).getD (4 * (py % 4) + px % 4)
        ⟨0, 0, 0, 0⟩) c := by
  simp only [pictureByte, pixelAddr_column hx hc, pixelAddr_row hx hc, pixelAddr_channel hc, blocksAlong]

/-- OUT holds the picture's pixels of the blocks before block `n`. -/
def holdsBlocks (p : Params) (rom : Rom) (cmd : CmdRecord) (out : Memory) (n : Nat) : Prop :=
  ∀ px py c, px < cmd.width.toNat → py < cmd.height.toNat → c < 4 → py / 4 * blocksAlong cmd.width + px / 4 < n →
    Memory.read outFill out (pixelAddr cmd.width.toNat px py + c) =
      some (pictureByte p rom cmd (pixelAddr cmd.width.toNat px py + c))

theorem holdsBlocks_zero (p : Params) (rom : Rom) (cmd : CmdRecord) (out : Memory) : holdsBlocks p rom cmd out 0 :=
  fun _ _ _ _ _ _ h => absurd h (Nat.not_lt_zero _)

/-- Pixel `(px, py)` lies in block column `px / 4`, which is a column of the grid. -/
theorem div_four_lt_blocksAlong {px : Nat} {width : BitVec 32} (hx : px < width.toNat) : px / 4 < blocksAlong width := by
  unfold blocksAlong
  omega

/-- The pixel of texel `i` of the current block lies in block `k`. -/
theorem block_of_texelAddr {s : State} (hrun : bcRunning s) {px py c i a c' : Nat} (hx : px < s.cmd.width.toNat)
    (hc : c < 4) (hc' : c' < 4) (ha : texelAddr s i = some a)
    (h : pixelAddr s.cmd.width.toNat px py + c = a + c') (hi : i < 16) :
    py / 4 * blocksAlong s.cmd.width + px / 4 = s.bc.k.toNat := by
  have hcols : blockCount s.bc.bw s.cmd.width = blocksAlong s.cmd.width := by rw [hrun.1, blockCount_ofNat]
  obtain ⟨hxi, -, rfl⟩ := texelAddr_eq_some.1 ha
  obtain ⟨rfl, rfl, -⟩ := pixelAddr_inj hx hxi hc hc' h
  rw [hcols, show (s.bc.k.toNat / blocksAlong s.cmd.width * 4 + i / 4) / 4 = s.bc.k.toNat / blocksAlong s.cmd.width by
    omega, show (s.bc.k.toNat % blocksAlong s.cmd.width * 4 + i % 4) / 4 = s.bc.k.toNat % blocksAlong s.cmd.width by
    omega, Nat.div_add_mod']

/-- A pixel of block `k` is one of the current block's texels. -/
theorem texelAddr_of_block {s : State} (hrun : bcRunning s) {px py : Nat} (hx : px < s.cmd.width.toNat)
    (hy : py < s.cmd.height.toNat) (hk : py / 4 * blocksAlong s.cmd.width + px / 4 = s.bc.k.toNat) :
    texelAddr s (4 * (py % 4) + px % 4) = some (pixelAddr s.cmd.width.toNat px py) := by
  have hcols : blockCount s.bc.bw s.cmd.width = blocksAlong s.cmd.width := by rw [hrun.1, blockCount_ofNat]
  have hcolumn := div_four_lt_blocksAlong hx
  have hkx : s.bc.k.toNat % blocksAlong s.cmd.width = px / 4 := by
    rw [← hk, Nat.mul_add_mod', Nat.mod_eq_of_lt hcolumn]
  have hky : s.bc.k.toNat / blocksAlong s.cmd.width = py / 4 := by
    rw [← hk, Nat.add_comm, Nat.add_mul_div_right _ _ (Nat.zero_lt_of_lt hcolumn), Nat.div_eq_of_lt hcolumn,
      Nat.zero_add]
  have hpx : px / 4 * 4 + (4 * (py % 4) + px % 4) % 4 = px := by omega
  have hpy : py / 4 * 4 + (4 * (py % 4) + px % 4) / 4 = py := by omega
  rw [texelAddr_eq_some, hcols, hkx, hky, hpx, hpy]
  exact ⟨hx, hy, rfl⟩

/-- Writing block `k` adds its pixels to those of the blocks before it. -/
theorem holdsBlocks_succ {s t : State} (hrun : bcRunning s)
    (hout : holdsBlocks s.params s.rom s.cmd s.bc.out s.bc.k.toNat)
    (hwritten : blockWritten s t (commandBlock s.params s.rom s.cmd s.bc.k.toNat)) :
    holdsBlocks s.params s.rom s.cmd t.bc.out (s.bc.k.toNat + 1) := by
  obtain ⟨htexel, hother, -⟩ := hwritten
  intro px py c hx hy hc hlt
  by_cases hk : py / 4 * blocksAlong s.cmd.width + px / 4 = s.bc.k.toNat
  · rw [htexel _ (by omega) _ (texelAddr_of_block hrun hx hy hk) c hc, pictureByte_pixelAddr _ _ _ hx hc, hk]
  · rw [hother]
    · exact hout px py c hx hy hc (by omega)
    · intro i hi a ha
      by_contra hin
      refine hk (block_of_texelAddr hrun hx hc (c' := pixelAddr s.cmd.width.toNat px py + c - a) ?_ ha ?_ hi) <;> omega

/-- Once OUT holds every block it is the picture: no byte is left unwritten (10_state.md R29). -/
theorem outBytes_eq_picture {p : Params} {rom : Rom} {cmd : CmdRecord} {out : Memory}
    (h : holdsBlocks p rom cmd out (blocksAlong cmd.width * blocksAlong cmd.height)) :
    outBytes out (cmd.width.toNat * cmd.height.toNat * 4) = picture p rom cmd := by
  refine List.map_congr_left fun a ha => ?_
  have hpixel : a / 4 < cmd.width.toNat * cmd.height.toNat := by
    have := List.mem_range.1 ha
    omega
  have hx : a / 4 % cmd.width.toNat < cmd.width.toNat :=
    Nat.mod_lt _ (Nat.pos_of_ne_zero fun h0 => by simp [h0] at hpixel)
  have hy : a / 4 / cmd.width.toNat < cmd.height.toNat := Nat.div_lt_of_lt_mul hpixel
  have haddr : pixelAddr cmd.width.toNat (a / 4 % cmd.width.toNat) (a / 4 / cmd.width.toNat) + a % 4 = a := by
    rw [pixelAddr, Nat.div_add_mod']
    omega
  have hgrid : a / 4 / cmd.width.toNat / 4 * blocksAlong cmd.width + a / 4 % cmd.width.toNat / 4 <
      blocksAlong cmd.width * blocksAlong cmd.height := by
    calc _ < (a / 4 / cmd.width.toNat / 4 + 1) * blocksAlong cmd.width := by
          rw [Nat.add_mul, Nat.one_mul]
          exact Nat.add_lt_add_left (div_four_lt_blocksAlong hx) _
      _ ≤ blocksAlong cmd.height * blocksAlong cmd.width := Nat.mul_le_mul_right _ (div_four_lt_blocksAlong hy)
      _ = _ := Nat.mul_comm _ _
  have hread := h _ _ (a % 4) hx hy (Nat.mod_lt _ (by norm_num)) hgrid
  rw [haddr] at hread
  rw [hread, Option.getD_some]

/-! ### The walk (R130) -/

/-- After a block that is not the last the command stands at the next one. -/
theorem atBlock_next {s t : State} {pix : List Pixel} (h : atBlock s) (hwritten : blockWritten s t pix)
    (hmore : s.bc.k.toNat + 1 < blocksAlong s.cmd.width * blocksAlong s.cmd.height) :
    atBlock t ∧ t.bc.k.toNat = s.bc.k.toNat + 1 := by
  obtain ⟨hb, hs, -, hrun, hdec⟩ := h
  obtain ⟨-, -, hk, hbw, hbh, hpal, hend, ⟨hcmd, hrom, -⟩, -⟩ := hwritten
  rw [gridBlocks_of_bcRunning hrun, if_pos hmore] at hend
  obtain ⟨hstatus, -, hstart⟩ := hend
  obtain ⟨hw, hh, -, hin⟩ := hrun
  have hnext : t.bc.k.toNat = s.bc.k.toNat + 1 := by
    have hle := blocks_le s.cmd.width s.cmd.height
    rw [hk, BitVec.toNat_add]
    exact Nat.mod_eq_of_lt (by simp; omega)
  refine ⟨⟨hstatus.trans hb, hstart.trans hs, hpal, ⟨?_, ?_, ?_, ?_⟩, ?_⟩, hnext⟩
  · rw [hbw, hcmd, hw]
  · rw [hbh, hcmd, hh]
  · rw [hnext, hcmd]
    exact hmore
  · rw [hcmd]
    exact hin
  · unfold decodable
    rw [hcmd, hrom]
    exact hdec

/-- After the last block the command has returned the picture. -/
theorem returned_picture {s t : State} (h : atBlock s) (hout : holdsBlocks s.params s.rom s.cmd s.bc.out s.bc.k.toNat)
    (hwritten : blockWritten s t (commandBlock s.params s.rom s.cmd s.bc.k.toNat))
    (hlast : s.bc.k.toNat + 1 = blocksAlong s.cmd.width * blocksAlong s.cmd.height) :
    returned t (.pixelBuffer (picture s.params s.rom s.cmd)) := by
  have hrun := bcRunning_of_atBlock h
  have hall := holdsBlocks_succ hrun hout hwritten
  obtain ⟨-, -, -, -, -, -, hend, -⟩ := hwritten
  rw [hlast] at hall
  rwa [gridBlocks_of_bcRunning hrun, if_neg hlast.not_lt, outBytes_eq_picture hall] at hend

theorem sameSurroundings_trans {s t u : State} (h : sameSurroundings s t) (h' : sameSurroundings t u) :
    sameSurroundings s u := by
  obtain ⟨hcmd, hrom, hparams, hissues⟩ := h
  obtain ⟨hcmd', hrom', hparams', hissues'⟩ := h'
  exact ⟨hcmd'.trans hcmd, hrom'.trans hrom, hparams'.trans hparams, hissues'.trans hissues⟩

theorem sameSurroundings_of_blockWritten {s t : State} {pix : List Pixel} (h : blockWritten s t pix) :
    sameSurroundings s t := by
  obtain ⟨-, -, -, -, -, -, -, hsame, -⟩ := h
  exact hsame

/-- From block `k`, the rows of the blocks that are left return the picture. -/
theorem run_walk {rows : Nat} (n : Nat) {s : State} (h : atBlock s) (hop : (s.cmd.op, rows) ∈ bcCodes)
    (hout : holdsBlocks s.params s.rom s.cmd s.bc.out s.bc.k.toNat)
    (hleft : s.bc.k.toNat + (n + 1) = blocksAlong s.cmd.width * blocksAlong s.cmd.height) :
    ∃ t, Host.Core.run Sys2Proof.core (rows * (n + 1)) s = .next t ∧
      returned t (.pixelBuffer (picture s.params s.rom s.cmd)) ∧ sameSurroundings s t := by
  induction n generalizing s with
  | zero =>
    obtain ⟨t, ht, hwritten⟩ := run_block h hop
    exact ⟨t, by rwa [Nat.mul_one], returned_picture h hout hwritten hleft, sameSurroundings_of_blockWritten hwritten⟩
  | succ n ih =>
    obtain ⟨s', hs', hwritten⟩ := run_block h hop
    have hout' := holdsBlocks_succ (bcRunning_of_atBlock h) hout hwritten
    obtain ⟨hat, hk⟩ := atBlock_next h hwritten (by omega)
    have hsame := sameSurroundings_of_blockWritten hwritten
    have ⟨hcmd, hrom, hparams, _⟩ := hsame
    obtain ⟨t, ht, hreturned, hsame'⟩ := ih hat (by rwa [hcmd]) (by rwa [hcmd, hrom, hparams, hk])
      (by rw [hk, hcmd, ← hleft]; omega)
    refine ⟨t, ?_, by rwa [hcmd, hrom, hparams] at hreturned, sameSurroundings_trans hsame hsame'⟩
    rw [Nat.mul_succ rows (n + 1), Nat.add_comm, run_add _ hs', ht]

/-! ### The command -/

/-- The command that a BCn code selects, with the BLOCK_BYTES of its format. -/
theorem commandOf_bcCode {op : Byte} {rows : Nat} (h : (op, rows) ∈ bcCodes) :
    ∃ i, commandOf op = some i ∧ (i = .decodeBC4 → op = 0x04) ∧ (i, blockBytes op) ∈
      [(Instr.decodeBC1, 8), (.decodeBC2, 16), (.decodeBC3, 16), (.decodeBC4, 8), (.decodeBC7, 16)] := by
  simp only [bcCodes, List.mem_cons, List.not_mem_nil, or_false, Prod.mk.injEq] at h
  obtain ⟨rfl, -⟩ | ⟨rfl, -⟩ | ⟨rfl, -⟩ | ⟨rfl, -⟩ | ⟨rfl, -⟩ := h <;>
    exact ⟨_, rfl, by decide, by decide⟩

/-- The first step of a BCn command on a long enough input begins its walk. -/
theorem step_bcCommand {s : State} {rows : Nat} (hb : s.status = .busy) (hs : s.starting = true)
    (hop : (s.cmd.op, rows) ∈ bcCodes) (hdec : decodable s)
    (hlen : blocksAlong s.cmd.width * blocksAlong s.cmd.height * blockBytes s.cmd.op ≤ s.cmd.input.length) :
    ∃ t, step s = .next t ∧ bcStarted s t := by
  obtain ⟨i, hcode, h4, hi⟩ := commandOf_bcCode hop
  have hstep : step s = exec i s := step_of_decode hb (by simp only [fetchSite_starting hs, decode, hcode])
  rw [hstep, exec_bcCommand hi fun h => hdec.1 (h4 h)]
  exact settle_bcStart_started hlen

/-- A command that has begun with a block to decode stands at block 0. -/
theorem atBlock_of_bcStarted {s t : State} (hdec : decodable s) (h : bcStarted s t)
    (hlen : blocksAlong s.cmd.width * blocksAlong s.cmd.height * blockBytes s.cmd.op ≤ s.cmd.input.length)
    (hz : blocksAlong s.cmd.width * blocksAlong s.cmd.height ≠ 0) : atBlock t ∧ t.bc.k.toNat = 0 := by
  obtain ⟨hend, hbw, hbh, -, -, hk, -, hpal, -, -, ⟨hcmd, hrom, -⟩, -⟩ := h
  rw [if_neg hz] at hend
  obtain ⟨hstatus, -, hstart⟩ := hend
  have hk0 : t.bc.k.toNat = 0 := by rw [hk]; rfl
  refine ⟨⟨hstatus, hstart, hpal, ⟨?_, ?_, ?_, ?_⟩, ?_⟩, hk0⟩
  · rw [hcmd]
    exact BitVec.eq_of_toNat_eq (hbw.trans (BitVec.toNat_ofNat ..).symm)
  · rw [hcmd]
    exact BitVec.eq_of_toNat_eq (hbh.trans (BitVec.toNat_ofNat ..).symm)
  · rw [hk0, hcmd]
    exact Nat.pos_of_ne_zero hz
  · rw [hcmd]
    exact hlen
  · unfold decodable
    rw [hcmd, hrom]
    exact hdec

/-- Settles O27, by induction on the blocks that are left: OUT holds the picture's pixels of all blocks before block `k`. -/
theorem bcCommandsReturnThePicture : Obligations.BcCommandsReturnThePicture := by
  intro s rows hb hs hop hchannel hrom hlen
  have hdec : decodable s := ⟨hchannel, hrom⟩
  obtain ⟨s', hstep, hstarted⟩ := step_bcCommand hb hs hop hdec hlen
  have ⟨hend, _, _, _, _, _, _, _, _, _, hsame, _⟩ := hstarted
  by_cases hz : blocksAlong s.cmd.width * blocksAlong s.cmd.height = 0
  · rw [if_pos hz] at hend
    obtain ⟨hdone, hresult, -⟩ := hend
    refine ⟨s', ?_, hdone, ?_, hsame⟩
    · rw [hz]
      exact run_one hstep
    · rw [hresult, picture, pixels_of_no_blocks hz]
      rfl
  · obtain ⟨n, hn⟩ := Nat.exists_eq_succ_of_ne_zero hz
    obtain ⟨hat, hk⟩ := atBlock_of_bcStarted hdec hstarted hlen hz
    have ⟨hcmd, hrom', hparams, _⟩ := hsame
    obtain ⟨t, ht, ⟨hdone, hresult, -⟩, hsame'⟩ := run_walk n hat (by rwa [hcmd])
      (hk ▸ holdsBlocks_zero _ _ _ _) (by rw [hk, hcmd, hn, Nat.zero_add])
    rw [hcmd, hrom', hparams] at hresult
    exact ⟨t, by rw [run_succ hstep, hn, ht], hdone, hresult, sameSurroundings_trans hsame hsame'⟩

end Sys2Proof.Machine
end

section
/-! PROOFS. A BC2 block: the registers its row leaves, as Blocks.lean reads them from the 128 bits of the block (42_bc2.md
R141, 30_encoding.md R73). -/

namespace Sys2Proof.Machine

/-- What `ColorBlock` loads from the upper half of a 128-bit block (R73, R75): fields of the block itself. -/
theorem loadColor_upper (p : Params) (blk : BitVec 128) (three useAlpha : Bool) (w : BcWork) :
    loadColor p (blk.extractLsb' 64 64) three useAlpha w = { w with
      c0Raw := BitVec.ofNat 16 (fieldOf blk 64 16)
      c1Raw := BitVec.ofNat 16 (fieldOf blk 80 16)
      idx2 := BitVec.ofNat 32 (fieldOf blk 96 32)
      hasAlphaOrBlack := three
      cp := paletteEntries p (fieldOf blk 64 16) (fieldOf blk 80 16) three useAlpha } := by
  rw [loadColor_eq, fieldOf_extractLsb' blk 64 64 (by omega), fieldOf_extractLsb' blk 64 64 (by omega),
    fieldOf_extractLsb' blk 64 64 (by omega)]

/-- Settles O22: the row loads the colour part always in four-colour mode, and its pixels are those of DecodeBC2Block. -/
theorem bc2BlocksWriteTheirPixels : Obligations.BC2BlocksWriteTheirPixels := by
  intro s blk c0 c1 cp
  obtain ⟨t, hexec, hwritten, hblk, hwork⟩ := exec_bc2Block_blockWritten blk s
  rw [loadColor_upper, ← ofNat_fieldOf] at hwork
  exact ⟨t, hexec, hwritten, rfl, hblk, hwork⟩

end Sys2Proof.Machine
end

section
/-! PROOFS. The rows of a BC3 or BC4 block, each by itself: the palette register that an ALPHA row leaves, and the pixels and
registers of a block's own row whatever stands in that palette (43_bc3.md R151–R153, 44_bc4.md R160, R161). -/

namespace Sys2Proof.Machine

/-! ### Building the palette (R116, R117, R151, R152) -/

/-- What stands in BLK above the alpha block of block `k`: the colour part of a BC3 block, else zeros (R28, R75, R76). -/
def partAboveAlpha (c : CmdRecord) (k : BitVec 60) : BitVec 64 :=
  if c.op = 0x03 then BitVec.ofNat 64 (leNat (inSlice c.input (16 * k.toNat + 8) 8)) else 0

theorem alphaBlk_eq (c : CmdRecord) (k : BitVec 60) (a : BitVec 64) : alphaBlk c k a = partAboveAlpha c k ++ a := by
  unfold alphaBlk partAboveAlpha
  split
  · rw [blockAddr, Nat.mul_comm]
  · rw [← BitVec.toNat_inj, toNat_append_add, BitVec.toNat_setWidth_of_le (by norm_num)]
    simp

/-- What an alpha row whose palette is `ap` leaves in the BCn registers. -/
theorem alphaTurn_eq (ap : Vector Byte 8) (a : BitVec 64) (s : State) :
    alphaTurn ap a s = { s.bc with
      blk := partAboveAlpha s.cmd s.bc.k ++ a, palette := true, work := loadAlpha ap a s.bc.work } := by
  rw [alphaTurn, alphaBlk_eq]

section
variable (p : Params) (a0 a1 : Byte) {j : Nat} (h1 : 1 ≤ j)
include h1

theorem entry_alphaPalette8_succ (h6 : j ≤ 6) :
    entry (alphaPalette8 p a0 a1) (j + 1) 0 = sevenths p.alphaRound a0 a1 j := by
  interval_cases j <;> rfl

theorem entry_alphaPalette6_succ (h4 : j ≤ 4) :
    entry (alphaPalette6 p a0 a1) (j + 1) 0 = fifths p.alphaRound a0 a1 j := by
  interval_cases j <;> rfl

end

/-- Settles O23: the two rows leave the same registers but for the palette, whose interpolated entries are exact. -/
theorem alphaRowsBuildThePalette : Obligations.AlphaRowsBuildThePalette := by
  intro s blk a0 a1 up colorPart
  refine ⟨alphaPalette8 s.params a0 a1, alphaPalette6 s.params a0 a1, ⟨rfl, rfl, fun j h1 h6 => ?_⟩,
    ⟨rfl, rfl, rfl, rfl, fun j h1 h4 => ?_⟩, ?_, ?_⟩
  · rw [entry_alphaPalette8_succ _ _ _ h1 h6]
    exact (sevenths_exact _ a0 a1 (by omega)).1
  · rw [entry_alphaPalette6_succ _ _ _ h1 h4]
    exact (fifths_exact _ a0 a1 (by omega)).1
  · exact congrArg (fun r => Host.Outcome.next (putBc s r)) (alphaTurn_eq _ blk s)
  · exact congrArg (fun r => Host.Outcome.next (putBc s r)) (alphaTurn_eq _ blk s)

/-! ### Reading the palette (R153, R161) -/

/-- Texel `i` of a BC3 block takes its colour from the upper half, as R131 reads it, and its alpha from AP at the index bits of
the lower half (R75, R153). -/
theorem bc3Pixels_eq (p : Params) (ap : Vector Byte 8) (blk : BitVec 128) (w : BcWork) :
    bc3Pixels (loadColor p (blk.extractLsb' 64 64) false false (loadAlpha ap (blk.extractLsb' 0 64) w)) =
      sixteen fun i =>
        { colorTexel p blk 64 false false i with a := entry ap (fieldOf blk (16 + 3 * i) 3) 0 } := by
  refine texels_eq_sixteen fun i hi => ?_
  have halpha : alphaAt ap ((blk.extractLsb' 0 64).extractLsb' 16 48) i = entry ap (fieldOf blk (16 + 3 * i) 3) 0 := by
    rw [alphaAt_eq _ _ hi, fieldOf_extractLsb' blk 0 64 (by omega), Nat.zero_add]
  rw [colorAt_loadColor _ _ _ _ _ hi, colorTexel_upper _ _ _ _ hi, ← halpha]
  rfl

/-- The working registers loaded from a BC3 block, with `ap` in AP: its alpha fields and its colour part (R151, R153). -/
theorem loadColor_loadAlpha (p : Params) (ap : Vector Byte 8) (blk : BitVec 128) (w : BcWork) :
    loadColor p (blk.extractLsb' 64 64) false false (loadAlpha ap (blk.extractLsb' 0 64) w) = { w with
      a0 := blk.extractLsb' 0 8
      a1 := blk.extractLsb' 8 8
      idx3 := blk.extractLsb' 16 48
      ap := ap
      c0Raw := BitVec.ofNat 16 (fieldOf blk 64 16)
      c1Raw := BitVec.ofNat 16 (fieldOf blk 80 16)
      idx2 := BitVec.ofNat 32 (fieldOf blk 96 32)
      hasAlphaOrBlack := false
      cp := paletteEntries p (fieldOf blk 64 16) (fieldOf blk 80 16) false false } := by
  have hlower : ∀ lo w, lo + w ≤ 64 → (blk.extractLsb' 0 64).extractLsb' lo w = blk.extractLsb' lo w := fun lo w h => by
    rw [← ofNat_fieldOf, fieldOf_extractLsb' blk 0 64 h, Nat.zero_add, ofNat_fieldOf]
  rw [loadColor_upper, loadAlpha, hlower 0 8 (by norm_num), hlower 8 8 (by norm_num), hlower 16 48 (by norm_num)]

/-- The row of a BC3 block, whatever AP holds. -/
theorem exec_bc3Block_readsPalette (blk : BitVec 128) (s : State) :
    ∃ t, exec (.bc3Block blk) s = .next t ∧
      blockWritten s t (sixteen fun i =>
        { colorTexel s.params blk 64 false false i with a := entry s.bc.work.ap (fieldOf blk (16 + 3 * i) 3) 0 }) ∧
      t.bc.blk = blk ∧
      t.bc.work = loadColor s.params (blk.extractLsb' 64 64) false false
        (loadAlpha s.bc.work.ap (blk.extractLsb' 0 64) s.bc.work) := by
  rw [← bc3Pixels_eq _ _ _ s.bc.work]
  exact settle_bcEmit_blockWritten s _ _ _

/-- Texel `i` of a BC4 block has its entry of AP in the selected channel (R76, R161). -/
theorem bc4Pixels_eq (channel : Nat) (ap : Vector Byte 8) (blk : BitVec 64) (w : BcWork) :
    bc4Pixels channel (loadAlpha ap blk w) =
      sixteen fun i => channelPixel channel (entry ap (fieldOf blk (16 + 3 * i) 3) 0) :=
  texels_eq_sixteen fun _ hi => congrArg (channelPixel channel) (alphaAt_eq ap blk hi)

/-- The row of a BC4 block, whatever AP holds. -/
theorem exec_bc4Block_readsPalette (blk : BitVec 64) (s : State) :
    ∃ t, exec (.bc4Block blk) s = .next t ∧
      blockWritten s t (sixteen fun i =>
        channelPixel s.cmd.channel.toNat (entry s.bc.work.ap (fieldOf blk (16 + 3 * i) 3) 0)) ∧
      t.bc.blk = blk.setWidth 128 ∧ t.bc.work = loadAlpha s.bc.work.ap blk s.bc.work := by
  rw [← bc4Pixels_eq _ _ _ s.bc.work]
  exact settle_bcEmit_blockWritten s _ _ _

/-- Settles O24: each row reads AP as it finds it and leaves it so. -/
theorem bc3AndBC4BlocksReadThePaletteRegister : Obligations.BC3AndBC4BlocksReadThePaletteRegister := by
  refine fun s => ⟨fun blk => ?_, fun blk => exec_bc4Block_readsPalette blk s⟩
  intro c0 c1 cp
  obtain ⟨t, hexec, hwritten, hblk, hwork⟩ := exec_bc3Block_readsPalette blk s
  exact ⟨t, hexec, hwritten, hblk, hwork.trans (loadColor_loadAlpha ..)⟩

end Sys2Proof.Machine
end

section
/-! PROOFS. The two commands without a decoder: the error they take, and its frame (44_bc4.md R166, 60_exceptions.md
R310–R314). -/

namespace Sys2Proof.Machine

/-- An error discards what the engines hold and nothing around them (R311, R314). -/
theorem sameSurroundings_raiseFail (e : Failure) (s : State) : sameSurroundings s (raiseFail e s) :=
  ⟨raiseFail_cmd e s, raiseFail_rom e s, raiseFail_params e s, raiseFail_issues e s⟩

theorem exec_decodeBC5 (s : State) : exec .decodeBC5 s = .next (raiseFail ⟨.unimplemented, 0⟩ s) := rfl

theorem exec_decodeBC6 (s : State) : exec .decodeBC6 s = .next (raiseFail ⟨.unimplemented, 0⟩ s) := rfl

/-- A row that takes the error `e` ends the command with the record of `e` (R310, R311) and keeps the surroundings. -/
theorem failed_of_exec_eq_raiseFail {i : Instr} {e : Failure} {s : State} (h : exec i s = .next (raiseFail e s)) :
    ∃ t, exec i s = .next t ∧ t.status = .failed ∧ t.result = .fail (errCode e.kind) (BitVec.ofNat 32 e.offset) ∧
      t.starting = false ∧ sameSurroundings s t :=
  ⟨raiseFail e s, h, raiseFail_status e s, raiseFail_result e s, raiseFail_starting e s, sameSurroundings_raiseFail e s⟩

/-- Settles O20: both rows take the error Unimplemented, whose code is 8, at offset 0. -/
theorem bc5AndBC6AreUnimplemented : Obligations.BC5AndBC6AreUnimplemented := fun s =>
  ⟨failed_of_exec_eq_raiseFail (exec_decodeBC5 s), failed_of_exec_eq_raiseFail (exec_decodeBC6 s)⟩

end Sys2Proof.Machine
end

section
/-! PROOFS. The row of a BC7 block by its lowest set bit (45_bc7.md R172). -/

namespace Sys2Proof

/-- Bit `m` is the lowest set bit of a number exactly when the bits up to it are those of `2 ^ m`. -/
theorem mod_two_pow_succ_eq_iff (n m : Nat) : n % 2 ^ (m + 1) = 2 ^ m ↔ n / 2 ^ m % 2 = 1 ∧ n % 2 ^ m = 0 := by
  have hlow : n % 2 ^ m < 2 ^ m := Nat.mod_lt _ (Nat.two_pow_pos m)
  rw [Nat.mod_pow_succ]
  obtain hbit | hbit := Nat.mod_two_eq_zero_or_one (n / 2 ^ m) <;> rw [hbit] <;> omega

/-- A block is of mode `m` exactly when bit `m` is its lowest set bit (R172). -/
theorem bc7ModeOf_eq_iff_lowestBit (blk : BitVec 128) {m : Nat} (hm : m < 8) :
    bc7ModeOf (blk.extractLsb' 0 8) = m ↔ blk.getLsbD m = true ∧ blk.toNat % 2 ^ m = 0 := by
  have hbyte : (blk.extractLsb' 0 8).toNat % 2 ^ (m + 1) = blk.toNat % 2 ^ (m + 1) := by
    rw [toNat_field, Nat.pow_zero, Nat.div_one, Nat.mod_mod_of_dvd _ (Nat.pow_dvd_pow 2 (by omega))]
  rw [bc7ModeOf_eq_iff hm, hbyte, mod_two_pow_succ_eq_iff, getLsbD_iff]

/-- A block has no mode exactly when its byte 0 is 0 (R172). -/
theorem bc7ModeOf_eq_eight_iff_byte (blk : BitVec 128) :
    bc7ModeOf (blk.extractLsb' 0 8) = 8 ↔ blk.toNat % 256 = 0 := by
  simp only [bc7ModeOf_eq_eight_iff, toNat_field, Nat.pow_zero, Nat.div_one, Nat.reducePow]

/-- The decoder reads the bytes of a block as the block's row. -/
theorem decode_bc7_leBytes (blk : BitVec 128) : decode .bc7 (leBytes 16 blk.toNat) = .ok (bc7Row blk) := by
  have h := takeLe_map_word (n := 16) blk (by omega) bc7Row []
  rwa [List.append_nil] at h

/-- An instruction is a block's row exactly when it is that of the block's mode, or the reserved row where there is none. -/
theorem bc7Row_eq_iff (blk : BitVec 128) (i : Instr) :
    bc7Row blk = i ↔ (∃ m < 8, i = bc7RowOfMode m blk ∧ bc7ModeOf (blk.extractLsb' 0 8) = m) ∨
      (i = .bc7Reserved blk ∧ bc7ModeOf (blk.extractLsb' 0 8) = 8) := by
  rw [bc7Row_eq_rowOfMode]
  constructor
  · rintro rfl
    obtain ⟨hlt, -⟩ | ⟨hreserved, -⟩ := bc7ModeOf_spec (blk.extractLsb' 0 8)
    · exact .inl ⟨_, hlt, rfl, rfl⟩
    · exact .inr ⟨congrArg (bc7RowOfMode · blk) hreserved, hreserved⟩
  · rintro (⟨m, -, rfl, rfl⟩ | ⟨rfl, hreserved⟩)
    · rfl
    · exact congrArg (bc7RowOfMode · blk) hreserved

/-- The row the decoder reads, by the lowest set bit of the block's byte 0. -/
theorem decode_bc7_eq_ok_iff (blk : BitVec 128) (i : Instr) :
    decode .bc7 (leBytes 16 blk.toNat) = .ok i ↔
      (∃ m < 8, i = bc7RowOfMode m blk ∧ blk.getLsbD m = true ∧ blk.toNat % 2 ^ m = 0) ∨
      (i = .bc7Reserved blk ∧ blk.toNat % 256 = 0) := by
  rw [decode_bc7_leBytes, Except.ok.injEq, bc7Row_eq_iff, bc7ModeOf_eq_eight_iff_byte]
  refine or_congr_left (exists_congr fun m => and_congr_right fun hm => and_congr_right fun _ => ?_)
  exact bc7ModeOf_eq_iff_lowestBit blk hm

/-- Settles O4: the modes below 8, each with its row and the lowest set bit that selects it, written out. -/
theorem bc7RowIsTheLowestSetBit : Obligations.Bc7RowIsTheLowestSetBit := by
  intro blk i
  rw [decode_bc7_eq_ok_iff]
  simp only [Nat.exists_lt_succ_left, Nat.not_lt_zero, false_and, exists_false, or_false, or_assoc, bc7RowOfMode,
    Nat.zero_add, Nat.reduceAdd, Nat.reducePow, Nat.mod_one, and_true]

end Sys2Proof
end

section
/-! PROOFS. The rows of a BC7 block, each by itself: the pixels it writes and every working register it leaves (45_bc7.md
R171–R180, R182–R189, 10_state.md R30). -/

namespace Sys2Proof.Machine

/-! ### The reserved row (R180) -/

/-- Settles O26: the row emits sixteen magenta pixels through the frame, whatever the block's other bytes. -/
theorem bc7ReservedBlockIsMagenta : Obligations.BC7ReservedBlockIsMagenta := by
  intro s blk
  have hmagenta : reservedPixels = List.replicate 16 ⟨255, 0, 255, 255⟩ := rfl
  rw [← hmagenta]
  exact settle_bcEmit_blockWritten s blk { s.bc.work with mode := 8 } reservedPixels

/-! ### The row of a mode -/

theorem eq_bc7RowOfMode_of_mem {blk : BitVec 128} {i : Instr} {m : Nat}
    (h : (i, m) ∈ (List.range 8).map fun m => (bc7RowOfMode m blk, m)) : i = bc7RowOfMode m blk := by
  obtain ⟨m', -, heq⟩ := List.mem_map.1 h
  obtain ⟨rfl, rfl⟩ := Prod.mk.inj heq
  rfl

/-- The row of a block of the layout's mode writes its texels and loads its working registers. -/
theorem exec_bc7RowOfMode_blockWritten {s : State} {blk : BitVec 128} {y : Bc7Layout} (hrom : romOk s.rom)
    (hy : y ∈ bc7Layouts) (hm : bc7ModeOf (blk.extractLsb' 0 8) = y.mode) :
    ∃ t, exec (bc7RowOfMode y.mode blk) s = .next t ∧ blockWritten s t (sixteen (bc7TexelIn s.rom y blk)) ∧
      t.bc.blk = blk ∧ t.bc.work = loadBc7 s.rom y.mode blk s.bc.work := by
  rw [exec_bc7RowOfMode (layout_mode_lt y hy), bc7Turn, bc7Pixels_eq hrom hy hm, decodeBC7Block_of_mode hy hm]
  exact settle_bcEmit_blockWritten s _ _ _

/-! ### Working registers -/

theorem loadBc7_mode_toNat (rom : Rom) {m : Nat} (hm : m < 8) (blk : BitVec 128) (w : BcWork) :
    (loadBc7 rom m blk w).mode.toNat = m := by
  rw [loadBc7, BitVec.toNat_ofNat]
  exact Nat.mod_eq_of_lt (by omega)

theorem loadBc7_i2_of_oneSet {rom : Rom} {m : Nat} (h : (modeRow rom m).ib2 = 0) (blk : BitVec 128) (w : BcWork) :
    (loadBc7 rom m blk w).i2 = w.i2 := if_pos h

section
variable {rom : Rom} {y : Bc7Layout} (hfit : y.Fits (modeRow rom y.mode)) (blk : BitVec 128) (w : BcWork)
include hfit

theorem loadBc7_partition_toNat : (loadBc7 rom y.mode blk w).partition.toNat = partitionIn y blk := by
  simp only [loadBc7, bc7Fields_partition hfit blk]
  exact toNat_ofNat_field blk _ (hfit.partitionBits.trans_le hfit.partitions)

/-- E holds the mode's endpoints, and above them what it held before. -/
theorem loadBc7_entry_endpoints (hdec : y.Decodes (modeRow rom y.mode)) {e : Nat} (he : e < 6) :
    entry (loadBc7 rom y.mode blk w).endpoints e ⟨0, 0, 0, 0⟩ =
      if e < y.endpoints then endpointIn y blk e else entry w.endpoints e ⟨0, 0, 0, 0⟩ := by
  split
  case isTrue hlt => exact loadBc7_endpoint_eq hfit hdec blk w hlt he _
  case isFalse hge => rw [loadBc7_endpoint rom y.mode blk w e _ he, if_neg (hfit.endpoints ▸ hge)]

end

/-! ### Texels -/

/-- Only mode 4 has an index selection (R186). -/
theorem mode_eq_four_of_idxModeBits : ∀ y ∈ bc7Layouts, y.idxModeBits ≠ 0 → y.mode = 4 := by decide

theorem idxModeIn_eq_one_iff {y : Bc7Layout} (hy : y ∈ bc7Layouts) (blk : BitVec 128) :
    idxModeIn y blk = 1 ↔ y.mode = 4 ∧ idxModeIn y blk = 1 := by
  refine (and_iff_right_of_imp fun h => mode_eq_four_of_idxModeBits y hy fun hbits => ?_).symm
  rw [idxModeIn, hbits, fieldOf_width_zero] at h
  exact Nat.zero_ne_one h

theorem rotationBits_le : ∀ y ∈ bc7Layouts, y.rotationBits ≤ 2 := by decide

theorem rotationIn_lt {y : Bc7Layout} (hy : y ∈ bc7Layouts) (blk : BitVec 128) : rotationIn y blk < 4 :=
  (fieldOf_lt blk _ _).trans_le (Nat.pow_le_pow_right Nat.two_pos (rotationBits_le y hy))

/-- Settles O25: the row of the block's mode writes the texels that Blocks.lean reads from the bits, and its registers hold
what the layout of the mode places there. -/
theorem bc7BlocksWriteTheirPixels : Obligations.BC7BlocksWriteTheirPixels := by
  intro s blk i y hrom hy hi hwf texel
  obtain rfl := eq_bc7RowOfMode_of_mem hi
  have hlt := layout_mode_lt y hy
  have hm := (bc7RowOfMode_wf_iff hlt.le blk).1 hwf
  have hrow := modeRow_of_romOk hrom y.mode
  have hfit : y.Fits (modeRow s.rom y.mode) := hrow ▸ layouts_fit y hy
  have hdec : y.Decodes (modeRow s.rom y.mode) := hrow ▸ layouts_decode y hy
  have htexel : bc7TexelIn s.rom y blk = texel := by
    funext n
    have hrot := rotationIn_lt hy blk
    simp only [bc7TexelIn, texel, ← idxModeIn_eq_one_iff hy blk]
    interval_cases rotationIn y blk <;> rfl
  obtain ⟨t, hexec, hwritten, hblk, hwork⟩ := exec_bc7RowOfMode_blockWritten (s := s) hrom hy hm
  rw [htexel] at hwritten
  refine ⟨t, hexec, hwritten, htexel ▸ decodeBC7Block_of_mode hy hm, hblk, ?_⟩
  rw [hwork, hdec.indexBits2]
  exact ⟨loadBc7_mode_toNat s.rom hlt blk _, loadBc7_partition_toNat hfit blk _, loadBc7_rotation_toNat hfit hdec blk _,
    loadBc7_idxMode_toNat hfit hdec blk _, fun e he => loadBc7_entry_endpoints hfit blk _ hdec he,
    fun n hn => ⟨loadBc7_i1_toNat hfit hdec blk _ hn, loadBc7_subset_toNat hfit blk _ hn hrom,
      loadBc7_i2_toNat hfit hdec blk _ hn⟩,
    fun h2 => loadBc7_i2_of_oneSet h2 blk _, rfl⟩

end Sys2Proof.Machine
end

section
/-! PROOFS. The consistency checks of the BC7 tables (46_bc7_tables.md R206). The checks on the partitions are one fact: the
anchors of a partition stand in the order of their subsets, texel 0 being that of subset 0. -/

namespace Sys2Proof.Machine

/-- Anchor `g` of a partition lies in subset `g` (R203, R204). -/
theorem subsetAt_anchor {ns p g : Nat} (hns : ns = 2 ∨ ns = 3) (hp : p < 64) (hg : g < ns) :
    subsetAt standardRom ns p ((anchorsOf standardRom ns p).getD g 0) = g := by
  have h2 : ∀ p < 64, ∀ g < 2, subsetAt standardRom 2 p ((anchorsOf standardRom 2 p).getD g 0) = g := by decide
  have h3 : ∀ p < 64, ∀ g < 3, subsetAt standardRom 3 p ((anchorsOf standardRom 3 p).getD g 0) = g := by decide
  obtain rfl | rfl := hns
  · exact h2 p hp g hg
  · exact h3 p hp g hg

/-- No subset of a partition is empty: each holds its anchor. -/
theorem exists_texel_of_subset {ns p g : Nat} (hns : ns = 2 ∨ ns = 3) (hp : p < 64) (hg : g < ns) :
    ∃ i < 16, subsetAt standardRom ns p i = g := by
  obtain ⟨-, hlt, hlen⟩ := anchorsOf_standard (.inr hns) hp
  refine ⟨_, hlt _ ?_, subsetAt_anchor hns hp hg⟩
  rw [List.getD_eq_getElem _ _ (hlen.symm ▸ hg)]
  exact List.getElem_mem _

theorem standardRom_partition2_nodup : standardRom.partition2.Nodup := by decide

theorem standardRom_partition3_nodup : standardRom.partition3.Nodup := by decide

/-- Settles O32: that each anchor lies in its own subset gives every check of the partitions; the masks, the strings and the
eight rows of the mode table are evaluated. -/
theorem bc7TablesPassTheirChecks : Obligations.BC7TablesPassTheirChecks := by
  refine ⟨fun p hp => ?_, standardRom_partition2_nodup, standardRom_partition3_nodup, by decide⟩
  have hanchor2 {g : Nat} (hg : g < 2) := subsetAt_anchor (.inl rfl) hp hg
  have hanchor3 {g : Nat} (hg : g < 3) := subsetAt_anchor (.inr rfl) hp hg
  exact ⟨hanchor2 (g := 1) (by decide), hanchor3 (g := 1) (by decide), hanchor3 (g := 2) (by decide),
    hanchor2 (g := 0) (by decide), hanchor3 (g := 0) (by decide),
    fun _ => exists_texel_of_subset (.inl rfl) hp, fun _ => exists_texel_of_subset (.inr rfl) hp⟩

end Sys2Proof.Machine
end

section
/-! PROOFS. The LZSS rows, each by itself: what a started command sets up, what a flag byte, a literal and a
back-reference leave, and how the trailer ends the command (47_lzss.md R211–R219). -/

namespace Sys2Proof.Machine

/-! ### The turns of the rows -/

theorem exec_lzssDecompress (s : State) :
    exec .lzssDecompress s = .next (putLzss (startCommand s) (lzssInit s.cmd)) := rfl

theorem exec_lzssRef (off : BitVec 12) (l : BitVec 4) (s : State) :
    exec (.lzssRef off l) s = settle putLzss s
      (if s.cmd.expectedSize.toNat < s.lzss.out.length + (l.toNat + 3) then .fail ⟨.overflow, s.lzss.ip⟩
       else .run (lzssCopy s.cmd.signedChecksum off (l.toNat + 3) (lzssTake s.lzss 2))) := rfl

theorem exec_lzssCsum (stored : BitVec 32) (s : State) :
    exec (.lzssCsum stored) s = settle putLzss s
      (if stored ≠ s.lzss.csum then .fail ⟨.checksumMismatch, s.lzss.ip⟩
       else .done { s.lzss with ip := s.lzss.ip + 4 }
        (.lzssData s.lzss.out (s.lzss.ip + 4 - s.cmd.offset.toNat))) := rfl

/-- Replacing the registers of the engine is all that a row does while the command goes on. -/
theorem onlyLzss_putLzss (s : State) (r : LzssRegs) : onlyLzss s (putLzss s r) :=
  ⟨(putLzss_engineWrite s r).2, (putLzss_engineWrite s r).1, rfl, rfl, rfl⟩

/-- Settles O33: the ring is the memory without cells, which reads 0x20 everywhere. -/
theorem lzssStartsFromItsInitialState : Obligations.LzssStartsFromItsInitialState := fun s =>
  ⟨_, exec_lzssDecompress s, fun _ _ => Memory.read_nil, rfl, rfl, rfl, rfl, rfl, rfl, rfl, rfl, rfl,
    ⟨rfl, rfl, rfl, rfl⟩, rfl, rfl, rfl⟩

/-- Settles O37: the check of R218 comes before the copy. -/
theorem lzssBackReferenceOverflows : Obligations.LzssBackReferenceOverflows := by
  intro s off l hpast
  rw [exec_lzssRef, if_pos hpast]
  rfl

/-- Settles O38, by the comparison of the trailer with the checksum. -/
theorem lzssTrailerEndsTheCommand : Obligations.LzssTrailerEndsTheCommand := by
  intro s stored
  rw [exec_lzssCsum]
  refine ⟨fun heq => ?_, fun hne => ?_⟩
  · rw [if_neg (not_not_intro heq)]
    rfl
  · rw [if_pos hne]
    rfl

/-! ### The flag register (10_state.md R33, R212) -/

/-- A refilled flag register: the flag byte below, eight ones above. -/
theorem flagsRefill_getLsbD (b : Byte) {i : Nat} (hi : i < 16) :
    (flagsRefill b).getLsbD i = if i < 8 then b.getLsbD i else true := by
  have hones : ∀ i < 16, (0xFF00#16).getLsbD i = decide (8 ≤ i) := by decide
  rw [flagsRefill, BitVec.getLsbD_or, BitVec.getLsbD_setWidth, hones i hi]
  split
  case isTrue hlow => simp [hi, hlow]
  case isFalse hhigh => simp [Nat.le_of_not_lt hhigh]

/-- Settles O34: bit `j` after shifts by `k` is bit `k + j` of the refilled register. -/
theorem lzssFlagByteGovernsEightTokens : Obligations.LzssFlagByteGovernsEightTokens := by
  intro s kinds
  have hbit (k j : Nat) (h : k + j < 16) :
      (flagsRefill kinds >>> k).getLsbD j = if k + j < 8 then kinds.getLsbD (k + j) else true := by
    rw [BitVec.getLsbD_ushiftRight, flagsRefill_getLsbD kinds h]
  refine ⟨exec_lzssFlags kinds s, fun j hj => ?_, fun j hj => ?_, ?_⟩
  · exact (hbit j 0 (by omega)).trans (if_pos hj)
  · exact (hbit j 8 (by omega)).trans (if_neg (by omega))
  · exact (BitVec.getLsbD_ushiftRight _ 8 8).trans (BitVec.getLsbD_of_ge _ _ (by decide))

theorem flagsForToken_eq (e : LzssRegs) : flagsForToken e = if e.fresh then e.flags else e.flags >>> 1 := rfl

/-! ### The checksum (R217) -/

/-- A byte widens to its signed or unsigned value modulo 2^32. -/
theorem widen_eq_ofInt (g : Bool) (v : Byte) :
    widen g v = BitVec.ofInt 32 (if g then v.toInt else v.toNat) := by
  cases g with
  | false =>
    rw [if_neg Bool.false_ne_true, BitVec.ofInt_natCast, BitVec.ofNat_toNat]
    rfl
  | true => rfl

/-! ### One byte (R215) -/

/-- Every slot of RING reads a byte. -/
theorem exists_read_ringFill (m : Memory) (a : Nat) : ∃ v, Memory.read ringFill m a = some v := by
  induction m with
  | nil => exact ⟨_, rfl⟩
  | cons c cs ih =>
    rw [Memory.read]
    split
    · exact ⟨_, rfl⟩
    · exact ih

/-- What a back-reference reads is what RING holds at its slot. -/
theorem some_lzssRead (e : LzssRegs) (off : BitVec 12) :
    some (lzssRead e off) = Memory.read ringFill e.ring (ringSlot e.r off) := by
  obtain ⟨v, hv⟩ := exists_read_ringFill e.ring (ringSlot e.r off)
  rw [lzssRead, hv, Option.getD_some]

theorem cursor_add_one (r : BitVec 12) : (r + 1).toNat = (r.toNat + 1) % 4096 := BitVec.toNat_add r 1

/-- The ring after a byte, in every slot: the slot at the cursor reads the byte, the others are as before. -/
theorem read_lzssEmit {e : LzssRegs} (hwf : Memory.wf ringFill e.ring) (g : Bool) (c : Byte) (a : Nat) :
    Memory.read ringFill (lzssEmit g e c).ring a =
      if a = e.r.toNat then some c else Memory.read ringFill e.ring a := by
  rw [lzssEmit_ring]
  split
  case isTrue heq => rw [heq, Memory.read_write_eq hwf]
  case isFalse hne => exact Memory.read_write_ne hne

/-- Settles O35: the turn is one emitted byte, once the token is read. -/
theorem lzssLiteralIsEmitted : Obligations.LzssLiteralIsEmitted := fun s v hwf =>
  ⟨_, exec_lzssLit v s, rfl, read_lzssEmit (e := lzssTake s.lzss 1) hwf _ v, cursor_add_one s.lzss.r,
    congrArg (s.lzss.csum + ·) (widen_eq_ofInt _ v), flagsForToken_eq s.lzss, rfl, rfl, onlyLzss_putLzss s _⟩

end Sys2Proof.Machine
end

section
/-! PROOFS. An LZSS back-reference: its copy is a sequence of bytes, each emitted before the next is read, and each found
among the bytes already copied or in a slot that the copy has not reached (47_lzss.md R213, R214, R216, 70 R347). -/

namespace Sys2Proof.Machine

/-! ### Several bytes -/

/-- `LzssEmit` of each byte of a sequence in turn. -/
def lzssEmitAll (g : Bool) (e : LzssRegs) (xs : List Byte) : LzssRegs := xs.foldl (lzssEmit g) e

section
variable (g : Bool) (e : LzssRegs)

@[simp] theorem lzssEmitAll_nil : lzssEmitAll g e [] = e := rfl

@[simp] theorem lzssEmitAll_cons (x : Byte) (xs : List Byte) :
    lzssEmitAll g e (x :: xs) = lzssEmitAll g (lzssEmit g e x) xs := rfl

/-- What a sequence of bytes leaves in the registers other than RING. -/
theorem lzssEmitAll_regs (xs : List Byte) :
    (lzssEmitAll g e xs).out = e.out ++ xs ∧ (lzssEmitAll g e xs).r = e.r + BitVec.ofNat 12 xs.length ∧
      (lzssEmitAll g e xs).csum = e.csum + (xs.map (widen g)).sum ∧ (lzssEmitAll g e xs).flags = e.flags ∧
      (lzssEmitAll g e xs).ip = e.ip ∧ (lzssEmitAll g e xs).fresh = e.fresh := by
  induction xs generalizing e with
  | nil => simp
  | cons x xs ih =>
    obtain ⟨hout, hr, hcsum, hflags, hip, hfresh⟩ := ih (lzssEmit g e x)
    refine ⟨?_, ?_, ?_, hflags, hip, hfresh⟩
    · rw [lzssEmitAll_cons, hout, lzssEmit_out, List.append_assoc, List.singleton_append]
    · rw [lzssEmitAll_cons, hr, lzssEmit_r, List.length_cons, Nat.add_comm, BitVec.ofNat_add, ← BitVec.add_assoc]
      rfl
    · rw [lzssEmitAll_cons, hcsum, lzssEmit_csum, List.map_cons, List.sum_cons, BitVec.add_assoc]

/-- The cursor moves by one slot a byte. -/
theorem lzssEmitAll_r_toNat (xs : List Byte) : (lzssEmitAll g e xs).r.toNat = (e.r.toNat + xs.length) % 4096 := by
  obtain ⟨-, hr, -⟩ := lzssEmitAll_regs g e xs
  rw [hr, BitVec.toNat_add, BitVec.toNat_ofNat]
  omega

/-- Slots that the cursor does not pass are as before. -/
theorem read_lzssEmitAll_other {xs : List Byte} {a : Nat} (ha : ∀ j < xs.length, a ≠ (e.r.toNat + j) % 4096) :
    Memory.read ringFill (lzssEmitAll g e xs).ring a = Memory.read ringFill e.ring a := by
  induction xs generalizing e with
  | nil => rfl
  | cons x xs ih =>
    have hfirst : a ≠ e.r.toNat := by
      have hlt : e.r.toNat < 4096 := e.r.isLt
      have h0 := ha 0 (Nat.succ_pos _)
      omega
    rw [lzssEmitAll_cons, ih, lzssEmit_ring, Memory.read_write_ne hfirst]
    intro j hj
    have hnext := ha (j + 1) (Nat.succ_lt_succ hj)
    rw [lzssEmit_r, cursor_add_one]
    omega

/-- The slots that the cursor passes, at most once around the ring, read the bytes. -/
theorem read_lzssEmitAll_written {xs : List Byte} (hwf : Memory.wf ringFill e.ring) (hlen : xs.length ≤ 4096)
    {j : Nat} (hj : j < xs.length) :
    Memory.read ringFill (lzssEmitAll g e xs).ring ((e.r.toNat + j) % 4096) = some (xs.getD j 0) := by
  have hr : e.r.toNat < 4096 := e.r.isLt
  induction xs generalizing e j with
  | nil => exact absurd hj (Nat.not_lt_zero j)
  | cons x xs ih =>
    have hnext : (lzssEmit g e x).r.toNat = (e.r.toNat + 1) % 4096 := cursor_add_one e.r
    rw [List.length_cons] at hlen hj
    rw [lzssEmitAll_cons]
    cases j with
    | zero =>
      have hslot : (e.r.toNat + 0) % 4096 = e.r.toNat := Nat.mod_eq_of_lt hr
      rw [hslot, read_lzssEmitAll_other, read_lzssEmit hwf, if_pos rfl, List.getD_cons_zero]
      intro i hi
      omega
    | succ j =>
      have hslot : (e.r.toNat + (j + 1)) % 4096 = ((lzssEmit g e x).r.toNat + j) % 4096 := by omega
      rw [hslot, List.getD_cons_succ]
      exact ih (e := lzssEmit g e x) (Memory.write_wf hwf) (by omega) (by omega) (BitVec.isLt _)

end

/-! ### The copy -/

/-- A copy emits bytes, each of which it reads from the ring that the bytes before it have left. -/
theorem exists_lzssCopy_bytes (g : Bool) (off : BitVec 12) (n : Nat) (e : LzssRegs) :
    ∃ xs : List Byte, xs.length = n ∧ lzssCopy g off n e = lzssEmitAll g e xs ∧
      ∀ j < n, xs.getD j 0 = lzssRead (lzssEmitAll g e (xs.take j)) off := by
  induction n generalizing e with
  | zero => exact ⟨[], rfl, rfl, fun j hj => absurd hj (Nat.not_lt_zero j)⟩
  | succ n ih =>
    obtain ⟨xs, hlen, hcopy, hread⟩ := ih (lzssEmit g e (lzssRead e off))
    refine ⟨lzssRead e off :: xs, by rw [List.length_cons, hlen], hcopy, fun j hj => ?_⟩
    cases j with
    | zero => rfl
    | succ j => exact hread j (Nat.lt_of_succ_lt_succ hj)

/-- What a back-reference reads after `xs`, fewer bytes than the ring has slots: one of `xs` when it reaches back no further
than these, else what RING held before them. -/
theorem some_lzssRead_lzssEmitAll {e : LzssRegs} (hwf : Memory.wf ringFill e.ring) (g : Bool) {xs : List Byte}
    (hlen : xs.length < 4096) (off : BitVec 12) :
    some (lzssRead (lzssEmitAll g e xs) off) =
      if 1 ≤ off.toNat ∧ off.toNat ≤ xs.length then some (xs.getD (xs.length - off.toNat) 0)
      else Memory.read ringFill e.ring ((e.r.toNat + xs.length + 4096 - off.toNat) % 4096) := by
  have hoff : off.toNat < 4096 := off.isLt
  have hslot : ringSlot (lzssEmitAll g e xs).r off = (e.r.toNat + xs.length + 4096 - off.toNat) % 4096 := by
    rw [ringSlot, BitVec.toNat_sub, lzssEmitAll_r_toNat]
    omega
  rw [some_lzssRead, hslot]
  split
  case isTrue hown =>
    have hcopied : (e.r.toNat + xs.length + 4096 - off.toNat) % 4096 =
        (e.r.toNat + (xs.length - off.toNat)) % 4096 := by omega
    rw [hcopied]
    exact read_lzssEmitAll_written g e hwf hlen.le (by omega)
  case isFalse hring =>
    refine read_lzssEmitAll_other g e fun j hj => ?_
    omega

/-- Settles O36: the copy is a sequence of bytes, and byte `j` is read after the `j` bytes before it. -/
theorem lzssBackReferenceCopiesThroughTheRing : Obligations.LzssBackReferenceCopiesThroughTheRing := by
  intro s off l hwf hfits
  have hl : l.toNat < 16 := l.isLt
  obtain ⟨xs, hlen, hcopy, hread⟩ :=
    exists_lzssCopy_bytes s.cmd.signedChecksum off (l.toNat + 3) (lzssTake s.lzss 2)
  obtain ⟨hout, -, hcsum, hflags, hip, hfresh⟩ := lzssEmitAll_regs s.cmd.signedChecksum (lzssTake s.lzss 2) xs
  refine ⟨putLzss s (lzssEmitAll s.cmd.signedChecksum (lzssTake s.lzss 2) xs), xs, ?_, hlen, hout, fun j hj => ?_,
    fun j hj => ?_, fun a ha => ?_, ?_, ?_, hflags, hfresh, hip, onlyLzss_putLzss s _⟩
  · rw [exec_lzssRef, if_neg (Nat.not_lt.2 hfits), hcopy]
    rfl
  · have hprefix : (xs.take j).length = j := by rw [List.length_take]; omega
    have hbyte := some_lzssRead_lzssEmitAll (e := lzssTake s.lzss 2) hwf s.cmd.signedChecksum (xs := xs.take j)
      (by omega) off
    rw [hread j hj, hbyte, hprefix]
    refine if_ctx_congr Iff.rfl (fun hown => ?_) fun _ => rfl
    rw [List.getD_eq_getElem?_getD, List.getElem?_take_of_lt (by omega), ← List.getD_eq_getElem?_getD]
  · exact read_lzssEmitAll_written _ (lzssTake s.lzss 2) hwf (by omega) (hlen ▸ hj)
  · exact read_lzssEmitAll_other _ (lzssTake s.lzss 2) (hlen ▸ ha)
  · rw [← hlen]
    exact lzssEmitAll_r_toNat _ (lzssTake s.lzss 2) xs
  · rw [funext (widen_eq_ofInt s.cmd.signedChecksum)] at hcsum
    exact hcsum

end Sys2Proof.Machine
end

section
/-! PROOFS. While an LZSS command runs, the ring reads as the output: each emitted byte is the one that a read one place
back finds, and every other read finds what one place less found before (47_lzss.md R213–R217, 70 R349). -/

namespace Sys2Proof.Machine

/-! ### Reads of the output -/

/-- How far back offset `off` reaches: one place for offset 1, 4096 for offset 0 (R214). -/
def placesBack (off : BitVec 12) : Nat := if off = 0 then 4096 else off.toNat

theorem outputBack_eq (out : List Byte) (off : BitVec 12) : outputBack out off =
    if placesBack off ≤ out.length then out.getD (out.length - placesBack off) 0 else ringFillByte := rfl

theorem placesBack_eq (off : BitVec 12) : placesBack off = (off.toNat + 4095) % 4096 + 1 := by
  have hlt : off.toNat < 4096 := off.isLt
  unfold placesBack
  split
  case isTrue hzero => rw [hzero]; rfl
  case isFalse hne =>
    have hpos : off.toNat ≠ 0 := fun h0 => hne (BitVec.eq_of_toNat_eq h0)
    omega

theorem placesBack_of_ne_one {off : BitVec 12} (h : off ≠ 1) : placesBack off = placesBack (off - 1) + 1 := by
  have hlt : off.toNat < 4096 := off.isLt
  have hone : off.toNat ≠ 1 := fun h1 => h (BitVec.eq_of_toNat_eq h1)
  have hprev : (off - 1).toNat = (off.toNat + 4095) % 4096 := by
    rw [BitVec.toNat_sub, Nat.add_comm]
    rfl
  rw [placesBack_eq, placesBack_eq, hprev]
  omega

/-- The byte just appended is one place back. -/
theorem outputBack_append_one (out : List Byte) (c : Byte) : outputBack (out ++ [c]) 1 = c := by
  simp [outputBack]

/-- Any other byte is one place further back than before. -/
theorem outputBack_append_of_ne (out : List Byte) (c : Byte) {off : BitVec 12} (h : off ≠ 1) :
    outputBack (out ++ [c]) off = outputBack out (off - 1) := by
  have hpos : 0 < placesBack (off - 1) := by rw [placesBack_eq]; exact Nat.succ_pos _
  rw [outputBack_eq, outputBack_eq, placesBack_of_ne_one h, List.length_append, List.length_singleton,
    Nat.add_sub_add_right]
  refine if_ctx_congr Nat.add_le_add_iff_right (fun hreach => ?_) fun _ => rfl
  exact List.getD_append _ _ _ _ (by omega)

/-! ### Reads of the ring -/

theorem lzssRead_lzssEmit_one {e : LzssRegs} (hwf : Memory.wf ringFill e.ring) (g : Bool) (c : Byte) :
    lzssRead (lzssEmit g e c) 1 = c := by
  have hslot : ringSlot (lzssEmit g e c).r 1 = e.r.toNat := by rw [ringSlot, lzssEmit_r, BitVec.add_sub_cancel]
  rw [lzssRead, hslot, read_lzssEmit hwf, if_pos rfl, Option.getD_some]

theorem lzssRead_lzssEmit_of_ne (g : Bool) (e : LzssRegs) (c : Byte) {off : BitVec 12} (h : off ≠ 1) :
    lzssRead (lzssEmit g e c) off = lzssRead e (off - 1) := by
  have hslot : ringSlot (lzssEmit g e c).r off = ringSlot e.r (off - 1) := by
    rw [ringSlot, ringSlot, lzssEmit_r]
    congr 1
    ring
  have hother : ringSlot e.r (off - 1) ≠ e.r.toNat := by
    rw [ringSlot, ne_eq, BitVec.toNat_inj, sub_eq_self, sub_eq_zero]
    exact h
  rw [lzssRead, lzssRead, hslot, lzssEmit_ring, Memory.read_write_ne hother]

/-! ### The registers of a running command -/

/-- What `ringFollowsOutput` says of the engine's registers, under the checksum mode of the command. -/
def followsOutput (g : Bool) (e : LzssRegs) : Prop :=
  Memory.wf ringFill e.ring ∧ e.r = lzssR0 + BitVec.ofNat 12 e.out.length ∧ e.csum = (e.out.map (widen g)).sum ∧
    ∀ off : BitVec 12, lzssRead e off = outputBack e.out off

theorem ringFollowsOutput_iff (s : State) :
    ringFollowsOutput s ↔
      (s.status = .busy → s.starting = false → s.cmd.op = 0x10 → followsOutput s.cmd.signedChecksum s.lzss) := Iff.rfl

/-- The initial ring reads 0x20 everywhere, and there is no output to follow (R211). -/
theorem followsOutput_lzssInit (g : Bool) (c : CmdRecord) : followsOutput g (lzssInit c) := by
  refine ⟨ringOk_nil.1, rfl, rfl, fun off => ?_⟩
  have hbeyond : ¬ placesBack off ≤ (lzssInit c).out.length := by rw [placesBack_eq]; exact Nat.not_succ_le_zero _
  rw [outputBack_eq, if_neg hbeyond]
  rfl

theorem followsOutput_lzssEmit {g : Bool} {e : LzssRegs} (h : followsOutput g e) (c : Byte) :
    followsOutput g (lzssEmit g e c) := by
  obtain ⟨hwf, hr, hcsum, hread⟩ := h
  refine ⟨Memory.write_wf hwf, ?_, ?_, fun off => ?_⟩
  · rw [lzssEmit_r, lzssEmit_out, List.length_append, List.length_singleton, hr, BitVec.ofNat_add, BitVec.add_assoc]
    rfl
  · rw [lzssEmit_csum, lzssEmit_out, List.map_append, List.sum_append, List.map_singleton, List.sum_singleton, hcsum]
  · rw [lzssEmit_out]
    by_cases hone : off = 1
    · rw [hone, lzssRead_lzssEmit_one hwf, outputBack_append_one]
    · rw [lzssRead_lzssEmit_of_ne g e c hone, outputBack_append_of_ne _ _ hone, hread]

theorem followsOutput_lzssCopy {g : Bool} {e : LzssRegs} (h : followsOutput g e) (off : BitVec 12) (n : Nat) :
    followsOutput g (lzssCopy g off n e) := by
  induction n generalizing e with
  | zero => exact h
  | succ n ih => exact ih (followsOutput_lzssEmit h _)

/-! ### Every step -/

/-- The rows of the LZSS engine (R89, R90). -/
theorem lzssRow_cases {i : Instr} (hi : rowEngine i = some .lzss) :
    (∃ kinds, i = .lzssFlags kinds) ∨ (∃ v, i = .lzssLit v) ∨ (∃ off l, i = .lzssRef off l) ∨
      ∃ stored, i = .lzssCsum stored := by
  cases i
  case lzssFlags | lzssLit | lzssRef | lzssCsum => simp
  case lzoM3 | lzoM4 | lzoEof => simp at hi
  all_goals simp [rowEngine, homeCtx, placeEngine] at hi

/-- A flag byte moves neither ring nor output, a literal emits one byte, a back-reference copies; the trailer ends the
command. -/
theorem exec_lzss_followsOutput {s : State} {i : Instr} (hi : rowEngine i = some .lzss)
    (h : followsOutput s.cmd.signedChecksum s.lzss) :
    ∃ u, exec i s = settle putLzss s u ∧ u.ensures (followsOutput s.cmd.signedChecksum) anyResult := by
  have htaken (k : Nat) : followsOutput s.cmd.signedChecksum (lzssTake s.lzss k) := h
  obtain ⟨kinds, rfl⟩ | ⟨v, rfl⟩ | ⟨off, l, rfl⟩ | ⟨stored, rfl⟩ := lzssRow_cases hi
  · exact ⟨_, exec_lzssFlags kinds s, h⟩
  · exact ⟨_, exec_lzssLit v s, followsOutput_lzssEmit (htaken 1) v⟩
  · refine ⟨_, exec_lzssRef off l s, ?_⟩
    split
    · trivial
    · exact followsOutput_lzssCopy (htaken 2) off (l.toNat + 3)
  · refine ⟨_, exec_lzssCsum stored s, ?_⟩
    split <;> trivial

/-- Settles O39: the first row sets up registers that follow the empty output, every later row keeps them so, and an error
or the trailer ends the command. -/
theorem lzssRingFollowsTheOutput : Obligations.LzssRingFollowsTheOutput := by
  intro s t hfollows hstep
  obtain ⟨hcmd, -⟩ := stepsNeverWriteRecordRomOrParameters s t hstep
  rw [ringFollowsOutput_iff] at hfollows ⊢
  intro hbusy hstarted hop
  rw [hcmd] at hop ⊢
  by_cases hb : s.status = .busy
  case neg =>
    obtain rfl := Host.Outcome.next.inj ((step_not_busy hb).symm.trans hstep)
    exact absurd hbusy hb
  have he : engineOf s.cmd.op = some .lzss := by rw [hop]; rfl
  obtain ⟨i, hd, hx⟩ | ⟨r, -, hx⟩ := step_busy_cases hb <;> rw [hx] at hstep
  case inr =>
    obtain rfl := Host.Outcome.next.inj hstep
    simp at hbusy
  cases hs : s.starting with
  | true =>
    rw [fetchSite_starting hs, hop] at hd
    obtain rfl : .lzssDecompress = i := Except.ok.inj hd
    obtain rfl := Host.Outcome.next.inj ((exec_lzssDecompress s).symm.trans hstep)
    exact followsOutput_lzssInit _ s.cmd
  | false =>
    have hi : rowEngine i = some .lzss := (rowEngine_of_decode hd).trans (fetchSite_engine hs he)
    obtain ⟨u, hturn, hensures⟩ := exec_lzss_followsOutput hi (hfollows hb hs hop)
    obtain hended | ⟨r, hr, rfl⟩ := settle_ends_or_goes hensures (hturn.symm.trans hstep)
    · exact absurd hbusy hended
    · exact hr

end Sys2Proof.Machine
end

section
/-! PROOFS. Where a started LZSS command reads its next row, from which bytes, and what happens when these do not all lie
in IN (47_lzss.md R210, R212, R215, R216, R219, R220, 60_exceptions.md R313). -/

namespace Sys2Proof.Machine

/-! ### The place of the next row (R210, R212) -/

section
variable {s : State}

theorem lzssSite_bytes (s : State) : (lzssSite s).2 = s.cmd.input.drop s.lzss.ip := rfl

theorem lzssSite_trailer (hfull : s.cmd.expectedSize.toNat ≤ s.lzss.out.length) : (lzssSite s).1 = .lzssCsum :=
  if_pos hfull

/-- Before the trailer comes a flag byte when the shifted register has lost its sentinel, else a token by bit 0 of the
register that it sees. -/
theorem lzssSite_more (hmore : s.lzss.out.length < s.cmd.expectedSize.toNat) :
    (lzssSite s).1 =
      if s.lzss.fresh = false ∧ (s.lzss.flags >>> 1).getLsbD 8 = false then .lzssFlags
      else if (flagsForToken s.lzss).getLsbD 0 then .lzssLit else .lzssRef := by
  rw [lzssSite, if_neg (Nat.not_le.2 hmore)]
  cases hfresh : s.lzss.fresh with
  | true => simp [flagsForToken, lzssTokenCtx, flagsLiteral, hfresh]
  | false => simp [flagsForToken, flagsShift, flagsUsedUp, lzssTokenCtx, flagsLiteral, hfresh]

section
variable (hmore : s.lzss.out.length < s.cmd.expectedSize.toNat)
include hmore

theorem lzssSite_flags (hfresh : s.lzss.fresh = false) (hused : (s.lzss.flags >>> 1).getLsbD 8 = false) :
    (lzssSite s).1 = .lzssFlags := by
  rw [lzssSite_more hmore, if_pos ⟨hfresh, hused⟩]

/-- The first token of a group has its kind in bit 0 of the register. -/
theorem lzssSite_firstToken (hfresh : s.lzss.fresh = true) :
    (lzssSite s).1 = if s.lzss.flags.getLsbD 0 then .lzssLit else .lzssRef := by
  have hread : ¬ (s.lzss.fresh = false ∧ (s.lzss.flags >>> 1).getLsbD 8 = false) := by simp [hfresh]
  rw [lzssSite_more hmore, if_neg hread, flagsForToken_eq, if_pos hfresh]

/-- A later token of a group has its kind in bit 1, which the shift brings to bit 0. -/
theorem lzssSite_laterToken (hfresh : s.lzss.fresh = false) (hleft : (s.lzss.flags >>> 1).getLsbD 8 = true) :
    (lzssSite s).1 = if s.lzss.flags.getLsbD 1 then .lzssLit else .lzssRef := by
  have hread : ¬ (s.lzss.fresh = false ∧ (s.lzss.flags >>> 1).getLsbD 8 = false) := by rw [hleft]; simp
  have hshifted : ¬ s.lzss.fresh = true := by simp [hfresh]
  rw [lzssSite_more hmore, if_neg hread, flagsForToken_eq, if_neg hshifted, BitVec.getLsbD_ushiftRight]

end

end

/-! ### The bytes of the next row (R89, R90) -/

/-- Bytes stand at `a` when the first is there and the others follow it. -/
theorem cons_prefix_drop_iff (b : Byte) (bs inp : List Byte) (a : Nat) :
    b :: bs <+: inp.drop a ↔ inp[a]? = some b ∧ bs <+: inp.drop (a + 1) := by
  rw [← List.head?_drop, ← List.tail_drop]
  cases inp.drop a with
  | nil => simp
  | cons x xs => simp [List.cons_prefix_cons, eq_comm]

/-- A row that is one little-endian word is read where the word's bytes stand. -/
theorem takeLe_map_iff {w n : Nat} (hw : w = 8 * n) (f : BitVec w → Instr) (bs : List Byte) (i : Instr) :
    (takeLe n bs).map (fun v => f (BitVec.ofNat w v)) = .ok i ↔
      ∃ x : BitVec w, leBytes n x.toNat <+: bs ∧ i = f x := by
  constructor
  · intro h
    obtain ⟨v, hv, hbs, rfl⟩ := takeLe_map_eq_ok h
    have hx : (BitVec.ofNat w v).toNat = v := by
      rw [BitVec.toNat_ofNat, hw, Nat.pow_mul]
      exact Nat.mod_eq_of_lt hv
    exact ⟨BitVec.ofNat w v, hx.symm ▸ hbs, rfl⟩
  · rintro ⟨x, ⟨rest, rfl⟩, rfl⟩
    exact takeLe_map_word x hw.le f rest

/-- A word is its low byte below the rest. -/
theorem exists_word_iff {w : Nat} {P : BitVec (w + 8) → Prop} :
    (∃ x, P x) ↔ ∃ (b : Byte) (y : BitVec w), P (y ++ b) := by
  refine ⟨fun ⟨x, hx⟩ => ⟨x.extractLsb' 0 8, x.extractLsb' 8 w, ?_⟩, fun ⟨b, y, h⟩ => ⟨y ++ b, h⟩⟩
  have hsplit : x.extractLsb' 8 w ++ x.extractLsb' 0 8 = x := by
    rw [← BitVec.toNat_inj, toNat_append_add, toNat_field, toNat_field]
    have hlt := x.isLt
    rw [Nat.pow_add] at hlt
    rw [Nat.mod_eq_of_lt (Nat.div_lt_of_lt_mul (by rwa [Nat.mul_comm]))]
    omega
  rwa [hsplit]

/-- The low byte of a word comes first. -/
theorem leBytes_append {w : Nat} (y : BitVec w) (b : Byte) (n : Nat) :
    leBytes (n + 1) (y ++ b).toNat = b :: leBytes n y.toNat := by
  have hb : b.toNat < 256 := b.isLt
  have hlow : BitVec.ofNat 8 (y.toNat * 2 ^ 8 + b.toNat) = b := by
    rw [← BitVec.toNat_inj, BitVec.toNat_ofNat]
    omega
  have hhigh : (y.toNat * 2 ^ 8 + b.toNat) / 256 = y.toNat := by omega
  rw [leBytes, toNat_append_add, hlow, hhigh]

/-- The fields of a back-reference by the two bytes of its word. -/
theorem lzssRefOf_append (b0 b1 : Byte) :
    lzssRefOf (b1 ++ b0) = .lzssRef (b1.extractLsb' 4 4 ++ b0) (b1.extractLsb' 0 4) := by
  simp only [lzssRefOf, Instr.lzssRef.injEq, ← BitVec.toNat_inj, toNat_append_add, toNat_field]
  omega

section
variable (inp : List Byte) (a : Nat) (i : Instr)

theorem decode_lzssFlags_iff :
    decode .lzssFlags (inp.drop a) = .ok i ↔ ∃ b, inp[a]? = some b ∧ i = .lzssFlags b := by
  refine (takeLe_map_iff (w := 8) (n := 1) rfl .lzssFlags _ i).trans ?_
  simp only [leBytes_one, cons_prefix_drop_iff, List.nil_prefix, and_true]

theorem decode_lzssLit_iff :
    decode .lzssLit (inp.drop a) = .ok i ↔ ∃ b, inp[a]? = some b ∧ i = .lzssLit b := by
  refine (takeLe_map_iff (w := 8) (n := 1) rfl .lzssLit _ i).trans ?_
  simp only [leBytes_one, cons_prefix_drop_iff, List.nil_prefix, and_true]

theorem decode_lzssRef_iff :
    decode .lzssRef (inp.drop a) = .ok i ↔ ∃ b0 b1, inp[a]? = some b0 ∧ inp[a + 1]? = some b1 ∧
      i = .lzssRef (b1.extractLsb' 4 4 ++ b0) (b1.extractLsb' 0 4) := by
  refine (takeLe_map_iff (w := 16) (n := 2) rfl lzssRefOf _ i).trans ?_
  simp only [exists_word_iff (w := 8), leBytes_append, leBytes_one, lzssRefOf_append, cons_prefix_drop_iff,
    List.nil_prefix, and_true, and_assoc]

theorem decode_lzssCsum_iff :
    decode .lzssCsum (inp.drop a) = .ok i ↔ ∃ b0 b1 b2 b3, inp[a]? = some b0 ∧ inp[a + 1]? = some b1 ∧
      inp[a + 2]? = some b2 ∧ inp[a + 3]? = some b3 ∧ i = .lzssCsum (b3 ++ b2 ++ b1 ++ b0) := by
  refine (takeLe_map_iff (w := 32) (n := 4) rfl .lzssCsum _ i).trans ?_
  simp only [exists_word_iff (w := 24), exists_word_iff (w := 16), exists_word_iff (w := 8), leBytes_append,
    leBytes_one, cons_prefix_drop_iff, List.nil_prefix, and_true, and_assoc, Nat.add_assoc, Nat.reduceAdd]

end

/-! ### The next fetch -/

theorem fetch_eq_instr_iff (s : State) (i : Instr) :
    fetch s = .instr i ↔ decode (fetchSite s).1 (fetchSite s).2 = .ok i := by
  unfold fetch
  split
  case h_1 hd => rw [hd, Fetched.instr.injEq, Except.ok.injEq]
  case h_2 hd => simp [hd]

section
variable {s : State} (hs : s.starting = false) (hop : s.cmd.op = 0x10)
include hs hop

/-- A started LZSS command reads in the places of its engine. -/
theorem fetchSite_of_lzssCode : fetchSite s = lzssSite s := fetchSite_lzss hs (by rw [hop]; rfl)

/-- A started LZSS command fetches what the bytes at `ip` decode to in its place. -/
theorem fetch_lzss_iff {c : DecodeCtx} (hc : (lzssSite s).1 = c) (i : Instr) :
    fetch s = .instr i ↔ decode c (s.cmd.input.drop s.lzss.ip) = .ok i := by
  rw [fetch_eq_instr_iff, fetchSite_of_lzssCode hs hop, hc]
  rfl

end

/-- Settles O40: the place of the next row, clause by clause, and the row that the bytes at `ip` decode to there. -/
theorem lzssNextRowFollowsTheFlags : Obligations.LzssNextRowFollowsTheFlags := by
  intro s _ hs hop
  refine ⟨fun hfull i => ?_, fun hmore => ⟨fun hfresh hused i => ?_, fun hfresh hleft hbit i => ?_,
    fun hfresh hleft hbit i => ?_, fun hfresh hbit i => ?_, fun hfresh hbit i => ?_⟩⟩
  · exact (fetch_lzss_iff hs hop (lzssSite_trailer hfull) i).trans (decode_lzssCsum_iff _ _ i)
  · exact (fetch_lzss_iff hs hop (lzssSite_flags hmore hfresh hused) i).trans (decode_lzssFlags_iff _ _ i)
  · have hplace := (lzssSite_laterToken hmore hfresh hleft).trans (if_pos hbit)
    exact (fetch_lzss_iff hs hop hplace i).trans (decode_lzssLit_iff _ _ i)
  · have hplace := (lzssSite_laterToken hmore hfresh hleft).trans (if_neg (ne_true_of_eq_false hbit))
    exact (fetch_lzss_iff hs hop hplace i).trans (decode_lzssRef_iff _ _ i)
  · have hplace := (lzssSite_firstToken hmore hfresh).trans (if_pos hbit)
    exact (fetch_lzss_iff hs hop hplace i).trans (decode_lzssLit_iff _ _ i)
  · have hplace := (lzssSite_firstToken hmore hfresh).trans (if_neg (ne_true_of_eq_false hbit))
    exact (fetch_lzss_iff hs hop hplace i).trans (decode_lzssRef_iff _ _ i)

/-! ### Reads past the end of IN (R220, R313) -/

/-- The bytes of a row in an LZSS place: two for a back-reference, four for the trailer, else one (R89, R90). -/
def lzssWidth (c : DecodeCtx) : Nat :=
  match c with
  | .lzssRef => 2
  | .lzssCsum => 4
  | _ => 1

theorem lzssWidth_pos (c : DecodeCtx) : 0 < lzssWidth c := by
  unfold lzssWidth
  split <;> omega

theorem takeLe_map_of_short {n : Nat} {bs : List Byte} (h : bs.length < n) (f : Nat → Instr) :
    (takeLe n bs).map f = .error .truncated := by
  rw [takeLe_eq_error.2 ⟨h, rfl⟩]
  rfl

theorem decode_lzss_of_short {c : DecodeCtx} (hc : placeEngine c = some .lzss) {bs : List Byte}
    (h : bs.length < lzssWidth c) : decode c bs = .error .truncated := by
  cases c
  case lzssFlags | lzssLit | lzssRef | lzssCsum => exact takeLe_map_of_short h _
  all_goals simp [placeEngine] at hc

theorem rejectFailure_lzss {c : DecodeCtx} (hc : placeEngine c = some .lzss) (s : State) :
    rejectFailure s c .truncated = ⟨.inputTruncated, s.cmd.input.length⟩ := by
  refine if_neg ?_
  rintro (rfl | rfl) <;> simp [placeEngine] at hc

theorem step_of_reject {s : State} {r : Reject} (hb : s.status = .busy)
    (hd : decode (fetchSite s).1 (fetchSite s).2 = .error r) :
    step s = .next (raiseFail (rejectFailure s (fetchSite s).1 r) s) := by
  simp only [step, hb, fetch, hd]

/-- A row of a started LZSS command that does not lie in IN as a whole. -/
theorem step_lzss_truncated {s : State} (hb : s.status = .busy) (hs : s.starting = false) (hop : s.cmd.op = 0x10)
    (hshort : s.cmd.input.length < s.lzss.ip + lzssWidth (lzssSite s).1) :
    step s = .next (raiseFail ⟨.inputTruncated, s.cmd.input.length⟩ s) := by
  have hbytes : (lzssSite s).2.length < lzssWidth (lzssSite s).1 := by
    have hpos := lzssWidth_pos (lzssSite s).1
    rw [lzssSite_bytes, List.length_drop]
    omega
  have hreject := decode_lzss_of_short (lzssSite_engine s) hbytes
  rw [← fetchSite_of_lzssCode hs hop] at hreject
  rw [step_of_reject hb hreject, fetchSite_of_lzssCode hs hop, rejectFailure_lzss (lzssSite_engine s)]

/-- Settles O41: in each clause the row in its place is too wide for IN; any row takes at least one byte. -/
theorem lzssShortInputIsTruncated : Obligations.LzssShortInputIsTruncated := by
  intro s hb hs hop hcases
  refine step_lzss_truncated hb hs hop ?_
  obtain ⟨hfull, hshort⟩ | ⟨-, hshort⟩ | ⟨hmore, hfresh, hbit, hshort⟩ | ⟨hmore, hfresh, hleft, hbit, hshort⟩ := hcases
  · rw [lzssSite_trailer hfull]
    exact hshort
  · exact hshort.trans_le (Nat.add_le_add_left (lzssWidth_pos _) _)
  · rw [lzssSite_firstToken hmore hfresh, if_neg (ne_true_of_eq_false hbit)]
    exact hshort
  · rw [lzssSite_laterToken hmore hfresh hleft, if_neg (ne_true_of_eq_false hbit)]
    exact hshort

end Sys2Proof.Machine
end

section
/-! PROOFS. The life cycle of a command, its end by an error, the power-on state and the host's moves (10_state.md R22, R23,
60_exceptions.md R310–R318, 70_reset_and_hazards.md R340–R346). -/

namespace Sys2Proof.Machine

/-! ### How a row can leave STATUS and RESULT -/

section
variable {s t : State}

/-- A row that neither fails nor returns leaves the command Busy and RESULT alone. -/
theorem rowOutcome.status_result (h : rowOutcome s t) (hb : s.status = .busy) :
    (t.status = .busy ∧ t.result = s.result) ∨ (t.status = .done ∧ ∃ v, t.result = .ok v) ∨
      (t.status = .failed ∧ ∃ k o, t.result = .fail k o) := by
  obtain ⟨e, rfl⟩ | ⟨-, ⟨hstatus, hresult, -⟩ | ⟨hstatus, hresult, -⟩ | ⟨v, hstatus, hresult, -⟩⟩ := h
  · exact .inr (.inr ⟨raiseFail_status e s, _, _, raiseFail_result e s⟩)
  · exact .inl ⟨hstatus.trans hb, hresult⟩
  · exact .inl ⟨hstatus, hresult⟩
  · exact .inr (.inl ⟨hstatus, v, hresult⟩)

/-- Taking an error is the only way to STATUS Failed (R311, R318). -/
theorem rowOutcome.eq_raiseFail (h : rowOutcome s t) (hb : s.status = .busy) (hfailed : t.status = .failed) :
    ∃ e, t = raiseFail e s := by
  obtain hfail | ⟨-, ⟨hstatus, -⟩ | ⟨hstatus, -⟩ | ⟨v, hstatus, -⟩⟩ := h
  · exact hfail
  all_goals simp [hstatus, hb] at hfailed

end

/-- Settles O7, from what any step does to the shared state. -/
theorem commandLifeCycle : Obligations.CommandLifeCycle := by
  intro s
  obtain ⟨t, hstep, hidle, hrow⟩ := step_outcome s
  exact ⟨t, hstep, hidle, fun hb => (hrow hb).status_result hb⟩

/-- Settles O9: a step that fails has taken an error, and `raiseFail` is the state that the statement names. -/
theorem failureDiscardsEverything : Obligations.FailureDiscardsEverything := by
  refine ⟨rfl, fun s t hb hstep hfailed => ?_⟩
  obtain ⟨t', hstep', -, hrow⟩ := step_outcome s
  obtain rfl : t' = t := Host.Outcome.next.inj (hstep'.symm.trans hstep)
  obtain ⟨e, rfl⟩ := (hrow hb).eq_raiseFail hb hfailed
  exact ⟨e.kind, e.offset, rfl⟩

/-! ### The moves of the host -/

section
variable {s : State}

theorem hostIssue_busy (c : CmdRecord) (hb : s.status = .busy) : hostIssue c s = .refused .issueWhileBusy := if_pos hb

/-- An engine that is not Busy takes the command: the record is the whole new one, and no engine register moves. -/
theorem hostIssue_not_busy (c : CmdRecord) (hb : s.status ≠ .busy) :
    hostIssue c s = .next
      { s with
        status := .busy, cmd := c, starting := true, result := Config.freeResult s.issues, issues := s.issues + 1 } :=
  if_neg hb

theorem hostWriteRecord_busy (c : CmdRecord) (hb : s.status = .busy) :
    hostWriteRecord c s = .refused .recordWriteWhileBusy := if_pos hb

theorem hostWriteRecord_not_busy (c : CmdRecord) (hb : s.status ≠ .busy) :
    hostWriteRecord c s = .next { s with cmd := c } := if_neg hb

theorem hostCollect_busy (hb : s.status = .busy) : hostCollect s = .refused .resultReadWhileBusy := by
  rw [hostCollect, hb]

theorem hostCollect_idle (hi : s.status = .idle) : hostCollect s = .refused .resultNotReadable := by
  rw [hostCollect, hi]

theorem hostCollect_ended (he : s.status = .done ∨ s.status = .failed) : hostCollect s = .next s.result := by
  obtain he | he := he <;> rw [hostCollect, he]

end

/-- Settles O16, move by move. -/
theorem hostMovesFollowTheLifeCycle : Obligations.HostMovesFollowTheLifeCycle := by
  intro c s
  refine ⟨fun hb => ⟨hostIssue_busy c hb, hostWriteRecord_busy c hb, hostCollect_busy hb⟩,
    fun hb => ⟨⟨_, hostIssue_not_busy c hb, ?_⟩, hostWriteRecord_not_busy c hb⟩, hostCollect_ended, hostCollect_idle, rfl⟩
  exact ⟨rfl, rfl, rfl, rfl, rfl, rfl, rfl, rfl, rfl⟩

/-! ### Power-on -/

theorem reset_not_busy : State.reset.status ≠ .busy := by simp [State.reset]

/-- Settles O10: an engine that is not Busy stays as it is until the host issues a command. -/
theorem powerOnIsIdle : Obligations.PowerOnIsIdle :=
  ⟨rfl, rfl, step_not_busy reset_not_busy, hostCollect_idle rfl,
    fun c => ⟨_, hostIssue_not_busy c reset_not_busy, rfl, rfl⟩⟩

/-- Every digit of PARTITION3 names a subset (46_bc7_tables.md R202). -/
theorem standardRom_partition3_digits : ∀ row ∈ standardRom.partition3, ∀ i, i < 16 → row / 10 ^ i % 10 ≤ 2 := by
  decide +kernel

/-- Settles O11: ROM holds the standard tables, the memories have no cell, and no command runs. -/
theorem powerOnMeetsInvariant : Obligations.PowerOnMeetsInvariant := by
  refine (inv_iff State.reset).2 ⟨⟨⟨rfl, standardRom_partition3_digits⟩, outOk_nil, ringOk_nil, Nat.zero_le _⟩, ?_, ?_⟩
  · exact fun hstarting => absurd hstarting (by simp [State.reset])
  · exact fun hb => absurd hb reset_not_busy

end Sys2Proof.Machine
end

section
/-! PROOFS. The bounds of MAX_OUTPUT and of IN, and the copies from bytes already produced (60_exceptions.md R313, R320,
70_reset_and_hazards.md R347, R348). -/

namespace Sys2Proof.Machine

@[simp] theorem settle_run {ρ : Type} (put : State → ρ → State) (s : State) (r : ρ) :
    settle put s (.run r) = .next (put s r) := rfl

/-! ### MAX_OUTPUT (R320) -/

section
variable {p : Params} {m n : Nat}

theorem overruns_of_fits (h : fits p n) : overruns p n = false := by
  unfold overruns
  split
  · rfl
  · exact decide_eq_false (Nat.not_lt.2 (h _ ‹_›))

theorem overruns_of_exceeds (h : exceeds p n) : overruns p n = true := by
  obtain ⟨m, hm, hlt⟩ := h
  simp [overruns, hm, hlt]

theorem fits.mono (h : fits p n) (hmn : m ≤ n) : fits p m := fun k hk => hmn.trans (h k hk)

end

/-! ### Reads of IN (R313) -/

theorem memRead_one {inp : List Byte} {a : Nat} {t : Byte} (h : inp[a]? = some t) : memRead inp a 1 = .ok t.toNat := by
  obtain ⟨ha, ht⟩ := List.getElem?_eq_some_iff.1 h
  rw [memRead, if_neg (by omega), List.drop_eq_getElem_cons ha, ht]
  simp

/-- Bytes of IN that are all `x`. -/
theorem forall_mem_inSlice {inp : List Byte} {x : Byte} {a n : Nat}
    (h : ∀ b, a ≤ b → b < a + n → inp[b]? = some x) : ∀ b ∈ inSlice inp a n, b = x := by
  intro b hb
  obtain ⟨k, hk⟩ := List.mem_iff_getElem?.1 hb
  have hkn : k < n := by
    obtain ⟨hlt, -⟩ := List.getElem?_eq_some_iff.1 hk
    rw [inSlice, List.length_take] at hlt
    omega
  rw [inSlice, List.getElem?_take_of_lt hkn, List.getElem?_drop, h (a + k) (by omega) (by omega)] at hk
  exact (Option.some.inj hk).symm

/-! ### Copies from the output (R347) -/

/-- Bytes are copied one by one, each from the output as it then stands. -/
theorem copied_copyBack (d n : Nat) (out : List Byte) : copied d out (copyBack d n out) n := by
  induction n generalizing out with
  | zero => exact ⟨rfl, List.prefix_rfl, fun j hj => absurd hj (Nat.not_lt_zero j)⟩
  | succ n ih =>
    obtain ⟨hlen, hprefix, hcopy⟩ := ih (out ++ [out.getD (out.length - d) 0])
    rw [List.length_append, List.length_singleton] at hlen hcopy
    refine ⟨by rw [copyBack, hlen]; omega, (List.prefix_append _ _).trans hprefix, fun j hj => ?_⟩
    cases j with
    | succ j =>
      have h := hcopy j (Nat.lt_of_succ_lt_succ hj)
      rwa [Nat.add_right_comm] at h
    | zero =>
      obtain ⟨tail, htail⟩ := hprefix
      rw [copyBack, ← htail, Nat.add_zero, List.append_assoc]
      by_cases hback : out.length - d < out.length
      · rw [List.getD_append _ _ _ _ hback, List.getD_append_right _ _ _ _ le_rfl, Nat.sub_self]
        rfl
      · rw [show out.length - d = out.length by omega]

end Sys2Proof.Machine
end

section
/-! PROOFS. The LZO1X rows, each by itself: the start of the command, the length extension, the literal runs, the match
tokens and the end marker, with what they check (48_lzo1x.md R240–R256, 60_exceptions.md R315). -/

namespace Sys2Proof.Machine

/-! ### The start and the length extension (R241–R244) -/

theorem exec_lzoDecompress (s : State) :
    exec .lzoDecompress s = .next (putLzo (startCommand s) (lzoInit s.cmd.input)) := rfl

/-- Only the state depends on IN, by its first byte if it has one (R244). -/
theorem lzoInit_eq (inp : List Byte) :
    lzoInit inp =
      { LzoRegs.reset with st := if 1 ≤ inp.length ∧ 17 < (inp.getD 0 0).toNat then .start else .outer } := by
  cases inp with
  | nil => rfl
  | cons b rest =>
    unfold lzoInit
    by_cases hb : 17 < b.toNat <;> simp [hb, LzoRegs.reset]

/-- Settles O42: the command's row starts the engine from `lzoInit`. -/
theorem lzoStartsFromItsInitialState : Obligations.LzoStartsFromItsInitialState := by
  intro s
  refine ⟨_, exec_lzoDecompress s, ?_⟩
  rw [lzoInit_eq]
  exact ⟨rfl, rfl, rfl, rfl, rfl, rfl, rfl, rfl, rfl, ⟨rfl, rfl, rfl, rfl⟩, rfl, rfl, rfl⟩

/-- Settles O44: the control byte is the one byte read before the chain. -/
theorem lzoExtensionIsReadBeforeItsToken : Obligations.LzoExtensionIsReadBeforeItsToken := by
  intro s zeros v t ht
  simp only [exec, execLzoExt, memRead_one ht, settle_run, putLzo, BitVec.ofNat_toNat]

/-! ### Literals (R254, R256) -/

section
variable {p : Params} {inp : List Byte} {n : Nat} {e : LzoRegs}

theorem lzoLiterals_past (h : inp.length < e.ip + n) :
    lzoLiterals p inp n e = .fail ⟨.inputTruncated, inp.length⟩ := if_pos h

/-- Literals that lie in IN are appended before the output is checked. -/
theorem lzoLiterals_inside (h : e.ip + n ≤ inp.length) :
    lzoLiterals p inp n e =
      if overruns p (e.out.length + n) then .fail ⟨.outputOverrun, e.ip + n⟩
      else .run { e with out := e.out ++ inSlice inp e.ip n, ip := e.ip + n } := by
  rw [lzoLiterals, if_neg (Nat.not_lt.2 h), lzoCheck, List.length_append, inSlice_length h]

theorem lzoLiterals_exceed (h : e.ip + n ≤ inp.length) (hx : exceeds p (e.out.length + n)) :
    lzoLiterals p inp n e = .fail ⟨.outputOverrun, e.ip + n⟩ := by
  rw [lzoLiterals_inside h, if_pos (overruns_of_exceeds hx)]

theorem lzoLiterals_fit (h : e.ip + n ≤ inp.length) (hf : fits p (e.out.length + n)) :
    lzoLiterals p inp n e = .run { e with out := e.out ++ inSlice inp e.ip n, ip := e.ip + n } := by
  rw [lzoLiterals_inside h, if_neg (ne_true_of_eq_false (overruns_of_fits hf))]

end

/-! ### Literal runs (R244, R245) -/

/-- The registers of a literal run before its literals are copied. -/
def lzoRunStart (e : LzoRegs) (i : Instr) : LzoRegs :=
  match i with
  | .lzoFirstLit _ => { e with ip := e.ip + 1 }
  | .lzoLit l => lzoTake false l.toNat 0 e
  | _ => lzoTake true 0 0 e

/-- The state after a run of `n` literals: AfterShort after a first run of at most 3 (R244), else AfterRun. -/
def lzoRunNext (n : Nat) (i : Instr) : LzoSt :=
  match i with
  | .lzoFirstLit _ => if n ≤ 3 then .afterShort else .afterRun
  | _ => .afterRun

section
variable {s : State} {i : Instr} {start n : Nat}

/-- The three literal runs, and the literals of each. -/
theorem lzoRunOf_cases {e : LzoRegs} (h : lzoRunOf e i = some (start, n)) :
    (∃ b, i = .lzoFirstLit b ∧ start = e.ip + 1 ∧ n = b.toNat - 17) ∨
      (∃ l, i = .lzoLit l ∧ start = e.ip + 1 ∧ n = l.toNat + 3) ∨
      (i = .lzoLitExt ∧ start = e.ip ∧ n = 15 + e.ext.getD 0 + 3) := by
  unfold lzoRunOf at h
  split at h <;> simp only [Option.some.injEq, Prod.mk.injEq, reduceCtorEq] at h <;> simp [h]

/-- A literal run copies its literals and moves to its next state. -/
theorem exec_lzoRun (h : lzoRunOf s.lzo i = some (start, n)) :
    (lzoRunStart s.lzo i).ip = start ∧ (lzoRunStart s.lzo i).out = s.lzo.out ∧
      exec i s = settle putLzo s ((lzoLiterals s.params s.cmd.input n (lzoRunStart s.lzo i)).andThen
        fun e => .run { e with st := lzoRunNext n i }) := by
  obtain ⟨b, rfl, rfl, rfl⟩ | ⟨l, rfl, rfl, rfl⟩ | ⟨rfl, rfl, rfl⟩ := lzoRunOf_cases h <;> exact ⟨rfl, rfl, rfl⟩

end

/-- Settles O45: literals that lie in IN and fit are appended; what the rows write besides is read off `lzoRunStart`. -/
theorem lzoLiteralRunsAppend : Obligations.LzoLiteralRunsAppend := by
  intro s i start n _ hrun hin hfits
  obtain ⟨hip, hout, hexec⟩ := exec_lzoRun hrun
  rw [← hip] at hin
  rw [← hout] at hfits
  rw [hexec, lzoLiterals_fit hin hfits, Turn.andThen_of_run, settle_run, hip, hout]
  obtain ⟨b, rfl, -⟩ | ⟨l, rfl, -⟩ | ⟨rfl, -⟩ := lzoRunOf_cases hrun
  · rfl
  · simp only [putLzo, lzoRunStart, lzoRunNext, lzoTake, BitVec.ofNat_toNat]
  · rfl

/-! ### Match tokens (R246–R250, R252, R253) -/

/-- A length field that is not 0 is the length itself (R249, R250). -/
theorem lzoLen_of_ne_zero {w : Nat} {l : BitVec w} (hl : l ≠ 0) (base : Nat) (e : LzoRegs) :
    lzoLen base l.toNat e = l.toNat :=
  if_neg fun h => hl (BitVec.eq_of_toNat_eq h)

/-- The registers of a token once its `k` bytes are read; its control byte stays in `t`. -/
def lzoRead (t : BitVec 32) (k : Nat) (e : LzoRegs) : LzoRegs := { e with t := t, ip := e.ip + k, ext := none }

/-- A match token reads its bytes, copies the match that R246–R250 give it, and then its trailing literals. -/
theorem exec_lzoMatch {s : State} {i : Instr} {m : LzoMatch} (h : lzoMatchOf s.lzo i = some m) :
    ∃ t, exec i s = settle putLzo s (lzoMatchToken s.params s.cmd.input m.dist m.len m.tok m.trailing
      (lzoRead t m.used s.lzo)) := by
  cases i <;> simp only [lzoMatchOf, Option.some.injEq, reduceCtorEq] at h
  case lzoM1Far | lzoM1Near | lzoM2 =>
    subst h
    dsimp only
    rw [Nat.mul_comm]
    exact ⟨_, rfl⟩
  case lzoM3 l w =>
    by_cases hl : l = 0
    · subst hl
      obtain rfl := Option.some.inj h
      exact ⟨_, rfl⟩
    · rw [if_neg hl] at h
      obtain rfl := Option.some.inj h
      simp only [exec, execLzoM3, lzoLen_of_ne_zero hl, decide_eq_false hl]
      exact ⟨_, rfl⟩
  case lzoM4 x l w =>
    have hdist : 16384 + 16384 * x.toNat + w.toNat / 4 = x.toNat * 16384 + w.toNat / 4 + 16384 := by omega
    rw [hdist] at h
    by_cases hl : l = 0
    · subst hl
      obtain rfl := Option.some.inj h
      exact ⟨_, rfl⟩
    · rw [if_neg hl] at h
      obtain rfl := Option.some.inj h
      simp only [exec, execLzoM4, lzoLen_of_ne_zero hl, decide_eq_false hl]
      exact ⟨_, rfl⟩

section
variable {p : Params} {inp : List Byte} {d n tok k : Nat} {e : LzoRegs}

theorem lzoMatchToken_invalid (h : e.out.length < d) :
    lzoMatchToken p inp d n tok k e = .fail ⟨.invalidOffset, tok⟩ := by
  rw [lzoMatchToken, lzoMatch, if_pos h, Turn.andThen_of_fail]

/-- A match that lies in the output is copied before the output is checked; its trailing literals come last. -/
theorem lzoMatchToken_valid (h : d ≤ e.out.length) :
    lzoMatchToken p inp d n tok k e =
      if overruns p (e.out.length + n) then .fail ⟨.outputOverrun, e.ip⟩
      else lzoTrailing p inp k { e with out := copyBack d n e.out } := by
  rw [lzoMatchToken, lzoMatch, if_neg (Nat.not_lt.2 h), lzoCheck, copyBack_length]
  split <;> rfl

theorem lzoMatchToken_exceeds (h : d ≤ e.out.length) (hx : exceeds p (e.out.length + n)) :
    lzoMatchToken p inp d n tok k e = .fail ⟨.outputOverrun, e.ip⟩ := by
  rw [lzoMatchToken_valid h, if_pos (overruns_of_exceeds hx)]

theorem lzoMatchToken_fits (h : d ≤ e.out.length) (hf : fits p (e.out.length + n)) :
    lzoMatchToken p inp d n tok k e = lzoTrailing p inp k { e with out := copyBack d n e.out } := by
  rw [lzoMatchToken_valid h, if_neg (ne_true_of_eq_false (overruns_of_fits hf))]

/-- Trailing literals are literals like any others (R252, R254). -/
theorem lzoTrailing_of_ne_zero (hk : k ≠ 0) :
    lzoTrailing p inp k e =
      (lzoLiterals p inp k { e with t := BitVec.ofNat 32 k }).andThen fun e' => .run { e' with st := .afterShort } :=
  if_neg hk

/-- Trailing literals that lie in IN and fit, or none. -/
theorem lzoTrailing_fits (hin : k = 0 ∨ e.ip + k ≤ inp.length) (hf : fits p (e.out.length + k)) :
    lzoTrailing p inp k e = .run
      { e with
        t := BitVec.ofNat 32 k, st := if k = 0 then .outer else .afterShort,
        out := e.out ++ inSlice inp e.ip k, ip := e.ip + k } := by
  by_cases hk : k = 0
  · subst hk
    simp [lzoTrailing, inSlice]
  · have hin' : e.ip + k ≤ inp.length := hin.resolve_left hk
    rw [lzoTrailing_of_ne_zero hk, lzoLiterals_fit (e := { e with t := BitVec.ofNat 32 k }) hin' hf, if_neg hk]
    rfl

end

/-- Settles O46: the match is copied byte by byte, and its trailing literals are appended. -/
theorem lzoMatchesCopy : Obligations.LzoMatchesCopy := by
  intro s i m _ hm hdist hfits hin
  obtain ⟨t, hexec⟩ := exec_lzoMatch hm
  refine ⟨copyBack m.dist m.len s.lzo.out, copied_copyBack _ _ _, ?_⟩
  have hmatch : fits s.params (s.lzo.out.length + m.len) := hfits.mono (Nat.le_add_right _ _)
  have hall : fits s.params ((copyBack m.dist m.len s.lzo.out).length + m.trailing) := by rwa [copyBack_length]
  rw [hexec, lzoMatchToken_fits (e := lzoRead t m.used s.lzo) hdist hmatch, lzoTrailing_fits hin hall]
  rfl

/-- Settles O47: the checks of a literal run, then those of a match and of its trailing literals, in their order. -/
theorem lzoTokenChecks : Obligations.LzoTokenChecks := by
  intro s i _
  refine ⟨fun start n hrun => ?_, fun m hm => ?_⟩
  · obtain ⟨rfl, hout, hexec⟩ := exec_lzoRun hrun
    refine ⟨fun hpast => ?_, fun hin hx => ?_⟩
    · rw [hexec, lzoLiterals_past hpast]
      rfl
    · rw [hexec, lzoLiterals_exceed hin (hout ▸ hx)]
      rfl
  · obtain ⟨t, hexec⟩ := exec_lzoMatch hm
    refine ⟨fun hinvalid => ?_, fun hdist => ⟨fun hx => ?_, fun hfits hk => ?_⟩⟩
    · rw [hexec, lzoMatchToken_invalid (e := lzoRead t m.used s.lzo) hinvalid]
      rfl
    · rw [hexec, lzoMatchToken_exceeds (e := lzoRead t m.used s.lzo) hdist hx]
      rfl
    · rw [hexec, lzoMatchToken_fits (e := lzoRead t m.used s.lzo) hdist hfits, lzoTrailing_of_ne_zero hk]
      refine ⟨fun hpast => ?_, fun hin hx => ?_⟩
      · rw [lzoLiterals_past hpast]
        rfl
      · have hall : exceeds s.params ((copyBack m.dist m.len s.lzo.out).length + m.trailing) := by rwa [copyBack_length]
        rw [lzoLiterals_exceed hin hall]
        rfl

/-! ### The end marker (R251, R255) -/

theorem exec_lzoEof (l : BitVec 3) (q : BitVec 2) (s : State) :
    exec (.lzoEof l q) s = settle putLzo s (lzoFinish s.params s.cmd.input s.cmd.expectedSize.toNat
      { s.lzo with
        ip := s.lzo.ip + (if l = 0 then 0 else 1) + 2, st := .eof, t := BitVec.ofNat 32 (16 + l.toNat), ext := none }) := by
  by_cases hl : l = 0 <;> simp [exec, execLzoEof, lzoTake, hl]

/-- Settles O48: the size is checked before the position. -/
theorem lzoEndMarkerEndsTheCommand : Obligations.LzoEndMarkerEndsTheCommand := by
  intro s l q ip
  rw [exec_lzoEof]
  refine ⟨fun hsize hall => ?_, fun hsize => ?_, fun hsize hall hip => ?_⟩
  · rw [lzoFinish, if_neg (not_not_intro hsize), if_neg fun h => h.2 (hall h.1)]
    rfl
  · rw [lzoFinish, if_pos hsize]
    rfl
  · rw [lzoFinish, if_neg (not_not_intro hsize), if_pos ⟨hall, hip⟩]
    rfl

end Sys2Proof.Machine
end

section
/-! PROOFS. Where a started LZO1X command reads its next row, from which bytes, and what happens when these do not all lie
in IN (48_lzo1x.md R240–R251, 30_encoding.md R92–R96, 60_exceptions.md R313). -/

namespace Sys2Proof.Machine

/-! ### Length extensions (R94, R99) -/

/-- A length extension is read where its chain of bytes `x` and the byte after it stand. -/
theorem decodeChain_iff (x : Byte) (mk : Nat → Byte → Instr) (bs : List Byte) (i : Instr) :
    decodeChain x mk bs = .ok i ↔ ∃ n v, List.replicate n x ++ [v] <+: bs ∧ v ≠ x ∧ i = mk n v := by
  constructor
  · intro h
    obtain ⟨n, v, rest, rfl, hv, rfl⟩ := decodeChain_eq_ok h
    exact ⟨n, v, ⟨rest, by simp⟩, hv, rfl⟩
  · rintro ⟨n, v, ⟨rest, rfl⟩, hv, rfl⟩
    exact decodeChain_replicate hv mk n rest

/-- A chain and its last byte, index by index. -/
theorem chain_prefix_drop_iff (x v : Byte) (n : Nat) (inp : List Byte) (a : Nat) :
    List.replicate n x ++ [v] <+: inp.drop a ↔
      (∀ b, a ≤ b → b < a + n → inp[b]? = some x) ∧ inp[a + n]? = some v := by
  induction n generalizing a with
  | zero =>
    rw [List.replicate_zero, List.nil_append, cons_prefix_drop_iff]
    exact ⟨fun h => ⟨fun b hle hlt => absurd hlt (Nat.not_lt.2 hle), h.1⟩, fun h => ⟨h.2, List.nil_prefix⟩⟩
  | succ n ih =>
    rw [List.replicate_succ, List.cons_append, cons_prefix_drop_iff, ih, Nat.add_right_comm, Nat.add_assoc]
    constructor
    · rintro ⟨hfirst, hrun, hlast⟩
      refine ⟨fun b hle hlt => ?_, hlast⟩
      obtain rfl | hne := hle.eq_or_lt
      · exact hfirst
      · exact hrun b hne (by omega)
    · rintro ⟨hrun, hlast⟩
      exact ⟨hrun a le_rfl (by omega), fun b hle hlt => hrun b (by omega) (by omega), hlast⟩

/-- A chain that fills the bytes left has no last byte. -/
theorem decodeChain_of_all {x : Byte} (mk : Nat → Byte → Instr) {bs : List Byte} (h : ∀ b ∈ bs, b = x) :
    decodeChain x mk bs = .error .truncated := by
  cases hd : decodeChain x mk bs with
  | error r => rw [decodeChain_eq_error hd]
  | ok i =>
    obtain ⟨n, v, hprefix, hv, -⟩ := (decodeChain_iff x mk bs i).1 hd
    exact absurd (h v (hprefix.subset (by simp))) hv

/-! ### The place of the next row (R240–R244) -/

/-- The control bytes that call for a length extension (R93). -/
theorem lzoNeedsExt_iff (st : LzoSt) (t : Byte) :
    lzoNeedsExt st t = true ↔ t = 0x20 ∨ t = 0x18 ∨ t = 0x10 ∨ t = 0x00 ∧ st = .outer := by
  simp only [lzoNeedsExt, Bool.or_eq_true, Bool.and_eq_true, decide_eq_true_eq]
  tauto

theorem lzoNeedsExt_eq_false {st : LzoSt} {t : Byte} (hm3 : t ≠ 0x20) (hm4 : t ≠ 0x18) (hm4' : t ≠ 0x10)
    (hrun : t = 0x00 → st ≠ .outer) : lzoNeedsExt st t = false := by
  rw [← Bool.not_eq_true, lzoNeedsExt_iff]
  tauto

theorem ne_start_of_mem {st : LzoSt} (h : st ∈ [LzoSt.outer, .afterRun, .afterShort]) : st ≠ .start := by
  rintro rfl
  simp at h

theorem lzoReadSt_of_ne_start {st : LzoSt} (h : st ≠ .start) : lzoReadSt st = st := if_neg h

section
variable {s : State} {t : Byte}

/-- After a length extension the token's own row is read from the control byte kept in `t` and the bytes at `ip`. -/
theorem lzoSite_body (hext : s.lzo.ext ≠ none) (hst : s.lzo.st ∈ [LzoSt.outer, .afterRun, .afterShort])
    (ht : s.lzo.t = t.setWidth 32) (hneeds : lzoNeedsExt s.lzo.st t = true) :
    lzoSite s = (.lzoBody, t :: s.cmd.input.drop s.lzo.ip) := by
  have hbyte : s.lzo.t.setWidth 8 = t := by rw [ht]; simp
  rw [lzoSite, lzoReadSt_of_ne_start (ne_start_of_mem hst), hbyte, Option.isSome_iff_ne_none.2 hext, hneeds]
  rfl

theorem lzoSite_end (hext : s.lzo.ext = none) (hend : s.cmd.input.length ≤ s.lzo.ip) :
    lzoSite s = (.lzoToken (lzoReadSt s.lzo.st), []) := by
  simp [lzoSite, hext, List.drop_eq_nil_of_le hend]

/-- With no extension waiting, the control byte and the state choose the place. -/
theorem lzoSite_control (hext : s.lzo.ext = none) (ht : s.cmd.input[s.lzo.ip]? = some t) :
    lzoSite s =
      if s.lzo.st = .start ∧ 17 < t.toNat then (.lzoFirst, t :: s.cmd.input.drop (s.lzo.ip + 1))
      else if lzoNeedsExt (lzoReadSt s.lzo.st) t then (.lzoExt, s.cmd.input.drop (s.lzo.ip + 1))
      else (.lzoToken (lzoReadSt s.lzo.st), t :: s.cmd.input.drop (s.lzo.ip + 1)) := by
  obtain ⟨hip, rfl⟩ := List.getElem?_eq_some_iff.1 ht
  simp only [lzoSite, hext, Option.isSome_none, Bool.false_and, Bool.false_eq_true, if_false,
    List.drop_eq_getElem_cons hip]

theorem lzoSite_first (hext : s.lzo.ext = none) (ht : s.cmd.input[s.lzo.ip]? = some t) (hst : s.lzo.st = .start)
    (h17 : 17 < t.toNat) : lzoSite s = (.lzoFirst, t :: s.cmd.input.drop (s.lzo.ip + 1)) :=
  (lzoSite_control hext ht).trans (if_pos ⟨hst, h17⟩)

section
variable (hext : s.lzo.ext = none) (ht : s.cmd.input[s.lzo.ip]? = some t)
  (hst : s.lzo.st ∈ [LzoSt.outer, .afterRun, .afterShort])
include hext ht hst

theorem lzoSite_extension (hneeds : lzoNeedsExt s.lzo.st t = true) :
    lzoSite s = (.lzoExt, s.cmd.input.drop (s.lzo.ip + 1)) := by
  have hstart := ne_start_of_mem hst
  rw [lzoSite_control hext ht, if_neg fun h => hstart h.1, lzoReadSt_of_ne_start hstart, if_pos hneeds]

theorem lzoSite_token (hneeds : lzoNeedsExt s.lzo.st t = false) :
    lzoSite s = (.lzoToken s.lzo.st, t :: s.cmd.input.drop (s.lzo.ip + 1)) := by
  have hstart := ne_start_of_mem hst
  rw [lzoSite_control hext ht, if_neg fun h => hstart h.1, lzoReadSt_of_ne_start hstart,
    if_neg (ne_true_of_eq_false hneeds)]

end

end

/-! ### The bytes of the next row (R92–R96) -/

/-- A row made of the two bytes at `a`, the low one first. -/
theorem takeLe_word_iff (f : BitVec 16 → Instr) (inp : List Byte) (a : Nat) (i : Instr) :
    (takeLe 2 (inp.drop a)).map (fun v => f (BitVec.ofNat 16 v)) = .ok i ↔
      ∃ d0 d1, inp[a]? = some d0 ∧ inp[a + 1]? = some d1 ∧ i = f (d1 ++ d0) := by
  refine (takeLe_map_iff (w := 16) (n := 2) rfl f _ i).trans ?_
  simp only [exists_word_iff (w := 8), leBytes_append, leBytes_one, cons_prefix_drop_iff, List.nil_prefix, and_true,
    and_assoc]

/-- The class 0001HLLL by its raw distance (R96, R250). -/
theorem lzoM4Of_eq (x : BitVec 1) (l : BitVec 3) (d0 d1 : Byte) :
    lzoM4Of x l (d1 ++ d0) =
      if x.toNat * 16384 + (d1 ++ d0).toNat / 4 = 0 then .lzoEof l (d0.extractLsb' 0 2) else .lzoM4 x l (d1 ++ d0) := by
  have hlow : (d1 ++ d0).extractLsb' 0 2 = d0.extractLsb' 0 2 := BitVec.eq_of_toNat_eq (by
    simp only [toNat_append_add, toNat_field]
    omega)
  have hraw : x = 0 ∧ (d1 ++ d0).toNat < 4 ↔ x.toNat * 16384 + (d1 ++ d0).toNat / 4 = 0 := by
    rw [← BitVec.toNat_inj]
    change x.toNat = 0 ∧ _ ↔ _
    omega
  simp only [lzoM4Of, hraw, hlow]

section
variable {st : LzoSt} {t : Byte}

theorem decodeLzoToken_ge64_cut (h : 64 ≤ t.toNat) : decodeLzoToken st [t] = .error .truncated := by
  simp only [decodeLzoToken, if_pos h]

theorem decodeLzoToken_lt16_cut (h : t.toNat < 16) (hst : st ≠ .outer) : decodeLzoToken st [t] = .error .truncated := by
  rw [decodeLzoToken_lt16 h]
  cases st
  case outer => exact absurd rfl hst
  all_goals rfl

/-- A token of a control byte and one byte more. -/
theorem decodeLzoToken_byte_iff {row : Byte → Instr} (hcut : decodeLzoToken st [t] = .error .truncated)
    (hrow : ∀ d rest, decodeLzoToken st (t :: d :: rest) = .ok (row d)) (inp : List Byte) (a : Nat) (i : Instr) :
    decodeLzoToken st (t :: inp.drop a) = .ok i ↔ ∃ d, inp[a]? = some d ∧ i = row d := by
  rw [← List.head?_drop]
  cases inp.drop a with
  | nil => simp [hcut]
  | cons d rest => simp [hrow, eq_comm]

theorem lzoM3_field_ne_zero (h : 32 < t.toNat) (h' : t.toNat < 64) : t.extractLsb' 0 5 ≠ 0 := fun h0 => by
  obtain rfl := lzoM3_control_of_zero t (Nat.not_le.2 h') h.le h0
  simp at h

theorem lzoM4_field_ne_zero (h : 16 < t.toNat) (h' : t.toNat < 32) (h24 : t ≠ 0x18) :
    t.extractLsb' 0 3 ≠ 0 := fun h0 => by
  obtain rfl | heq := lzoM4_control_of_zero t (Nat.not_le.2 h') h.le h0
  · simp at h
  · exact h24 heq

theorem lzoNeedsExt_of_ge_sixtyFour (h64 : 64 ≤ t.toNat) : lzoNeedsExt st t = false := by
  refine lzoNeedsExt_eq_false ?_ ?_ ?_ ?_ <;> rintro rfl <;> simp at h64

theorem lzoNeedsExt_of_gt_sixteen (h16 : 16 < t.toNat) (h24 : t ≠ 0x18) (h32 : t ≠ 0x20) : lzoNeedsExt st t = false := by
  refine lzoNeedsExt_eq_false h32 h24 ?_ ?_ <;> rintro rfl <;> simp at h16

theorem lzoNeedsExt_of_lt_sixteen (h16 : t.toNat < 16) (h0 : t = 0 → st ≠ .outer) :
    lzoNeedsExt st t = false := by
  refine lzoNeedsExt_eq_false ?_ ?_ ?_ h0 <;> rintro rfl <;> simp at h16

end

/-! ### The next fetch -/

section
variable {s : State} (hs : s.starting = false) (hop : s.cmd.op = 0x11)
include hs hop

/-- A started LZO1X command reads in the places of its engine. -/
theorem fetchSite_of_lzoCode : fetchSite s = lzoSite s := fetchSite_lzo hs (by rw [hop]; rfl)

/-- A started LZO1X command fetches what the bytes of its place decode to. -/
theorem fetch_lzo_iff {c : DecodeCtx} {bs : List Byte} (hsite : lzoSite s = (c, bs)) (i : Instr) :
    fetch s = .instr i ↔ decode c bs = .ok i := by
  rw [fetch_eq_instr_iff, fetchSite_of_lzoCode hs hop, hsite]

section
variable {t : Byte} (hext : s.lzo.ext = none) (ht : s.cmd.input[s.lzo.ip]? = some t)
include hext ht

theorem fetch_lzoFirstLit (hst : s.lzo.st = .start) (h17 : 17 < t.toNat) : fetch s = .instr (.lzoFirstLit t) :=
  (fetch_lzo_iff hs hop (lzoSite_first hext ht hst h17) _).2 (if_pos h17)

section
variable (hst : s.lzo.st ∈ [LzoSt.outer, .afterRun, .afterShort]) (i : Instr)
include hst

/-- A token without extension: its control byte and the bytes after it. -/
theorem fetch_lzoToken_iff (hneeds : lzoNeedsExt s.lzo.st t = false) :
    fetch s = .instr i ↔ decodeLzoToken s.lzo.st (t :: s.cmd.input.drop (s.lzo.ip + 1)) = .ok i :=
  fetch_lzo_iff hs hop (lzoSite_token hext ht hst hneeds) i

theorem fetch_lzoM2_iff (h64 : 64 ≤ t.toNat) :
    fetch s = .instr i ↔ ∃ h, s.cmd.input[s.lzo.ip + 1]? = some h ∧
      i = .lzoM2 (t.extractLsb' 5 3) (t.extractLsb' 2 3) (t.extractLsb' 0 2) h := by
  exact (fetch_lzoToken_iff hs hop hext ht hst i (lzoNeedsExt_of_ge_sixtyFour h64)).trans
    (decodeLzoToken_byte_iff (decodeLzoToken_ge64_cut h64) (fun d _ => decodeLzoToken_ge64 h64 d) _ _ i)

theorem fetch_lzoM3_iff (h32 : 32 < t.toNat) (h64 : t.toNat < 64) :
    fetch s = .instr i ↔ ∃ d0 d1, s.cmd.input[s.lzo.ip + 1]? = some d0 ∧ s.cmd.input[s.lzo.ip + 2]? = some d1 ∧
      i = .lzoM3 (t.extractLsb' 0 5) (d1 ++ d0) := by
  have hneeds : lzoNeedsExt s.lzo.st t = false :=
    lzoNeedsExt_of_gt_sixteen (by omega) (by rintro rfl; simp at h32) (by rintro rfl; simp at h32)
  rw [fetch_lzoToken_iff hs hop hext ht hst i hneeds, decodeLzoToken_ge32 h32.le h64 (lzoM3_field_ne_zero h32 h64)]
  exact takeLe_word_iff (.lzoM3 (t.extractLsb' 0 5)) _ _ i

theorem fetch_lzoM4_iff (h16 : 16 < t.toNat) (h32 : t.toNat < 32) (h24 : t ≠ 0x18) :
    fetch s = .instr i ↔ ∃ d0 d1, s.cmd.input[s.lzo.ip + 1]? = some d0 ∧ s.cmd.input[s.lzo.ip + 2]? = some d1 ∧
      i = if t.toNat / 8 % 2 * 16384 + (d1 ++ d0).toNat / 4 = 0 then .lzoEof (t.extractLsb' 0 3) (d0.extractLsb' 0 2)
        else .lzoM4 (t.extractLsb' 3 1) (t.extractLsb' 0 3) (d1 ++ d0) := by
  have hneeds : lzoNeedsExt s.lzo.st t = false := lzoNeedsExt_of_gt_sixteen h16 h24 (by rintro rfl; simp at h32)
  have hraw : (t.extractLsb' 3 1).toNat = t.toNat / 8 % 2 := toNat_field t 3 1
  rw [fetch_lzoToken_iff hs hop hext ht hst i hneeds,
    decodeLzoToken_ge16 h16.le h32 (lzoM4_field_ne_zero h16 h32 h24), takeLe_word_iff]
  simp only [lzoM4Of_eq, hraw]

/-- A length extension: its chain of zero bytes after the control byte, and the byte after them. -/
theorem fetch_lzoExt_iff (hneeds : lzoNeedsExt s.lzo.st t = true) :
    fetch s = .instr i ↔ ∃ n v, (∀ a, s.lzo.ip < a → a < s.lzo.ip + 1 + n → s.cmd.input[a]? = some 0) ∧
      s.cmd.input[s.lzo.ip + 1 + n]? = some v ∧ v ≠ 0 ∧ i = .lzoExt n v := by
  rw [fetch_lzo_iff hs hop (lzoSite_extension hext ht hst hneeds), decode, decodeChain_iff]
  simp only [chain_prefix_drop_iff, and_assoc]
  rfl

end

theorem fetch_lzoLit (hst : s.lzo.st = .outer) (h0 : t ≠ 0) (h16 : t.toNat < 16) :
    fetch s = .instr (.lzoLit (t.extractLsb' 0 4)) := by
  have hneeds : lzoNeedsExt s.lzo.st t = false := lzoNeedsExt_of_lt_sixteen h16 (absurd · h0)
  rw [fetch_lzoToken_iff hs hop hext ht (by simp [hst]) _ hneeds, hst]
  exact decodeLzoToken_outer_lt16 h16 h0

theorem fetch_lzoM1Far_iff (hst : s.lzo.st = .afterRun) (h16 : t.toNat < 16) (i : Instr) :
    fetch s = .instr i ↔ ∃ h, s.cmd.input[s.lzo.ip + 1]? = some h ∧
      i = .lzoM1Far (t.extractLsb' 2 2) (t.extractLsb' 0 2) h := by
  have hneeds : lzoNeedsExt s.lzo.st t = false := lzoNeedsExt_of_lt_sixteen h16 fun _ => by simp [hst]
  rw [fetch_lzoToken_iff hs hop hext ht (by simp [hst]) _ hneeds, hst]
  exact decodeLzoToken_byte_iff (decodeLzoToken_lt16_cut h16 (by simp))
    (fun d _ => decodeLzoToken_afterRun_lt16 h16 d) _ _ i

theorem fetch_lzoM1Near_iff (hst : s.lzo.st = .afterShort) (h16 : t.toNat < 16) (i : Instr) :
    fetch s = .instr i ↔ ∃ h, s.cmd.input[s.lzo.ip + 1]? = some h ∧
      i = .lzoM1Near (t.extractLsb' 2 2) (t.extractLsb' 0 2) h := by
  have hneeds : lzoNeedsExt s.lzo.st t = false := lzoNeedsExt_of_lt_sixteen h16 fun _ => by simp [hst]
  rw [fetch_lzoToken_iff hs hop hext ht (by simp [hst]) _ hneeds, hst]
  exact decodeLzoToken_byte_iff (decodeLzoToken_lt16_cut h16 (by simp))
    (fun d _ => decodeLzoToken_afterShort_lt16 h16 d) _ _ i

end

/-- A token whose length extension has been read: the control byte kept in `t` and the bytes at `ip`. -/
theorem fetch_lzoBody_iff (hext : s.lzo.ext ≠ none) (hst : s.lzo.st ∈ [LzoSt.outer, .afterRun, .afterShort]) {t : Byte}
    (ht : s.lzo.t = t.setWidth 32) (hneeds : lzoNeedsExt s.lzo.st t = true) (i : Instr) :
    fetch s = .instr i ↔ decodeLzoBody (t :: s.cmd.input.drop s.lzo.ip) = .ok i :=
  fetch_lzo_iff hs hop (lzoSite_body hext hst ht hneeds) i

end

/-- Settles O43: the place of the next row by control byte and state, and the row that the bytes there decode to. -/
theorem lzoNextRowFollowsTheControlByte : Obligations.LzoNextRowFollowsTheControlByte := by
  intro s _ hs hop inp ip threeStates
  refine ⟨fun t hext ht => ?_, fun hext hst => ?_⟩
  · exact ⟨fetch_lzoFirstLit hs hop hext ht, fun hst h64 i => fetch_lzoM2_iff hs hop hext ht hst i h64,
      fun hst h32 h64 i => fetch_lzoM3_iff hs hop hext ht hst i h32 h64,
      fun hst h16 h32 h24 i => fetch_lzoM4_iff hs hop hext ht hst i h16 h32 h24, fetch_lzoLit hs hop hext ht,
      fetch_lzoM1Far_iff hs hop hext ht, fetch_lzoM1Near_iff hs hop hext ht,
      fun hst hneeds i => fetch_lzoExt_iff hs hop hext ht hst i ((lzoNeedsExt_iff _ t).2 hneeds)⟩
  · have hbody {t : Byte} := fetch_lzoBody_iff hs hop hext hst (t := t)
    refine ⟨fun ht houter => ?_, fun ht i => ?_, fun ht i => ?_, fun ht i => ?_⟩
    · exact (hbody (t := 0x00) ht ((lzoNeedsExt_iff _ _).2 (by simp [houter])) _).2 rfl
    · exact (hbody (t := 0x20) ht ((lzoNeedsExt_iff _ _).2 (by simp)) i).trans (takeLe_word_iff (.lzoM3 0) inp ip i)
    · refine (hbody (t := 0x10) ht ((lzoNeedsExt_iff _ _).2 (by simp)) i).trans
        ((takeLe_word_iff (lzoM4Of 0 0) inp ip i).trans ?_)
      simp [lzoM4Of_eq]
    · refine (hbody (t := 0x18) ht ((lzoNeedsExt_iff _ _).2 (by simp)) i).trans
        ((takeLe_word_iff (lzoM4Of 1 0) inp ip i).trans ?_)
      simp [lzoM4Of_eq]

/-! ### Reads past the end of IN (R242, R243, R313) -/

theorem rejectFailure_lzo {c : DecodeCtx} (hc : placeEngine c = some .lzo) (s : State) :
    rejectFailure s c .truncated = ⟨.inputTruncated, s.cmd.input.length⟩ := by
  refine if_neg ?_
  rintro (rfl | rfl) <;> simp [placeEngine] at hc

/-- A row of a started LZO1X command whose bytes end before it does. -/
theorem step_lzo_truncated {s : State} {c : DecodeCtx} {bs : List Byte} (hb : s.status = .busy) (hs : s.starting = false)
    (hop : s.cmd.op = 0x11) (hsite : lzoSite s = (c, bs)) (hcut : decode c bs = .error .truncated) :
    step s = .next (raiseFail ⟨.inputTruncated, s.cmd.input.length⟩ s) := by
  have hfetch : fetchSite s = (c, bs) := (fetchSite_of_lzoCode hs hop).trans hsite
  have hreject : decode (fetchSite s).1 (fetchSite s).2 = .error .truncated := by rw [hfetch]; exact hcut
  have hplace : placeEngine c = some .lzo := by simpa only [hsite] using lzoSite_engine s
  rw [step_of_reject hb hreject, hfetch, rejectFailure_lzo hplace]

/-- Bytes cut before the end of a two-byte word. -/
theorem length_drop_lt {inp : List Byte} {a n : Nat} (hn : 0 < n) (h : inp.length < a + n) : (inp.drop a).length < n := by
  rw [List.length_drop]
  omega

theorem drop_eq_nil_of_lt_succ {inp : List Byte} {a : Nat} (h : inp.length < a + 1) : inp.drop a = [] :=
  List.drop_eq_nil_of_le (Nat.le_of_lt_succ h)

/-- Bytes that are all `x` up to the end of IN. -/
theorem forall_mem_drop {inp : List Byte} {x : Byte} {a : Nat} (h : ∀ b, a ≤ b → b < inp.length → inp[b]? = some x) :
    ∀ b ∈ inp.drop a, b = x := by
  have hall : inSlice inp a (inp.length - a) = inp.drop a := List.take_of_length_le (by rw [List.length_drop])
  rw [← hall]
  exact forall_mem_inSlice fun b hle hlt => h b hle (by omega)

section
variable {t : Byte} {rest : List Byte}

/-- The token classes with a distance word, cut inside the word (R249, R250). -/
theorem decodeLzoToken_word_cut (st : LzoSt) (h16 : 16 < t.toNat) (h64 : t.toNat < 64) (h24 : t ≠ 0x18) (h32 : t ≠ 0x20)
    (hcut : rest.length < 2) : decodeLzoToken st (t :: rest) = .error .truncated := by
  have h32' : t.toNat ≠ 32 := fun h => h32 (BitVec.eq_of_toNat_eq h)
  obtain hlt | hlt := Nat.lt_or_ge 32 t.toNat
  · rw [decodeLzoToken_ge32 hlt.le h64 (lzoM3_field_ne_zero hlt h64)]
    exact takeLe_map_of_short hcut _
  · have hlt' : t.toNat < 32 := by omega
    rw [decodeLzoToken_ge16 h16.le hlt' (lzoM4_field_ne_zero h16 hlt' h24)]
    exact takeLe_map_of_short hcut _

theorem decodeLzoBody_word_cut (ht : t = 0x10 ∨ t = 0x18 ∨ t = 0x20) (hcut : rest.length < 2) :
    decodeLzoBody (t :: rest) = .error .truncated := by
  obtain rfl | rfl | rfl := ht <;> exact takeLe_map_of_short hcut _

end

/-- Settles O49: with no byte left, with a token cut short, with a chain that reaches the end of IN, and with a distance
word cut short after an extension. -/
theorem lzoShortInputIsTruncated : Obligations.LzoShortInputIsTruncated := by
  intro s hb hs hop hst hcases
  have htruncated {c : DecodeCtx} {bs : List Byte} := step_lzo_truncated (c := c) (bs := bs) hb hs hop
  obtain ⟨hext, hend | ⟨t, ht, hcut⟩⟩ | ⟨hext, ht, hcut⟩ := hcases
  · exact htruncated (lzoSite_end hext hend) rfl
  · have hsite (hneeds : lzoNeedsExt s.lzo.st t = false) := lzoSite_token hext ht hst hneeds
    obtain ⟨h64, hlen⟩ | ⟨h16, houter, hlen⟩ | ⟨h16, h64, h24, h32, hlen⟩ | ⟨hneeds, hzeros⟩ := hcut
    · refine htruncated (hsite (lzoNeedsExt_of_ge_sixtyFour h64)) ?_
      rw [drop_eq_nil_of_lt_succ hlen]
      exact decodeLzoToken_ge64_cut h64
    · refine htruncated (hsite (lzoNeedsExt_of_lt_sixteen h16 fun _ => houter)) ?_
      rw [drop_eq_nil_of_lt_succ hlen]
      exact decodeLzoToken_lt16_cut h16 houter
    · exact htruncated (hsite (lzoNeedsExt_of_gt_sixteen h16 h24 h32))
        (decodeLzoToken_word_cut _ h16 h64 h24 h32 (length_drop_lt Nat.two_pos hlen))
    · have hneeds' : lzoNeedsExt s.lzo.st t = true := (lzoNeedsExt_iff _ t).2 (by tauto)
      exact htruncated (lzoSite_extension hext ht hst hneeds') (decodeChain_of_all _ (forall_mem_drop hzeros))
  · obtain ⟨t, ht', hword⟩ : ∃ t : Byte, (t = 0x10 ∨ t = 0x18 ∨ t = 0x20) ∧ s.lzo.t = t.setWidth 32 := by
      obtain h | h | h := ht
      · exact ⟨0x10, .inl rfl, h⟩
      · exact ⟨0x18, .inr (.inl rfl), h⟩
      · exact ⟨0x20, .inr (.inr rfl), h⟩
    have hneeds : lzoNeedsExt s.lzo.st t = true := (lzoNeedsExt_iff _ t).2 (by tauto)
    exact htruncated (lzoSite_body hext hst hword hneeds) (decodeLzoBody_word_cut ht' (length_drop_lt Nat.two_pos hcut))

end Sys2Proof.Machine
end

section
/-! PROOFS. The dictionary of an LZ4 chain and the matches that reach into it (49_lz4chain.md R286, R288, R291,
70_reset_and_hazards.md R347, R348). -/

namespace Sys2Proof.Machine

/-! ### The dictionary (R288) -/

theorem dictUpdate_eq_drop (dict ch : List Byte) :
    dictUpdate dict ch = (dict ++ ch).drop (dict.length + ch.length - 65536) := by
  rw [dictUpdate, lastBytes, List.length_append, dictMax]

theorem dictUpdate_suffix (dict ch : List Byte) : dictUpdate dict ch <:+ dict ++ ch := List.drop_suffix _ _

/-- Settles O59: the bytes dropped from DICT ++ CH lie in DICT, or are all of it and the first of CH. -/
theorem lz4DictionaryKeepsTheLastBytes : Obligations.Lz4DictionaryKeepsTheLastBytes := by
  intro dict ch
  refine ⟨dictUpdate_suffix dict ch, dictUpdate_length dict ch, fun hlong => ?_, fun hshort => ?_⟩
  · have hdict : dict.length ≤ dict.length + ch.length - 65536 := by omega
    have hch : dict.length + ch.length - 65536 - dict.length = ch.length - 65536 := by omega
    rw [dictUpdate_eq_drop, List.drop_append, List.drop_eq_nil_of_le hdict, List.nil_append, hch]
  · have hch : dict.length + ch.length - 65536 - dict.length = 0 := by omega
    rw [dictUpdate_eq_drop, List.drop_append, hch, List.drop_zero]

/-! ### Matches (R286) -/

/-- The source byte of a match is the byte `o` places back in DICT ++ CH. -/
theorem dictByte_eq (dict ch : List Byte) {o : Nat} (ho : o ≤ dict.length + ch.length) :
    dictByte dict ch o = (dict ++ ch).getD ((dict ++ ch).length - o) 0 := by
  rw [dictByte, List.length_append]
  split
  · rw [List.getD_append _ _ _ _ (by omega)]
  · have hindex : dict.length + ch.length - o - dict.length = ch.length - o := by omega
    rw [List.getD_append_right _ _ _ _ (by omega), hindex]

/-- A match copies within DICT ++ CH as if the two were one output. -/
theorem append_copyDict (dict : List Byte) {o : Nat} (n : Nat) {ch : List Byte} (ho : o ≤ dict.length + ch.length) :
    dict ++ copyDict dict o n ch = copyBack o n (dict ++ ch) := by
  induction n generalizing ch with
  | zero => rfl
  | succ n ih =>
    rw [copyDict, copyBack, ih (by rw [List.length_append]; omega), dictByte_eq dict ch ho, List.append_assoc]

/-- A match that lies in the last bytes of the output never looks at those before them. -/
theorem copyBack_append (front : List Byte) {o : Nat} (n : Nat) {out : List Byte} (ho : o ≤ out.length) :
    copyBack o n (front ++ out) = front ++ copyBack o n out := by
  induction n generalizing out with
  | zero => rfl
  | succ n ih =>
    have hindex : front.length + out.length - o - front.length = out.length - o := by omega
    rw [copyBack, copyBack, List.length_append, List.getD_append_right _ _ _ _ (by omega), hindex, List.append_assoc,
      ih (by rw [List.length_append]; omega)]

/-- Settles O60: both matches copy within DICT ++ x ++ y, of which the updated dictionary keeps the last 65536 bytes. -/
theorem lz4SplitChunksDecodeAlike : Obligations.Lz4SplitChunksDecodeAlike := by
  intro dict x y o n _ ho
  have hlen : (dictUpdate dict x).length = min 65536 (dict.length + x.length) := dictUpdate_length dict x
  have hvalid : o ≤ (dictUpdate dict x).length + y.length ↔ o ≤ dict.length + (x ++ y).length := by
    rw [hlen, List.length_append]
    omega
  refine ⟨hvalid, fun hin => ?_⟩
  have hkept : o ≤ (dictUpdate dict x ++ y).length := by
    rw [List.length_append]
    exact hvalid.2 hin
  obtain ⟨front, hfront⟩ := dictUpdate_suffix dict x
  refine List.append_cancel_left (as := dict) ?_
  calc dict ++ copyDict dict o n (x ++ y)
      = copyBack o n (front ++ (dictUpdate dict x ++ y)) := by
        rw [append_copyDict dict n hin, ← List.append_assoc, ← List.append_assoc, hfront]
    _ = front ++ (dictUpdate dict x ++ copyDict (dictUpdate dict x) o n y) := by
        rw [copyBack_append front n hkept, append_copyDict _ n (hvalid.2 hin)]
    _ = dict ++ (x ++ copyDict (dictUpdate dict x) o n y) := by
        rw [← List.append_assoc, hfront, List.append_assoc]

end Sys2Proof.Machine
end

section
/-! PROOFS. The LZ4 chain rows, each by itself: the start and the headers, the literals and the matches of a sequence, the
end of a chunk, with what they check (49_lz4chain.md R280–R290, 60_exceptions.md R315). -/

namespace Sys2Proof.Machine

/-! ### The start and the block header (R280, R281) -/

theorem exec_decompressLz4Chain (s : State) :
    exec .decompressLz4Chain s = .next (putLz4 (startCommand s) Lz4Regs.reset) := rfl

/-- Settles O50: the command's row puts the power-on registers in place, the header's row writes three of them. -/
theorem lz4StartsAndReadsItsTarget : Obligations.Lz4StartsAndReadsItsTarget := fun s =>
  ⟨⟨_, exec_decompressLz4Chain s, rfl, rfl, rfl, rfl, rfl, rfl, rfl, rfl, rfl, ⟨rfl, rfl, rfl, rfl⟩, rfl, rfl, rfl⟩,
    fun target => exec_lz4Target target s⟩

/-! ### The end of a chunk (R280, R287–R289) -/

section
variable {s : State} {declared : Nat} {e : Lz4Regs}

theorem lz4EndChunk_of_not_last (h : e.last ≠ 1) :
    lz4EndChunk declared e = .run
      { e with total := e.total ++ e.ch, dict := dictUpdate e.dict e.ch, ch := [], phase := .chunk } :=
  if_neg fun hlast => h (of_decide_eq_true hlast)

theorem lz4EndChunk_of_last (h : e.last = 1) :
    lz4EndChunk declared e = lz4Finish declared
      { e with total := e.total ++ e.ch, dict := dictUpdate e.dict e.ch, ch := [], phase := .chunk } :=
  if_pos (decide_eq_true h)

/-- A chunk that ends where its checks want it has ended as R280 and R288 say. -/
theorem settle_lz4EndChunk (h : lz4Closes s e) :
    ∃ t, settle putLz4 s (lz4EndChunk s.cmd.declaredBlockSize.toNat e) = .next t ∧ lz4ChunkEnded s t e := by
  by_cases hlast : e.last = 1
  · obtain ⟨hip, hsize⟩ := h hlast
    rw [lz4EndChunk_of_last hlast, lz4Finish, if_neg (not_not_intro hip),
      if_neg (not_not_intro (by rw [List.length_append, hsize]))]
    refine ⟨_, rfl, _, dictUpdate_suffix e.dict e.ch, dictUpdate_length e.dict e.ch, ?_⟩
    simp only [hlast, if_true]
    rfl
  · rw [lz4EndChunk_of_not_last hlast]
    refine ⟨_, rfl, _, dictUpdate_suffix e.dict e.ch, dictUpdate_length e.dict e.ch, ?_⟩
    simp only [hlast, if_false]
    rfl

theorem lz4EndChunk_misplaced (hlast : e.last = 1) (hip : e.ip ≠ declared) :
    lz4EndChunk declared e = .fail ⟨.blockLengthMismatch, e.ip⟩ := by
  rw [lz4EndChunk_of_last hlast, lz4Finish, if_pos hip]

theorem lz4EndChunk_missized (hlast : e.last = 1) (hip : e.ip = declared)
    (hsize : e.total.length + e.ch.length ≠ e.target.toNat) :
    lz4EndChunk declared e = .fail ⟨.sizeMismatch, e.ip⟩ := by
  rw [lz4EndChunk_of_last hlast, lz4Finish, if_neg (not_not_intro hip), if_pos (by rwa [List.length_append])]

/-- At the end of its payload a chunk ends. -/
theorem lz4Boundary_end (h : e.chunkEnd ≤ e.ip) : lz4Boundary declared e = lz4EndChunk declared e :=
  if_neg (Nat.not_lt.2 h)

theorem lz4Boundary_more (h : e.ip < e.chunkEnd) : lz4Boundary declared e = .run { e with phase := .seq } := if_pos h

end

/-! ### The chunk header (R282, R283) -/

section
variable {p : Params} {inp : List Byte} {declared size : Nat} {e : Lz4Regs}

theorem lz4Bounds_past (h : inp.length < e.ip + size) :
    lz4Bounds p inp declared size e = .fail ⟨.inputTruncated, inp.length⟩ := if_pos h

theorem lz4Bounds_empty (h : e.ip ≤ inp.length) (hempty : p.lz4EmptyChunkOk = false) :
    lz4Bounds p inp declared 0 e = .fail ⟨.malformedChunk, e.ip⟩ := by
  rw [lz4Bounds, Nat.add_zero, if_neg (Nat.not_lt.2 h), if_pos ⟨rfl, by simp [hempty]⟩]

/-- A payload that lies in IN begins its chunk; an allowed empty one is at its end already. -/
theorem lz4Bounds_inside (h : e.ip + size ≤ inp.length) (hempty : size = 0 → p.lz4EmptyChunkOk = true) :
    lz4Bounds p inp declared size e = lz4Boundary declared { e with chunkEnd := e.ip + size, ch := [] } := by
  rw [lz4Bounds, if_neg (Nat.not_lt.2 h), if_neg fun hno => hno.2 (hempty hno.1)]

end

theorem exec_lz4Chunk (size : BitVec 24) (last : BitVec 1) (s : State) :
    exec (.lz4Chunk size last) s = settle putLz4 s (lz4Bounds s.params s.cmd.input s.cmd.declaredBlockSize.toNat size.toNat
      { s.lz4 with ip := s.lz4.ip + 4, last := last }) := rfl

/-- The row of a chunk header whose payload lies in IN. -/
theorem exec_lz4Chunk_inside {s : State} {size : BitVec 24} (last : BitVec 1)
    (h : s.lz4.ip + 4 + size.toNat ≤ s.cmd.input.length) (hempty : size.toNat = 0 → s.params.lz4EmptyChunkOk = true) :
    exec (.lz4Chunk size last) s = settle putLz4 s (lz4Boundary s.cmd.declaredBlockSize.toNat
      { s.lz4 with ip := s.lz4.ip + 4, chunkEnd := s.lz4.ip + 4 + size.toNat, last := last, ch := [] }) :=
  congrArg (settle putLz4 s) (lz4Bounds_inside (e := { s.lz4 with ip := s.lz4.ip + 4, last := last }) h hempty)

/-- Settles O52: the first boundary of a chunk is before its first sequence, or at its end. -/
theorem lz4ChunkHeaderBeginsItsChunk : Obligations.Lz4ChunkHeaderBeginsItsChunk := by
  intro s size last hin
  refine ⟨fun hsize => ?_, ?_⟩
  · have hne : size.toNat ≠ 0 := fun h0 => hsize (BitVec.eq_of_toNat_eq h0)
    rw [exec_lz4Chunk_inside last hin (absurd · hne), lz4Boundary_more (Nat.lt_add_of_pos_right (Nat.pos_of_ne_zero hne))]
    rfl
  · rintro rfl hallowed hcloses
    rw [exec_lz4Chunk_inside last hin fun _ => hallowed, lz4Boundary_end le_rfl]
    exact settle_lz4EndChunk hcloses

/-! ### Literals (R284, R287, R290) -/

section
variable {p : Params} {inp : List Byte} {declared n : Nat} {e : Lz4Regs}

theorem lz4Check_exceeds (hx : exceeds p (e.total.length + e.ch.length)) :
    lz4Check p e = .fail ⟨.outputOverrun, e.ip⟩ := if_pos (overruns_of_exceeds hx)

theorem lz4Check_fits (hf : fits p (e.total.length + e.ch.length)) : lz4Check p e = .run e :=
  if_neg (ne_true_of_eq_false (overruns_of_fits hf))

theorem lz4Literals_past (h : e.chunkEnd < e.ip + n) :
    lz4Literals p inp declared n e = .fail ⟨.malformedChunk, e.chunkEnd⟩ := if_pos h

/-- Literals inside the chunk are copied before the output is checked. -/
theorem lz4Literals_inside (h : e.ip + n ≤ e.chunkEnd) :
    lz4Literals p inp declared n e = (lz4Check p (lz4WithLiterals inp n e)).andThen fun e' =>
      if e'.ip = e'.chunkEnd then lz4EndChunk declared e' else lz4Offset p inp declared e' := if_neg (Nat.not_lt.2 h)

theorem lz4Literals_exceed (h : e.ip + n ≤ e.chunkEnd)
    (hx : exceeds p (e.total.length + (lz4WithLiterals inp n e).ch.length)) :
    lz4Literals p inp declared n e = .fail ⟨.outputOverrun, e.ip + n⟩ := by
  rw [lz4Literals_inside h, lz4Check_exceeds hx]
  rfl

section
variable (hf : fits p (e.total.length + (lz4WithLiterals inp n e).ch.length))
include hf

theorem lz4Literals_end (h : e.ip + n = e.chunkEnd) :
    lz4Literals p inp declared n e = lz4EndChunk declared (lz4WithLiterals inp n e) := by
  rw [lz4Literals_inside h.le, lz4Check_fits hf, Turn.andThen_of_run]
  exact if_pos h

theorem lz4Literals_more (h : e.ip + n < e.chunkEnd) :
    lz4Literals p inp declared n e = lz4Offset p inp declared (lz4WithLiterals inp n e) := by
  rw [lz4Literals_inside h.le, lz4Check_fits hf, Turn.andThen_of_run]
  exact if_neg h.ne

end

/-! ### The offset (R284, R287) -/

theorem lz4Offset_cut (h : e.chunkEnd < e.ip + 2) :
    lz4Offset p inp declared e = .fail ⟨.malformedChunk, e.chunkEnd⟩ := if_pos h

/-- The two bytes of an offset, those past the end of IN counting 0. -/
theorem leNat_inSlice_two (inp : List Byte) (a : Nat) :
    leNat (inSlice inp a 2) = (inp.getD (a + 1) 0 ++ inp.getD a 0).toNat := by
  have hfirst : inp.getD a 0 = (inp.drop a).getD 0 0 := by simp
  have hsecond : inp.getD (a + 1) 0 = (inp.drop a).getD 1 0 := by simp
  rw [inSlice, hfirst, hsecond, toNat_append_add]
  obtain _ | ⟨b0, _ | ⟨b1, rest⟩⟩ := inp.drop a
  · rfl
  · simp
  · simp
    omega

/-- An offset inside the chunk is read; an extended match length is waited for, another starts the match. -/
theorem lz4Offset_inside (h : e.ip + 2 ≤ e.chunkEnd) :
    lz4Offset p inp declared e =
      if e.ml = 15 then .run { lz4WithOffset inp e with phase := .matchLen }
      else lz4Match p declared (lz4WithOffset inp e).off.toNat (e.ml.toNat + 4) (lz4WithOffset inp e) := by
  have hoff : BitVec.ofNat 16 (inp.getD (e.ip + 1) 0 ++ inp.getD e.ip 0).toNat =
      inp.getD (e.ip + 1) 0 ++ inp.getD e.ip 0 := by simp
  simp only [lz4Offset, if_neg (Nat.not_lt.2 h), leNat_inSlice_two, hoff]
  rfl

theorem lz4Offset_extended (h : e.ip + 2 ≤ e.chunkEnd) (hml : e.ml = 15) :
    lz4Offset p inp declared e = .run { lz4WithOffset inp e with phase := .matchLen } :=
  (lz4Offset_inside h).trans (if_pos hml)

theorem lz4Offset_match (h : e.ip + 2 ≤ e.chunkEnd) (hml : e.ml ≠ 15) :
    lz4Offset p inp declared e =
      lz4Match p declared (lz4WithOffset inp e).off.toNat (e.ml.toNat + 4) (lz4WithOffset inp e) :=
  (lz4Offset_inside h).trans (if_neg hml)

/-! ### Matches (R286, R290) -/

theorem lz4Match_invalid {o : Nat} (h : o = 0 ∨ e.dict.length + e.ch.length < o) :
    lz4Match p declared o n e = .fail ⟨.invalidOffset, e.tok⟩ := if_pos h

section
variable {o : Nat} (hpos : 1 ≤ o) (hin : o ≤ e.dict.length + e.ch.length)
include hpos hin

theorem lz4Match_valid :
    lz4Match p declared o n e =
      (lz4Check p { e with ch := copyDict e.dict o n e.ch }).andThen (lz4Boundary declared) :=
  if_neg (by omega)

theorem lz4Match_exceeds (hx : exceeds p (e.total.length + e.ch.length + n)) :
    lz4Match p declared o n e = .fail ⟨.outputOverrun, e.ip⟩ := by
  rw [lz4Match_valid hpos hin, lz4Check_exceeds (by rwa [copyDict_length, ← Nat.add_assoc])]
  rfl

theorem lz4Match_fits (hf : fits p (e.total.length + e.ch.length + n)) :
    lz4Match p declared o n e = lz4Boundary declared { e with ch := copyDict e.dict o n e.ch } := by
  rw [lz4Match_valid hpos hin, lz4Check_fits (by rwa [copyDict_length, ← Nat.add_assoc])]
  rfl

end

end

/-! ### The rows of a sequence (R284, R285) -/

section
variable {s : State} {i : Instr} {n : Nat} {e : Lz4Regs}

/-- The rows that copy literals: a token, or the extension that its literals wait for. -/
theorem lz4LiteralsOf_cases {e0 : Lz4Regs} (h : lz4LiteralsOf e0 i = some (n, e)) :
    (∃ ll ml, i = .lz4Seq ll ml ∧ ll ≠ 15 ∧ n = ll.toNat ∧ e = { e0 with tok := e0.ip, ml := ml, ip := e0.ip + 1 }) ∨
      ∃ ffs v, i = .lz4Ext ffs v ∧ e0.phase = .litLen ∧ n = 15 + 255 * ffs + v.toNat ∧
        e = { e0 with ip := e0.ip + ffs + 1 } := by
  unfold lz4LiteralsOf at h
  split at h
  · split at h
    · simp at h
    · rename_i ll ml hll
      obtain ⟨rfl, rfl⟩ := Prod.mk.inj (Option.some.inj h)
      exact .inl ⟨ll, ml, rfl, hll, rfl, rfl⟩
  · split at h
    · rename_i ffs v hphase
      obtain ⟨rfl, rfl⟩ := Prod.mk.inj (Option.some.inj h)
      exact .inr ⟨ffs, v, rfl, hphase, rfl, rfl⟩
    · simp at h
  · simp at h

theorem exec_lz4Seq_extended (ml : BitVec 4) (s : State) :
    exec (.lz4Seq 15 ml) s = settle putLz4 s
      (.run { s.lz4 with tok := s.lz4.ip, ml := ml, ip := s.lz4.ip + 1, phase := .litLen }) := rfl

theorem exec_lz4Literals (h : lz4LiteralsOf s.lz4 i = some (n, e)) :
    exec i s = settle putLz4 s (lz4Literals s.params s.cmd.input s.cmd.declaredBlockSize.toNat n e) := by
  obtain ⟨ll, ml, rfl, hll, rfl, rfl⟩ | ⟨ffs, v, rfl, hphase, rfl, rfl⟩ := lz4LiteralsOf_cases h
  · exact congrArg (settle putLz4 s) (if_neg hll)
  · simp only [exec, execLz4Ext, hphase, Nat.add_assoc]

/-- The match of a row follows its own literals, or is the one whose length the row extends. -/
theorem lz4MatchOf_cases {inp : List Byte} {e0 : Lz4Regs} {o : Nat} (h : lz4MatchOf inp e0 i = some (o, n, e)) :
    (∃ m e1, lz4LiteralsOf e0 i = some (m, e1) ∧ e1.ip + m + 2 ≤ e1.chunkEnd ∧ e1.ml ≠ 15 ∧
        e = lz4WithOffset inp (lz4WithLiterals inp m e1) ∧ o = e.off.toNat ∧ n = e1.ml.toNat + 4) ∨
      ∃ ffs v, i = .lz4Ext ffs v ∧ e0.phase = .matchLen ∧ o = e0.off.toNat ∧ n = 15 + 4 + 255 * ffs + v.toNat ∧
        e = { e0 with ip := e0.ip + ffs + 1 } := by
  unfold lz4MatchOf at h
  split at h
  · rename_i m e1 hlit
    split at h
    · rename_i hroom
      obtain ⟨hroom, hml⟩ := hroom
      simp only [Option.some.injEq, Prod.mk.injEq] at h
      obtain ⟨rfl, rfl, rfl⟩ := h
      exact .inl ⟨m, e1, hlit, hroom, hml, rfl, rfl, rfl⟩
    · simp at h
  · split at h
    · rename_i ffs v _
      split at h
      · rename_i hphase
        simp only [Option.some.injEq, Prod.mk.injEq] at h
        obtain ⟨rfl, rfl, rfl⟩ := h
        exact .inr ⟨ffs, v, rfl, hphase, rfl, rfl, rfl⟩
      · simp at h
    · simp at h

/-- A row comes to its match once its literals, if it has any, have passed their checks. -/
theorem exec_lz4Match {o : Nat} (h : lz4MatchOf s.cmd.input s.lz4 i = some (o, n, e))
    (hf : fits s.params (e.total.length + e.ch.length)) :
    exec i s = settle putLz4 s (lz4Match s.params s.cmd.declaredBlockSize.toNat o n e) := by
  obtain ⟨m, e1, hlit, hroom, hml, rfl, rfl, rfl⟩ | ⟨ffs, v, rfl, hphase, rfl, rfl, rfl⟩ := lz4MatchOf_cases h
  · rw [exec_lz4Literals hlit, lz4Literals_more hf (by omega),
      lz4Offset_match (e := lz4WithLiterals s.cmd.input m e1) hroom hml]
    rfl
  · simp only [exec, execLz4Ext, hphase, Nat.add_assoc]

end

/-- Settles O54: the chunk ends right after the literals, or the offset follows them. -/
theorem lz4LiteralsAreCopied : Obligations.Lz4LiteralsAreCopied := by
  intro s
  refine ⟨fun ml => exec_lz4Seq_extended ml s, fun i n e hlit hin hf => ⟨fun hend hcloses => ?_, fun hroom hml => ?_⟩⟩
  · rw [exec_lz4Literals hlit, lz4Literals_end hf hend]
    exact settle_lz4EndChunk hcloses
  · rw [exec_lz4Literals hlit, lz4Literals_more hf (by omega),
      lz4Offset_extended (e := lz4WithLiterals s.cmd.input n e) hroom hml]
    rfl

/-- Settles O55: the copy within DICT ++ CH is one from the output, and the next boundary follows it. -/
theorem lz4MatchesAreCopied : Obligations.Lz4MatchesAreCopied := by
  intro s i o n e hmatch hpos hin hf
  have hexec := exec_lz4Match hmatch (hf.mono (Nat.le_add_right _ _))
  rw [lz4Match_fits hpos hin hf] at hexec
  refine ⟨copyDict e.dict o n e.ch, ?_, fun hmore => ?_, fun hend hcloses => ?_⟩
  · rw [append_copyDict e.dict n hin]
    exact copied_copyBack o n _
  · rw [hexec, lz4Boundary_more (e := { e with ch := copyDict e.dict o n e.ch }) hmore]
    rfl
  · rw [hexec, lz4Boundary_end (e := { e with ch := copyDict e.dict o n e.ch }) hend]
    exact settle_lz4EndChunk hcloses

/-- Settles O56: the checks of the literals, of the offset and of the match, in their order. -/
theorem lz4SequenceChecks : Obligations.Lz4SequenceChecks := by
  intro s i
  refine ⟨fun n e hlit => ?_, fun o n e hmatch hf => ?_⟩
  · rw [exec_lz4Literals hlit]
    refine ⟨fun hpast => ?_, fun hin hx => ?_, fun hcut hf => ?_⟩
    · rw [lz4Literals_past hpast]
      rfl
    · rw [lz4Literals_exceed hin hx]
      rfl
    · have hoffset : e.chunkEnd < e.ip + n + 2 := by omega
      rw [lz4Literals_more hf (by omega), lz4Offset_cut (e := lz4WithLiterals s.cmd.input n e) hoffset]
      rfl
  · rw [exec_lz4Match hmatch hf]
    refine ⟨fun hinvalid => ?_, fun hpos hin hx => ?_⟩
    · rw [lz4Match_invalid hinvalid]
      rfl
    · rw [lz4Match_exceeds hpos hin hx]
      rfl

/-- Settles O57: in each of its three places the end of a last chunk makes both checks of R289. -/
theorem lz4LastChunkChecks : Obligations.Lz4LastChunkChecks := by
  intro s i e hlast hcases
  have hexec : exec i s = settle putLz4 s (lz4EndChunk s.cmd.declaredBlockSize.toNat e) := by
    obtain ⟨n, e0, hlit, rfl, hend, hf⟩ | ⟨o, n, e0, hmatch, hpos, hin, rfl, hend, hf⟩ | ⟨rfl, hallowed, hin, rfl⟩ := hcases
    · rw [exec_lz4Literals hlit, lz4Literals_end hf hend]
    · have hall : fits s.params (e0.total.length + e0.ch.length + n) := by rwa [copyDict_length, ← Nat.add_assoc] at hf
      rw [exec_lz4Match hmatch (hall.mono (Nat.le_add_right _ _)), lz4Match_fits hpos hin hall, lz4Boundary_end hend]
    · rw [exec_lz4Chunk_inside (size := 0) 1 hin fun _ => hallowed, lz4Boundary_end le_rfl]
      rfl
  rw [hexec]
  refine ⟨fun hip => ?_, fun hip hsize => ?_⟩
  · rw [lz4EndChunk_misplaced hlast hip]
    rfl
  · rw [lz4EndChunk_missized hlast hip hsize]
    rfl

end Sys2Proof.Machine
end

section
/-! PROOFS. Where a started LZ4 chain command reads its next row, from which bytes, and what happens when these are cut short
by the end of IN or of the chunk, or a chunk's flags are unknown (49_lz4chain.md R280–R287, 30_encoding.md R97–R99,
60_exceptions.md R313). -/

namespace Sys2Proof.Machine

/-! ### The place of the next row (R280, R284, R287) -/

section
variable {s : State}

theorem lz4Site_target (h : s.lz4.phase = .target) : lz4Site s = (.lz4Target, s.cmd.input.drop s.lz4.ip) := by
  rw [lz4Site, h]

theorem lz4Site_chunk (h : s.lz4.phase = .chunk) : lz4Site s = (.lz4Chunk, s.cmd.input.drop s.lz4.ip) := by
  rw [lz4Site, h]

/-- A token is read inside the chunk's payload. -/
theorem lz4Site_seq (h : s.lz4.phase = .seq) :
    lz4Site s = (.lz4Seq, inSlice s.cmd.input s.lz4.ip (s.lz4.chunkEnd - s.lz4.ip)) := by
  rw [lz4Site, h]

/-- So is a length extension, of the literals or of the match. -/
theorem lz4Site_ext (h : s.lz4.phase = .litLen ∨ s.lz4.phase = .matchLen) :
    lz4Site s = (.lz4Ext, inSlice s.cmd.input s.lz4.ip (s.lz4.chunkEnd - s.lz4.ip)) := by
  obtain h | h := h <;> rw [lz4Site, h]

end

/-! ### The bytes of the next row (R97–R99) -/

section
variable {inp : List Byte} {a : Nat}

/-- Bytes that lie in IN are the little-endian word of their value. -/
theorem exists_word_of_slice {w n : Nat} (hw : w = 8 * n) (h : a + n ≤ inp.length) :
    ∃ x : BitVec w, leBytes n x.toNat = inSlice inp a n := by
  have hlen : (inSlice inp a n).length = n := inSlice_length h
  have hlt : leNat (inSlice inp a n) < 2 ^ w := by
    have hlt := leNat_lt (inSlice inp a n)
    rwa [hlen, show 256 = 2 ^ 8 from rfl, ← Nat.pow_mul, ← hw] at hlt
  have hbytes := leBytes_leNat (inSlice inp a n)
  rw [hlen] at hbytes
  exact ⟨BitVec.ofNat w (leNat (inSlice inp a n)), by rw [BitVec.toNat_ofNat, Nat.mod_eq_of_lt hlt, hbytes]⟩

theorem inSlice_prefix (inp : List Byte) (a n : Nat) : inSlice inp a n <+: inp.drop a := List.take_prefix _ _

/-- The payload's first byte and what follows it. -/
theorem inSlice_cons {n : Nat} {t : Byte} (hn : 0 < n) (ht : inp[a]? = some t) :
    inSlice inp a n = t :: inSlice inp (a + 1) (n - 1) := by
  obtain ⟨ha, rfl⟩ := List.getElem?_eq_some_iff.1 ht
  obtain ⟨k, rfl⟩ := Nat.exists_eq_succ_of_ne_zero hn.ne'
  rw [inSlice, List.drop_eq_getElem_cons ha]
  rfl

theorem getElem?_eq_some_getD (h : a < inp.length) : inp[a]? = some (inp.getD a 0) := by
  rw [List.getElem?_eq_getElem h, List.getD_eq_getElem _ _ h]

/-- The size of a chunk header and its flag byte are its little-endian word (R98). -/
theorem leBytes_chunkWord (flags : Byte) (size : BitVec 24) :
    leBytes 4 (flags ++ size).toNat = leBytes 3 size.toNat ++ [flags] := by
  simp only [leBytes, toNat_append_add, List.cons_append, List.nil_append, List.cons.injEq, ← BitVec.toNat_inj,
    BitVec.toNat_ofNat, and_true]
  omega

/-- A chunk header that lies in IN: the three bytes of its size, and its flag byte. -/
theorem exists_chunkWord (h : a + 4 ≤ inp.length) :
    ∃ (size : BitVec 24) (rest : List Byte), leBytes 3 size.toNat = inSlice inp a 3 ∧
      inp.drop a = leBytes 4 (inp.getD (a + 3) 0 ++ size).toNat ++ rest := by
  obtain ⟨size, hsize⟩ := exists_word_of_slice (inp := inp) (a := a) (w := 24) (n := 3) rfl (by omega)
  have htake : (inp.drop a).take 4 = inSlice inp a 3 ++ [inp.getD (a + 3) 0] := by
    rw [List.take_add_one, List.getElem?_drop, getElem?_eq_some_getD (by omega)]
    rfl
  refine ⟨size, (inp.drop a).drop 4, hsize, ?_⟩
  rw [leBytes_chunkWord, hsize, ← htake, List.take_append_drop]

/-- The fields of a chunk header's word: flag bits 6:0, size, and the last-chunk flag (R98). -/
theorem chunkWord_fields (flags : Byte) (size : BitVec 24) :
    ((flags ++ size).extractLsb' 24 7 = 0 ↔ flags &&& 0x7F#8 = 0) ∧ (flags ++ size).extractLsb' 0 24 = size ∧
      ((flags ++ size).extractLsb' 31 1 = 1 ↔ 128 ≤ flags.toNat) := by
  have hmask : (flags &&& 0x7F#8).toNat = flags.toNat % 128 := Nat.and_two_pow_sub_one_eq_mod flags.toNat 7
  simp only [← BitVec.toNat_inj, toNat_field, toNat_append_add, hmask, BitVec.ofNat_eq_ofNat, BitVec.toNat_ofNat]
  omega

end

theorem decodeChunk_unknownFlags {w : BitVec 32} (h : w.extractLsb' 24 7 ≠ 0) (rest : List Byte) :
    decodeChunk (leBytes 4 w.toNat ++ rest) = .error .unknownFlags := by
  simp [decodeChunk, takeLe_leBytes, Nat.mod_eq_of_lt w.isLt, show w.extractLsb' 24 7 ≠ 0#7 from h]

theorem decodeChunk_cut {bs : List Byte} (h : bs.length < 4) : decodeChunk bs = .error .truncated := by
  rw [decodeChunk, takeLe_eq_error.2 ⟨h, rfl⟩]

/-! ### The next fetch -/

section
variable {s : State} (hs : s.starting = false) (hop : s.cmd.op = 0x12)
include hs hop

/-- A started LZ4 chain command reads in the places of its engine. -/
theorem fetchSite_of_lz4Code : fetchSite s = lz4Site s := fetchSite_lz4 hs (by rw [hop]; rfl)

/-- A started LZ4 chain command fetches what the bytes of its place decode to. -/
theorem fetch_lz4_iff {c : DecodeCtx} {bs : List Byte} (hsite : lz4Site s = (c, bs)) (i : Instr) :
    fetch s = .instr i ↔ decode c bs = .ok i := by
  rw [fetch_eq_instr_iff, fetchSite_of_lz4Code hs hop, hsite]

end

/-- Settles O51: the phase gives the place, and its bytes, cut to the payload inside a chunk, the row. -/
theorem lz4NextRowFollowsTheSequence : Obligations.Lz4NextRowFollowsTheSequence := by
  intro s _ hs hop
  have hfetch {c : DecodeCtx} {bs : List Byte} := fetch_lz4_iff (c := c) (bs := bs) hs hop
  refine ⟨fun hphase hin => ?_, fun hphase hin hflags => ?_, fun t hphase hin ht => ?_,
    fun n v hphase hchain hv hne hin => ?_⟩
  · obtain ⟨target, htarget⟩ := exists_word_of_slice (w := 32) rfl hin
    refine ⟨target, (hfetch (lz4Site_target hphase) _).2 ?_, htarget⟩
    exact (takeLe_map_iff (w := 32) (n := 4) rfl .lz4Target _ _).2 ⟨target, htarget ▸ inSlice_prefix _ _ _, rfl⟩
  · obtain ⟨size, rest, hsize, hbytes⟩ := exists_chunkWord hin
    obtain ⟨hclear, hfield, hlast⟩ := chunkWord_fields (s.cmd.input.getD (s.lz4.ip + 3) 0) size
    refine ⟨size, _, (hfetch (lz4Site_chunk hphase) _).2 ?_, hsize, hlast⟩
    rw [hbytes, decode, decodeChunk_word (hclear.2 hflags), hfield]
  · have hlow : BitVec.ofNat 4 (t.toNat % 16) = BitVec.ofNat 4 t.toNat := BitVec.eq_of_toNat_eq (by simp)
    refine (hfetch (lz4Site_seq hphase) _).2 ?_
    rw [inSlice_cons (Nat.sub_pos_of_lt hin) ht, decode, takeLe_one, hlow]
    rfl
  · refine (hfetch (lz4Site_ext hphase) _).2 ((decodeChain_iff _ _ _ _).2 ⟨n, v, ?_, hne, rfl⟩)
    have hlen : (List.replicate n 0xFF ++ [v]).length ≤ s.lz4.chunkEnd - s.lz4.ip := by simp; omega
    exact List.prefix_take_iff.2 ⟨(chain_prefix_drop_iff _ _ _ _ _).2 ⟨hchain, hv⟩, hlen⟩

/-! ### Headers and sequences that fail (R282, R283, R287, R313) -/

/-- Bytes that no row of a started LZ4 chain command begins with. -/
theorem step_lz4_rejected {s : State} {c : DecodeCtx} {bs : List Byte} {r : Reject} (hb : s.status = .busy)
    (hs : s.starting = false) (hop : s.cmd.op = 0x12) (hsite : lz4Site s = (c, bs)) (hreject : decode c bs = .error r) :
    step s = .next (raiseFail (rejectFailure s c r) s) := by
  have hfetch : fetchSite s = (c, bs) := (fetchSite_of_lz4Code hs hop).trans hsite
  have hreject' : decode (fetchSite s).1 (fetchSite s).2 = .error r := by rw [hfetch]; exact hreject
  rw [step_of_reject hb hreject', hfetch]

/-- Settles O53: the flags are checked when the header is read, the bounds when its row runs. -/
theorem lz4ChunkHeaderChecks : Obligations.Lz4ChunkHeaderChecks := by
  intro s
  refine ⟨fun hb hs hop hphase hin hflags => ?_, fun size last hpast => ?_, fun last hin hempty => ?_⟩
  · obtain ⟨size, rest, -, hbytes⟩ := exists_chunkWord hin
    have hset := mt (chunkWord_fields (s.cmd.input.getD (s.lz4.ip + 3) 0) size).1.1 hflags
    refine step_lz4_rejected hb hs hop (lz4Site_chunk hphase) (r := .unknownFlags) ?_
    rw [hbytes]
    exact decodeChunk_unknownFlags hset rest
  · rw [exec_lz4Chunk, lz4Bounds_past (e := { s.lz4 with ip := s.lz4.ip + 4, last := last }) hpast]
    rfl
  · exact congrArg (settle putLz4 s)
      (lz4Bounds_empty (e := { s.lz4 with ip := s.lz4.ip + 4, last := last }) hin hempty)

/-- Settles O58: a header needs four bytes of IN; a token or an extension sees the payload only, which is empty, or a chain
without its last byte. -/
theorem lz4ShortInputAndShortChunk : Obligations.Lz4ShortInputAndShortChunk := by
  intro s hb hs hop
  have hrejected {c : DecodeCtx} {bs : List Byte} := step_lz4_rejected (c := c) (bs := bs) (r := .truncated) hb hs hop
  refine ⟨fun hphase hshort => ?_, fun hphase hend => ?_, fun hphase hchain => ?_⟩
  · have hcut := length_drop_lt (Nat.succ_pos 3) hshort
    obtain hphase | hphase := hphase
    · exact hrejected (lz4Site_target hphase) (takeLe_map_of_short hcut _)
    · exact hrejected (lz4Site_chunk hphase) (decodeChunk_cut hcut)
  · have hpayload : inSlice s.cmd.input s.lz4.ip (s.lz4.chunkEnd - s.lz4.ip) = [] := by
      rw [Nat.sub_eq_zero_of_le hend]
      rfl
    obtain hphase | hphase := hphase
    · exact hrejected (hpayload ▸ lz4Site_seq hphase) rfl
    · exact hrejected (hpayload ▸ lz4Site_ext hphase) rfl
  · refine hrejected (lz4Site_ext hphase) (decodeChain_of_all _ (forall_mem_inSlice fun a hle hlt => ?_))
    exact hchain a hle (by omega)

end Sys2Proof.Machine
end
